-- ==== Sys2Proof/Word.lean ====
section
/-! DEFINITION. The words of the station: the plain types whose widths the spec's layouts give
(12_formats_and_connections.md, R184 to R186) and the index types of its collections. -/

namespace Sys2Proof

/-- A byte of a line, of a host message or of the store. -/
abbrev Byte := BitVec 8

/-- The 64 bytes of a line, byte 0 first (00_scope.md, "Line"; R184 "Data"). -/
abbrev Line := Vector Byte 64

/-- A byte mask: bit n names byte n of the line (R184 "Byte mask"). -/
abbrev Mask := BitVec 64

/-- A line index, a 22-bit field of every frame that names a line (R184), 0 to 4,194,303. -/
abbrev LineIndex := BitVec 22

/-- A station number, 0 to 15. -/
abbrev Station := Fin 16

/-- The number of a Request Tracker entry, 0 to 15 (R53). -/
abbrev Tag := Fin 16

/-- A host tag, 0 to 15 (R153). -/
abbrev HostTag := Fin 16

/-- An epoch, 0 to 7, which advances modulo 8 (R55). -/
abbrev Epoch := Fin 8

/-- A sharer set: bit s names station s (R184 "Sharer set"). -/
abbrev SharerSet := BitVec 16

/-- A span address: a 4-bit station field above a 28-bit byte offset (R185). -/
abbrev SpanAddr := BitVec 32

/-- The value of a control word (R186). -/
abbrev CtrlValue := BitVec 64

end Sys2Proof
end

