-- ==== Sys2Proof/Syntax.lean ====
section
/-! DEFINITION. The commands of the block: one constructor for each row of spec/opcode_table.json, in the
table's order, with the operands that the event of the row brings from outside the station. -/

namespace Sys2Proof

/-- The class a station contends in (R29). -/
inductive SpanClass where
  | urgent
  | plain
  deriving DecidableEq, Repr

/-- What one contender presents at the opening of a contest: its class and its station number (R25). -/
structure Contender where
  cls : SpanClass
  number : Station
  deriving DecidableEq, Repr

/-- The three wired end slots (R10 to R13). -/
structure EndSlots where
  spoil : Bool
  accept : Bool
  refuse : Bool
  deriving DecidableEq, Repr

/-- The outcome a NOTE carries (R5). -/
inductive NoteOutcome where
  | done
  | denied
  | range
  | poison
  deriving DecidableEq, Repr

/-- The setup words and the rights-table entries (3.7). -/
inductive SetupWord where
  | replyWait
  | refuseLimit
  | refuseStep
  | urgentBudget
  | cacheEnable
  | rights (peer : Station)
  deriving DecidableEq, Repr

/-- What the DRAM hands the Store Controller in the words of one line: bit w of `single` says that the check
bits of word w show a single-bit error, bit w of `multi` an error of two or more bits (R136). Only the words the
operation reads are judged. -/
structure WordErrors where
  single : BitVec 8
  multi : BitVec 8
  deriving DecidableEq, Repr

/-- The commands. Who sends each is said in INVENTORY.md under "Agents". -/
inductive Instr where
  /-- PIN_RESET_ASSERT (R38). -/
  | pinResetAssert
  /-- PIN_RESET_RELEASE (R37): the levels of SNUM3..0 and SSIZE3..0 at the release (R187). -/
  | pinResetRelease (snum ssize : BitVec 4)
  /-- HOST_REQUEST_ARRIVAL (R155): the bytes of the message on the host link (R185). -/
  | hostRequestArrival (bytes : List Byte)
  /-- REMOTE_READ_START (R160): the start of the HRQ's remote READ with this host tag. -/
  | remoteReadStart (tag : HostTag)
  /-- REMOTE_WRITE_START (R161): the start of the HRQ's remote WRITE with this host tag. -/
  | remoteWriteStart (tag : HostTag)
  /-- LOCAL_WRITE_TAKEN (R144): the taking of the HRQ's local WRITE with this host tag. -/
  | localWriteTaken (tag : HostTag)
  /-- FENCE_START (R164): the start of the HRQ's FENCE with this host tag. -/
  | fenceStart (tag : HostTag)
  /-- FENCE_ANSWER (R165). -/
  | fenceAnswer
  /-- RUN (R40), written to COMMAND by a CONTROL WRITE with this host tag. -/
  | run (tag : HostTag)
  /-- RESTART (R45), written to COMMAND by a CONTROL WRITE with this host tag. -/
  | restart (tag : HostTag)
  /-- DROP_CACHE (R90), written to COMMAND by a CONTROL WRITE with this host tag. -/
  | dropCache (tag : HostTag)
  /-- CLEAR_FAULTS (R181), written to COMMAND by a CONTROL WRITE with this host tag. -/
  | clearFaults (tag : HostTag)
  /-- SETUP_WORD_WRITE (R49): a CONTROL WRITE to a setup word or a rights-table entry. -/
  | setupWordWrite (tag : HostTag) (word : SetupWord) (value : CtrlValue)
  /-- INTERRUPT_MASK_WRITE (R179): a CONTROL WRITE to the interrupt mask. -/
  | interruptMaskWrite (tag : HostTag) (value : CtrlValue)
  /-- CONTROL_WRITE (R167): a CONTROL WRITE to any word number. -/
  | controlWrite (tag : HostTag) (word : Byte) (value : CtrlValue)
  /-- CONTEST_OPENING (R26). -/
  | contestOpening
  /-- CONTEST_DECISION (R30): what the other contenders presented. -/
  | contestDecision (others : List Contender)
  /-- FRAME_FALLS (R13): the bits of the frame as this station received them, check included (R184), and the end
  slots that the other stations assert. -/
  | frameFalls (bits : List Bool) (others : EndSlots)
  /-- ASK_STANDS (R96). -/
  | askStands (source target : Station) (tag : Tag) (epoch : Epoch) (keep : Bool) (line : LineIndex)
  /-- PUT_STANDS (R129): `confirm` holds the tag and epoch a confirmed PUT carries (R3). -/
  | putStands (source target : Station) (confirm : Option (Tag × Epoch)) (line : LineIndex) (mask : Mask) (data : Line)
  /-- GIVE_STANDS (R70). -/
  | giveStands (source target : Station) (tag : Tag) (epoch : Epoch) (mended : Bool) (data : Line)
  /-- NOTE_STANDS (R71). -/
  | noteStands (source target : Station) (tag : Tag) (epoch : Epoch) (outcome : NoteOutcome)
  /-- RECALL_STANDS (R88). -/
  | recallStands (source : Station) (line : LineIndex) (sharers : SharerSet)
  /-- START_STANDS (R7). -/
  | startStands (source : Station)
  /-- SENDER_FRAME_END (R17): the end slots the other stations assert on this station's frame. -/
  | senderFrameEnd (others : EndSlots)
  /-- BACKOFF_EXPIRY (R66). -/
  | backoffExpiry (tag : Tag)
  /-- REPLY_TIMER_EXPIRY (R72). -/
  | replyTimerExpiry (tag : Tag)
  /-- SERVE_TAKE (R98). -/
  | serveTake
  /-- STORE_GRANT (R142). -/
  | storeGrant
  /-- INIT_FILL_LINE_COMPLETE (R148). -/
  | initFillLineComplete
  /-- LOCAL_READ_COMPLETE (R147). -/
  | localReadComplete (errors : WordErrors)
  /-- DRAIN_COMPLETE (R145). -/
  | drainComplete (errors : WordErrors)
  /-- SERVE_READ_COMPLETE (R104). -/
  | serveReadComplete (errors : WordErrors)
  /-- SERVE_WRITE_COMPLETE (R106). -/
  | serveWriteComplete (errors : WordErrors)
  deriving DecidableEq, Repr

end Sys2Proof
end

