-- ==== Sys2Proof/Decode.lean ====
section
/-! DEFINITION. The command a table word spells. No row of spec/opcode_table.json gives bits (98_reader.md counts 0
rows with "fixed" or "fields"), so no word spells a command. The layouts the spec does give, of frames and of host
messages, are read in Machine/Operands.lean. -/

namespace Sys2Proof

/-- The command that the word w of nbits bits spells by the table's bits: none, since no row has any. -/
def decodeTableWord (_nbits _w : Nat) : Option Instr := none

end Sys2Proof
end

