-- ==== Sys2Proof/Config.lean ====
section
/-! DEFINITION. What the part fixes (capacities, identification, the polynomial of the frame check, the
ranges and pin-reset values of the setup words) and the one value the spec leaves open. -/

namespace Sys2Proof.Config

/-- Host requests that may wait on one ASK entry (R54). -/
def maxWaiters : Nat := 8
/-- Capacity of the Remote Line Cache (R79). -/
def cacheCapacity : Nat := 16
/-- Capacity of the Serve Queue (R95). -/
def svqCapacity : Nat := 8
/-- Places of the Reply Queue (R109). -/
def rpqPlaces : Nat := 12
/-- Places the Serve Engine reserves at a taking (R97, R98). -/
def serveReserve : Nat := 2
/-- The most ASKs taken ahead of one oldest PUT (R99). -/
def passLimit : Nat := 4
/-- Capacity of the Lent-Line Table (R117). -/
def lltCapacity : Nat := 64
/-- Capacity of the Local Write Buffer (R143). -/
def lwbCapacity : Nat := 4
/-- Capacity of the Host Request Queue (R156). -/
def hrqCapacity : Nat := 8
/-- The spoil count at which the next spoil is the fourth (R19, R21, R64). -/
def lastSpoil : Nat := 3
/-- The value at which a fault count stays (R176). -/
def countLimit : Nat := 65535

/-- Setup word ranges and pin-reset values (3.7). -/
def replyWaitMin : Nat := 20
def replyWaitMax : Nat := 2000
def replyWaitReset : Nat := 500
def refuseLimitMin : Nat := 1
def refuseLimitMax : Nat := 15
def refuseLimitReset : Nat := 8
def refuseStepMin : Nat := 1
def refuseStepMax : Nat := 255
def refuseStepReset : Nat := 16
def urgentBudgetMin : Nat := 1
def urgentBudgetMax : Nat := 8
def urgentBudgetReset : Nat := 4

/-- IDENT (R186): revision 03 hex, part code 1640 hex, vendor code 5C2E hex. -/
def identRevision : Nat := 0x03
def identPart : Nat := 0x1640
def identVendor : Nat := 0x5C2E

/-- The generator polynomial of the frame check, leading term implied (R184). -/
def crcPolynomial : BitVec 32 := 0x1EDC6F41#32
/-- The value the check register starts at (R184). -/
def crcStart : BitVec 32 := 0xFFFFFFFF#32

/-- What a byte of the store reads as when nothing has written it since the INIT fill: the fill leaves
zero words (R148). See log entry 4. -/
def unwrittenByte : Byte := 0#8

/-- FREE VALUE. The bits of the first-fault record word that "carry no meaning" (R177, R186), one fresh
word for each read that has such bits. No body: nothing can be proved of a value. See log entry 6. -/
opaque freeWord : Nat → BitVec 64

end Sys2Proof.Config
end

