-- ==== Sys2Proof/Machine/State.lean ====
section
/-! DEFINITION. The state of one HA-1640 station: every register, flag, count, collection and record the spec gives it,
block by block, with the value each takes at pin reset. -/

namespace Sys2Proof.Machine

/-- The station state (R36). -/
inductive StationState where
  | init
  | setup
  | starting
  | run
  | halted
  deriving DecidableEq, Repr

/-- What a peer may do to this station's store (3.7, R52). -/
inductive Right where
  | none
  | read
  | readWrite
  deriving DecidableEq, Repr

/-- The setup words other than the rights table (3.7). -/
structure Setup where
  replyWait : Nat
  refuseLimit : Nat
  refuseStep : Nat
  urgentBudget : Nat
  cacheEnable : Bool
  deriving DecidableEq, Repr

/-- The six kinds of frame (R1 to R7). -/
inductive Frame where
  | ask (source target : Station) (tag : Tag) (epoch : Epoch) (keep : Bool) (line : LineIndex)
  | put (source target : Station) (confirm : Option (Tag × Epoch)) (line : LineIndex) (mask : Mask) (data : Line)
  | give (source target : Station) (tag : Tag) (epoch : Epoch) (mended : Bool) (data : Line)
  | note (source target : Station) (tag : Tag) (epoch : Epoch) (outcome : NoteOutcome)
  | recall (source : Station) (line : LineIndex) (sharers : SharerSet)
  | start (source : Station)
  deriving DecidableEq, Repr

/-- A frame of the Reply Queue (R108). `writeCaused` is the mark of R123, held with a RECALL and not sent (R127);
`covered` says that the frame is in the covered set of the started FENCE (R164). -/
structure RpqItem where
  frame : Frame
  writeCaused : Bool
  covered : Bool
  deriving DecidableEq, Repr

/-- Where the frame a station offers comes from (R26). -/
inductive OfferSource where
  | tracker (tag : Tag)
  | replyQueue
  deriving DecidableEq, Repr

/-- The copy taken at the opening of a contest (R28): the candidate's source, its contents and the class presented;
`gone` says that the item has left its queue since (R23). -/
structure Offer where
  source : OfferSource
  frame : Frame
  cls : SpanClass
  gone : Bool
  deriving DecidableEq, Repr

/-- What the Span Port knows of the Span. `contest part offer`: a contest is open, `part` says that the station was
listening at its opening (R25). `sending`: from a contest this station won until its frame's end (R28). `frame received`:
another station's frame is on the Span, `received` false when this station does not receive it (R14). -/
inductive SpanPhase where
  | free
  | contest (part : Bool) (offer : Option Offer)
  | sending (offer : Offer)
  | frame (received : Bool)
  deriving DecidableEq, Repr

/-- The kinds of outbound request (R53). -/
inductive ReqKind where
  | ask
  | putPosted
  | putConfirmed
  deriving DecidableEq, Repr

/-- The states of a tracker entry (R54). -/
inductive EntryState where
  | free
  | queued
  | backoff
  | waiting
  deriving DecidableEq, Repr

/-- The sizes of a READ (R153). -/
inductive ReadSize where
  | word
  | line
  deriving DecidableEq, Repr

/-- A waiter of a tracker entry (R53): a READ with its byte offset and size, or the WRITE of a PUT-CONFIRMED. -/
inductive Waiter where
  | read (tag : HostTag) (offset : Nat) (size : ReadSize)
  | write (tag : HostTag)
  deriving DecidableEq, Repr

/-- The byte mask and data of a PUT entry (R53). -/
structure PutData where
  mask : Mask
  data : Line
  deriving DecidableEq, Repr

/-- An entry of the Request Tracker (R53). `kind`, `put` and the timers are absent as the spec says; `covered` says that
the entry is in the covered set of the started FENCE (R164). -/
structure Entry where
  epoch : Epoch
  state : EntryState
  kind : Option ReqKind
  target : Station
  line : LineIndex
  keep : Bool
  overtaken : Bool
  refusals : Nat
  spoils : Nat
  backoffTimer : Option Nat
  replyTimer : Option Nat
  put : Option PutData
  waiters : List Waiter
  covered : Bool
  deriving DecidableEq, Repr

/-- An entry of the Remote Line Cache (R79). Its LRU rank is its place in the list. -/
structure CacheLine where
  owner : Station
  line : LineIndex
  data : Line
  deriving DecidableEq, Repr

/-- What a request of the Serve Queue carries beside its requester and line (R95). -/
inductive ServeKind where
  | ask (keep : Bool) (tag : Tag) (epoch : Epoch)
  | put (confirm : Option (Tag × Epoch)) (mask : Mask) (data : Line)
  deriving DecidableEq, Repr

/-- A request of the Serve Queue (R95). -/
structure ServeReq where
  requester : Station
  line : LineIndex
  kind : ServeKind
  acceptedAt : Nat
  deriving DecidableEq, Repr

/-- The Serve Engine's operation in flight (R97). -/
structure ServeOp where
  req : ServeReq
  orphaned : Bool
  deriving DecidableEq, Repr

/-- An entry of the Lent-Line Table (R117). Its LRU rank is its place in the list. -/
structure LentLine where
  line : LineIndex
  sharers : SharerSet
  deriving DecidableEq, Repr

/-- An entry of the Local Write Buffer (R143): `confirm` holds the host tag of a confirmed entry. -/
structure LwbEntry where
  line : LineIndex
  mask : Mask
  data : Line
  confirm : Option HostTag
  draining : Bool
  deriving DecidableEq, Repr

/-- The operation the store performs (R140). A serve operation is the Serve Engine's operation in flight; a drain is
that of the oldest buffer entry; `offset` is the byte offset of the word of a size 8 read. -/
inductive StoreOp where
  | fill
  | localRead (tag : HostTag) (line : LineIndex) (offset : Nat) (size : ReadSize)
  | drain
  | serve
  deriving DecidableEq, Repr

/-- The two sides of the store arbiter (R142). -/
inductive Side where
  | localSide
  | serveEngine
  deriving DecidableEq, Repr

/-- How a word read from the store is judged (R136). -/
inductive Judgement where
  | good
  | mended
  | poisoned
  deriving DecidableEq, Repr

/-- A host request as the Host Request Queue holds it (R153, R156). -/
inductive Request where
  | read (addr : SpanAddr) (size : ReadSize) (cacheable high : Bool)
  | write (addr : SpanAddr) (mask : Mask) (data : Line) (confirm : Bool)
  | fence
  | controlRead (word : Byte)
  | controlWrite (word : Byte) (value : CtrlValue)
  deriving DecidableEq, Repr

/-- An item of the Host Request Queue (R156). -/
structure HrqItem where
  tag : HostTag
  req : Request
  started : Bool
  deriving DecidableEq, Repr

/-- A host request message as it arrives, before the form check of R155: the size of a READ may be any byte, and a first
byte may carry a kind code that names no request (R185). -/
inductive HostMsg where
  | read (tag : HostTag) (addr : SpanAddr) (size : Byte) (flags : Byte)
  | write (tag : HostTag) (addr : SpanAddr) (flags : Byte) (mask : Mask) (data : Line)
  | fence (tag : HostTag)
  | controlRead (tag : HostTag) (word : Byte)
  | controlWrite (tag : HostTag) (word : Byte) (value : CtrlValue)
  | unknown (tag : HostTag)
  deriving DecidableEq, Repr

/-- The host FAULT codes (R185). -/
inductive HostCode where
  | notReady
  | notRunning
  | absent
  | busy
  | link
  | timeout
  | abandoned
  | badRequest
  | restarted
  | halted
  | denied
  | range
  | poison
  | lostWrite
  | setupClosed
  | wrongState
  deriving DecidableEq, Repr

/-- The reasons of a REJECT (R154). -/
inductive RejectReason where
  | tagBusy
  | badRequest
  deriving DecidableEq, Repr

/-- The response messages (R154). The bytes of a DATA are sent in list order. -/
inductive Response where
  | data (tag : HostTag) (bytes : List Byte) (mended : Bool)
  | done (tag : HostTag) (adjusted : Bool)
  | fault (tag : HostTag) (code : HostCode)
  | retry (tag : HostTag)
  | reject (tag : HostTag) (reason : RejectReason)
  deriving DecidableEq, Repr

/-- The twelve fault kinds, in the order of their positions (R186). -/
inductive FaultKind where
  | mended
  | poison
  | deniedIn
  | rangeIn
  | expired
  | duplicate
  | stray
  | timeout
  | busyOut
  | absentOut
  | link
  | abandoned
  deriving DecidableEq, Repr

/-- A fault report with its optional fields (R173). -/
structure FaultReport where
  kind : FaultKind
  peer : Option Station
  line : Option LineIndex
  hostTag : Option HostTag
  deriving DecidableEq, Repr

/-- The outcome record of a sender (R17), which is also the classification of R13. -/
inductive FrameOutcome where
  | stood
  | spoiled
  | refused
  | absent
  deriving DecidableEq, Repr

/-- What a line write leaves in the store (R138, R139). -/
structure WriteResult where
  mem : List Host.Cell
  poison : List Nat
  performed : Bool
  mended : Bool
  deriving DecidableEq, Repr

/-- The state of the station. -/
structure State where
  -- the reset pin (R38)
  pinHeld : Bool
  -- Station Control (R36 to R52)
  station : StationState
  runRequested : Bool
  setup : Setup
  rights : Vector Right 16
  serveLimit : Nat
  number : Station
  sizeCode : Nat
  -- the Span Port (R16, R24 to R33)
  span : SpanPhase
  slots : EndSlots
  waived : Bool
  budget : Nat
  spoilCount : Nat
  -- the Request Tracker and the ORQ (R53, R57)
  tracker : Vector Entry 16
  orq : List Tag
  -- the Remote Line Cache, most recent first (R79, R80)
  cache : List CacheLine
  -- the Serve Queue, the Serve Engine and the Reply Queue, oldest first (R95, R97, R108)
  svq : List ServeReq
  serveOp : Option ServeOp
  reserve : Nat
  passCount : Nat
  rpq : List RpqItem
  -- the Lent-Line Table, most recent first (R117, R118)
  llt : List LentLine
  -- the store and the Store Controller (R136, R140, R142, R148)
  mem : List Host.Cell
  poison : List Nat
  storeOp : Option StoreOp
  turn : Side
  fillProgress : Nat
  -- the Local Write Buffer, oldest first (R143)
  lwb : List LwbEntry
  -- the Host Link Unit (R156, R166), and the responses it has sent, oldest first
  hrq : List HrqItem
  lostWrite : Bool
  hostTx : List Response
  -- the Fault Record (R175 to R180)
  flags : BitVec 12
  counts : Vector Nat 12
  firstFault : Option FaultReport
  irqMask : BitVec 12
  irq : Bool
  -- the 1 µs timebase (00_scope.md, "Time")
  now : Nat
  -- the model's own: the number of free values used, and the commands that wait
  freeCount : Nat
  pending : List Instr
  deriving DecidableEq, Repr

/-- Reasons a step can stop with a fault: none. Every event of the spec leads to a next state. -/
inductive Fault where
  deriving DecidableEq, Repr

/-- Reasons a step can be refused. -/
inductive Refusal where
  /-- An arm of `exec` whose command has no meaning yet, by the table's mnemonic. No arm is left so. Safe. -/
  | notModelled (mnemonic : String)
  deriving DecidableEq, Repr

/-- A line of 64 zero bytes. -/
def State.zeroLine : Line := Vector.replicate 64 0#8

/-- A FREE tracker entry at pin reset: epoch 0, target 0, line index 0 (R56). -/
def State.resetEntry : Entry :=
  { epoch := 0, state := .free, kind := none, target := 0, line := 0#22, keep := false, overtaken := false, refusals := 0,
    spoils := 0, backoffTimer := none, replyTimer := none, put := none, waiters := [], covered := false }

/-- The setup words at pin reset (3.7). -/
def State.resetSetup : Setup :=
  { replyWait := Config.replyWaitReset, refuseLimit := Config.refuseLimitReset, refuseStep := Config.refuseStepReset,
    urgentBudget := Config.urgentBudgetReset, cacheEnable := true }

/-- The station right after a pin reset whose pin has been released (R37, R38): in INIT, with the fill of line 0 granted
(R141, R142), every collection empty and every count and flag at its pin-reset value. The straps are read as station
number 0 and size code 0 (log entry 2); the values no rule gives are those of log entry 3. -/
def State.reset : State :=
  { pinHeld := false
    station := .init
    runRequested := false
    setup := State.resetSetup
    rights := Vector.replicate 16 .none
    serveLimit := Config.replyWaitReset / 2
    number := 0
    sizeCode := 0
    span := .free
    slots := { spoil := false, accept := false, refuse := false }
    waived := false
    budget := Config.urgentBudgetReset
    spoilCount := 0
    tracker := Vector.replicate 16 State.resetEntry
    orq := []
    cache := []
    svq := []
    serveOp := none
    reserve := 0
    passCount := 0
    rpq := []
    llt := []
    mem := []
    poison := []
    storeOp := some .fill
    turn := .localSide
    fillProgress := 0
    lwb := []
    hrq := []
    lostWrite := false
    hostTx := []
    flags := 0#12
    counts := Vector.replicate 12 0
    firstFault := none
    irqMask := 0#12
    irq := false
    now := 0
    freeCount := 0
    pending := [] }

end Sys2Proof.Machine
end

