-- ==== Sys2Proof/Machine/Flags.lean ====
section
/-! DEFINITION. The Fault Record: flags, counts, the first-fault record, the interrupt mask and the interrupt line
(10_faults_and_the_interrupt_line.md, R173 to R182). -/

namespace Sys2Proof.Machine

/-- The position of a fault kind in the flags word, the mask and the count words (R186). -/
def faultPosition : FaultKind → Fin 12
  | .mended => 0
  | .poison => 1
  | .deniedIn => 2
  | .rangeIn => 3
  | .expired => 4
  | .duplicate => 5
  | .stray => 6
  | .timeout => 7
  | .busyOut => 8
  | .absentOut => 9
  | .link => 10
  | .abandoned => 11

/-- The flags word with position k set. -/
def flagAt (k : Fin 12) : BitVec 12 := 1#12 <<< k.val

/-- The level of the interrupt line for given flags and mask (R180). -/
def irqLevel (flags mask : BitVec 12) : Bool := flags &&& mask != 0#12

/-- A count raised by one report; a count at 65,535 stays (R176). -/
def countUp (n : Nat) : Nat := if n < Config.countLimit then n + 1 else n

/-- The taking of a fault report: the flag is set, the count rises, an empty first-fault record is filled (R175 to R177),
and the line takes the value the condition has after it (R180). -/
def takeReport (r : FaultReport) (s : State) : State :=
  let k := faultPosition r.kind
  let flags := s.flags ||| flagAt k
  { s with
    flags := flags
    counts := s.counts.set k.val (countUp s.counts[k])
    firstFault := s.firstFault.or (some r)
    irq := irqLevel flags s.irqMask }

/-- CLEAR_FAULTS at the Fault Record (R181): the mask keeps its value. -/
def clearFaultRecord (s : State) : State :=
  { s with flags := 0#12, counts := Vector.replicate 12 0, firstFault := none, irq := false }

/-- The mask replaced (R179): positions above 11 name no kind and are stored clear. -/
def setIrqMask (value : CtrlValue) (s : State) : State :=
  let mask := value.extractLsb' 0 12
  { s with irqMask := mask, irq := irqLevel s.flags mask }

/-- Whether a written mask value has a position that names no fault kind (R179). -/
def maskAdjusted (value : CtrlValue) : Bool := value.extractLsb' 12 52 != 0#52

end Sys2Proof.Machine
end

