-- ==== Sys2Proof/Machine/Operands.lean ====
section
/-! DEFINITION. The layouts of 12_formats_and_connections.md: the bits of a frame and its check (R184), the content
conditions of R9, the bytes of host messages and responses (R185), and the parts of a span address. -/

namespace Sys2Proof.Machine

/-! ### Bits of a frame, most significant first -/

/-- The w low bits of n, most significant bit first (R184). -/
def bitsBE : Nat → Nat → List Bool
  | 0, _ => []
  | w + 1, n => n.testBit w :: bitsBE w n

/-- A w-bit number read most significant bit first, with the bits that follow it; none when bits are missing. -/
def takeBE : Nat → List Bool → Option (Nat × List Bool)
  | 0, bs => some (0, bs)
  | _ + 1, [] => none
  | w + 1, b :: bs =>
    match takeBE w bs with
    | some (n, rest) => some ((if b then 2 ^ w else 0) + n, rest)
    | none => none

/-- The bits of data: byte 0 first, each byte most significant bit first (R184, log entry 9). -/
def dataBits (d : Line) : List Bool := d.toList.flatMap fun b => bitsBE 8 b.toNat

/-- n bytes read in order, with the bits that follow them. -/
def takeBytes : Nat → List Bool → Option (List Byte × List Bool)
  | 0, bs => some ([], bs)
  | n + 1, bs =>
    match takeBE 8 bs with
    | none => none
    | some (b, rest) =>
      match takeBytes n rest with
      | some (l, rest') => some (BitVec.ofNat 8 b :: l, rest')
      | none => none

/-- A line made of the first 64 bytes of a list; a missing byte is zero. -/
def lineOfBytes (l : List Byte) : Line := Vector.ofFn fun i => l.getD i.val 0#8

/-- One bit shifted into the check register, most significant end first (R184, log entry 9). -/
def crcStep (r : BitVec 32) (b : Bool) : BitVec 32 :=
  if r.msb != b then (r <<< 1) ^^^ Config.crcPolynomial else r <<< 1

/-- The check over the bits before it, in the order sent (R184). -/
def crc (bits : List Bool) : BitVec 32 := bits.foldl crcStep Config.crcStart

/-- The code of a NOTE outcome (R184). -/
def outcomeCode : NoteOutcome → Nat
  | .done => 1
  | .denied => 2
  | .range => 3
  | .poison => 4

/-- The NOTE outcome with a code; 0 and 5 to 7 have none (R9, R184). -/
def outcomeOfCode : Nat → Option NoteOutcome
  | 1 => some .done
  | 2 => some .denied
  | 3 => some .range
  | 4 => some .poison
  | _ => none

/-- The bits of a flag (R184 "Flags"). -/
def flagBits (b : Bool) : List Bool := [b]

/-- The bits of a frame before its check, field after field (R184). -/
def frameBody : Frame → List Bool
  | .ask src tgt tag ep keep line =>
    bitsBE 4 1 ++ bitsBE 4 src.val ++ bitsBE 4 tgt.val ++ bitsBE 4 tag.val ++ bitsBE 3 ep.val ++ flagBits keep
      ++ bitsBE 22 line.toNat
  | .put src tgt none line mask data =>
    bitsBE 4 2 ++ bitsBE 4 src.val ++ bitsBE 4 tgt.val ++ flagBits false ++ bitsBE 22 line.toNat ++ bitsBE 64 mask.toNat
      ++ dataBits data
  | .put src tgt (some (tag, ep)) line mask data =>
    bitsBE 4 2 ++ bitsBE 4 src.val ++ bitsBE 4 tgt.val ++ flagBits true ++ bitsBE 4 tag.val ++ bitsBE 3 ep.val
      ++ bitsBE 22 line.toNat ++ bitsBE 64 mask.toNat ++ dataBits data
  | .give src tgt tag ep mended data =>
    bitsBE 4 3 ++ bitsBE 4 src.val ++ bitsBE 4 tgt.val ++ bitsBE 4 tag.val ++ bitsBE 3 ep.val ++ flagBits mended
      ++ dataBits data
  | .note src tgt tag ep outcome =>
    bitsBE 4 4 ++ bitsBE 4 src.val ++ bitsBE 4 tgt.val ++ bitsBE 4 tag.val ++ bitsBE 3 ep.val
      ++ bitsBE 3 (outcomeCode outcome)
  | .recall src line sharers => bitsBE 4 5 ++ bitsBE 4 src.val ++ bitsBE 22 line.toNat ++ bitsBE 16 sharers.toNat
  | .start src => bitsBE 4 6 ++ bitsBE 4 src.val

/-- The bits of a frame as it is sent, the 32-bit check after the last field (R184). -/
def frameBits (f : Frame) : List Bool := frameBody f ++ bitsBE 32 (crc (frameBody f)).toNat

/-- The number of the target of an addressed frame (R1). -/
def frameTarget : Frame → Option Station
  | .ask _ tgt _ _ _ _ => some tgt
  | .put _ tgt _ _ _ _ => some tgt
  | .give _ tgt _ _ _ _ => some tgt
  | .note _ tgt _ _ _ => some tgt
  | .recall _ _ _ => none
  | .start _ => none

/-- The source of a frame (R1). -/
def frameSource : Frame → Station
  | .ask src _ _ _ _ _ => src
  | .put src _ _ _ _ _ => src
  | .give src _ _ _ _ _ => src
  | .note src _ _ _ _ => src
  | .recall src _ _ => src
  | .start src => src

/-- Whether the kind is of the urgent class: GIVE, NOTE, RECALL and START (00_scope.md "Frame", R29). -/
def frameUrgent : Frame → Bool
  | .ask _ _ _ _ _ _ => false
  | .put _ _ _ _ _ _ => false
  | .give _ _ _ _ _ _ => true
  | .note _ _ _ _ _ => true
  | .recall _ _ _ => true
  | .start _ => true

/-- The content conditions of R9 on a frame of an assigned kind with an assigned outcome. -/
def frameConsistent : Frame → Bool
  | .ask src tgt _ _ _ _ => src != tgt
  | .put src tgt _ _ mask _ => src != tgt && mask != 0#64
  | .give src tgt _ _ _ _ => src != tgt
  | .note src tgt _ _ _ => src != tgt
  | .recall src _ sharers => sharers != 0#16 && !sharers.getLsbD src.val
  | .start _ => true

/-- A 4-bit field as a station number, tag or host tag. -/
def nibble (n : Nat) : Fin 16 := Fin.ofNat 16 n

/-- The tag and epoch that a confirmed PUT carries after its confirm flag, none when the flag is clear (R3, R184). -/
def takeConfirm (bs : List Bool) : Option (Option (Tag × Epoch) × List Bool) :=
  match bs with
  | [] => none
  | false :: bs => some (none, bs)
  | true :: bs => do
    let (tag, bs) ← takeBE 4 bs
    let (ep, bs) ← takeBE 3 bs
    return (some (nibble tag, Fin.ofNat 8 ep), bs)

/-- One flag read (R184). -/
def takeFlag : List Bool → Option (Bool × List Bool)
  | [] => none
  | b :: bs => some (b, bs)

/-- The fields of the frame whose bits before the check are bs, with what follows the last field; none for an unassigned
kind or outcome code and for missing bits (R8, R9, R184). -/
def parseBody (bs : List Bool) : Option (Frame × List Bool) := do
  let (kind, bs) ← takeBE 4 bs
  let (src, bs) ← takeBE 4 bs
  match kind with
  | 1 =>
    let (tgt, bs) ← takeBE 4 bs
    let (tag, bs) ← takeBE 4 bs
    let (ep, bs) ← takeBE 3 bs
    let (keep, bs) ← takeFlag bs
    let (line, bs) ← takeBE 22 bs
    return (.ask (nibble src) (nibble tgt) (nibble tag) (Fin.ofNat 8 ep) keep (BitVec.ofNat 22 line), bs)
  | 2 =>
    let (tgt, bs) ← takeBE 4 bs
    let (confirm, bs) ← takeConfirm bs
    let (line, bs) ← takeBE 22 bs
    let (mask, bs) ← takeBE 64 bs
    let (data, bs) ← takeBytes 64 bs
    return (.put (nibble src) (nibble tgt) confirm (BitVec.ofNat 22 line) (BitVec.ofNat 64 mask) (lineOfBytes data), bs)
  | 3 =>
    let (tgt, bs) ← takeBE 4 bs
    let (tag, bs) ← takeBE 4 bs
    let (ep, bs) ← takeBE 3 bs
    let (mended, bs) ← takeFlag bs
    let (data, bs) ← takeBytes 64 bs
    return (.give (nibble src) (nibble tgt) (nibble tag) (Fin.ofNat 8 ep) mended (lineOfBytes data), bs)
  | 4 =>
    let (tgt, bs) ← takeBE 4 bs
    let (tag, bs) ← takeBE 4 bs
    let (ep, bs) ← takeBE 3 bs
    let (code, bs) ← takeBE 3 bs
    let outcome ← outcomeOfCode code
    return (.note (nibble src) (nibble tgt) (nibble tag) (Fin.ofNat 8 ep) outcome, bs)
  | 5 =>
    let (line, bs) ← takeBE 22 bs
    let (sharers, bs) ← takeBE 16 bs
    return (.recall (nibble src) (BitVec.ofNat 22 line) (BitVec.ofNat 16 sharers), bs)
  | 6 => return (.start (nibble src), bs)
  | _ => none

/-- What a receiver makes of the bits it received: the frame, or none when its check is bad (R8) or its content is
inconsistent (R9), which every receiver treats alike. -/
def receiveFrame (bits : List Bool) : Option Frame :=
  let body := bits.take (bits.length - 32)
  match takeBE 32 (bits.drop (bits.length - 32)) with
  | some (check, []) =>
    if BitVec.ofNat 32 check = crc body then
      match parseBody body with
      | some (f, []) => if frameConsistent f then some f else none
      | _ => none
    else none
  | _ => none

/-! ### Host messages -/

/-- A multi-byte number, most significant byte first (R185). -/
def beNat (l : List Byte) : Nat := l.foldl (fun n b => n * 256 + b.toNat) 0

/-- The n bytes of a number, most significant byte first (R185). -/
def beBytes : Nat → Nat → List Byte
  | 0, _ => []
  | n + 1, v => BitVec.ofNat 8 (v / 256 ^ n) :: beBytes n v

/-- The first message of a string of bytes, with the bytes that follow it; none when a whole message is not there. A first
byte whose kind code is not 1 to 5 is a message by itself (R185). -/
def decodeMsg (bytes : List Byte) : Option (HostMsg × List Byte) :=
  match bytes with
  | [] => none
  | b :: rest =>
    let tag := nibble b.toNat
    match b.toNat / 16 with
    | 1 =>
      if rest.length < 6 then none
      else some (.read tag (BitVec.ofNat 32 (beNat (rest.take 4))) (rest.getD 4 0#8) (rest.getD 5 0#8), rest.drop 6)
    | 2 =>
      if rest.length < 77 then none
      else some (.write tag (BitVec.ofNat 32 (beNat (rest.take 4))) (rest.getD 4 0#8)
        (BitVec.ofNat 64 (beNat ((rest.drop 5).take 8))) (lineOfBytes ((rest.drop 13).take 64)), rest.drop 77)
    | 3 => some (.fence tag, rest)
    | 4 =>
      if rest.length < 1 then none else some (.controlRead tag (rest.getD 0 0#8), rest.drop 1)
    | 5 =>
      if rest.length < 9 then none
      else some (.controlWrite tag (rest.getD 0 0#8) (BitVec.ofNat 64 (beNat ((rest.drop 1).take 8))), rest.drop 9)
    | _ => some (.unknown tag, rest)

/-- The host tag of a message (R153). -/
def msgTag : HostMsg → HostTag
  | .read tag _ _ _ => tag
  | .write tag _ _ _ _ => tag
  | .fence tag => tag
  | .controlRead tag _ => tag
  | .controlWrite tag _ _ => tag
  | .unknown tag => tag

/-- The form check of R155: the request a message makes, or none for REJECT BAD_REQUEST. Flag bits the layout does not name
are ignored (R185). -/
def formCheck : HostMsg → Option Request
  | .read _ addr size flags =>
    if size = 8#8 ∧ addr.toNat % 8 = 0 then some (.read addr .word (flags.getLsbD 0) (flags.getLsbD 1))
    else if size = 64#8 ∧ addr.toNat % 64 = 0 then some (.read addr .line (flags.getLsbD 0) (flags.getLsbD 1))
    else none
  | .write _ addr flags mask data =>
    if addr.toNat % 64 = 0 ∧ mask ≠ 0#64 then some (.write addr mask data (flags.getLsbD 0)) else none
  | .fence _ => some .fence
  | .controlRead _ word => some (.controlRead word)
  | .controlWrite _ word value => some (.controlWrite word value)
  | .unknown _ => none

/-- The value of a host FAULT code (R185). -/
def hostCodeValue : HostCode → Nat
  | .notReady => 1
  | .notRunning => 2
  | .absent => 3
  | .busy => 4
  | .link => 5
  | .timeout => 6
  | .abandoned => 7
  | .badRequest => 8
  | .restarted => 9
  | .halted => 10
  | .denied => 11
  | .range => 12
  | .poison => 13
  | .lostWrite => 14
  | .setupClosed => 15
  | .wrongState => 16

/-- The first byte of a message: kind in the upper four bits, host tag in the lower four (R185). -/
def firstByte (kind : Nat) (tag : HostTag) : Byte := BitVec.ofNat 8 (kind * 16 + tag.val)

/-- The flags byte of a request, bit 0 and bit 1 (R185). -/
def flagsByte (b0 b1 : Bool) : Byte := BitVec.ofNat 8 ((if b0 then 1 else 0) + (if b1 then 2 else 0))

/-- The size byte of a READ (R185). -/
def sizeByte : ReadSize → Byte
  | .word => 8#8
  | .line => 64#8

/-- The bytes of a request message as the host sends it (R185). -/
def requestBytes (tag : HostTag) : Request → List Byte
  | .read addr size cacheable high =>
    firstByte 1 tag :: (beBytes 4 addr.toNat ++ [sizeByte size, flagsByte cacheable high])
  | .write addr mask data confirm =>
    firstByte 2 tag :: (beBytes 4 addr.toNat ++ flagsByte confirm false :: (beBytes 8 mask.toNat ++ data.toList))
  | .fence => [firstByte 3 tag]
  | .controlRead word => [firstByte 4 tag, word]
  | .controlWrite word value => firstByte 5 tag :: word :: beBytes 8 value.toNat

/-- Whether a request has the form R155 asks for: an aligned address and a mask that names a byte. -/
def requestWellFormed : Request → Bool
  | .read addr .word _ _ => addr.toNat % 8 == 0
  | .read addr .line _ _ => addr.toNat % 64 == 0
  | .write addr mask _ _ => addr.toNat % 64 == 0 && mask != 0#64
  | .fence => true
  | .controlRead _ => true
  | .controlWrite _ _ => true

/-- The bytes of a response message (R185). Of the flags byte of a DATA and of a DONE the spec names bit 0 alone; that bits 1 to 7
are sent as 0 is the model's choice (DESIGN CHOICE, log entry 26). -/
def responseBytes : Response → List Byte
  | .data tag bytes mended => firstByte 1 tag :: (if mended then 1#8 else 0#8) :: bytes
  | .done tag adjusted => [firstByte 2 tag, if adjusted then 1#8 else 0#8]
  | .fault tag code => [firstByte 3 tag, BitVec.ofNat 8 (hostCodeValue code)]
  | .retry tag => [firstByte 4 tag]
  | .reject tag .tagBusy => [firstByte 5 tag, 1#8]
  | .reject tag .badRequest => [firstByte 5 tag, 2#8]

/-! ### Span addresses -/

/-- The station field of a span address (R185). -/
def addrStation (a : SpanAddr) : Station := nibble (a.toNat / 2 ^ 28)

/-- The line index of a span address: its byte offset divided by 64 (00_scope.md "Line index"). -/
def addrLine (a : SpanAddr) : LineIndex := a.extractLsb' 6 22

/-- The byte offset within the line of a span address. -/
def addrOffset (a : SpanAddr) : Nat := a.toNat % 64

/-- The line of a READ or WRITE (R153); the other requests have none. -/
def requestLine : Request → Option (Station × LineIndex)
  | .read addr _ _ _ => some (addrStation addr, addrLine addr)
  | .write addr _ _ _ => some (addrStation addr, addrLine addr)
  | .fence => none
  | .controlRead _ => none
  | .controlWrite _ _ => none

/-- The control word number of a setup word (R186). -/
def setupWordNumber : SetupWord → Byte
  | .replyWait => 0x08#8
  | .refuseLimit => 0x09#8
  | .refuseStep => 0x0A#8
  | .urgentBudget => 0x0B#8
  | .cacheEnable => 0x0C#8
  | .rights p => BitVec.ofNat 8 (0x10 + p.val)

/-- The setup word or rights-table entry with a control word number, if it is one (R186). -/
def setupWordOf (word : Byte) : Option SetupWord :=
  if word = 0x08#8 then some .replyWait
  else if word = 0x09#8 then some .refuseLimit
  else if word = 0x0A#8 then some .refuseStep
  else if word = 0x0B#8 then some .urgentBudget
  else if word = 0x0C#8 then some .cacheEnable
  else if word.toNat / 16 = 1 then some (.rights (nibble word.toNat))
  else none

end Sys2Proof.Machine
end

