-- ==== Sys2Proof/Machine/Ops.lean ====
section
/-! DEFINITION. Named operations that several blocks share: the bytes and lines of the store, the overlay of masked bytes,
the host's responses, the places of the Reply Queue, and the passing of time. -/

namespace Sys2Proof.Machine

/-! ### The store's bytes -/

/-- The store's bytes: address and byte, in one canonical form (`Memory.wf`). -/
abbrev Memory := List Host.Cell

/-- The canonical form: addresses strictly rising, and no entry equal to what an unlisted address reads as. -/
def Memory.wf : Memory → Bool
  | [] => true
  | (a, v) :: m => v != Config.unwrittenByte && m.all (fun c => a < c.1) && Memory.wf m

/-- The byte at an address. -/
def memRead : Memory → Nat → Byte
  | [], _ => Config.unwrittenByte
  | (k, v) :: m, a => if k = a then v else memRead m a

/-- The store with the byte v at address a, in canonical form. -/
def memWrite : Memory → Nat → Byte → Memory
  | [], a, v => if v = Config.unwrittenByte then [] else [(a, v)]
  | (k, w) :: m, a, v =>
    if k < a then (k, w) :: memWrite m a v
    else if k = a then (if v = Config.unwrittenByte then m else (a, v) :: m)
    else if v = Config.unwrittenByte then (k, w) :: m
    else (a, v) :: (k, w) :: m

/-- The address of byte i of a line: 64 bytes a line (00_scope.md "Line index"). -/
def lineAddr (line : LineIndex) (i : Nat) : Nat := line.toNat * 64 + i

/-- The 64 bytes of a line. -/
def readLine (m : Memory) (line : LineIndex) : Line := Vector.ofFn fun i => memRead m (lineAddr line i.val)

/-- One masked byte of a line written. -/
def writeMaskedByte (line : LineIndex) (mask : Mask) (data : Line) (m : Memory) (i : Fin 64) : Memory :=
  if mask.getLsbD i.val then memWrite m (lineAddr line i.val) data[i] else m

/-- The bytes a mask names written into a line. -/
def writeLine (m : Memory) (line : LineIndex) (mask : Mask) (data : Line) : Memory :=
  (List.finRange 64).foldl (writeMaskedByte line mask data) m

/-- A line filled with zero bytes (R148): what an unlisted address reads as. -/
def fillLine (m : Memory) (line : Nat) : Memory := m.filter fun c => c.1 / 64 != line

/-- The masked bytes of `new` laid over `old`. -/
def overlay (mask : Mask) (new old : Line) : Line :=
  Vector.ofFn fun i => if mask.getLsbD i.val then new[i] else old[i]

/-- The bytes a READ asks for, from its byte offset within the line (R83, R70). -/
def readBytes (data : Line) (offset : Nat) : ReadSize → List Byte
  | .line => data.toList
  | .word => (data.toList.drop offset).take 8

/-! ### Station facts -/

/-- The installed line count for the effective size code (00_scope.md "Store size", R37). -/
def installedLines (code : Nat) : Nat := 16384 * 2 ^ code

/-- Whether a line index lies within the installed store. -/
def lineInstalled (s : State) (line : LineIndex) : Bool := line.toNat < installedLines s.sizeCode

/-- A station is listening in STARTING and RUN (R16). -/
def listening (s : State) : Bool := s.station == .starting || s.station == .run

/-- Setup is open in SETUP, and in INIT with the run-requested flag clear (R41). -/
def setupOpen (s : State) : Bool := s.station == .setup || (s.station == .init && !s.runRequested)

/-! ### The host link -/

/-- The host tag of a response (R154). -/
def responseTag : Response → HostTag
  | .data tag _ _ => tag
  | .done tag _ => tag
  | .fault tag _ => tag
  | .retry tag => tag
  | .reject tag _ => tag

/-- A response sent that answers no request of the HRQ: RETRY or REJECT (R154). -/
def send (r : Response) (s : State) : State := { s with hostTx := s.hostTx ++ [r] }

/-- A request of the HRQ answered: the response is sent and the request leaves the HRQ (R154, R156). -/
def respond (r : Response) (s : State) : State :=
  { s with hostTx := s.hostTx ++ [r], hrq := s.hrq.filter fun it => it.tag != responseTag r }

/-- The request with a host tag marked started (R156). -/
def markStarted (tag : HostTag) (s : State) : State :=
  { s with hrq := s.hrq.map fun it => if it.tag = tag then { it with started := true } else it }

/-! ### The Reply Queue -/

/-- The places that neither frames nor the Serve Engine's reserve take (R109). -/
def freePlaces (s : State) : Nat := Config.rpqPlaces - s.rpq.length - s.reserve

/-- A frame appended at the end of the Reply Queue; appended to an empty queue it becomes the head with spoil count 0
(R23, R108). -/
def rpqAppend (frame : Frame) (writeCaused : Bool) (s : State) : State :=
  { s with
    rpq := s.rpq ++ [{ frame := frame, writeCaused := writeCaused, covered := false }]
    spoilCount := if s.rpq.isEmpty then 0 else s.spoilCount }

/-- The head of the Reply Queue removed; the frame behind it becomes the head with spoil count 0 (R18). -/
def rpqDropHead (s : State) : State := { s with rpq := s.rpq.tail, spoilCount := 0 }

/-! ### Time -/

/-- The time left of a running timer after n microseconds. -/
def timerAfter (n : Nat) (t : Option Nat) : Option Nat := t.map (· - n)

/-- An entry's timers after n microseconds (R53). -/
def elapseEntry (n : Nat) (e : Entry) : Entry :=
  { e with backoffTimer := timerAfter n e.backoffTimer, replyTimer := timerAfter n e.replyTimer }

/-- n microseconds pass: the timebase moves on and every running timer counts down (00_scope.md "Time"). -/
def elapse (n : Nat) (s : State) : State :=
  { s with now := s.now + n, tracker := Vector.ofFn fun t => elapseEntry n s.tracker[t] }

end Sys2Proof.Machine
end

