-- ==== Sys2Proof/Machine/RemoteCache.lean ====
section
/-! DEFINITION. The Remote Line Cache (05_the_remote_line_cache.md, R79 to R94), a list from most to least recent. -/

namespace Sys2Proof.Machine

/-- Whether an entry holds a line of an owner (R79). -/
def isCopyOf (owner : Station) (line : LineIndex) (c : CacheLine) : Bool := c.owner == owner && c.line == line

/-- The entry for a line, if the cache holds one (R83). -/
def cacheFind (owner : Station) (line : LineIndex) (s : State) : Option CacheLine := s.cache.find? (isCopyOf owner line)

/-- The cache without the entry for a line (R87, R88). -/
def cacheDrop (owner : Station) (line : LineIndex) (s : State) : State :=
  { s with cache := s.cache.filter fun c => !isCopyOf owner line c }

/-- An entry made most recent: it moves to the front, the others keep their order (R80). -/
def cacheFront (c : CacheLine) (s : State) : State :=
  { s with cache := c :: s.cache.filter fun d => !isCopyOf c.owner c.line d }

/-- A host WRITE to a remote line updates the copy, if there is one, and makes it most recent (R85). -/
def cacheWrite (owner : Station) (line : LineIndex) (mask : Mask) (data : Line) (s : State) : State :=
  match cacheFind owner line s with
  | some c => cacheFront { c with data := overlay mask data c.data } s
  | none => s

/-- A line installed as the most recent entry; a full cache without the line discards its least recent entry (R86). -/
def cacheInstall (owner : Station) (line : LineIndex) (data : Line) (s : State) : State :=
  let others := s.cache.filter fun d => !isCopyOf owner line d
  { s with cache := { owner := owner, line := line, data := data } :: others.take (Config.cacheCapacity - 1) }

/-- Every line of an owner dropped (R89). -/
def cacheDropOwner (x : Station) (s : State) : State := { s with cache := s.cache.filter fun c => c.owner != x }

/-- Every entry discarded (R90). -/
def cacheEmpty (s : State) : State := { s with cache := [] }

end Sys2Proof.Machine
end

