-- ==== Sys2Proof/Machine/LentLines.lean ====
section
/-! DEFINITION. The Lent-Line Table (07_lent_lines_and_recalls.md, R117 to R135), a list from most to least recent. -/

namespace Sys2Proof.Machine

/-- The sharer set that holds one station. -/
def onlySharer (p : Station) : SharerSet := 1#16 <<< p.val

/-- The entry for a line, if the table holds one (R117). -/
def lltFind (line : LineIndex) (s : State) : Option LentLine := s.llt.find? fun e => e.line == line

/-- The table without the entry for a line. -/
def lltRemove (line : LineIndex) (s : State) : State := { s with llt := s.llt.filter fun e => e.line != line }

/-- The RECALL that carries an entry's line and sharer set (R127). -/
def recallOf (s : State) (e : LentLine) : Frame := .recall s.number e.line e.sharers

/-- The least recent entry leaves the table with an eviction RECALL (R121). -/
def lltEvict (s : State) : State :=
  match s.llt.getLast? with
  | some v => { rpqAppend (recallOf s v) false s with llt := s.llt.dropLast }
  | none => s

/-- A line lent to a peer (R120): the entry is made or added to and becomes most recent; a full table evicts first. -/
def lltLend (line : LineIndex) (p : Station) (s : State) : State :=
  match lltFind line s with
  | some e =>
    { s with llt := { e with sharers := e.sharers ||| onlySharer p } :: s.llt.filter fun d => d.line != line }
  | none =>
    let s := if s.llt.length < Config.lltCapacity then s else lltEvict s
    { s with llt := { line := line, sharers := onlySharer p } :: s.llt }

/-- A local write of a lent line is taken: its entry leaves the table with a write-caused RECALL (R123). -/
def lltRecallForWrite (line : LineIndex) (s : State) : State :=
  match lltFind line s with
  | some e => lltRemove line (rpqAppend (recallOf s e) true s)
  | none => s

/-- A standing PUT leaves the writer alone in the line's sharer set; an entry whose set becomes empty leaves the table, and
the other entries are untouched (R129). -/
def lltPutStands (line : LineIndex) (w : Station) (s : State) : State :=
  let reduce (e : LentLine) : LentLine :=
    if e.line = line then { e with sharers := e.sharers &&& onlySharer w } else e
  { s with llt := (s.llt.map reduce).filter fun e => e.line != line || e.sharers != 0#16 }

/-- A standing START removes its source from every sharer set; an entry whose set becomes empty leaves the table
(R131). -/
def lltStartStands (x : Station) (s : State) : State :=
  let reduce (e : LentLine) : LentLine := { e with sharers := e.sharers &&& ~~~onlySharer x }
  { s with llt := (s.llt.map reduce).filter fun e => e.sharers != 0#16 }

end Sys2Proof.Machine
end

