-- ==== Sys2Proof/Machine/Store.lean ====
section
/-! DEFINITION. The Store Controller (08_the_store.md, R136 to R152): the judgement of words, line reads and writes, the overlay
of the Local Write Buffer, and the taking of local writes into the buffer. -/

namespace Sys2Proof.Machine

/-! ### Words and their judgement -/

/-- The eight words of a line. -/
def allWords : List (Fin 8) := List.finRange 8

/-- The store-wide number of a word of a line, by which the poisoned words are listed. -/
def wordNumber (line : LineIndex) (w : Fin 8) : Nat := line.toNat * 8 + w.val

/-- A number put into a strictly rising list. -/
def insertNumber (n : Nat) : List Nat → List Nat
  | [] => [n]
  | k :: l => if n < k then n :: k :: l else if n = k then k :: l else k :: insertNumber n l

/-- How a word read by an operation is judged (R136): a poisoned word stays poisoned until a write replaces it whole. -/
def judgeWord (s : State) (line : LineIndex) (e : WordErrors) (w : Fin 8) : Judgement :=
  if s.poison.contains (wordNumber line w) || e.multi.getLsbD w.val then .poisoned
  else if e.single.getLsbD w.val then .mended
  else .good

/-- Whether an operation that reads these words corrects one (R137). -/
def readMends (s : State) (line : LineIndex) (e : WordErrors) (ws : List (Fin 8)) : Bool :=
  ws.any fun w => judgeWord s line e w == .mended

/-- The poisoned words of the store once these words have been read. -/
def poisonAfterRead (s : State) (line : LineIndex) (e : WordErrors) (ws : List (Fin 8)) : List Nat :=
  (ws.filter fun w => judgeWord s line e w == .poisoned).foldl (fun p w => insertNumber (wordNumber line w) p) s.poison

/-- The bytes of a word that a mask names. -/
def wordMask (mask : Mask) (w : Fin 8) : BitVec 8 := mask.extractLsb' (8 * w.val) 8

/-- A mask covers a word when it names all 8 of its bytes (00_scope.md "Byte masks"). -/
def coversWord (mask : Mask) (w : Fin 8) : Bool := wordMask mask w == 0xFF#8

/-- A mask covers a word in part when it names 1 to 7 of its bytes (R138). -/
def partWord (mask : Mask) (w : Fin 8) : Bool := wordMask mask w != 0#8 && !coversWord mask w

/-! ### Reads through the buffer -/

/-- The union of the masks of the buffer entries for a line. -/
def bufferMask (s : State) (line : LineIndex) : Mask :=
  (s.lwb.filter fun b => b.line == line).foldl (fun m b => m ||| b.mask) 0#64

/-- The bytes of every buffer entry for a line laid over data, oldest entry first (R146). -/
def bufferOverlay (s : State) (line : LineIndex) (data : Line) : Line :=
  (s.lwb.filter fun b => b.line == line).foldl (fun d b => overlay b.mask b.data d) data

/-- The line as every reader sees it: the store's bytes with the buffer's laid over them (R103, R146). -/
def lineSeen (s : State) (line : LineIndex) : Line := bufferOverlay s line (readLine s.mem line)

/-- Whether a read of these words is POISON: a poisoned word that the buffer does not cover whole (R146). -/
def readPoisoned (s : State) (line : LineIndex) (e : WordErrors) (ws : List (Fin 8)) : Bool :=
  ws.any fun w => judgeWord s line e w == .poisoned && !coversWord (bufferMask s line) w

/-! ### Line writes -/

/-- A write of masked bytes into a line (R138, R139): with a poisoned word covered in part no word is written; otherwise the
masked bytes are stored and the covered words are good. -/
def lineWrite (s : State) (line : LineIndex) (mask : Mask) (data : Line) (e : WordErrors) : WriteResult :=
  let parts := allWords.filter (partWord mask)
  let poison := poisonAfterRead s line e parts
  let mended := readMends s line e parts
  if parts.any fun w => judgeWord s line e w == .poisoned then
    { mem := s.mem, poison := poison, performed := false, mended := mended }
  else
    let repaired := (allWords.filter (coversWord mask)).map (wordNumber line)
    { mem := writeLine s.mem line mask data, poison := poison.filter fun n => !repaired.contains n,
      performed := true, mended := mended }

/-- Fault MENDED, once for an operation that corrected a word (R137). -/
def reportMended (mended : Bool) (peer : Option Station) (line : LineIndex) (tag : Option HostTag) (s : State) : State :=
  if mended then takeReport { kind := .mended, peer := peer, line := some line, hostTag := tag } s else s

/-- Fault POISON of an operation (R174). -/
def reportPoison (peer : Option Station) (line : LineIndex) (tag : Option HostTag) (s : State) : State :=
  takeReport { kind := .poison, peer := peer, line := some line, hostTag := tag } s

/-! ### The Local Write Buffer -/

/-- Whether the buffer's newest entry for a line takes a posted merge: posted and not draining (R144). -/
def canMerge (s : State) (line : LineIndex) (confirm : Bool) : Bool :=
  match (s.lwb.filter fun b => b.line == line).getLast? with
  | some b => !confirm && b.confirm.isNone && !b.draining
  | none => false

/-- Whether the buffer can receive a local write, by merging or by appending (R144). -/
def lwbReceives (s : State) (line : LineIndex) (confirm : Bool) : Bool :=
  canMerge s line confirm || s.lwb.length < Config.lwbCapacity

/-- A posted write merged into an entry (R144). -/
def mergeInto (mask : Mask) (data : Line) (b : LwbEntry) : LwbEntry :=
  { b with mask := b.mask ||| mask, data := overlay mask data b.data }

/-- The newest entry for a line changed, in a list oldest first. -/
def updateNewest (line : LineIndex) (f : LwbEntry → LwbEntry) : List LwbEntry → List LwbEntry
  | [] => []
  | b :: rest => if b.line = line ∧ !rest.any (fun c => c.line == line) then f b :: rest else b :: updateNewest line f rest

/-- A local write taken into the buffer (R144). -/
def lwbTake (line : LineIndex) (mask : Mask) (data : Line) (confirm : Option HostTag) (s : State) : State :=
  if canMerge s line confirm.isSome then { s with lwb := updateNewest line (mergeInto mask data) s.lwb }
  else
    { s with lwb := s.lwb ++ [{ line := line, mask := mask, data := data, confirm := confirm, draining := false }] }

/-- A performed serve write copies its bytes into every buffer entry for its line at the positions both masks name (R146). -/
def lwbTakePut (line : LineIndex) (mask : Mask) (data : Line) (s : State) : State :=
  { s with lwb := s.lwb.map fun b => if b.line = line then { b with data := overlay (b.mask &&& mask) data b.data } else b }

end Sys2Proof.Machine
end

