-- ==== Sys2Proof/Machine/Serve.lean ====
section
/-! DEFINITION. The Serve Queue and the Serve Engine (06_serving_peers.md, R95 to R116). -/

namespace Sys2Proof.Machine

/-- Whether a request is an ASK. -/
def isServeAsk (r : ServeReq) : Bool :=
  match r.kind with
  | .ask _ _ _ => true
  | .put _ _ _ => false

/-- An accepted request appended with the time of its standing (R96). -/
def svqAppend (requester : Station) (line : LineIndex) (kind : ServeKind) (s : State) : State :=
  { s with svq := s.svq ++ [{ requester := requester, line := line, kind := kind, acceptedAt := s.now }] }

/-- The conditions under which the Serve Engine takes a request (R98). -/
def canServe (s : State) : Bool :=
  s.serveOp.isNone && s.rpq.length + Config.serveReserve ≤ Config.rpqPlaces && !s.svq.isEmpty

/-- The oldest clear ASK, with the queue without it; `seen` holds the older requests (R99). -/
def takeClearAsk : List ServeReq → List ServeReq → Option (ServeReq × List ServeReq)
  | _, [] => none
  | seen, r :: rest =>
    if isServeAsk r && !seen.any (fun q => q.line == r.line) then some (r, seen ++ rest)
    else takeClearAsk (seen ++ [r]) rest

/-- The engine's choice: the request taken, the queue without it and the new pass count (R99). -/
def chooseServe (passCount : Nat) : List ServeReq → Option (ServeReq × List ServeReq × Nat)
  | [] => none
  | r :: rest =>
    match (if !isServeAsk r && passCount < Config.passLimit then takeClearAsk [] (r :: rest) else none) with
    | some (a, others) => some (a, others, passCount + 1)
    | none => some (r, rest, 0)

/-- The tag and epoch a request's NOTE carries; a posted PUT has none and is not answered (R101, R106). -/
def serveTag : ServeKind → Option (Tag × Epoch)
  | .ask _ tag epoch => some (tag, epoch)
  | .put confirm _ _ => confirm

/-- The NOTE that answers a request, appended if the request is answered at all (R101, R102, R105, R106). -/
def appendNote (r : ServeReq) (outcome : NoteOutcome) (s : State) : State :=
  match serveTag r.kind with
  | some (tag, epoch) => rpqAppend (.note s.number r.requester tag epoch outcome) false s
  | none => s

/-- Whether the rights of a requester allow a request (R101). -/
def rightsAllow (right : Right) (kind : ServeKind) : Bool :=
  match right, kind with
  | .readWrite, _ => true
  | .read, .ask _ _ _ => true
  | _, _ => false

/-- A fault report on a peer's request (R174). -/
def serveReport (kind : FaultKind) (r : ServeReq) : FaultReport :=
  { kind := kind, peer := some r.requester, line := some r.line, hostTag := none }

/-- The three checks on a taken request, in order (R100 to R102): the first that fails ends it and releases the reserve; a
request that passes becomes the operation in flight (R103). -/
def serveCheck (r : ServeReq) (s : State) : State :=
  if s.serveLimit < s.now - r.acceptedAt then takeReport (serveReport .expired r) s
  else if !rightsAllow s.rights[r.requester] r.kind then
    appendNote r .denied (takeReport (serveReport .deniedIn r) s)
  else if !lineInstalled s r.line then appendNote r .range (takeReport (serveReport .rangeIn r) s)
  else { s with serveOp := some { req := r, orphaned := false }, reserve := Config.serveReserve }

/-- The Serve Engine takes a request, if the conditions of R98 hold (R98, R99). The reserve taken at the taking is released in
the same event by a check that fails, so it is entered by `serveCheck` alone. -/
def serveTakeNow (s : State) : State :=
  if canServe s then
    match chooseServe s.passCount s.svq with
    | some (r, rest, pass) => serveCheck r { s with svq := rest, passCount := pass }
    | none => s
  else s

/-- The engine's operation in flight orphaned: it holds no reserve (R107). -/
def orphanServe (s : State) : State :=
  { s with serveOp := s.serveOp.map fun op => { op with orphaned := true }, reserve := 0 }

/-- The reply frames to a station. -/
def isReplyTo (x : Station) (it : RpqItem) : Bool :=
  match it.frame with
  | .give _ tgt _ _ _ _ => tgt == x
  | .note _ tgt _ _ _ => tgt == x
  | _ => false

/-- The serving side at the standing of a START from X (R110). -/
def servePurge (x : Station) (s : State) : State :=
  let headGoes := (s.rpq.head?.map (isReplyTo x)).getD false
  let s := { s with
    svq := s.svq.filter fun r => r.requester != x
    rpq := s.rpq.filter fun it => !isReplyTo x it
    spoilCount := if headGoes then 0 else s.spoilCount }
  match s.serveOp with
  | some op => if op.req.requester = x then orphanServe s else s
  | none => s

/-- The end of the operation in flight: neither an operation nor a reserve remains (R97, R104 to R107). -/
def serveEnd (s : State) : State := { s with serveOp := none, reserve := 0 }

/-- The completion of a serve read of an ASK (R104, R105, R107). The reserve is released in the same event: here first, so
that what is appended counts against the places it leaves. -/
def serveReadEnds (op : ServeOp) (keep : Bool) (tag : Tag) (epoch : Epoch) (e : WordErrors) (s : State) : State :=
  let r := op.req
  let mended := readMends s r.line e allWords
  let poisoned := readPoisoned s r.line e allWords
  let data := lineSeen s r.line
  let s := serveEnd { s with poison := poisonAfterRead s r.line e allWords, storeOp := none }
  let s := reportMended mended (some r.requester) r.line none s
  if op.orphaned then s
  else if poisoned then appendNote r .poison (reportPoison (some r.requester) r.line none s)
  else
    let s := if keep then lltLend r.line r.requester s else s
    rpqAppend (.give s.number r.requester tag epoch mended data) false s

/-- The completion of a serve write of a PUT (R106, R107), the reserve released as for a read. -/
def serveWriteEnds (op : ServeOp) (mask : Mask) (data : Line) (e : WordErrors) (s : State) : State :=
  let r := op.req
  let w := lineWrite s r.line mask data e
  let s := serveEnd { s with mem := w.mem, poison := w.poison, storeOp := none }
  let s := if w.performed then lwbTakePut r.line mask data s else s
  let s := reportMended w.mended (some r.requester) r.line none s
  if op.orphaned then s
  else if w.performed then appendNote r .done s
  else appendNote r .poison (reportPoison (some r.requester) r.line none s)

end Sys2Proof.Machine
end

