-- ==== Sys2Proof/Machine/Tracker.lean ====
section
/-! DEFINITION. The Request Tracker and the ORQ (04_the_request_tracker.md, R53 to R78): release, failure, standing, replies,
overtaking, abandonment and the tracker's part of a teardown. -/

namespace Sys2Proof.Machine

/-- The host tag of a waiter (R53). -/
def waiterTag : Waiter → HostTag
  | .read tag _ _ => tag
  | .write tag => tag

/-- The host tag of the first waiter, which fault reports name (R68, R72, R76). -/
def firstWaiterTag (e : Entry) : Option HostTag := e.waiters.head?.map waiterTag

/-- A fault report on an entry: its target, its line and the host tag of its first waiter (R174). -/
def entryReport (kind : FaultKind) (e : Entry) : FaultReport :=
  { kind := kind, peer := some e.target, line := some e.line, hostTag := firstWaiterTag e }

/-- What an entry holds once released: FREE, the epoch advanced by 1 modulo 8, target and line kept, all else clear or
absent (R53, R55). -/
def releasedEntry (e : Entry) : Entry :=
  { State.resetEntry with epoch := e.epoch + 1, target := e.target, line := e.line }

/-- The state part of a release (R55): the entry becomes FREE and its tag leaves the ORQ. -/
def releaseEntry (t : Tag) (s : State) : State :=
  { s with tracker := s.tracker.set t.val (releasedEntry s.tracker[t]), orq := s.orq.filter (· != t) }

/-- The waiters of an entry answered in waiter-list order (R55). -/
def answerWaiters (ws : List Waiter) (answer : Waiter → Response) (s : State) : State :=
  ws.foldl (fun s w => respond (answer w) s) s

/-- The answer FAULT with a code. -/
def faultAnswer (code : HostCode) (w : Waiter) : Response := .fault (waiterTag w) code

/-- Every entry changed in place. -/
def mapTracker (f : Entry → Entry) (s : State) : State :=
  { s with tracker := Vector.ofFn fun t => f s.tracker[t] }

/-- The FREE entry of lowest tag (R59). -/
def freeTag (s : State) : Option Tag := (List.finRange 16).find? fun t => s.tracker[t].state == .free

/-- The number of entries that are not FREE (R78). -/
def trackerInUse (s : State) : Nat := ((List.finRange 16).filter fun t => s.tracker[t].state != .free).length

/-- The first QUEUED entry in ORQ order with no earlier entry to the same target; `seen` holds the targets of the earlier
entries (R58). -/
def orqPick (tracker : Vector Entry 16) : List Station → List Tag → Option Tag
  | _, [] => none
  | seen, t :: rest =>
    let e := tracker[t]
    if e.state == .queued && !seen.contains e.target then some t else orqPick tracker (e.target :: seen) rest

/-- The ORQ candidate (R58). -/
def orqCandidate (s : State) : Option Tag := orqPick s.tracker [] s.orq

/-- The frame built from an entry (R1, R2, R3): none from an entry that is FREE. -/
def entryFrame (number : Station) (t : Tag) (e : Entry) : Option Frame :=
  match e.kind, e.put with
  | some .ask, _ => some (.ask number e.target t e.epoch e.keep e.line)
  | some .putPosted, some p => some (.put number e.target none e.line p.mask p.data)
  | some .putConfirmed, some p => some (.put number e.target (some (t, e.epoch)) e.line p.mask p.data)
  | _, _ => none

/-- Whether an entry is an ASK, not FREE, for a line of an owner. -/
def isAskFor (owner : Station) (line : LineIndex) (e : Entry) : Bool :=
  e.state != .free && e.kind == some .ask && e.target == owner && e.line == line

/-- The entry a READ may attach to (R60). -/
def attachable (owner : Station) (line : LineIndex) (e : Entry) : Bool :=
  isAskFor owner line e && !e.overtaken && e.waiters.length < Config.maxWaiters

/-- The tag of the entry a READ of a line may attach to, if there is one (R60). -/
def attachTag (owner : Station) (line : LineIndex) (s : State) : Option Tag :=
  (List.finRange 16).find? fun t => attachable owner line s.tracker[t]

/-- A READ joined to an entry as its last waiter; the keep flag is set by a keeping READ while the entry is QUEUED or
BACKOFF (R60, R61). -/
def attachRead (t : Tag) (w : Waiter) (keep : Bool) (s : State) : State :=
  let e := s.tracker[t]
  let e' := { e with
    waiters := e.waiters ++ [w]
    keep := e.keep || (keep && (e.state == .queued || e.state == .backoff)) }
  { s with tracker := s.tracker.set t.val e' }

/-- An entry created in a FREE tag, QUEUED, its tag appended to the ORQ (R59). -/
def createEntry (t : Tag) (kind : ReqKind) (owner : Station) (line : LineIndex) (keep : Bool) (put : Option PutData)
    (waiters : List Waiter) (s : State) : State :=
  let e := { State.resetEntry with
    epoch := s.tracker[t].epoch, state := EntryState.queued, kind := some kind, target := owner, line := line,
    keep := keep, put := put, waiters := waiters }
  { s with tracker := s.tracker.set t.val e, orq := s.orq ++ [t] }

/-- A host WRITE overtakes every ASK entry for its line (R74). -/
def overtakeByWrite (owner : Station) (line : LineIndex) (s : State) : State :=
  mapTracker (fun e => if isAskFor owner line e then { e with overtaken := true } else e) s

/-- A PUT from another station overtakes every WAITING ASK entry for its line (R73). -/
def overtakeByPut (owner : Station) (line : LineIndex) (s : State) : State :=
  mapTracker (fun e => if isAskFor owner line e && e.state == .waiting then { e with overtaken := true } else e) s

/-- The failure codes of an entry (R68). -/
def failFault : HostCode → FaultKind
  | .link => .link
  | .busy => .busyOut
  | _ => .absentOut

/-- An entry fails with a code: its waiters are answered, a posted write sets the lost-write flag, the fault is reported and
the entry is released (R68). -/
def failEntry (t : Tag) (code : HostCode) (s : State) : State :=
  let e := s.tracker[t]
  let s := answerWaiters e.waiters (faultAnswer code) s
  let s := takeReport (entryReport (failFault code) e) s
  releaseEntry t { s with lostWrite := s.lostWrite || e.kind == some .putPosted }

/-- The keep flag an ASK frame carried (R61). -/
def carriedKeep : Frame → Bool
  | .ask _ _ _ _ keep _ => keep
  | _ => false

/-- The frame of an entry stands (R62, R63): a posted PUT is released; any other request waits for its reply, the keep flag
of an ASK taking the value the frame carried. -/
def entryStands (t : Tag) (frame : Frame) (s : State) : State :=
  let e := s.tracker[t]
  if e.kind == some .putPosted then releaseEntry t s
  else
    let e' := { e with state := .waiting, replyTimer := some s.setup.replyWait, keep := carriedKeep frame }
    { s with tracker := s.tracker.set t.val e', orq := s.orq.filter (· != t) }

/-- The frame of an entry falls spoiled (R64). -/
def entrySpoiled (t : Tag) (s : State) : State :=
  let e := s.tracker[t]
  if e.spoils < Config.lastSpoil then { s with tracker := s.tracker.set t.val { e with spoils := e.spoils + 1 } }
  else failEntry t .link s

/-- The frame of an entry falls refused (R65). -/
def entryRefused (t : Tag) (s : State) : State :=
  let e := s.tracker[t]
  let n := e.refusals + 1
  if n < s.setup.refuseLimit then
    let e' := { e with
      refusals := n, spoils := 0, state := .backoff, backoffTimer := some (s.setup.refuseStep * n) }
    { s with tracker := s.tracker.set t.val e' }
  else failEntry t .busy s

/-- The outcome of its frame handed to an entry (R17, R62 to R67). -/
def entryOutcome (t : Tag) (frame : Frame) (outcome : FrameOutcome) (s : State) : State :=
  match outcome with
  | .stood => entryStands t frame s
  | .spoiled => entrySpoiled t s
  | .refused => entryRefused t s
  | .absent => failEntry t .absent s

/-- The backoff timer of an entry expires: it is QUEUED again in its ORQ place (R66). -/
def backoffExpires (t : Tag) (s : State) : State :=
  let e := s.tracker[t]
  { s with tracker := s.tracker.set t.val { e with state := .queued, backoffTimer := none } }

/-- The reply timer of an entry expires (R72). -/
def replyTimerExpires (t : Tag) (s : State) : State :=
  let e := s.tracker[t]
  releaseEntry t (takeReport (entryReport .timeout e) (answerWaiters e.waiters (faultAnswer .timeout) s))

/-- The first three conditions under which a reply matches the entry its tag names (R69). -/
def replyNames (source : Station) (epoch : Epoch) (e : Entry) : Bool :=
  e.state == .waiting && e.epoch == epoch && e.target == source

/-- Whether a NOTE's outcome can answer an entry of a kind (R69). -/
def noteFits (outcome : NoteOutcome) (kind : Option ReqKind) : Bool :=
  match outcome with
  | .done => kind == some .putConfirmed
  | .denied => kind == some .ask || kind == some .putConfirmed
  | .range => kind == some .ask || kind == some .putConfirmed
  | .poison => kind == some .ask || kind == some .putConfirmed

/-- A stray reply: fault STRAY, naming the reply's source and the line its tag's entry holds (R69). -/
def strayReply (source : Station) (t : Tag) (s : State) : State :=
  takeReport { kind := .stray, peer := some source, line := some s.tracker[t].line, hostTag := none } s

/-- The answer of a waiter by a GIVE's line (R70). A write never waits on an ASK. -/
def giveAnswer (data : Line) (mended : Bool) : Waiter → Response
  | .read tag offset size => .data tag (readBytes data offset size) mended
  | .write tag => .done tag false

/-- The answer of a waiter by a NOTE's outcome (R71). -/
def noteAnswer (outcome : NoteOutcome) (w : Waiter) : Response :=
  match outcome with
  | .done => .done (waiterTag w) false
  | .denied => .fault (waiterTag w) .denied
  | .range => .fault (waiterTag w) .range
  | .poison => .fault (waiterTag w) .poison

/-- An entry abandoned by a START from its target (R76). -/
def abandonEntry (x : Station) (s : State) (t : Tag) : State :=
  let e := s.tracker[t]
  if e.state == .waiting && e.target == x then
    releaseEntry t (takeReport (entryReport .abandoned e) (answerWaiters e.waiters (faultAnswer .abandoned) s))
  else s

/-- Every WAITING entry to X abandoned, in tag order (R76, R178). -/
def abandonAll (x : Station) (s : State) : State := (List.finRange 16).foldl (abandonEntry x) s

/-- One entry released at a teardown, its waiters answered FAULT with the outcome code (R75). -/
def teardownEntry (code : HostCode) (s : State) (t : Tag) : State :=
  let e := s.tracker[t]
  if e.state == .free then s else releaseEntry t (answerWaiters e.waiters (faultAnswer code) s)

/-- Whether any entry carries a posted PUT. -/
def anyPosted (s : State) : Bool := (List.finRange 16).any fun t => s.tracker[t].kind == some .putPosted

/-- The tracker's part of a teardown (R75): entries released in tag order, the lost-write flag set if a posted PUT was
released, the ORQ empty and every epoch 0. -/
def trackerTeardown (code : HostCode) (s : State) : State :=
  let lost := s.lostWrite || anyPosted s
  let s := (List.finRange 16).foldl (teardownEntry code) s
  { mapTracker (fun e => { e with epoch := 0 }) s with lostWrite := lost, orq := [] }

end Sys2Proof.Machine
end

