-- ==== Sys2Proof/Machine/Control.lean ====
section
/-! DEFINITION. Station Control (03_station_life.md, R36 to R52), the FENCE's answer (R164, R165), station teardown as the one
event it is (R46, R171), and the control space (R167 to R169, R186). -/

namespace Sys2Proof.Machine

/-! ### FENCE -/

/-- The started FENCE of the HRQ, by its host tag; there is at most one (R164). -/
def startedFence (s : State) : Option HostTag :=
  (s.hrq.find? fun it => it.req == .fence && it.started).map (·.tag)

/-- Whether the covered set is empty: no posted PUT entry and no write-caused RECALL of it is left in the station (R164). -/
def coveredEmpty (s : State) : Bool :=
  (List.finRange 16).all (fun t => !s.tracker[t].covered) && s.rpq.all (fun it => !it.covered)

/-- A FENCE answered by the lost-write flag, which is then clear (R165). -/
def respondFence (tag : HostTag) (s : State) : State :=
  if s.lostWrite then respond (.fault tag .lostWrite) { s with lostWrite := false } else respond (.done tag false) s

/-- The started FENCE answered if its covered set is empty (R165). -/
def answerFence (s : State) : State :=
  match startedFence s with
  | some tag => if coveredEmpty s then respondFence tag s else s
  | none => s

/-- Whether a started FENCE is due for its answer. -/
def fenceDue (s : State) : Bool := (startedFence s).isSome && coveredEmpty s

/-- The covered set recorded at a FENCE's start: every posted PUT entry and every write-caused RECALL (R164). -/
def recordCovered (s : State) : State :=
  { mapTracker (fun e => { e with covered := e.kind == some .putPosted }) s with
    rpq := s.rpq.map fun it => { it with covered := it.writeCaused } }

/-- A FENCE starts: it is answered at once when its covered set is empty (R164, R165). -/
def startFence (tag : HostTag) (s : State) : State := answerFence (markStarted tag (recordCovered s))

/-! ### Teardown and the states -/

/-- A frame offered or on the Span whose queue item leaves by a teardown (R23, R34). -/
def spanTeardown : SpanPhase → SpanPhase
  | .contest part offer => .contest part (offer.map fun o => { o with gone := true })
  | .sending o => .sending { o with gone := true }
  | .free => .free
  | .frame received => .frame received

/-- Whether a request is a READ or WRITE of a remote line (R153). -/
def isRemote (s : State) (req : Request) : Bool :=
  match requestLine req with
  | some (owner, _) => owner != s.number
  | none => false

/-- Every unstarted remote READ or WRITE answered FAULT with the outcome code, in HRQ order (R171). -/
def answerUnstartedRemote (code : HostCode) (s : State) : State :=
  (s.hrq.filter fun it => !it.started && isRemote s it.req).foldl (fun s it => respond (.fault it.tag code) s) s

/-- What teardown empties beside the tracker: the cache, the Serve Queue, the Reply Queue and the Lent-Line Table; an operation
in flight is orphaned, and the frame being sent loses its queue item (R46, R112, R133). -/
def emptySpanSide (s : State) : State :=
  orphanServe { s with
    cache := [], svq := [], passCount := 0, rpq := [], spoilCount := 0, llt := [], span := spanTeardown s.span }

/-- Station teardown with an outcome code (R46), its answers in the order of R171: the waiters of released entries, the
unstarted remote requests, the started FENCE. -/
def teardown (code : HostCode) (s : State) : State :=
  answerFence (answerUnstartedRemote code (trackerTeardown code (emptySpanSide s)))

/-- Entry to HALTED (R44): the fault has been reported, the teardown carries the code HALTED. -/
def enterHalted (s : State) : State := { teardown .halted s with station := .halted }

/-- Entry to STARTING (R42): the Reply Queue holds the START alone, and the contest state is set afresh (R33). -/
def enterStarting (s : State) : State :=
  { s with
    station := .starting
    runRequested := false
    rpq := [{ frame := .start s.number, writeCaused := false, covered := false }]
    spoilCount := 0
    waived := false
    budget := s.setup.urgentBudget }

/-- The serve limit derived from REPLY_WAIT when setup closes (R51). -/
def closeSetup (s : State) : State := { s with serveLimit := s.setup.replyWait / 2 }

/-! ### Commands -/

/-- The RUN command (R40). -/
def commandRun (tag : HostTag) (s : State) : State :=
  match s.station with
  | .setup => respond (.done tag false) (enterStarting (closeSetup s))
  | .init =>
    if s.runRequested then respond (.done tag false) s
    else respond (.done tag false) { closeSetup s with runRequested := true }
  | .starting => respond (.fault tag .wrongState) s
  | .run => respond (.fault tag .wrongState) s
  | .halted => respond (.fault tag .wrongState) s

/-- The RESTART command (R45): the DONE follows every answer of the teardown. -/
def commandRestart (tag : HostTag) (s : State) : State :=
  match s.station with
  | .starting => respond (.done tag false) (enterStarting (teardown .restarted s))
  | .run => respond (.done tag false) (enterStarting (teardown .restarted s))
  | .halted => respond (.done tag false) (enterStarting (teardown .restarted s))
  | .init => respond (.fault tag .wrongState) s
  | .setup => respond (.fault tag .wrongState) s

/-- The DROP_CACHE command (R90). -/
def commandDropCache (tag : HostTag) (s : State) : State := respond (.done tag false) (cacheEmpty s)

/-- The CLEAR_FAULTS command (R181). -/
def commandClearFaults (tag : HostTag) (s : State) : State := respond (.done tag false) (clearFaultRecord s)

/-- A CONTROL WRITE to COMMAND (R169): a value that is no command is answered BAD_REQUEST. -/
def commandWrite (tag : HostTag) (value : CtrlValue) (s : State) : State :=
  match value.toNat with
  | 1 => commandRun tag s
  | 2 => commandRestart tag s
  | 3 => commandDropCache tag s
  | 4 => commandClearFaults tag s
  | _ => respond (.fault tag .badRequest) s

/-! ### Setup words -/

/-- A value held to a range (R49). -/
def clamp (low high v : Nat) : Nat := if v < low then low else if high < v then high else v

/-- The rights of a code (R186); clamped codes are 0 to 2. -/
def rightOfCode (v : Nat) : Right := if v = 0 then .none else if v = 1 then .read else .readWrite

/-- The code of a right (R186). -/
def rightCode : Right → Nat
  | .none => 0
  | .read => 1
  | .readWrite => 2

/-- The range of a setup word (3.7, R49): least and greatest value. -/
def setupRange : SetupWord → Nat × Nat
  | .replyWait => (Config.replyWaitMin, Config.replyWaitMax)
  | .refuseLimit => (Config.refuseLimitMin, Config.refuseLimitMax)
  | .refuseStep => (Config.refuseStepMin, Config.refuseStepMax)
  | .urgentBudget => (Config.urgentBudgetMin, Config.urgentBudgetMax)
  | .cacheEnable => (0, 1)
  | .rights _ => (0, 2)

/-- The value a setup word stores for a value written (R49). -/
def setupStored (word : SetupWord) (v : Nat) : Nat := clamp (setupRange word).1 (setupRange word).2 v

/-- A value stored in a setup word; each word is a word of its own (R49). -/
def storeSetup (word : SetupWord) (v : Nat) (s : State) : State :=
  match word with
  | .replyWait => { s with setup := { s.setup with replyWait := v } }
  | .refuseLimit => { s with setup := { s.setup with refuseLimit := v } }
  | .refuseStep => { s with setup := { s.setup with refuseStep := v } }
  | .urgentBudget => { s with setup := { s.setup with urgentBudget := v } }
  | .cacheEnable => { s with setup := { s.setup with cacheEnable := v != 0 } }
  | .rights p => { s with rights := s.rights.set p.val (rightOfCode v) }

/-- The value a setup word holds (R50). -/
def setupValue (word : SetupWord) (s : State) : Nat :=
  match word with
  | .replyWait => s.setup.replyWait
  | .refuseLimit => s.setup.refuseLimit
  | .refuseStep => s.setup.refuseStep
  | .urgentBudget => s.setup.urgentBudget
  | .cacheEnable => if s.setup.cacheEnable then 1 else 0
  | .rights p => rightCode s.rights[p]

/-- A CONTROL WRITE to a setup word or rights-table entry (R49): the whole value is one unsigned number (R186). -/
def setupWrite (tag : HostTag) (word : SetupWord) (value : CtrlValue) (s : State) : State :=
  if setupOpen s then
    let v := setupStored word value.toNat
    respond (.done tag (v != value.toNat)) (storeSetup word v s)
  else respond (.fault tag .setupClosed) s

/-- A CONTROL WRITE to the interrupt mask (R179). -/
def maskWrite (tag : HostTag) (value : CtrlValue) (s : State) : State :=
  respond (.done tag (maskAdjusted value)) (setIrqMask value s)

/-- A CONTROL WRITE at its start (R167): read-only and unknown words are answered BAD_REQUEST. -/
def controlWriteStarts (tag : HostTag) (word : Byte) (value : CtrlValue) (s : State) : State :=
  if word = 0x04#8 then commandWrite tag value s
  else if word = 0x29#8 then maskWrite tag value s
  else
    match setupWordOf word with
    | some w => setupWrite tag w value s
    | none => respond (.fault tag .badRequest) s

/-! ### Control reads -/

/-- The code of the station state in the STATE word (R186). -/
def stationCode : StationState → Nat
  | .init => 0
  | .setup => 1
  | .starting => 2
  | .run => 3
  | .halted => 4

/-- A flag as a bit. -/
def bitOf (b : Bool) : Nat := if b then 1 else 0

/-- The bits of the first-fault record word that carry no meaning: all the assigned bits but bit 0 of an empty record
(R177), and the value of an absent field of a filled one (R186). -/
def firstFaultOpenBits : Option FaultReport → BitVec 64
  | none => 0x3FFFFF01F1F10F00#64
  | some r =>
    (if r.peer.isSome then 0#64 else 0x0000000000F00000#64) |||
    (if r.hostTag.isSome then 0#64 else 0x00000000F0000000#64) |||
    (if r.line.isSome then 0#64 else 0x3FFFFF0000000000#64)

/-- The bits of the first-fault record word that carry a meaning (R186). -/
def firstFaultBits : Option FaultReport → Nat
  | none => 0
  | some r =>
    1 + (faultPosition r.kind).val * 2 ^ 8
      + bitOf r.peer.isSome * 2 ^ 16 + ((r.peer.map (·.val)).getD 0) * 2 ^ 20
      + bitOf r.hostTag.isSome * 2 ^ 24 + ((r.hostTag.map (·.val)).getD 0) * 2 ^ 28
      + bitOf r.line.isSome * 2 ^ 32 + ((r.line.map (·.toNat)).getD 0) * 2 ^ 40

/-- The value a control word reads as; none for COMMAND and for a number that names no word (R167, R168, R186). The bits of
the first-fault record that carry no meaning are those of a free value. -/
def controlValue (word : Byte) (s : State) : Option CtrlValue :=
  let n := word.toNat
  if n = 0x00 then
    some (BitVec.ofNat 64 (Config.identRevision + Config.identPart * 2 ^ 16 + Config.identVendor * 2 ^ 32))
  else if n = 0x01 then some (BitVec.ofNat 64 (s.number.val + s.sizeCode * 2 ^ 8))
  else if n = 0x02 then some (BitVec.ofNat 64 (stationCode s.station + bitOf s.runRequested * 2 ^ 8))
  else if n = 0x03 then some (BitVec.ofNat 64 s.fillProgress)
  else if n = 0x20 then
    some (BitVec.ofNat 64 (trackerInUse s + s.orq.length * 2 ^ 8 + s.svq.length * 2 ^ 16 + s.rpq.length * 2 ^ 24))
  else if n = 0x21 then
    some (BitVec.ofNat 64 (s.llt.length + s.cache.length * 2 ^ 8 + s.lwb.length * 2 ^ 16))
  else if n = 0x28 then some (s.flags.setWidth 64)
  else if n = 0x29 then some (s.irqMask.setWidth 64)
  else if n = 0x2A then
    some (BitVec.ofNat 64 (firstFaultBits s.firstFault)
      ||| (Config.freeWord s.freeCount &&& firstFaultOpenBits s.firstFault))
  else if h : 0x30 ≤ n ∧ n - 0x30 < 12 then some (BitVec.ofNat 64 (s.counts[n - 0x30]'h.2))
  else (setupWordOf word).map fun w => BitVec.ofNat 64 (setupValue w s)

/-- The free values a read of a control word uses: one for a read of the first-fault record. -/
def useFree (word : Byte) (s : State) : State :=
  if word = 0x2A#8 then { s with freeCount := s.freeCount + 1 } else s

/-- A CONTROL READ at its start (R167): DATA with the value as its 8 bytes, or FAULT BAD_REQUEST. -/
def controlReadStarts (tag : HostTag) (word : Byte) (s : State) : State :=
  match controlValue word s with
  | some v => respond (.data tag (beBytes 8 v.toNat) false) (useFree word s)
  | none => respond (.fault tag .badRequest) s

end Sys2Proof.Machine
end

