-- ==== Sys2Proof/Machine/HostLink.lean ====
section
/-! DEFINITION. The Host Link Unit's starting of requests (09_the_host_link.md, R155 to R165), the store arbiter (R141, R142),
and `settle`: what the station's own blocks do in the event that lets them. -/

namespace Sys2Proof.Machine

/-! ### Which requests may start -/

/-- Whether a request is a READ. -/
def isRead : Request → Bool
  | .read _ _ _ _ => true
  | _ => false

/-- Whether a request is a READ or a WRITE. -/
def isAccess : Request → Bool
  | .read _ _ _ _ => true
  | .write _ _ _ _ => true
  | _ => false

/-- Whether a READ has high priority. -/
def isHigh : Request → Bool
  | .read _ _ _ high => high
  | _ => false

/-- Whether an earlier unstarted request e holds a request r back (R157). -/
def holdsBack (e r : Request) : Bool :=
  !isAccess e
    || (requestLine e).isSome && requestLine e == requestLine r
    || !isRead r
    || isRead e && !(isHigh r && !isHigh e)

/-- Whether an unstarted request may start, `earlier` being the requests before it in the HRQ; a FENCE waits until every
earlier request has been answered (R157). -/
def eligible (earlier : List HrqItem) (r : Request) : Bool :=
  !(earlier.any fun it => !it.started && holdsBack it.req r) && (r != .fence || earlier.isEmpty)

/-- The unstarted requests of a queue that are eligible, in HRQ order; `earlier` is what stands before (R157, R158). -/
def eligibleItems : List HrqItem → List HrqItem → List HrqItem
  | _, [] => []
  | earlier, it :: rest =>
    if !it.started && eligible earlier it.req then it :: eligibleItems (earlier ++ [it]) rest
    else eligibleItems (earlier ++ [it]) rest

/-- The requests that may start now. -/
def eligibleNow (s : State) : List HrqItem := eligibleItems [] s.hrq

/-- Whether a request is a READ of a local line (R153). -/
def isLocalRead (s : State) (req : Request) : Bool := isRead req && !isRemote s req

/-- The eligible local READ offered to the store: a high-priority one first, then HRQ order (R158). -/
def offeredRead (s : State) : Option HrqItem :=
  let reads := (eligibleNow s).filter fun it => isLocalRead s it.req
  (reads.find? fun it => isHigh it.req).or reads.head?

/-! ### Routing by state and range -/

/-- The FAULT that the routing of R159 gives a local READ or WRITE, if it gives one. -/
def localRefusal (s : State) (line : LineIndex) : Option HostCode :=
  if s.station = .init then some .notReady else if lineInstalled s line then none else some .range

/-- The line index of a READ or WRITE. -/
def requestIndex (req : Request) : LineIndex := ((requestLine req).map (·.2)).getD 0#22

/-! ### Starts -/

/-- A remote READ that the cache did not answer goes to the Request Tracker: it attaches, or creates an ASK entry, or stays
unstarted (R59 to R61, R160). -/
def readToTracker (tag : HostTag) (owner : Station) (line : LineIndex) (offset : Nat) (size : ReadSize) (keep : Bool)
    (s : State) : Option State :=
  let w := Waiter.read tag offset size
  match attachTag owner line s with
  | some t => some (markStarted tag (attachRead t w keep s))
  | none =>
    match freeTag s with
    | some t => some (markStarted tag (createEntry t .ask owner line keep none [w] s))
    | none => none

/-- A remote READ starts (R82 to R84, R159, R160): none when it cannot start now. -/
def startRemoteRead (tag : HostTag) (addr : SpanAddr) (size : ReadSize) (cacheable : Bool) (s : State) : Option State :=
  let owner := addrStation addr
  let line := addrLine addr
  if s.station ≠ .run then some (respond (.fault tag .notRunning) s)
  else
    let keep := cacheable && s.setup.cacheEnable
    match (if keep then cacheFind owner line s else none) with
    | some c => some (respond (.data tag (readBytes c.data (addrOffset addr) size) false) (cacheFront c s))
    | none => readToTracker tag owner line (addrOffset addr) size keep s

/-- A remote WRITE starts (R85, R74, R59, R161): none when no tag is FREE. -/
def startRemoteWrite (tag : HostTag) (addr : SpanAddr) (mask : Mask) (data : Line) (confirm : Bool) (s : State) :
    Option State :=
  let owner := addrStation addr
  let line := addrLine addr
  if s.station ≠ .run then some (respond (.fault tag .notRunning) s)
  else
    match freeTag s with
    | none => none
    | some t =>
      let s := overtakeByWrite owner line (cacheWrite owner line mask data s)
      let put := some { mask := mask, data := data }
      if confirm then
        some (markStarted tag (createEntry t .putConfirmed owner line false put [.write tag] s))
      else some (respond (.done tag false) (createEntry t .putPosted owner line false put [] s))

/-- Whether a local WRITE of a line can be taken: the buffer can receive it and, for a lent line, the Reply Queue has a free
place (R124, R144). -/
def canTakeWrite (s : State) (line : LineIndex) (confirm : Bool) : Bool :=
  lwbReceives s line confirm && ((lltFind line s).isNone || 0 < freePlaces s)

/-- A local WRITE taken (R123, R144, R163): the buffer receives it, a lent line is recalled, a posted write is answered. -/
def takeLocalWrite (tag : HostTag) (line : LineIndex) (mask : Mask) (data : Line) (confirm : Bool) (s : State) : State :=
  let s := lwbTake line mask data (if confirm then some tag else none) s
  let s := lltRecallForWrite line s
  if confirm then markStarted tag s else respond (.done tag false) s

/-- A local WRITE starts (R159, R163): none when it cannot be taken now. -/
def startLocalWrite (tag : HostTag) (addr : SpanAddr) (mask : Mask) (data : Line) (confirm : Bool) (s : State) :
    Option State :=
  let line := addrLine addr
  match localRefusal s line with
  | some code => some (respond (.fault tag code) s)
  | none => if canTakeWrite s line confirm then some (takeLocalWrite tag line mask data confirm s) else none

/-- An eligible request started if its resource is available (R158). A local READ starts at its grant (R162). -/
def tryStart (s : State) (it : HrqItem) : Option State :=
  match it.req with
  | .read addr size cacheable _ => if isRemote s it.req then startRemoteRead it.tag addr size cacheable s else none
  | .write addr mask data confirm =>
    if isRemote s it.req then startRemoteWrite it.tag addr mask data confirm s
    else startLocalWrite it.tag addr mask data confirm s
  | .fence => some (startFence it.tag s)
  | .controlRead word => some (controlReadStarts it.tag word s)
  | .controlWrite word value => some (controlWriteStarts it.tag word value s)

/-! ### The store arbiter -/

/-- The local READ that waits for the store: the offered one, when its routing gives it no FAULT (R141, R159). -/
def waitingRead (s : State) : Option HrqItem :=
  match offeredRead s with
  | some it => if (localRefusal s (requestIndex it.req)).isNone then some it else none
  | none => none

/-- Whether a drain waits: the buffer holds an entry and none is draining (R141). -/
def drainWaits (s : State) : Bool := !s.lwb.isEmpty && !s.lwb.any (·.draining)

/-- Whether the INIT fill waits (R141). -/
def fillWaits (s : State) : Bool := s.station == .init && s.fillProgress < installedLines s.sizeCode

/-- Whether the Serve Engine's operation waits for the store, given that the store is free (R141). -/
def serveWaits (s : State) : Bool := s.serveOp.isSome

/-- The grant of the drain of the oldest entry, which is marked draining (R145). -/
def grantDrain (s : State) : State :=
  { s with
    storeOp := some .drain
    turn := .serveEngine
    lwb := match s.lwb with
      | b :: rest => { b with draining := true } :: rest
      | [] => [] }

/-- The grant of a local READ, which is its start (R147, R162). -/
def grantRead (it : HrqItem) (s : State) : State :=
  let s := markStarted it.tag { s with turn := .serveEngine }
  match it.req with
  | .read addr size _ _ => { s with storeOp := some (.localRead it.tag (addrLine addr) (addrOffset addr) size) }
  | _ => s

/-- The grant of the Serve Engine's operation (R142). -/
def grantServe (s : State) : State := { s with storeOp := some .serve, turn := .localSide }

/-- The grant to the local side: a read ahead of a drain, unless the buffer is full (R141). -/
def grantLocal (s : State) : Option State :=
  match waitingRead s with
  | some it =>
    if drainWaits s && s.lwb.length == Config.lwbCapacity then some (grantDrain s) else some (grantRead it s)
  | none => if drainWaits s then some (grantDrain s) else none

/-- The arbiter's grant, if the store is free and a client waits (R142): the INIT fill is alone in INIT; when both sides wait
the turn record decides. -/
def grant (s : State) : Option State :=
  if s.storeOp.isSome then none
  else if fillWaits s then some { s with storeOp := some .fill }
  else if serveWaits s && s.turn == .serveEngine then some (grantServe s)
  else
    match grantLocal s with
    | some t => some t
    | none => if serveWaits s then some (grantServe s) else none

/-! ### Settling -/

/-- The offered local READ answered at once when its routing gives it a FAULT (R159). -/
def refuseOfferedRead (s : State) : Option State :=
  match offeredRead s with
  | some it => (localRefusal s (requestIndex it.req)).map fun code => respond (.fault it.tag code) s
  | none => none

/-- The first eligible request that can start, started (R158). -/
def startFirst (s : State) : Option State := (eligibleNow s).findSome? (tryStart s)

/-- One thing that the station's own blocks do in the same event, if there is one to do: the answer of a FENCE whose covered
set is empty (R165), the answer of an offered READ that is not served (R159), a grant of the free store (R142), a start at
the try (R158). -/
def settleOne (s : State) : Option State :=
  if fenceDue s then some (answerFence s)
  else (refuseOfferedRead s).or ((grant s).or (startFirst s))

/-- settleOne as long as there is something to do, at most n times. -/
def settleLoop : Nat → State → State
  | 0, s => s
  | n + 1, s =>
    match settleOne s with
    | some t => settleLoop n t
    | none => s

/-- Whether a waiting local WRITE would take a place of the Reply Queue (R109, R124). -/
def writeClaimsPlace (s : State) : Bool :=
  s.hrq.any fun it =>
    match it.req with
    | .write addr _ _ confirm =>
      !it.started && !isRemote s it.req && (lltFind (addrLine addr) s).isSome && canTakeWrite s (addrLine addr) confirm
    | _ => false

/-- The Serve Engine's takings, at most n, as long as it and a waiting local WRITE may both claim places: a request that ends at
a check releases its reserve, and the engine takes first again (R98, R109). -/
def engineTakes : Nat → State → State
  | 0, s => s
  | n + 1, s => if writeClaimsPlace s && canServe s then engineTakes n (serveTakeNow s) else s

/-- At an event that frees a place which both the Serve Engine and a waiting local WRITE may claim, the engine takes first
(R109). `before` is the state the event found. -/
def engineFirst (before s : State) : State :=
  if freePlaces before < freePlaces s then engineTakes s.svq.length s else s

/-- What follows an event's own effects within the event: the engine's claim before a waiting local WRITE's (R109), then the
tries and the grant. Every request of the HRQ starts or is answered at most once, one FENCE may be answered beside, and one
grant is made. -/
def settle (before s : State) : State :=
  let s := engineFirst before s
  settleLoop (2 * s.hrq.length + 3) s

/-! ### Arrival -/

/-- The examination of a message at its arrival (R155): form, tag, room; a request that passes joins the HRQ unstarted. -/
def arrive (m : HostMsg) (s : State) : State :=
  match formCheck m with
  | none => send (.reject (msgTag m) .badRequest) s
  | some req =>
    if s.hrq.any fun it => it.tag == msgTag m then send (.reject (msgTag m) .tagBusy) s
    else if Config.hrqCapacity ≤ s.hrq.length then send (.retry (msgTag m)) s
    else { s with hrq := s.hrq ++ [{ tag := msgTag m, req := req, started := false }] }

/-- The messages of a string of bytes, one arrival after another (R155, R185). -/
def arriveAll : Nat → List Byte → State → State
  | 0, _, s => s
  | n + 1, bytes, s =>
    match decodeMsg bytes with
    | some (m, rest) => arriveAll n rest (settle s (arrive m s))
    | none => s

/-! ### Events -/

/-- The outcome of an event with no effect while the reset pin is held (R38). -/
def unlessHeld (s t : State) : Host.Outcome State Fault Refusal := .next (if s.pinHeld then s else t)

/-- An event with its own effects f, and what follows within it. -/
def event (s : State) (f : State → State) : Host.Outcome State Fault Refusal := unlessHeld s (settle s (f s))

/-- The HRQ's eligible request with this host tag, if it is of the sort named, started if its resource is available. -/
def startNamed (sort : State → Request → Bool) (tag : HostTag) (s : State) : State :=
  match (eligibleNow s).find? fun it => it.tag == tag && sort s it.req with
  | some it => (tryStart s it).getD s
  | none => s

end Sys2Proof.Machine
end

