-- ==== Sys2Proof/Machine/HostCommands.lean ====
section
/-! DEFINITION. The commands of the host link: HOST_REQUEST_ARRIVAL, the starts of requests, FENCE, and the CONTROL WRITEs that
the table lists by what they write. A CONTROL WRITE reaches the station as a message: it joins the HRQ and starts under R157. -/

namespace Sys2Proof.Machine

/-- HOST_REQUEST_ARRIVAL (R155, R185). -/
def execHostRequestArrival (bytes : List Byte) (s : State) : Host.Outcome State Fault Refusal :=
  unlessHeld s (arriveAll bytes.length bytes s)

/-- Whether a request is a READ of a remote line. -/
def isRemoteRead (s : State) (req : Request) : Bool := isRead req && isRemote s req

/-- Whether a request is a WRITE of a remote line. -/
def isRemoteWrite (s : State) (req : Request) : Bool := isAccess req && !isRead req && isRemote s req

/-- Whether a request is a WRITE of a local line. -/
def isLocalWrite (s : State) (req : Request) : Bool := isAccess req && !isRead req && !isRemote s req

/-- REMOTE_READ_START (R160). -/
def execRemoteReadStart (tag : HostTag) (s : State) : Host.Outcome State Fault Refusal :=
  event s (startNamed isRemoteRead tag)

/-- REMOTE_WRITE_START (R161). -/
def execRemoteWriteStart (tag : HostTag) (s : State) : Host.Outcome State Fault Refusal :=
  event s (startNamed isRemoteWrite tag)

/-- LOCAL_WRITE_TAKEN (R144, R163). -/
def execLocalWriteTaken (tag : HostTag) (s : State) : Host.Outcome State Fault Refusal :=
  event s (startNamed isLocalWrite tag)

/-- FENCE_START (R164). -/
def execFenceStart (tag : HostTag) (s : State) : Host.Outcome State Fault Refusal :=
  event s (startNamed (fun _ req => req == .fence) tag)

/-- FENCE_ANSWER (R165): a started FENCE whose covered set is empty is answered. -/
def execFenceAnswer (s : State) : Host.Outcome State Fault Refusal := event s answerFence

/-- RUN (R40): the message CONTROL WRITE of COMMAND with code 1. -/
def execRun (tag : HostTag) (s : State) : Host.Outcome State Fault Refusal :=
  event s (arrive (.controlWrite tag 0x04#8 1#64))

/-- RESTART (R45): the message CONTROL WRITE of COMMAND with code 2. -/
def execRestart (tag : HostTag) (s : State) : Host.Outcome State Fault Refusal :=
  event s (arrive (.controlWrite tag 0x04#8 2#64))

/-- DROP_CACHE (R90): the message CONTROL WRITE of COMMAND with code 3. -/
def execDropCache (tag : HostTag) (s : State) : Host.Outcome State Fault Refusal :=
  event s (arrive (.controlWrite tag 0x04#8 3#64))

/-- CLEAR_FAULTS (R181): the message CONTROL WRITE of COMMAND with code 4. -/
def execClearFaults (tag : HostTag) (s : State) : Host.Outcome State Fault Refusal :=
  event s (arrive (.controlWrite tag 0x04#8 4#64))

/-- SETUP_WORD_WRITE (R49): the message CONTROL WRITE of a setup word or rights-table entry. -/
def execSetupWordWrite (tag : HostTag) (word : SetupWord) (value : CtrlValue) (s : State) :
    Host.Outcome State Fault Refusal :=
  event s (arrive (.controlWrite tag (setupWordNumber word) value))

/-- INTERRUPT_MASK_WRITE (R179): the message CONTROL WRITE of the interrupt mask. -/
def execInterruptMaskWrite (tag : HostTag) (value : CtrlValue) (s : State) : Host.Outcome State Fault Refusal :=
  event s (arrive (.controlWrite tag 0x29#8 value))

/-- CONTROL_WRITE (R167): the message CONTROL WRITE of any word number. -/
def execControlWrite (tag : HostTag) (word : Byte) (value : CtrlValue) (s : State) : Host.Outcome State Fault Refusal :=
  event s (arrive (.controlWrite tag word value))

end Sys2Proof.Machine
end

