-- ==== Sys2Proof/Machine/Reset.lean ====
section
/-! DEFINITION. The reset pin (R37, R38, R149, R170, R182, R187). -/

namespace Sys2Proof.Machine

/-- The Span for a station reset by its pin: it is no contender, receives no frame, and its own frame is cut short
(R14, R34). -/
def spanPinReset : SpanPhase → SpanPhase
  | .free => .free
  | .contest _ _ => .contest false none
  | .sending _ => .frame false
  | .frame _ => .frame false

/-- The assertion of the reset pin: every block holds its pin-reset value and nothing is answered (R38). The straps keep what
was sampled (R37); the store keeps its contents until the fill (R149); the timebase runs on. -/
def pinReset (s : State) : State :=
  { State.reset with
    pinHeld := true
    storeOp := none
    number := s.number
    sizeCode := s.sizeCode
    span := spanPinReset s.span
    mem := s.mem
    poison := s.poison
    hostTx := s.hostTx
    now := s.now
    freeCount := s.freeCount
    pending := s.pending }

/-- The station number of strap levels, SNUM3 most significant (R187). -/
def strapNumber (straps : BitVec 4) : Station := nibble straps.toNat

/-- The effective store-size code of strap levels: 9 to 15 are taken as 8 (R187). -/
def strapSize (straps : BitVec 4) : Nat := min straps.toNat 8

/-- The release of the reset pin: every block holds the pin-reset value it held while the pin was held, the straps are sampled,
and the station is in INIT (R37, R38). -/
def pinRelease (snum ssize : BitVec 4) (s : State) : State :=
  { pinReset s with pinHeld := false, number := strapNumber snum, sizeCode := strapSize ssize }

/-- PIN_RESET_ASSERT (R38). -/
def execPinResetAssert (s : State) : Host.Outcome State Fault Refusal := .next (pinReset s)

/-- PIN_RESET_RELEASE (R37): the pin's release occurs while it is held. -/
def execPinResetRelease (snum ssize : BitVec 4) (s : State) : Host.Outcome State Fault Refusal :=
  .next (if s.pinHeld then settle s (pinRelease snum ssize s) else s)

end Sys2Proof.Machine
end

