-- ==== Sys2Proof/Machine/Span.lean ====
section
/-! DEFINITION. The Span Port (01_the_span_frames_and_the_stand_or_fall_rule.md and 02_contests_and_rounds.md, R1 to R35): the
contest, the end slots, the taking of standing frames and the end of the station's own frame. -/

namespace Sys2Proof.Machine

/-! ### Contests -/

/-- The candidate: the head of the Reply Queue, else the frame of the ORQ candidate (R26). -/
def candidate (s : State) : Option (OfferSource × Frame) :=
  match s.rpq.head? with
  | some it => some (.replyQueue, it.frame)
  | none =>
    match orqCandidate s with
    | some t => (entryFrame s.number t s.tracker[t]).map fun f => (.tracker t, f)
    | none => none

/-- The class in which a station contends with a frame, or none when it stands aside (R29). -/
def classFor (s : State) (f : Frame) : Option SpanClass :=
  if frameUrgent f && 0 < s.budget then some .urgent else if s.waived then none else some .plain

/-- The copy taken at an opening when the station contends (R26 to R29). -/
def offerNow (s : State) : Option Offer :=
  match candidate s with
  | some (source, f) => (classFor s f).map fun c => { source := source, frame := f, cls := c, gone := false }
  | none => none

/-- The opening of a contest (R26 to R29): a listening station takes part; a silent one does not. With another station's frame
or an undecided contest noted, where R24 has no contest open, it opens anew and takes the candidate afresh: the model's choice
(log entry 25). -/
def openContest (s : State) : State :=
  match s.span with
  | .sending _ => s
  | _ => { s with span := .contest (listening s) (if listening s then offerNow s else none) }

/-- Whether one contender goes before another or level with it: the urgent class first, then the lower number (R30). -/
def goesBefore (a b : Contender) : Bool :=
  match a.cls, b.cls with
  | .urgent, .plain => true
  | .plain, .urgent => false
  | _, _ => a.number ≤ b.number

/-- What a win does to the winner's contest state, before its frame is sent (R31). -/
def winContest (o : Offer) (s : State) : State :=
  match o.cls with
  | .urgent => { s with span := .sending o, budget := s.budget - 1 }
  | .plain => { s with span := .sending o, waived := true }

/-- An idle contest ends the round (R32); a station that took no part in it does not apply it (R25). -/
def idleContest (part : Bool) (s : State) : State :=
  if part then { s with span := .free, waived := false, budget := s.setup.urgentBudget } else { s with span := .free }

/-- The decision for a station that offered `offer` among the other contenders (R30 to R32). A contest that another station
wins is followed by its frame, which this station receives if it is listening (R14, R16). -/
def decideContest (part : Bool) (offer : Option Offer) (others : List Contender) (s : State) : State :=
  match offer with
  | some o =>
    if others.all (goesBefore { cls := o.cls, number := s.number }) then winContest o s
    else { s with span := .frame (listening s) }
  | none => if others.isEmpty then idleContest part s else { s with span := .frame (listening s) }

/-! ### End slots -/

/-- No slot asserted. -/
def noSlots : EndSlots := { spoil := false, accept := false, refuse := false }

/-- The slots asserted by this station or by others: each is wired (1.3). -/
def wiredSlots (a b : EndSlots) : EndSlots :=
  { spoil := a.spoil || b.spoil, accept := a.accept || b.accept, refuse := a.refuse || b.refuse }

/-- Whether a kind asks for room in the target's Serve Queue (R11). -/
def isRequestFrame : Frame → Bool
  | .ask _ _ _ _ _ _ => true
  | .put _ _ _ _ _ _ => true
  | _ => false

/-- What a listening station that received a frame asserts (R10 to R12): SPOIL for a bad or inconsistent frame; as target in
RUN, ACCEPT or REFUSE; otherwise nothing. -/
def assertSlots (s : State) : Option Frame → EndSlots
  | none => { noSlots with spoil := true }
  | some f =>
    if frameTarget f = some s.number ∧ s.station = .run then
      if isRequestFrame f && Config.svqCapacity ≤ s.svq.length then { noSlots with refuse := true }
      else { noSlots with accept := true }
    else noSlots

/-- The classification of a frame from its end slots (R13, R17). -/
def classify (slots : EndSlots) (addressed : Bool) : FrameOutcome :=
  if slots.spoil then .spoiled
  else if slots.refuse then .refused
  else if addressed && !slots.accept then .absent
  else .stood

/-- Whether the station receives the frame that another station has on the Span (R14, R16): it is listening, was so when the
frame began, and is not sending itself. -/
def receives (s : State) : Bool :=
  listening s &&
    match s.span with
    | .frame false => false
    | .sending _ => false
    | _ => true

/-- The Span after the end of another station's frame. -/
def spanAfterFrame : SpanPhase → SpanPhase
  | .frame _ => .free
  | .free => .free
  | .contest part offer => .contest part offer
  | .sending o => .sending o

/-- A frame's end as this station passes through it: what it asserts, and the Span free again. -/
def frameEnds (slots : EndSlots) (s : State) : State := { s with slots := slots, span := spanAfterFrame s.span }

/-! ### Taking a standing frame -/

/-- A standing frame with the station's own number as source that it did not send (R22). -/
def takeDuplicate (s : State) : State :=
  enterHalted (takeReport { kind := .duplicate, peer := some s.number, line := none, hostTag := none } s)

/-- Whether a standing frame with this target is addressed to this station and was accepted by it: ACCEPT is asserted in RUN
alone, and outside RUN the tracker and the Serve Queue are empty and draw no effect (R11, R15, R96). -/
def takesAsTarget (s : State) (target : Station) : Bool := target == s.number && s.station == .run

/-- A standing ASK (R2, R96). -/
def takeAsk (source target : Station) (tag : Tag) (epoch : Epoch) (keep : Bool) (line : LineIndex) (s : State) : State :=
  if takesAsTarget s target then svqAppend source line (.ask keep tag epoch) s else s

/-- A standing PUT (R3, R15): at its target the request is appended and the other sharers leave (R96, R129); elsewhere the copy
is dropped and the WAITING ASK entries for the line are overtaken (R87, R73). -/
def takePut (source target : Station) (confirm : Option (Tag × Epoch)) (line : LineIndex) (mask : Mask) (data : Line)
    (s : State) : State :=
  if takesAsTarget s target then lltPutStands line source (svqAppend source line (.put confirm mask data) s)
  else if target = s.number then s
  else overtakeByPut target line (cacheDrop target line s)

/-- Whether a matched entry's line is installed (R70). -/
def installs (s : State) (e : Entry) : Bool := e.keep && s.setup.cacheEnable && !e.overtaken

/-- A standing GIVE addressed to this station (R69, R70, R86). -/
def takeGive (source target : Station) (tag : Tag) (epoch : Epoch) (mended : Bool) (data : Line) (s : State) : State :=
  if takesAsTarget s target then
    let e := s.tracker[tag]
    if replyNames source epoch e && e.kind == some .ask then
      let s' := answerWaiters e.waiters (giveAnswer data mended) s
      releaseEntry tag (if installs s e then cacheInstall e.target e.line data s' else s')
    else strayReply source tag s
  else s

/-- A standing NOTE addressed to this station (R69, R71). -/
def takeNote (source target : Station) (tag : Tag) (epoch : Epoch) (outcome : NoteOutcome) (s : State) : State :=
  if takesAsTarget s target then
    let e := s.tracker[tag]
    if replyNames source epoch e && noteFits outcome e.kind then
      releaseEntry tag (answerWaiters e.waiters (noteAnswer outcome) s)
    else strayReply source tag s
  else s

/-- A standing RECALL from another station (R6, R88). -/
def takeRecall (source : Station) (line : LineIndex) (sharers : SharerSet) (s : State) : State :=
  if sharers.getLsbD s.number.val then cacheDrop source line s else s

/-- A standing START from another station (R7, R76, R110, R131, R89). -/
def takeStart (source : Station) (s : State) : State :=
  cacheDropOwner source (lltStartStands source (servePurge source (abandonAll source s)))

/-- The taking of a standing frame of any kind (R15). -/
def takeFrame : Frame → State → State
  | .ask src tgt tag ep keep line => takeAsk src tgt tag ep keep line
  | .put src tgt confirm line mask data => takePut src tgt confirm line mask data
  | .give src tgt tag ep mended data => takeGive src tgt tag ep mended data
  | .note src tgt tag ep outcome => takeNote src tgt tag ep outcome
  | .recall src line sharers => takeRecall src line sharers
  | .start src => takeStart src

/-- The frame as the station finds it: none when it is inconsistent (R9). -/
def foundConsistent (f : Frame) : Option Frame := if frameConsistent f then some f else none

/-- Whether a frame that the other stations let stand stands with this station's own slots: as its target the station must
accept it, and it must not spoil it (R11, R13). -/
def letsStand (s : State) (f : Frame) : Bool :=
  let own := assertSlots s (foundConsistent f)
  let others := { noSlots with accept := frameTarget f != some s.number }
  classify (wiredSlots own others) (frameTarget f).isSome == .stood

/-- The end of another station's frame that stands for all other stations (R13 to R15, R22). -/
def standingEnd (f : Frame) (s : State) : State :=
  if receives s then
    let s' := frameEnds (assertSlots s (foundConsistent f)) s
    if letsStand s f then (if frameSource f = s.number then takeDuplicate s' else takeFrame f s') else s'
  else frameEnds noSlots s

/-- The end of another station's frame with the bits received and the slots of the others (R8 to R15): a fallen frame is not
taken. Slots that show it standing make it a standing frame. -/
def receivedEnd (bits : List Bool) (others : EndSlots) (s : State) : State :=
  if receives s then
    let found := receiveFrame bits
    let own := assertSlots s found
    let s' := frameEnds own s
    match found with
    | some f =>
      if classify (wiredSlots own others) (frameTarget f).isSome = .stood then
        settle s (if frameSource f = s.number then takeDuplicate s' else takeFrame f s')
      else s'
    | none => s'
  else frameEnds noSlots s

/-! ### The end of the station's own frame -/

/-- A GIVE or NOTE at the head of the Reply Queue takes its outcome (R18 to R20). -/
def replyOutcome (target : Station) (outcome : FrameOutcome) (s : State) : State :=
  let report (kind : FaultKind) : FaultReport := { kind := kind, peer := some target, line := none, hostTag := none }
  match outcome with
  | .stood => rpqDropHead s
  | .spoiled =>
    if s.spoilCount < Config.lastSpoil then { s with spoilCount := s.spoilCount + 1 }
    else rpqDropHead (takeReport (report .link) s)
  | .refused => rpqDropHead (takeReport (report .absentOut) s)
  | .absent => rpqDropHead (takeReport (report .absentOut) s)

/-- A RECALL or START at the head of the Reply Queue takes its outcome (R18, R21): the fourth spoil halts the station. A
broadcast frame does not fall refused or absent (R13, log entry 12). -/
def broadcastOutcome (line : Option LineIndex) (outcome : FrameOutcome) (s : State) : State :=
  match outcome with
  | .stood => rpqDropHead s
  | .spoiled =>
    if s.spoilCount < Config.lastSpoil then { s with spoilCount := s.spoilCount + 1 }
    else enterHalted (takeReport { kind := .link, peer := none, line := line, hostTag := none } s)
  | .refused => s
  | .absent => s

/-- The station's own START stands: STARTING ends (R18, R43). -/
def ownStartStands (outcome : FrameOutcome) (s : State) : State :=
  if outcome = .stood ∧ s.station = .starting then { s with station := .run } else s

/-- The outcome handed to the queue item the frame came from (R17 to R21, R43, R62 to R68): an entry whose frame is on the Span
is QUEUED (R77). -/
def ownOutcome (o : Offer) (outcome : FrameOutcome) (s : State) : State :=
  match o.source with
  | .tracker t => if s.tracker[t].state = .queued then entryOutcome t o.frame outcome s else s
  | .replyQueue =>
    match o.frame with
    | .give _ target _ _ _ _ => replyOutcome target outcome s
    | .note _ target _ _ _ => replyOutcome target outcome s
    | .recall _ line _ => broadcastOutcome (some line) outcome s
    | .start _ => ownStartStands outcome (broadcastOutcome none outcome s)
    | .ask _ _ _ _ _ _ => s
    | .put _ _ _ _ _ _ => s

/-- The end of the station's own frame, with the slots the other stations assert (R17). The outcome of a frame whose item is
gone is discarded (R23). -/
def ownEnd (others : EndSlots) (s : State) : State :=
  match s.span with
  | .sending o =>
    let s' := { s with span := .free, slots := noSlots }
    if o.gone then s' else ownOutcome o (classify others (frameTarget o.frame).isSome) s'
  | _ => s

/-! ### The commands -/

/-- An event on the Span. A station whose reset pin is held takes no part in it (R38) and notes only that the Span is then in
phase p, so that it does not receive a frame begun before it listens (R14). -/
def spanEvent (p : SpanPhase) (s t : State) : Host.Outcome State Fault Refusal :=
  .next (if s.pinHeld then { s with span := p } else t)

/-- The Span after an opening that a silent station takes no part in (R25). -/
def spanOpened : SpanPhase → SpanPhase
  | .sending o => .sending o
  | _ => .contest false none

/-- The Span after a decision that a silent station takes no part in: free, or with a frame it does not receive (R14, R25). -/
def spanDecided (others : List Contender) : SpanPhase → SpanPhase
  | .sending o => .sending o
  | _ => if others.isEmpty then .free else .frame false

/-- CONTEST_OPENING (R26). -/
def execContestOpening (s : State) : Host.Outcome State Fault Refusal := spanEvent (spanOpened s.span) s (openContest s)

/-- The decision of the contest on the Span (R30 to R32). A contest this station saw no opening of is one it takes no part in
(R25); so is one decided with another station's frame noted, where R24 has none decided: the model's choice (log entry 25). -/
def takeDecision (others : List Contender) (s : State) : State :=
  match s.span with
  | .sending _ => s
  | .contest part offer => decideContest part offer others s
  | _ => decideContest false none others s

/-- CONTEST_DECISION (R30). -/
def execContestDecision (others : List Contender) (s : State) : Host.Outcome State Fault Refusal :=
  spanEvent (spanDecided others s.span) s (takeDecision others s)

/-- The end of another station's frame. -/
def frameEvent (s t : State) : Host.Outcome State Fault Refusal := spanEvent (spanAfterFrame s.span) s t

/-- The end of a frame that stands for all other stations, and what follows within it. -/
def standingEvent (f : Frame) (s : State) : Host.Outcome State Fault Refusal := frameEvent s (settle s (standingEnd f s))

/-- FRAME_FALLS (R13). -/
def execFrameFalls (bits : List Bool) (others : EndSlots) (s : State) : Host.Outcome State Fault Refusal :=
  frameEvent s (receivedEnd bits others s)

/-- ASK_STANDS (R96). -/
def execAskStands (source target : Station) (tag : Tag) (epoch : Epoch) (keep : Bool) (line : LineIndex) (s : State) :
    Host.Outcome State Fault Refusal :=
  standingEvent (.ask source target tag epoch keep line) s

/-- PUT_STANDS (R129). -/
def execPutStands (source target : Station) (confirm : Option (Tag × Epoch)) (line : LineIndex) (mask : Mask) (data : Line)
    (s : State) : Host.Outcome State Fault Refusal :=
  standingEvent (.put source target confirm line mask data) s

/-- GIVE_STANDS (R70). -/
def execGiveStands (source target : Station) (tag : Tag) (epoch : Epoch) (mended : Bool) (data : Line) (s : State) :
    Host.Outcome State Fault Refusal :=
  standingEvent (.give source target tag epoch mended data) s

/-- NOTE_STANDS (R71). -/
def execNoteStands (source target : Station) (tag : Tag) (epoch : Epoch) (outcome : NoteOutcome) (s : State) :
    Host.Outcome State Fault Refusal :=
  standingEvent (.note source target tag epoch outcome) s

/-- RECALL_STANDS (R88). -/
def execRecallStands (source : Station) (line : LineIndex) (sharers : SharerSet) (s : State) :
    Host.Outcome State Fault Refusal :=
  standingEvent (.recall source line sharers) s

/-- START_STANDS (R7). -/
def execStartStands (source : Station) (s : State) : Host.Outcome State Fault Refusal :=
  standingEvent (.start source) s

/-- SENDER_FRAME_END (R17). -/
def execSenderFrameEnd (others : EndSlots) (s : State) : Host.Outcome State Fault Refusal := event s (ownEnd others)

end Sys2Proof.Machine
end

