-- ==== Sys2Proof/Machine/StoreCommands.lean ====
section
/-! DEFINITION. The commands of the store: the grant and the completions (08_the_store.md, R140 to R149). A completion finds the
operation it completes in flight; a completion of another operation does not occur. -/

namespace Sys2Proof.Machine

/-- STORE_GRANT (R142). -/
def execStoreGrant (s : State) : Host.Outcome State Fault Refusal := event s fun s => (grant s).getD s

/-- The end of the INIT fill: SETUP, or STARTING when the run-requested flag is set (R39). -/
def fillEnds (s : State) : State := if s.runRequested then enterStarting s else { s with station := .setup }

/-- The fill of one line completes (R148): its words are good and zero, the progress rises by 1. -/
def fillLineEnds (s : State) : State :=
  let line := s.fillProgress
  let s := { s with
    mem := fillLine s.mem line
    poison := s.poison.filter fun n => n / 8 != line
    fillProgress := line + 1
    storeOp := none }
  if s.station = .init ∧ installedLines s.sizeCode ≤ line + 1 then fillEnds s else s

/-- INIT_FILL_LINE_COMPLETE (R148). -/
def execInitFillLineComplete (s : State) : Host.Outcome State Fault Refusal :=
  event s fun s => if s.storeOp = some .fill then fillLineEnds s else s

/-- The words a local READ reads (R140). -/
def readWords (offset : Nat) : ReadSize → List (Fin 8)
  | .line => allWords
  | .word => [Fin.ofNat 8 (offset / 8)]

/-- The completion of a local READ (R147). -/
def localReadEnds (tag : HostTag) (line : LineIndex) (offset : Nat) (size : ReadSize) (e : WordErrors) (s : State) : State :=
  let ws := readWords offset size
  let mended := readMends s line e ws
  let poisoned := readPoisoned s line e ws
  let bytes := readBytes (lineSeen s line) offset size
  let s := { s with poison := poisonAfterRead s line e ws, storeOp := none }
  let s := reportMended mended none line (some tag) s
  if poisoned then respond (.fault tag .poison) (reportPoison none line (some tag) s)
  else respond (.data tag bytes mended) s

/-- LOCAL_READ_COMPLETE (R147). -/
def execLocalReadComplete (e : WordErrors) (s : State) : Host.Outcome State Fault Refusal :=
  event s fun s =>
    match s.storeOp with
    | some (.localRead tag line offset size) => localReadEnds tag line offset size e s
    | _ => s

/-- What a drain's outcome tells the host (R145). -/
def drainAnswer (b : LwbEntry) (performed : Bool) (s : State) : State :=
  match performed, b.confirm with
  | true, some tag => respond (.done tag false) s
  | true, none => s
  | false, some tag => respond (.fault tag .poison) (reportPoison none b.line (some tag) s)
  | false, none => { reportPoison none b.line none s with lostWrite := true }

/-- The completion of the drain of the oldest buffer entry (R145). -/
def drainEnds (b : LwbEntry) (rest : List LwbEntry) (e : WordErrors) (s : State) : State :=
  let w := lineWrite s b.line b.mask b.data e
  let s := { s with mem := w.mem, poison := w.poison, storeOp := none, lwb := rest }
  drainAnswer b w.performed (reportMended w.mended none b.line none s)

/-- DRAIN_COMPLETE (R145). -/
def execDrainComplete (e : WordErrors) (s : State) : Host.Outcome State Fault Refusal :=
  event s fun s =>
    match s.storeOp, s.lwb with
    | some .drain, b :: rest => drainEnds b rest e s
    | _, _ => s

/-- SERVE_READ_COMPLETE (R104). -/
def execServeReadComplete (e : WordErrors) (s : State) : Host.Outcome State Fault Refusal :=
  event s fun s =>
    match s.storeOp, s.serveOp with
    | some .serve, some op =>
      match op.req.kind with
      | .ask keep tag epoch => serveReadEnds op keep tag epoch e s
      | .put _ _ _ => s
    | _, _ => s

/-- SERVE_WRITE_COMPLETE (R106). -/
def execServeWriteComplete (e : WordErrors) (s : State) : Host.Outcome State Fault Refusal :=
  event s fun s =>
    match s.storeOp, s.serveOp with
    | some .serve, some op =>
      match op.req.kind with
      | .put _ mask data => serveWriteEnds op mask data e s
      | .ask _ _ _ => s
    | _, _ => s

end Sys2Proof.Machine
end

