-- ==== Sys2Proof/Machine/Timers.lean ====
section
/-! DEFINITION. The expiry of the tracker's timers (R66, R72), the taking of work by the Serve Engine (R98), and what the station
does when no command waits. -/

namespace Sys2Proof.Machine

/-- The backoff timer of an entry in BACKOFF expires: the time it had left has passed (R66). -/
def backoffExpiryEvent (t : Tag) (s : State) : State :=
  let e := s.tracker[t]
  if e.state = .backoff then backoffExpires t (elapse (e.backoffTimer.getD 0) s) else s

/-- The reply timer of a WAITING entry expires: the time it had left has passed (R72). -/
def replyExpiryEvent (t : Tag) (s : State) : State :=
  let e := s.tracker[t]
  if e.state = .waiting then replyTimerExpires t (elapse (e.replyTimer.getD 0) s) else s

/-- BACKOFF_EXPIRY (R66). -/
def execBackoffExpiry (t : Tag) (s : State) : Host.Outcome State Fault Refusal := unlessHeld s (backoffExpiryEvent t s)

/-- REPLY_TIMER_EXPIRY (R72). -/
def execReplyTimerExpiry (t : Tag) (s : State) : Host.Outcome State Fault Refusal := event s (replyExpiryEvent t)

/-- SERVE_TAKE (R98). -/
def execServeTake (s : State) : Host.Outcome State Fault Refusal := event s serveTakeNow

/-- Whether the running timer of an entry has run out (R54). -/
def timerDue (e : Entry) : Bool :=
  e.state == .backoff && e.backoffTimer == some 0 || e.state == .waiting && e.replyTimer == some 0

/-- The lowest tag with a timer that has run out. -/
def dueTag (s : State) : Option Tag := (List.finRange 16).find? fun t => timerDue s.tracker[t]

/-- What the station does when no command waits (log entry 10): a timer that has run out expires; else the Serve Engine takes a
request if it can (R98); else one microsecond passes. -/
def idle (s : State) : State :=
  if s.pinHeld then { s with now := s.now + 1 }
  else
    match dueTag s with
    | some t =>
      if s.tracker[t].state = .waiting then settle s (replyExpiryEvent t s) else backoffExpiryEvent t s
    | none => if canServe s then settle s (serveTakeNow s) else elapse 1 s

end Sys2Proof.Machine
end

