-- ==== Sys2Proof/Machine/Dispatch.lean ====
section
/-! DEFINITION. One arm per command. -/

namespace Sys2Proof.Machine

def exec (i : Instr) (s : State) : Host.Outcome State Fault Refusal :=
  match i with
  | .pinResetAssert => Sys2Proof.Machine.execPinResetAssert s
  | .pinResetRelease snum ssize => Sys2Proof.Machine.execPinResetRelease snum ssize s
  | .hostRequestArrival bytes => Sys2Proof.Machine.execHostRequestArrival bytes s
  | .remoteReadStart tag => Sys2Proof.Machine.execRemoteReadStart tag s
  | .remoteWriteStart tag => Sys2Proof.Machine.execRemoteWriteStart tag s
  | .localWriteTaken tag => Sys2Proof.Machine.execLocalWriteTaken tag s
  | .fenceStart tag => Sys2Proof.Machine.execFenceStart tag s
  | .fenceAnswer => Sys2Proof.Machine.execFenceAnswer s
  | .run tag => Sys2Proof.Machine.execRun tag s
  | .restart tag => Sys2Proof.Machine.execRestart tag s
  | .dropCache tag => Sys2Proof.Machine.execDropCache tag s
  | .clearFaults tag => Sys2Proof.Machine.execClearFaults tag s
  | .setupWordWrite tag word value => Sys2Proof.Machine.execSetupWordWrite tag word value s
  | .interruptMaskWrite tag value => Sys2Proof.Machine.execInterruptMaskWrite tag value s
  | .controlWrite tag word value => Sys2Proof.Machine.execControlWrite tag word value s
  | .contestOpening => Sys2Proof.Machine.execContestOpening s
  | .contestDecision others => Sys2Proof.Machine.execContestDecision others s
  | .frameFalls bits others => Sys2Proof.Machine.execFrameFalls bits others s
  | .askStands source target tag epoch keep line => Sys2Proof.Machine.execAskStands source target tag epoch keep line s
  | .putStands source target confirm line mask data => Sys2Proof.Machine.execPutStands source target confirm line mask data s
  | .giveStands source target tag epoch mended data => Sys2Proof.Machine.execGiveStands source target tag epoch mended data s
  | .noteStands source target tag epoch outcome => Sys2Proof.Machine.execNoteStands source target tag epoch outcome s
  | .recallStands source line sharers => Sys2Proof.Machine.execRecallStands source line sharers s
  | .startStands source => Sys2Proof.Machine.execStartStands source s
  | .senderFrameEnd others => Sys2Proof.Machine.execSenderFrameEnd others s
  | .backoffExpiry tag => Sys2Proof.Machine.execBackoffExpiry tag s
  | .replyTimerExpiry tag => Sys2Proof.Machine.execReplyTimerExpiry tag s
  | .serveTake => Sys2Proof.Machine.execServeTake s
  | .storeGrant => Sys2Proof.Machine.execStoreGrant s
  | .initFillLineComplete => Sys2Proof.Machine.execInitFillLineComplete s
  | .localReadComplete errors => Sys2Proof.Machine.execLocalReadComplete errors s
  | .drainComplete errors => Sys2Proof.Machine.execDrainComplete errors s
  | .serveReadComplete errors => Sys2Proof.Machine.execServeReadComplete errors s
  | .serveWriteComplete errors => Sys2Proof.Machine.execServeWriteComplete errors s

end Sys2Proof.Machine
end

