-- ==== Sys2Proof/Safety.lean ====
section
/-! DEFINITION. What stays true of a station: the ranges, capacities and relations that the spec states of its registers,
records and collections, part by part. Each is a predicate on every state; that the state after reset has it and that every
step keeps it are statements of Certificates/Slice0/Obligations.lean. -/

namespace Sys2Proof.Safety

open Sys2Proof.Machine

/-- The Fault Record (R175 to R177, R180): the line is the level the flags and the mask give; no count exceeds 65,535; a flag
is set exactly when its count is above 0; the first-fault record is filled exactly when a flag is set, and the flag of the
kind it holds is set. -/
structure FaultRecordOk (s : State) : Prop where
  line : s.irq = irqLevel s.flags s.irqMask
  counts_le : ∀ k : Fin 12, s.counts[k] ≤ Config.countLimit
  flag_iff : ∀ k : Fin 12, s.flags.getLsbD k.val = true ↔ 0 < s.counts[k]
  first_iff : s.firstFault = none ↔ s.flags = 0#12
  first_flag : ∀ r, s.firstFault = some r → s.flags.getLsbD (faultPosition r.kind).val = true

/-- The setup words within their ranges (3.7, R49), the serve limit (R51) and the store-size code (R37) within theirs; the urgent
budget at most 8, and at most the station's URGENT_BUDGET while it listens, when setup is closed (R33, R41). -/
structure SetupOk (s : State) : Prop where
  replyWait : Config.replyWaitMin ≤ s.setup.replyWait ∧ s.setup.replyWait ≤ Config.replyWaitMax
  refuseLimit : Config.refuseLimitMin ≤ s.setup.refuseLimit ∧ s.setup.refuseLimit ≤ Config.refuseLimitMax
  refuseStep : Config.refuseStepMin ≤ s.setup.refuseStep ∧ s.setup.refuseStep ≤ Config.refuseStepMax
  urgentBudget : Config.urgentBudgetMin ≤ s.setup.urgentBudget ∧ s.setup.urgentBudget ≤ Config.urgentBudgetMax
  serveLimit : 10 ≤ s.serveLimit ∧ s.serveLimit ≤ 1000
  sizeCode : s.sizeCode ≤ 8
  budget : s.budget ≤ Config.urgentBudgetMax
  round : listening s = true → s.budget ≤ s.setup.urgentBudget

/-- The store's bytes and poisoned words in their canonical forms, so that equal stores are equal data. -/
structure StoreOk (s : State) : Prop where
  mem : Memory.wf s.mem = true
  poison : s.poison.Pairwise (· < ·)

/-- The queues and tables within their capacities and keyed without duplicates (R79, R95, R117, R143, R156, R97, R16). -/
structure QueuesOk (s : State) : Prop where
  hrq : s.hrq.length ≤ Config.hrqCapacity
  tags : (s.hrq.map (·.tag)).Nodup
  lwb : s.lwb.length ≤ Config.lwbCapacity
  svq : s.svq.length ≤ Config.svqCapacity
  cache : s.cache.length ≤ Config.cacheCapacity
  copies : (s.cache.map fun c => (c.owner, c.line)).Nodup
  llt : s.llt.length ≤ Config.lltCapacity
  lent : (s.llt.map (·.line)).Nodup
  sharers : ∀ e ∈ s.llt, e.sharers ≠ 0#16
  pass : s.passCount ≤ Config.passLimit
  spoils : s.spoilCount ≤ Config.lastSpoil

/-- The Reply Queue and the reserve (R97, R109): the reserve is 2 while an operation that is not orphaned is in flight and 0
otherwise, and the frames and the reserve never take more than 12 places. -/
structure ReplyOk (s : State) : Prop where
  reserve : s.reserve = (match s.serveOp with
    | some op => if op.orphaned then 0 else Config.serveReserve
    | none => 0)
  places : s.rpq.length + s.reserve ≤ Config.rpqPlaces

/-- The Span Port offers or sends a frame whose item is still in its queue. -/
def Offers (p : SpanPhase) (o : Offer) : Prop := o.gone = false ∧ ((∃ part, p = .contest part (some o)) ∨ p = .sending o)

/-- The Span Port offers or sends the frame of a tracker entry that is still the item of its frame. -/
def OffersTag (p : SpanPhase) (t : Tag) : Prop := ∃ o, Offers p o ∧ o.source = .tracker t

/-- Outside RUN the Span side of the station is empty (R56, R81, R95, R119): every tracker entry FREE, nothing in the ORQ, the
cache, the Serve Queue or the Lent-Line Table, no operation in flight that is not orphaned, no tracker entry on offer. -/
structure QuietOk (s : State) : Prop where
  tracker : s.station ≠ .run → ∀ t : Tag, s.tracker[t].state = .free
  orq : s.station ≠ .run → s.orq = []
  cache : s.station ≠ .run → s.cache = []
  svq : s.station ≠ .run → s.svq = []
  llt : s.station ≠ .run → s.llt = []
  serve : s.station ≠ .run → ∀ op, s.serveOp = some op → op.orphaned = true
  offer : s.station ≠ .run → ∀ t, ¬OffersTag s.span t

/-- The Reply Queue outside RUN (R42, R108): in STARTING it holds the station's START alone, and the Span Port offers or sends no
other frame of it; in INIT, SETUP and HALTED it holds nothing, and nothing of it is offered or sent. -/
structure LaunchOk (s : State) : Prop where
  silent : listening s = false → s.rpq = []
  starting : s.station = .starting → s.rpq = [{ frame := .start s.number, writeCaused := false, covered := false }]
  offer : s.station ≠ .run → ∀ o, Offers s.span o → o.source = .replyQueue →
    s.station = .starting ∧ o.frame = .start s.number

/-- No station deals with itself: the cache holds no line of its own (R79), no sharer set has its number (R117), and no request
served or waiting to be served is its own (R95, R97). -/
structure OwnOk (s : State) : Prop where
  cache : ∀ c ∈ s.cache, c.owner ≠ s.number
  sharers : ∀ e ∈ s.llt, e.sharers.getLsbD s.number.val = false
  requesters : ∀ r ∈ s.svq, r.requester ≠ s.number
  serving : ∀ op, s.serveOp = some op → op.req.requester ≠ s.number

/-- What the store performs and whom it performs it for (R97, R140, R143): a drain is in flight exactly when the buffer's oldest
entry is draining, no other entry is draining, and a serve operation is that of the Serve Engine's operation in flight. -/
structure StoreWorkOk (s : State) : Prop where
  drain : s.storeOp = some .drain ↔ ∃ b rest, s.lwb = b :: rest ∧ b.draining = true
  others : ∀ b ∈ s.lwb.tail, b.draining = false
  serve : s.storeOp = some .serve → s.serveOp ≠ none

/-- The host tags that the station's records hold for an answer: of the waiters of the tracker's entries, of the buffer's
confirmed entries, of the local READ that the store performs (R53, R143, R147). -/
def heldTags (s : State) : List HostTag :=
  ((List.finRange 16).flatMap fun t : Tag => s.tracker[t].waiters.map waiterTag) ++
    (s.lwb.filterMap (·.confirm) ++
      match s.storeOp with
      | some (.localRead tag _ _ _) => [tag]
      | _ => [])

/-- Every started READ and WRITE of the HRQ is held once for its answer, and nothing else is (R53, R143, R147, R156). -/
structure HeldOk (s : State) : Prop where
  once : (heldTags s).Nodup
  held : ∀ tag, tag ∈ heldTags s ↔ ∃ it ∈ s.hrq, it.tag = tag ∧ it.started = true ∧ isAccess it.req = true

/-- The tracker's entries that are not FREE (R53, R60): at most one ASK for a line is not overtaken, none has this station as its
target, and no refusal count exceeds 15. -/
structure AsksOk (s : State) : Prop where
  single : ∀ t u : Tag, isAskFor s.tracker[t].target s.tracker[t].line s.tracker[t] = true →
    isAskFor s.tracker[t].target s.tracker[t].line s.tracker[u] = true →
    s.tracker[t].overtaken = false → s.tracker[u].overtaken = false → t = u
  targets : ∀ t : Tag, s.tracker[t].state ≠ .free → s.tracker[t].target ≠ s.number
  refusals : ∀ t : Tag, s.tracker[t].refusals ≤ Config.refuseLimitMax

/-- What an entry's state and kind fix of its other fields (R53, R54); only a posted PUT is in a covered set (R164). -/
structure EntryOk (e : Entry) : Prop where
  kind : e.state = .free ↔ e.kind = none
  posted : e.kind = some .putPosted → e.state ≠ .waiting
  backoff : e.backoffTimer.isSome ↔ e.state = .backoff
  reply : e.replyTimer.isSome ↔ e.state = .waiting
  put : e.put.isSome ↔ e.kind = some .putPosted ∨ e.kind = some .putConfirmed
  ask : e.kind = some .ask → 1 ≤ e.waiters.length ∧ e.waiters.length ≤ Config.maxWaiters
  confirmed : e.kind = some .putConfirmed → e.waiters.length = 1
  others : e.kind = none ∨ e.kind = some .putPosted → e.waiters = []
  spoils : e.spoils ≤ Config.lastSpoil
  covered : e.covered = true → e.kind = some .putPosted

/-- The Request Tracker and the ORQ (R53, R54, R57): every entry has the fields of its state and kind; the ORQ holds, without
duplicates, the tags of exactly the entries that are QUEUED or BACKOFF; an entry whose frame is on offer or on the Span is
QUEUED (R57, R77). -/
structure TrackerOk (s : State) : Prop where
  entries : ∀ t : Tag, EntryOk s.tracker[t]
  orq_iff : ∀ t : Tag, t ∈ s.orq ↔ s.tracker[t].state = .queued ∨ s.tracker[t].state = .backoff
  orq_nodup : s.orq.Nodup
  offered : ∀ t, OffersTag s.span t → s.tracker[t].state = .queued

end Sys2Proof.Safety
end

