-- ==== Sys2Proof/Certificates/Slice0/Obligations.lean ====
section
/-! DEFINITION. The statements about the model, from the numbered rules of spec/. A statement of what a command does has as its
conclusion that `exec` answers the next state that the rules give: `settle s u` is u after what the station's own blocks do in
the same event (the tries of R158, a grant of R142, a FENCE's answer of R165). `SettlingRunsOutOfWork` says what settling does
and when it changes nothing, and the statements of the starts, the grant and the Serve Engine's taking say what is done there. -/

open Sys2Proof Sys2Proof.Machine Sys2Proof.Safety

/-! ### Words that several statements share -/

/-- The responses sent, in order, and the requests they answer gone from the HRQ (R154). -/
def Sys2Proof.Claims.sent (rs : List Response) (s : State) : State :=
  { s with hostTx := s.hostTx ++ rs, hrq := s.hrq.filter fun it => !(rs.map responseTag).contains it.tag }

/-- What a released entry holds (R53, R55). -/
def Sys2Proof.Claims.freed (e : Entry) : Entry :=
  { epoch := e.epoch + 1, state := .free, kind := none, target := e.target, line := e.line, keep := false,
    overtaken := false, refusals := 0, spoils := 0, backoffTimer := none, replyTimer := none, put := none, waiters := [],
    covered := false }

/-- Entry t released: FREE, and its tag out of the ORQ (R55). -/
def Sys2Proof.Claims.freedAt (t : Tag) (s : State) : State :=
  { s with tracker := s.tracker.set t.val (Claims.freed s.tracker[t]), orq := s.orq.filter (· != t) }

/-- The answers FAULT with a code to the waiters of an entry, in waiter-list order (R68, R72, R75, R76). -/
def Sys2Proof.Claims.faults (code : HostCode) (ws : List Waiter) : List Response := ws.map fun w => .fault (waiterTag w) code

/-- A fault report, field by field (R173). -/
def Sys2Proof.Claims.fault (kind : FaultKind) (peer : Option Station) (line : Option LineIndex) (tag : Option HostTag) :
    FaultReport :=
  { kind := kind, peer := peer, line := line, hostTag := tag }

/-- The HRQ holds an unstarted request with this tag that may start (R157), and no other with the tag. -/
def Sys2Proof.Claims.Eligible (tag : HostTag) (req : Request) (s : State) : Prop :=
  s.pinHeld = false ∧ (s.hrq.map (·.tag)).Nodup ∧ { tag := tag, req := req, started := false } ∈ eligibleNow s

/-- Nothing of the host waits to start, and nothing waits for a free store. -/
def Sys2Proof.Claims.Quiet (s : State) : Prop :=
  (∀ it ∈ s.hrq, it.started = true ∧ it.req ≠ .fence) ∧
    (s.storeOp.isSome = true ∨ (s.lwb = [] ∧ s.serveOp = none ∧ fillWaits s = false))

/-- A control request with this tag is taken at its arrival and starts at once. -/
def Sys2Proof.Claims.Admits (tag : HostTag) (s : State) : Prop :=
  s.pinHeld = false ∧ Claims.Quiet s ∧ s.hrq.length < 8 ∧ ∀ it ∈ s.hrq, it.tag ≠ tag

/-- A try of an unstarted request makes X of the state s, and the command that names its start makes the same (R158). -/
def Sys2Proof.Claims.Starts (c : Instr) (tag : HostTag) (req : Request) (s X : State) : Prop :=
  tryStart s { tag := tag, req := req, started := false } = some X ∧ exec c s = .next (settle s X)

/-- A try of an unstarted request does not start it, and the command that names its start changes nothing (R158). -/
def Sys2Proof.Claims.Waits (c : Instr) (tag : HostTag) (req : Request) (s : State) : Prop :=
  tryStart s { tag := tag, req := req, started := false } = none ∧ exec c s = .next (settle s s)

/-- The command that names the start of an unstarted request: none for a local READ, which starts at its grant (R162), and for a
control request, which starts at a try alone (R167). -/
def Sys2Proof.Claims.startCommand (s : State) (it : HrqItem) : Option Instr :=
  match it.req with
  | .read addr _ _ _ => if addrStation addr = s.number then none else some (.remoteReadStart it.tag)
  | .write addr _ _ _ => some (if addrStation addr = s.number then .localWriteTaken it.tag else .remoteWriteStart it.tag)
  | .fence => some (.fenceStart it.tag)
  | .controlRead _ => none
  | .controlWrite _ _ => none

/-- What the station's own blocks do next within an event, the model's order (log entry 19): the answer of a FENCE that is due
(R165); else the FAULT of the local READ offered to the store when its routing does not serve it (R159); else the grant of the
store (R142); else the start of the first eligible request in HRQ order that can start (R158). -/
def Sys2Proof.Claims.BlocksDo (s t : State) : Prop :=
  (fenceDue s = true ∧ t = answerFence s) ∨
  (fenceDue s = false ∧ ∃ it addr size cacheable high, offeredRead s = some it ∧ it.req = .read addr size cacheable high ∧
    (s.station = .init ∧ t = respond (.fault it.tag .notReady) s ∨
      s.station ≠ .init ∧ installedLines s.sizeCode ≤ (addrLine addr).toNat ∧ t = respond (.fault it.tag .range) s)) ∨
  (fenceDue s = false ∧ refuseOfferedRead s = none ∧ grant s = some t) ∨
  (fenceDue s = false ∧ refuseOfferedRead s = none ∧ grant s = none ∧
    ∃ earlier it later, eligibleNow s = earlier ++ it :: later ∧ (∀ x ∈ earlier, tryStart s x = none) ∧
      tryStart s it = some t)

/-- The end slots as one station asserts them: ACCEPT alone. -/
def Sys2Proof.Claims.acceptOnly : EndSlots := { spoil := false, accept := true, refuse := false }

/-- What a station notes of the Span at a pin reset: an open contest as one it takes no part in (R34), a frame on the Span, its own
cut short among them, as one it does not receive (R14). -/
def Sys2Proof.Claims.notedAtReset : SpanPhase → SpanPhase
  | .free => .free
  | .contest _ _ => .contest false none
  | .sending _ => .frame false
  | .frame _ => .frame false

/-- A phase of the Span in which the station sends nothing, is no contender and receives no frame (R14, R16). -/
def Sys2Proof.Claims.Silent (p : SpanPhase) : Prop :=
  (∀ o, p ≠ .sending o) ∧ (∀ part o, p ≠ .contest part (some o)) ∧ p ≠ .frame true

/-- The commands at which another station's frame ends. -/
def Sys2Proof.Claims.endsFrame : Instr → Bool
  | .frameFalls _ _ => true
  | .askStands _ _ _ _ _ _ => true
  | .putStands _ _ _ _ _ _ => true
  | .giveStands _ _ _ _ _ _ => true
  | .noteStands _ _ _ _ _ => true
  | .recallStands _ _ _ => true
  | .startStands _ => true
  | _ => false

/-- What a station whose pin is held notes of the Span at a command, so that it does not receive a frame begun before it listens
(R14, R25): an opening, a decision, the end of another station's frame. -/
def Sys2Proof.Claims.notedWhileHeld (c : Instr) (p : SpanPhase) : SpanPhase :=
  match p, c with
  | .sending o, _ => .sending o
  | _, .contestOpening => .contest false none
  | _, .contestDecision others => if others = [] then .free else .frame false
  | .frame whole, c => if Claims.endsFrame c then .free else .frame whole
  | p, _ => p

/-! ### Steps and settling -/

/-- A step with a command at the front of the queue is that command on the queue's rest. -/
def Obligations.StepRunsFrontCommand : Prop :=
  ∀ (c : Instr) (rest : List Instr) (s : State),
    step { s with pending := c :: rest } = exec c { s with pending := rest }

/-- With no command waiting (the model's choice, log entry 10): while the pin is held time passes; otherwise a timer that has
run out expires, lowest tag first; else the Serve Engine takes a request if the conditions of R98 hold; else one microsecond
passes and every running timer counts down. -/
def Obligations.EmptyQueueStep : Prop :=
  ∀ s : State, s.pending = [] →
    (s.pinHeld = true → step s = .next { s with now := s.now + 1 }) ∧
    (s.pinHeld = false →
      (∀ t : Tag, dueTag s = some t → s.tracker[t].state = .waiting → step s = exec (.replyTimerExpiry t) s) ∧
      (∀ t : Tag, dueTag s = some t → s.tracker[t].state = .backoff → step s = exec (.backoffExpiry t) s) ∧
      (dueTag s = none → canServe s = true → step s = exec .serveTake s) ∧
      (dueTag s = none → canServe s = false →
        ∃ t, step s = .next t ∧ t = { s with now := s.now + 1, tracker := t.tracker } ∧
          ∀ x : Tag, t.tracker[x] = { s.tracker[x] with
            backoffTimer := s.tracker[x].backoffTimer.map (· - 1)
            replyTimer := s.tracker[x].replyTimer.map (· - 1) }))

/-- No command and no idle step stops: every step answers a next state. -/
def Obligations.EveryStepAnswersNext : Prop := ∀ s : State, ∃ t, step s = .next t

/-- What follows an event's own effects within it, which the model runs to its end (log entry 11, an inference from R142, R158 and
R165). After it no FENCE is due, no offered READ is to be refused, the arbiter has nothing to grant and no eligible request can
start; the Serve Engine may still take a request, at an event of its own (log entry 10). It is the engine's takings where an event
freed a place that a waiting local WRITE may claim too (R109), as long as both may claim, and then a chain of what the blocks do.
Each of these is what its own command does, and settling goes on from the state it makes. Where nothing waits, settling changes
nothing. -/
def Obligations.SettlingRunsOutOfWork : Prop :=
  (∀ before s : State, let u : State := settle before s
    fenceDue u = false ∧ refuseOfferedRead u = none ∧ grant u = none ∧ ∀ it ∈ eligibleNow u, tryStart u it = none) ∧
  (∀ before s : State,
    (freePlaces s ≤ freePlaces before → engineFirst before s = s) ∧
    (freePlaces before < freePlaces s →
      Relation.ReflTransGen (fun a b => writeClaimsPlace a = true ∧ canServe a = true ∧ b = serveTakeNow a) s
        (engineFirst before s) ∧
      ¬(writeClaimsPlace (engineFirst before s) = true ∧ canServe (engineFirst before s) = true)) ∧
    Relation.ReflTransGen Claims.BlocksDo (engineFirst before s) (settle before s) ∧
    ∀ t, Claims.BlocksDo (engineFirst before s) t → settle before s = settle t t) ∧
  (∀ s : State, s.pinHeld = false →
    exec .serveTake s = .next (settle s (serveTakeNow s)) ∧
    exec .fenceAnswer s = .next (settle s (answerFence s)) ∧
    (∀ t, grant s = some t → exec .storeGrant s = .next (settle s t)) ∧
    ((s.hrq.map (·.tag)).Nodup → ∀ it ∈ eligibleNow s, ∀ t c, tryStart s it = some t → Claims.startCommand s it = some c →
      exec c s = .next (settle s t))) ∧
  (∀ before s : State, Claims.Quiet s → settle before s = s)

/-! ### Reset -/

/-- The station right after a reset, every field but the model's count of free values (log entry 6): the pin-reset values of R38,
R16, R33, R56, R97, R142, R148, R175 to R182 and 3.7. The model's own: that the pin is released, the straps 0 (log entry 2), the
serve limit, the end slots, the timebase and the Span noted as free (log entry 3), the bytes and poisoned words of a store that
nothing has filled (log entry 4), and the fill of line 0 granted within the release (log entry 5). It has every part of
Safety.lean. -/
def Obligations.ResetState : Prop :=
  State.reset.pinHeld = false ∧ State.reset.station = .init ∧ State.reset.runRequested = false ∧
  State.reset.setup = { replyWait := 500, refuseLimit := 8, refuseStep := 16, urgentBudget := 4, cacheEnable := true } ∧
  (∀ p : Station, State.reset.rights[p] = .none) ∧ State.reset.serveLimit = 250 ∧
  State.reset.number = 0 ∧ State.reset.sizeCode = 0 ∧ State.reset.span = .free ∧
  State.reset.slots = { spoil := false, accept := false, refuse := false } ∧ State.reset.storeOp = some .fill ∧
  State.reset.now = 0 ∧
  State.reset.waived = false ∧ State.reset.budget = 4 ∧ State.reset.spoilCount = 0 ∧
  (∀ t : Tag, State.reset.tracker[t] = {
    epoch := 0, state := .free, kind := none, target := 0, line := 0#22, keep := false, overtaken := false, refusals := 0,
    spoils := 0, backoffTimer := none, replyTimer := none, put := none, waiters := [], covered := false }) ∧
  State.reset.orq = [] ∧ State.reset.cache = [] ∧ State.reset.svq = [] ∧ State.reset.serveOp = none ∧
  State.reset.reserve = 0 ∧ State.reset.passCount = 0 ∧ State.reset.rpq = [] ∧ State.reset.llt = [] ∧
  State.reset.turn = .localSide ∧ State.reset.fillProgress = 0 ∧ State.reset.lwb = [] ∧ State.reset.hrq = [] ∧
  State.reset.lostWrite = false ∧ State.reset.hostTx = [] ∧ State.reset.flags = 0#12 ∧
  (∀ k : Fin 12, State.reset.counts[k] = 0) ∧ State.reset.firstFault = none ∧ State.reset.irqMask = 0#12 ∧
  State.reset.irq = false ∧ State.reset.mem = [] ∧ State.reset.poison = [] ∧ State.reset.pending = [] ∧
  FaultRecordOk State.reset ∧ SetupOk State.reset ∧ StoreOk State.reset ∧ QueuesOk State.reset ∧ ReplyOk State.reset ∧
  QuietOk State.reset ∧ TrackerOk State.reset ∧ LaunchOk State.reset ∧ OwnOk State.reset ∧ StoreWorkOk State.reset ∧
  HeldOk State.reset ∧ AsksOk State.reset

/-- PIN_RESET_ASSERT (R38, R149, R170, R182): in whatever state, nothing is answered, every collection, count and flag takes its
pin-reset value, and the station number and size sampled before are kept (R37). That the store's bytes stay as they were is the
model's choice (log entry 4). While the pin is held every command but its release leaves the state as it is (R38, R48), but that
the station notes the phase of the Span (R14, log entry 18). -/
def Obligations.PinResetAssertion : Prop :=
  (∀ s : State, ∃ t, exec .pinResetAssert s = .next t ∧
    t = { State.reset with
      pinHeld := true, storeOp := none, span := Claims.notedAtReset s.span, number := s.number, sizeCode := s.sizeCode, mem := s.mem,
      poison := s.poison, hostTx := s.hostTx, now := s.now, freeCount := s.freeCount, pending := s.pending } ∧
    Claims.Silent t.span) ∧
  (∀ (c : Instr) (s : State), s.pinHeld = true → c ≠ .pinResetAssert → (∀ a b, c ≠ .pinResetRelease a b) →
    exec c s = .next { s with span := Claims.notedWhileHeld c s.span })

/-- PIN_RESET_RELEASE (R37, R38, R142, R148): the straps are sampled, codes 9 to 15 taken as 8, the station is in INIT with
every block at its pin-reset value, silent on the Span (R14, R16), and the fill of line 0 is granted (log entry 5: within the
release's event). A release of a pin that is not held does not occur (log entry 1). -/
def Obligations.PinResetRelease : Prop :=
  ∀ (snum ssize : BitVec 4) (s : State),
    (s.pinHeld = true → ∃ t, exec (.pinResetRelease snum ssize) s = .next t ∧
      t = { State.reset with
        storeOp := some .fill, span := Claims.notedAtReset s.span, number := t.number, sizeCode := min ssize.toNat 8, mem := s.mem,
        poison := s.poison, hostTx := s.hostTx, now := s.now, freeCount := s.freeCount, pending := s.pending } ∧
      t.number.val = snum.toNat ∧ Claims.Silent t.span) ∧
    (s.pinHeld = false → exec (.pinResetRelease snum ssize) s = .next s)

/-! ### Invariants of every step -/

/-- Every step keeps the relations of the Fault Record (R175 to R177, R180), and the setup words, the serve limit and the size code
in their ranges (3.7, R37, R49, R51); the urgent budget stays at most 8, and at most the station's URGENT_BUDGET while it listens
(R33, R41). -/
def Obligations.RegistersStayInRange : Prop :=
  ∀ s t : State, step s = .next t → (FaultRecordOk s → FaultRecordOk t) ∧ (SetupOk s → SetupOk t)

/-- Every step keeps the canonical form of the store's bytes and of its poisoned words. -/
def Obligations.StoreStaysCanonical : Prop := ∀ s t : State, StoreOk s → step s = .next t → StoreOk t

/-- Every step keeps the queues and tables within their capacities and without duplicates, and the Reply Queue with the reserve
within its 12 places: an append never finds it without room (R109). It keeps the station's own lines out of its cache and its own
number out of the sharer sets and the requests served (R79, R95, R117), and keeps the store's operation, the buffer's draining
mark and the Serve Engine's operation together (R97, R140, R143). -/
def Obligations.QueuesNeverOverflow : Prop :=
  ∀ s t : State, step s = .next t →
    (QueuesOk s → QueuesOk t) ∧ (ReplyOk s → ReplyOk t) ∧ (OwnOk s → OwnOk t) ∧ (StoreWorkOk s → StoreWorkOk t)

/-- Every step keeps the Span side of the station empty outside RUN (R56, R81, R95, R119), and the Reply Queue empty in INIT, SETUP
and HALTED and with the START alone in STARTING (R42, R108). -/
def Obligations.QuietOutsideRun : Prop :=
  ∀ s t : State, QuietOk s → step s = .next t → QuietOk t ∧ (LaunchOk s → LaunchOk t)

/-- Every step keeps the relation of the tracker's entries and the ORQ (R53, R54, R57). With it and the ranges and capacities it
keeps every started READ and WRITE held once for its answer (R53, R143, R147, R156), at most one ASK entry for a line that is not
overtaken (R60), no entry whose target is this station, and every refusal count at most 15 (R53). -/
def Obligations.TrackerStaysWellFormed : Prop :=
  ∀ s t : State, step s = .next t → TrackerOk s →
    TrackerOk t ∧ (QueuesOk s → SetupOk s → HeldOk s → HeldOk t ∧ (AsksOk s → AsksOk t))

/-! ### What commands leave unchanged -/

/-- What most commands leave as it is. The store's bytes change at three commands alone, there only in the line written, and only
with the operation in flight: the completion of a fill, of a drain and of a serve write. What the straps gave changes at the
release of the pin alone (R37); what closed setup holds changes at pin reset alone (R41). The model's choices: a pin reset leaves
the store's bytes as they were (log entry 4), the responses sent stay sent (log entry 16), the timebase does not run back (log
entry 22). -/
def Obligations.CommonFrame : Prop :=
  ∀ (c : Instr) (s t : State), exec c s = .next t →
    ((c ≠ .initFillLineComplete ∧ (∀ e, c ≠ .drainComplete e) ∧ ∀ e, c ≠ .serveWriteComplete e) → t.mem = s.mem) ∧
    (Memory.wf s.mem = true → ∀ a : Nat,
      (c = .initFillLineComplete → a / 64 ≠ s.fillProgress → memRead t.mem a = memRead s.mem a) ∧
      (∀ e b rest, c = .drainComplete e → s.lwb = b :: rest → a / 64 ≠ b.line.toNat →
        memRead t.mem a = memRead s.mem a) ∧
      (∀ e op, c = .serveWriteComplete e → s.serveOp = some op → a / 64 ≠ op.req.line.toNat →
        memRead t.mem a = memRead s.mem a)) ∧
    (c = .initFillLineComplete → s.storeOp ≠ some .fill → t.mem = s.mem) ∧
    (∀ e, c = .drainComplete e → s.storeOp ≠ some .drain ∨ s.lwb = [] → t.mem = s.mem) ∧
    (∀ e, c = .serveWriteComplete e →
      (s.storeOp ≠ some .serve ∨ ∀ op, s.serveOp = some op → isServeAsk op.req = true) → t.mem = s.mem) ∧
    ((∀ a b, c ≠ .pinResetRelease a b) → t.number = s.number ∧ t.sizeCode = s.sizeCode) ∧
    (c ≠ .pinResetAssert → (∀ a b, c ≠ .pinResetRelease a b) → setupOpen s = false →
      setupOpen t = false ∧ t.setup = s.setup ∧ t.rights = s.rights ∧ t.serveLimit = s.serveLimit) ∧
    (∃ sent, t.hostTx = s.hostTx ++ sent) ∧ s.now ≤ t.now

/-! ### Layouts -/

/-- A frame sent and received intact is the frame sent: for every frame a station may send (R184). Only those bits are received as a
frame: what has a bad check, bits missing or too many, or a content of R9 is not (R8, R9). The check is the remainder by
the polynomial 1EDC6F41 hex from FFFFFFFF hex, bit after bit in the order sent, most significant end first (the register's form is
log entry 9), it is the frame's last 32 bits, and each kind has the length of its row. -/
def Obligations.FrameRoundTrip : Prop :=
  (∀ f : Frame, frameConsistent f = true → receiveFrame (frameBits f) = some f) ∧
  (∀ (bits : List Bool) (f : Frame), receiveFrame bits = some f → bits = frameBits f ∧ frameConsistent f = true) ∧
  (∀ f : Frame, frameConsistent f = true ↔ match f with
    | .ask source target _ _ _ _ => target ≠ source
    | .put source target _ _ mask _ => target ≠ source ∧ ∃ i : Fin 64, mask.getLsbD i.val = true
    | .give source target _ _ _ _ => target ≠ source
    | .note source target _ _ _ => target ≠ source
    | .recall source _ sharers => (∃ p : Station, sharers.getLsbD p.val = true) ∧ sharers.getLsbD source.val = false
    | .start _ => True) ∧
  crc [] = 0xFFFFFFFF#32 ∧
  (∀ (bits : List Bool) (b : Bool), crc (bits ++ [b]) =
    if (crc bits).msb = b then crc bits <<< 1 else (crc bits <<< 1) ^^^ 0x1EDC6F41#32) ∧
  ∀ f : Frame, ∃ body check : List Bool, frameBits f = body ++ check ∧ check.length = 32 ∧
    (∀ i : Fin 32, check[i.val]? = some ((crc body).getMsbD i.val)) ∧
    body.length = match f with
      | .ask _ _ _ _ _ _ => 42
      | .put _ _ none _ _ _ => 611
      | .put _ _ (some _) _ _ _ => 618
      | .give _ _ _ _ _ _ => 532
      | .note _ _ _ _ _ => 22
      | .recall _ _ _ => 46
      | .start _ => 8

/-- The bytes of a number, most significant byte first (R185). -/
def Sys2Proof.Claims.bytesOf (n : Nat) (v : BitVec (8 * n)) : List Byte :=
  List.ofFn fun i : Fin n => v.extractLsb' (8 * (n - 1 - i.val)) 8

/-- A message whose form R155 turns away: a kind code that is not one of the five, a READ whose size is neither 8 nor 64 or whose
address is not a multiple of it, a WRITE whose address is not a multiple of 64 or whose mask names no byte. -/
def Sys2Proof.Claims.BadForm : HostMsg → Prop
  | .read _ addr size _ => size.toNat ≠ 8 ∧ size.toNat ≠ 64 ∨ ¬ size.toNat ∣ addr.toNat
  | .write _ addr _ mask _ => ¬ 64 ∣ addr.toNat ∨ ∀ i : Fin 64, mask.getLsbD i.val = false
  | .fence _ => False
  | .controlRead _ _ => False
  | .controlWrite _ _ _ => False
  | .unknown _ => True

/-- The request that the fields of a message name; of the flags only the named bits count (R153, R185). -/
def Sys2Proof.Claims.named : HostMsg → Option Request
  | .read _ addr size flags =>
    some (.read addr (if size = 8#8 then .word else .line) (flags.getLsbD 0) (flags.getLsbD 1))
  | .write _ addr flags mask data => some (.write addr mask data (flags.getLsbD 0))
  | .fence _ => some .fence
  | .controlRead _ word => some (.controlRead word)
  | .controlWrite _ word value => some (.controlWrite word value)
  | .unknown _ => none

/-- The bytes of a request of good form, followed by any bytes, are read as that request with its tag. So are those of every
message, field after field: a READ and a WRITE with any address, size and flags, a first byte whose kind code is not 1 to 5 alone;
a message whose bytes are not all there is not read (R185). The form check turns away what R155 lists and nothing else, and makes
of any other message the request it names. The bytes of a response follow its table: of a flags byte, bit 0 (R185). -/
def Obligations.RequestRoundTrip : Prop :=
  (∀ (tag : HostTag) (req : Request) (rest : List Byte), requestWellFormed req = true →
    ∃ m, decodeMsg (requestBytes tag req ++ rest) = some (m, rest) ∧ msgTag m = tag ∧ formCheck m = some req) ∧
  (∀ m : HostMsg, (Claims.BadForm m → formCheck m = none) ∧ (¬ Claims.BadForm m → formCheck m = Claims.named m)) ∧
  decodeMsg [] = none ∧
  ∀ (tag : HostTag) (rest : List Byte),
    let first (kind : Nat) : Byte := BitVec.ofNat 8 (16 * kind + tag.val)
    (∀ (addr : SpanAddr) (size flags : Byte),
      decodeMsg (first 1 :: Claims.bytesOf 4 addr ++ size :: flags :: rest) = some (.read tag addr size flags, rest)) ∧
    (∀ (addr : SpanAddr) (flags : Byte) (mask : Mask) (data : Line),
      decodeMsg (first 2 :: Claims.bytesOf 4 addr ++ flags :: Claims.bytesOf 8 mask ++ data.toList ++ rest) =
        some (.write tag addr flags mask data, rest)) ∧
    decodeMsg (first 3 :: rest) = some (.fence tag, rest) ∧
    (∀ word : Byte, decodeMsg (first 4 :: word :: rest) = some (.controlRead tag word, rest)) ∧
    (∀ (word : Byte) (value : CtrlValue),
      decodeMsg (first 5 :: word :: Claims.bytesOf 8 value ++ rest) = some (.controlWrite tag word value, rest)) ∧
    (∀ kind : Fin 16,
      ((kind.val = 0 ∨ 5 < kind.val) → decodeMsg (first kind.val :: rest) = some (.unknown tag, rest)) ∧
      (decodeMsg (first kind.val :: rest) = none ↔
        rest.length < if kind = 1 then 6 else if kind = 2 then 77 else if kind = 4 then 1 else if kind = 5 then 9 else 0)) ∧
    (∀ bytes mended, ∃ flags : Byte,
      responseBytes (.data tag bytes mended) = first 1 :: flags :: bytes ∧ flags.getLsbD 0 = mended) ∧
    (∀ adjusted, ∃ flags : Byte, responseBytes (.done tag adjusted) = [first 2, flags] ∧ flags.getLsbD 0 = adjusted) ∧
    (∀ code, responseBytes (.fault tag code) = [first 3, match code with
      | .notReady => 1#8 | .notRunning => 2#8 | .absent => 3#8 | .busy => 4#8 | .link => 5#8 | .timeout => 6#8
      | .abandoned => 7#8 | .badRequest => 8#8 | .restarted => 9#8 | .halted => 10#8 | .denied => 11#8 | .range => 12#8
      | .poison => 13#8 | .lostWrite => 14#8 | .setupClosed => 15#8 | .wrongState => 16#8]) ∧
    responseBytes (.retry tag) = [first 4] ∧
    responseBytes (.reject tag .tagBusy) = [first 5, 1#8] ∧ responseBytes (.reject tag .badRequest) = [first 5, 2#8]

/-! ### The host link -/

/-- HOST_REQUEST_ARRIVAL (R155): form (`Claims.BadForm` lists what is turned away), tag, room, in this order; a request that passes joins the HRQ unstarted, and starts are
tried. The model's choice (log entry 15): the messages of a string of bytes are examined one after another, each with what
follows from it, and a message that is not whole does not arrive. -/
def Obligations.ArrivalExamined : Prop :=
  ∀ (bytes : List Byte) (m : HostMsg) (s : State), s.pinHeld = false →
    (decodeMsg bytes = none → exec (.hostRequestArrival bytes) s = .next s) ∧
    (∀ rest, decodeMsg bytes = some (m, rest) →
      exec (.hostRequestArrival bytes) s = exec (.hostRequestArrival rest) (settle s (arrive m s))) ∧
    (decodeMsg bytes = some (m, []) →
      (Claims.BadForm m → exec (.hostRequestArrival bytes) s = .next
        (settle s { s with hostTx := s.hostTx ++ [.reject (msgTag m) .badRequest] })) ∧
      (¬ Claims.BadForm m → (∃ it ∈ s.hrq, it.tag = msgTag m) →
        exec (.hostRequestArrival bytes) s = .next
          (settle s { s with hostTx := s.hostTx ++ [.reject (msgTag m) .tagBusy] })) ∧
      (¬ Claims.BadForm m → (∀ it ∈ s.hrq, it.tag ≠ msgTag m) → 8 ≤ s.hrq.length →
        exec (.hostRequestArrival bytes) s = .next (settle s { s with hostTx := s.hostTx ++ [.retry (msgTag m)] })) ∧
      (∀ req, ¬ Claims.BadForm m → Claims.named m = some req → (∀ it ∈ s.hrq, it.tag ≠ msgTag m) → s.hrq.length < 8 →
        exec (.hostRequestArrival bytes) s = .next
          (settle s { s with hrq := s.hrq ++ [{ tag := msgTag m, req := req, started := false }] })))

/-- Which requests are eligible to start (R157): the unstarted ones that no earlier unstarted request holds back, and a FENCE when
no request stands before it; they are tried in HRQ order (R158). -/
def Obligations.EligibleRequests : Prop :=
  (∀ s : State, (eligibleNow s).Sublist s.hrq ∧ ∀ it : HrqItem, it ∈ eligibleNow s ↔
    ∃ earlier later, s.hrq = earlier ++ it :: later ∧ it.started = false ∧ eligible earlier it.req = true) ∧
  ∀ (earlier : List HrqItem) (r : Request),
    eligible earlier r = true ↔
      (∀ e ∈ earlier, e.started = false →
        e.req ≠ .fence ∧ (∀ w, e.req ≠ .controlRead w) ∧ (∀ w v, e.req ≠ .controlWrite w v) ∧
        requestLine e.req ≠ requestLine r ∧
        (∃ a size c high, r = .read a size c high ∧
          ∀ a' size' c' high', e.req = .read a' size' c' high' → high = true ∧ high' = false)) ∧
      (r = .fence → earlier = [])

/-- REMOTE_READ_START, and what a try does to a remote READ (R59 to R61, R82 to R84, R158 to R160): outside RUN the READ is answered
FAULT NOT_RUNNING; in RUN a hit is answered from the copy, which becomes most recent; otherwise the READ attaches to the ASK
entry for its line that is not FREE, not overtaken and has a place for a waiter, or creates an ASK entry in the lowest FREE tag, or
does not start. -/
def Obligations.RemoteReadStarts : Prop :=
  (∀ (s : State) (t : Tag), freeTag s = some t ↔
    s.tracker[t].state = .free ∧ ∀ u : Tag, u < t → s.tracker[u].state ≠ .free) ∧
  (∀ (owner : Station) (line : LineIndex) (s : State) (t : Tag),
    let joins (u : Tag) : Prop := s.tracker[u].state ≠ .free ∧ s.tracker[u].kind = some .ask ∧ s.tracker[u].target = owner ∧
      s.tracker[u].line = line ∧ s.tracker[u].overtaken = false ∧ s.tracker[u].waiters.length < 8
    attachTag owner line s = some t ↔ joins t ∧ ∀ u : Tag, u < t → ¬joins u) ∧
  ∀ (tag : HostTag) (addr : SpanAddr) (size : ReadSize) (cacheable high : Bool) (s : State),
    Claims.Eligible tag (.read addr size cacheable high) s → addrStation addr ≠ s.number →
    let starts (X : State) : Prop := Claims.Starts (.remoteReadStart tag) tag (.read addr size cacheable high) s X
    (s.station ≠ .run → starts (respond (.fault tag .notRunning) s)) ∧
    (∀ c, s.station = .run → (cacheable && s.setup.cacheEnable) = true → cacheFind (addrStation addr) (addrLine addr) s = some c →
      starts { s with
        hostTx := s.hostTx ++ [.data tag (readBytes c.data (addrOffset addr) size) false]
        hrq := s.hrq.filter fun it => it.tag != tag
        cache := c :: s.cache.filter fun d => !(d.owner == addrStation addr && d.line == addrLine addr) }) ∧
    (s.station = .run → ((cacheable && s.setup.cacheEnable) = true → cacheFind (addrStation addr) (addrLine addr) s = none) →
      (∀ t : Tag, attachTag (addrStation addr) (addrLine addr) s = some t →
        starts { markStarted tag s with
          tracker := s.tracker.set t.val { s.tracker[t] with
            waiters := s.tracker[t].waiters ++ [.read tag (addrOffset addr) size]
            keep := s.tracker[t].keep || (cacheable && s.setup.cacheEnable &&
              (s.tracker[t].state == .queued || s.tracker[t].state == .backoff)) } }) ∧
      (∀ t : Tag, attachTag (addrStation addr) (addrLine addr) s = none → freeTag s = some t →
        starts { markStarted tag s with
          tracker := s.tracker.set t.val {
            epoch := s.tracker[t].epoch, state := .queued, kind := some .ask, target := addrStation addr,
            line := addrLine addr, keep := cacheable && s.setup.cacheEnable, overtaken := false, refusals := 0, spoils := 0,
            backoffTimer := none, replyTimer := none, put := none, waiters := [.read tag (addrOffset addr) size],
            covered := false }
          orq := s.orq ++ [t] }) ∧
      (attachTag (addrStation addr) (addrLine addr) s = none → freeTag s = none →
        Claims.Waits (.remoteReadStart tag) tag (.read addr size cacheable high) s))

/-- REMOTE_WRITE_START, and what a try does to a remote WRITE (R59, R74, R85, R158, R159, R161): outside RUN the WRITE is answered
FAULT NOT_RUNNING; in RUN the copy is updated and made most recent, every ASK entry for the line is overtaken, a PUT entry is
created in the lowest FREE tag; a posted WRITE is answered DONE, a confirmed one waits. With no FREE tag the WRITE does not
start. -/
def Obligations.RemoteWriteStarts : Prop :=
  ∀ (tag : HostTag) (addr : SpanAddr) (mask : Mask) (data : Line) (confirm : Bool) (s : State),
    Claims.Eligible tag (.write addr mask data confirm) s → addrStation addr ≠ s.number →
    let starts (X : State) : Prop := Claims.Starts (.remoteWriteStart tag) tag (.write addr mask data confirm) s X
    (s.station ≠ .run → starts (respond (.fault tag .notRunning) s)) ∧
    (s.station = .run → freeTag s = none →
      Claims.Waits (.remoteWriteStart tag) tag (.write addr mask data confirm) s) ∧
    (∀ t : Tag, s.station = .run → freeTag s = some t → ∃ u, starts u ∧
      u = { (if confirm then markStarted tag s else respond (.done tag false) s) with
        cache := u.cache, tracker := u.tracker, orq := s.orq ++ [t] } ∧
      (∀ c, cacheFind (addrStation addr) (addrLine addr) s = some c →
        u.cache = { c with data := overlay mask data c.data } ::
          s.cache.filter fun d => !(d.owner == addrStation addr && d.line == addrLine addr)) ∧
      (cacheFind (addrStation addr) (addrLine addr) s = none → u.cache = s.cache) ∧
      (∀ x : Tag, x ≠ t → u.tracker[x] =
        if s.tracker[x].state ≠ .free ∧ s.tracker[x].kind = some .ask ∧ s.tracker[x].target = addrStation addr ∧
            s.tracker[x].line = addrLine addr then { s.tracker[x] with overtaken := true } else s.tracker[x]) ∧
      u.tracker[t] = {
        epoch := s.tracker[t].epoch, state := .queued, kind := some (if confirm then .putConfirmed else .putPosted),
        target := addrStation addr, line := addrLine addr, keep := false, overtaken := false, refusals := 0, spoils := 0,
        backoffTimer := none, replyTimer := none, put := some { mask := mask, data := data },
        waiters := if confirm then [.write tag] else [], covered := false })

/-- LOCAL_WRITE_TAKEN, and what a try does to a local WRITE (R123, R124, R144, R158, R159, R163): refused in INIT and beyond the
store; taken when the buffer can receive it and, for a lent line, the Reply Queue has a free place; a posted write merges into the
line's newest entry when that is posted and not draining, and is appended otherwise; a lent line leaves the table with a
write-caused RECALL. -/
def Obligations.LocalWriteTaking : Prop :=
  (∀ (s : State) (line : LineIndex) (confirm : Bool), canMerge s line confirm = true ↔
    confirm = false ∧ ∃ older b newer, s.lwb = older ++ b :: newer ∧ b.line = line ∧ (∀ c ∈ newer, c.line ≠ line) ∧
      b.confirm = none ∧ b.draining = false) ∧
  ∀ (tag : HostTag) (addr : SpanAddr) (mask : Mask) (data : Line) (confirm : Bool) (s : State),
    Claims.Eligible tag (.write addr mask data confirm) s → addrStation addr = s.number →
    let starts (X : State) : Prop := Claims.Starts (.localWriteTaken tag) tag (.write addr mask data confirm) s X
    let waits : Prop := Claims.Waits (.localWriteTaken tag) tag (.write addr mask data confirm) s
    (s.station = .init → starts (respond (.fault tag .notReady) s)) ∧
    (s.station ≠ .init → installedLines s.sizeCode ≤ (addrLine addr).toNat → starts (respond (.fault tag .range) s)) ∧
    (s.station ≠ .init → (addrLine addr).toNat < installedLines s.sizeCode →
      (canMerge s (addrLine addr) confirm = false → 4 ≤ s.lwb.length → waits) ∧
      (∀ e, lltFind (addrLine addr) s = some e → 12 ≤ s.rpq.length + s.reserve → waits) ∧
      (∀ lwb, ((∃ older b newer, s.lwb = older ++ b :: newer ∧ b.line = addrLine addr ∧ (∀ c ∈ newer, c.line ≠ addrLine addr) ∧
            confirm = false ∧ b.confirm = none ∧ b.draining = false ∧
            lwb = older ++ { b with mask := b.mask ||| mask, data := overlay mask data b.data } :: newer) ∨
          canMerge s (addrLine addr) confirm = false ∧ s.lwb.length < 4 ∧
            lwb = s.lwb ++ [{ line := addrLine addr, mask := mask, data := data,
                              confirm := if confirm then some tag else none, draining := false }]) →
        (lltFind (addrLine addr) s = none →
          starts { (if confirm then markStarted tag s else respond (.done tag false) s) with lwb := lwb }) ∧
        (∀ e, lltFind (addrLine addr) s = some e → s.rpq.length + s.reserve < 12 →
          starts { (if confirm then markStarted tag s else respond (.done tag false) s) with
            lwb := lwb
            rpq := s.rpq ++ [{ frame := .recall s.number e.line e.sharers, writeCaused := true, covered := false }]
            spoilCount := if s.rpq.isEmpty then 0 else s.spoilCount
            llt := s.llt.filter fun d => d.line != addrLine addr })))

/-- FENCE_START, what a try does to a FENCE, and FENCE_ANSWER (R158, R164, R165): a FENCE starts with the posted PUT entries and write-caused RECALLs of that moment
as its covered set; a started FENCE whose covered set is empty is answered by the lost-write flag, which is then clear; one
whose set is not empty waits. -/
def Obligations.FenceStartsAndIsAnswered : Prop :=
  (∀ (tag : HostTag) (s : State), Claims.Eligible tag .fence s →
    ((∀ t : Tag, s.tracker[t].kind ≠ some .putPosted) → (∀ it ∈ s.rpq, it.writeCaused = false) →
      Claims.Starts (.fenceStart tag) tag .fence s
        { respond (if s.lostWrite then .fault tag .lostWrite else .done tag false) s with
          lostWrite := false
          tracker := Vector.ofFn fun t : Tag => { s.tracker[t] with covered := false }
          rpq := s.rpq.map fun it => { it with covered := false } }) ∧
    ((∃ t : Tag, s.tracker[t].kind = some .putPosted) ∨ (∃ it ∈ s.rpq, it.writeCaused = true) →
      Claims.Starts (.fenceStart tag) tag .fence s
        { markStarted tag s with
          tracker := Vector.ofFn fun t : Tag => { s.tracker[t] with covered := s.tracker[t].kind == some .putPosted }
          rpq := s.rpq.map fun it => { it with covered := it.writeCaused } })) ∧
  (∀ (tag : HostTag) (s : State), s.pinHeld = false → startedFence s = some tag →
    let answers (X : State) : Prop := answerFence s = X ∧ exec .fenceAnswer s = .next (settle s X)
    ((∀ t : Tag, s.tracker[t].covered = false) → (∀ it ∈ s.rpq, it.covered = false) →
      fenceDue s = true ∧
      answers { respond (if s.lostWrite then .fault tag .lostWrite else .done tag false) s with lostWrite := false }) ∧
    ((∃ t : Tag, s.tracker[t].covered = true) ∨ (∃ it ∈ s.rpq, it.covered = true) → fenceDue s = false ∧ answers s)) ∧
  (∀ s : State, s.pinHeld = false → startedFence s = none →
    fenceDue s = false ∧ exec .fenceAnswer s = .next (settle s s))

/-! ### Commands and the control space -/

/-- The rows that name what a CONTROL WRITE writes are that CONTROL WRITE, whose message is the bytes of R185. -/
def Obligations.ControlRowsAreMessages : Prop :=
  ∀ (tag : HostTag) (s : State),
    exec (.run tag) s = exec (.controlWrite tag 0x04#8 1#64) s ∧
    exec (.restart tag) s = exec (.controlWrite tag 0x04#8 2#64) s ∧
    exec (.dropCache tag) s = exec (.controlWrite tag 0x04#8 3#64) s ∧
    exec (.clearFaults tag) s = exec (.controlWrite tag 0x04#8 4#64) s ∧
    (∀ w v, exec (.setupWordWrite tag w v) s = exec (.controlWrite tag (setupWordNumber w) v) s) ∧
    (∀ v, exec (.interruptMaskWrite tag v) s = exec (.controlWrite tag 0x29#8 v) s) ∧
    (∀ w v, exec (.controlWrite tag w v) s = exec (.hostRequestArrival (requestBytes tag (.controlWrite w v))) s)

/-- The RUN command (R40, R42, R51), on a station on which it starts at once. -/
def Obligations.RunCommand : Prop :=
  ∀ (tag : HostTag) (s : State), Claims.Admits tag s →
    (s.station = .setup → exec (.run tag) s = .next { s with
      hostTx := s.hostTx ++ [.done tag false], station := .starting, runRequested := false
      serveLimit := s.setup.replyWait / 2
      rpq := [{ frame := .start s.number, writeCaused := false, covered := false }], spoilCount := 0
      waived := false, budget := s.setup.urgentBudget }) ∧
    (s.station = .init → s.runRequested = false → exec (.run tag) s = .next { s with
      hostTx := s.hostTx ++ [.done tag false], runRequested := true, serveLimit := s.setup.replyWait / 2 }) ∧
    (s.station = .init → s.runRequested = true →
      exec (.run tag) s = .next { s with hostTx := s.hostTx ++ [.done tag false] }) ∧
    (s.station = .starting ∨ s.station = .run ∨ s.station = .halted →
      exec (.run tag) s = .next { s with hostTx := s.hostTx ++ [.fault tag .wrongState] })

/-- The answers that a teardown gives the waiters of the entries it releases, entry after entry in tag order (R75). -/
def Sys2Proof.Claims.waitersAnswered (code : HostCode) (s : State) : List Response :=
  (List.finRange 16).flatMap fun t : Tag =>
    if s.tracker[t].state = .free then [] else Claims.faults code s.tracker[t].waiters

/-- The unstarted remote READs and WRITEs of a queue, in HRQ order (R171). -/
def Sys2Proof.Claims.unstartedRemote (s : State) : List HrqItem :=
  s.hrq.filter fun it => !it.started && match it.req with
    | .read a _ _ _ => addrStation a != s.number
    | .write a _ _ _ => addrStation a != s.number
    | _ => false

/-- The station after the first answers of a teardown, those to the waiters; a released posted PUT sets the lost-write flag (R75,
R171). -/
def Sys2Proof.Claims.waitersTold (code : HostCode) (s : State) : State :=
  Claims.sent (Claims.waitersAnswered code s)
    { s with lostWrite := s.lostWrite || (List.finRange 16).any fun t : Tag => s.tracker[t].kind == some .putPosted }

/-- The answers that a teardown gives next, to the unstarted remote READs and WRITEs left in the HRQ, in HRQ order (R171). -/
def Sys2Proof.Claims.remoteAnswered (code : HostCode) (s : State) : List Response :=
  (Claims.unstartedRemote (Claims.waitersTold code s)).map fun it => .fault it.tag code

/-- The station after these. -/
def Sys2Proof.Claims.remoteTold (code : HostCode) (s : State) : State :=
  Claims.sent (Claims.remoteAnswered code s) (Claims.waitersTold code s)

/-- The answer of a started FENCE, if there is one, by the lost-write flag (R165). -/
def Sys2Proof.Claims.fenceAnswered (s : State) : List Response :=
  match startedFence s with
  | some tag => [if s.lostWrite then .fault tag .lostWrite else .done tag false]
  | none => []

/-- The station after a RESTART under this tag: torn down, in STARTING with the START alone in the Reply Queue and its contest
state set afresh, the command answered DONE (R42, R45). -/
def Sys2Proof.Claims.restarted (tag : HostTag) (s : State) : State :=
  Claims.sent [.done tag false] { teardown .restarted s with
    station := .starting, runRequested := false, spoilCount := 0, waived := false, budget := s.setup.urgentBudget
    rpq := [{ frame := .start s.number, writeCaused := false, covered := false }] }

/-- The RESTART command (R45): the teardown, then the entry to STARTING (R42), and the DONE after every answer of the teardown;
refused in INIT and SETUP. First on a station on which it is alone. Then wherever it is eligible, a FENCE started before it or
requests waiting behind it: its try starts it, with the answers in the order of R171 (the waiters, the unstarted remote requests,
the started FENCE, the command), and an event in which nothing of R165 and R142 comes first goes on from there. Then at its arrival
behind started requests. -/
def Obligations.RestartCommand : Prop :=
  (∀ (tag : HostTag) (s : State), Claims.Admits tag s →
    (s.station = .starting ∨ s.station = .run ∨ s.station = .halted →
      exec (.restart tag) s = .next { teardown .restarted s with
        hostTx := (teardown .restarted s).hostTx ++ [.done tag false], station := .starting, runRequested := false
        rpq := [{ frame := .start s.number, writeCaused := false, covered := false }], spoilCount := 0
        waived := false, budget := s.setup.urgentBudget }) ∧
    (s.station = .init ∨ s.station = .setup →
      exec (.restart tag) s = .next { s with hostTx := s.hostTx ++ [.fault tag .wrongState] })) ∧
  (∀ (tag : HostTag) (s : State), Claims.Eligible tag (.controlWrite 0x04#8 2#64) s →
    let tried : Option State := tryStart s { tag := tag, req := .controlWrite 0x04#8 2#64, started := false }
    (s.station = .starting ∨ s.station = .run ∨ s.station = .halted → tried = some (Claims.restarted tag s) ∧
      ((∀ t : Tag, EntryOk s.tracker[t]) → (Claims.restarted tag s).hostTx =
        s.hostTx ++ Claims.waitersAnswered .restarted s ++ Claims.remoteAnswered .restarted s ++
          Claims.fenceAnswered (Claims.remoteTold .restarted s) ++ [.done tag false])) ∧
    (s.station = .init ∨ s.station = .setup → tried = some (Claims.sent [.fault tag .wrongState] s)) ∧
    (fenceDue s = false → grant s = none →
      ∀ before x u, engineFirst before x = s → tried = some u → settle before x = settle u u)) ∧
  ∀ (tag : HostTag) (s : State), s.pinHeld = false → s.hrq.length < 8 → (∀ it ∈ s.hrq, it.started = true ∧ it.tag ≠ tag) →
    fenceDue s = false → grant s = none →
    let joined : State := { s with hrq := s.hrq ++ [{ tag := tag, req := .controlWrite 0x04#8 2#64, started := false }] }
    (s.station = .starting ∨ s.station = .run ∨ s.station = .halted → exec (.restart tag) s =
      .next (settle (Claims.restarted tag joined) (Claims.restarted tag joined))) ∧
    (s.station = .init ∨ s.station = .setup → exec (.restart tag) s =
      let u := Claims.sent [.fault tag .wrongState] joined
      .next (settle u u))

/-- Station teardown (R46, R47, R75, R112, R133, R171): what each block takes, the answers in the order of R171, and everything
that is not named here as it was: the store, the Local Write Buffer, the store's operation, the setup words, the rights, the
Fault Record, the straps and the contest state. -/
def Obligations.TeardownEffects : Prop :=
  ∀ (code : HostCode) (s : State), (∀ t : Tag, EntryOk s.tracker[t]) →
    ∃ s1 s2 s3 : State,
      s1 = Claims.waitersTold code s ∧ s2 = Claims.remoteTold code s ∧
      (startedFence s2 = none → s3 = s2) ∧
      (∀ tag, startedFence s2 = some tag → s3 =
        { respond (if s2.lostWrite then .fault tag .lostWrite else .done tag false) s2 with lostWrite := false }) ∧
      teardown code s = { s3 with
        tracker := Vector.ofFn fun t : Tag =>
          if s.tracker[t].state = .free then { s.tracker[t] with epoch := 0 }
          else { Claims.freed s.tracker[t] with epoch := 0 }
        orq := [], cache := [], svq := [], passCount := 0, rpq := [], spoilCount := 0, llt := [], reserve := 0
        serveOp := s.serveOp.map fun op => { op with orphaned := true }
        span := (teardown code s).span } ∧
      (teardown code s).span = (match s.span with
        | .contest part (some o) => .contest part (some { o with gone := true })
        | .sending o => .sending { o with gone := true }
        | p => p)

/-- The DROP_CACHE command (R90): the cache is emptied in any station state. The CLEAR_FAULTS command (R181): the flags, counts,
first-fault record and line are cleared, the mask and every other block keep their values, the lost-write flag with them. Each
is answered DONE with the adjusted flag clear, and nothing else changes. -/
def Obligations.DropCacheAndClearFaults : Prop :=
  ∀ (tag : HostTag) (s : State), Claims.Admits tag s →
    exec (.dropCache tag) s = .next { s with hostTx := s.hostTx ++ [.done tag false], cache := [] } ∧
    exec (.clearFaults tag) s = .next { s with
      hostTx := s.hostTx ++ [.done tag false], flags := 0#12, counts := Vector.replicate 12 0, firstFault := none,
      irq := false }

/-- A CONTROL WRITE to a setup word or rights-table entry (R49): clamped and stored in that word alone while setup is open, the
adjusted flag set when the stored value is not the one written; FAULT SETUP_CLOSED otherwise. -/
def Obligations.SetupWordWritten : Prop :=
  ∀ (tag : HostTag) (v : CtrlValue) (s : State), Claims.Admits tag s →
    let clamped (low high : Nat) : Nat := max low (min high v.toNat)
    let done (stored : Nat) : State := { s with hostTx := s.hostTx ++ [.done tag (stored != v.toNat)] }
    (s.station ≠ .setup → (s.station = .init → s.runRequested = true) → ∀ w,
      exec (.setupWordWrite tag w v) s = .next { s with hostTx := s.hostTx ++ [.fault tag .setupClosed] }) ∧
    (s.station = .setup ∨ s.station = .init ∧ s.runRequested = false →
      exec (.setupWordWrite tag .replyWait v) s = .next
        { done (clamped 20 2000) with setup := { s.setup with replyWait := clamped 20 2000 } } ∧
      exec (.setupWordWrite tag .refuseLimit v) s = .next
        { done (clamped 1 15) with setup := { s.setup with refuseLimit := clamped 1 15 } } ∧
      exec (.setupWordWrite tag .refuseStep v) s = .next
        { done (clamped 1 255) with setup := { s.setup with refuseStep := clamped 1 255 } } ∧
      exec (.setupWordWrite tag .urgentBudget v) s = .next
        { done (clamped 1 8) with setup := { s.setup with urgentBudget := clamped 1 8 } } ∧
      exec (.setupWordWrite tag .cacheEnable v) s = .next
        { done (clamped 0 1) with setup := { s.setup with cacheEnable := v != 0#64 } } ∧
      ∀ p : Station, exec (.setupWordWrite tag (.rights p) v) s = .next
        { done (clamped 0 2) with
          rights := s.rights.set p.val (if v = 0#64 then .none else if v = 1#64 then .read else .readWrite) })

/-- A CONTROL WRITE to the interrupt mask (R179, R180): the twelve kinds' positions replace the whole mask in every station
state, the adjusted flag tells of other positions, and the line takes the level of the flags under the new mask. So for the row that
names the mask and for the row CONTROL_WRITE with the mask's word number. -/
def Obligations.InterruptMaskWritten : Prop :=
  ∀ (tag : HostTag) (v : CtrlValue) (s : State), Claims.Admits tag s →
    let written : State := { s with
      hostTx := s.hostTx ++ [.done tag (decide (4096 ≤ v.toNat))]
      irqMask := v.setWidth 12
      irq := decide (∃ k : Fin 12, s.flags.getLsbD k.val = true ∧ v.getLsbD k.val = true) }
    exec (.interruptMaskWrite tag v) s = .next written ∧ exec (.controlWrite tag 0x29#8 v) s = .next written

/-- A CONTROL WRITE to a read-only word, to a number that names no word, or of a value that is no command is answered FAULT
BAD_REQUEST and changes nothing (R167, R169). A CONTROL READ (R167) is answered DATA with the word's value as 8 bytes, most
significant first, or FAULT BAD_REQUEST for a word that has none, and changes nothing (a read of the first-fault record uses one
free value, log entry 6). -/
def Obligations.ControlRequestsAnswered : Prop :=
  ∀ (tag : HostTag) (w : Byte) (s : State), Claims.Admits tag s →
    (∀ v : CtrlValue, (w ≠ 0x04#8 ∧ w ≠ 0x29#8 ∧ ¬(0x08 ≤ w.toNat ∧ w.toNat ≤ 0x0C) ∧ ¬(0x10 ≤ w.toNat ∧ w.toNat ≤ 0x1F)) ∨
        (w = 0x04#8 ∧ ¬(1 ≤ v.toNat ∧ v.toNat ≤ 4)) →
      exec (.controlWrite tag w v) s = .next { s with hostTx := s.hostTx ++ [.fault tag .badRequest] }) ∧
    exec (.hostRequestArrival (requestBytes tag (.controlRead w))) s = .next { s with
      hostTx := s.hostTx ++ [match controlValue w s with
        | some v => .data tag (beBytes 8 v.toNat) false
        | none => .fault tag .badRequest]
      freeCount := if w = 0x2A#8 then s.freeCount + 1 else s.freeCount }

/-- What the control words read as (R186): each field of each word, 0 in the bits the map assigns to nothing, and nothing for COMMAND
and for the numbers the map does not list. -/
def Obligations.ControlWordValues : Prop :=
  ∀ s : State, TrackerOk s → QueuesOk s → SetupOk s → FaultRecordOk s → s.rpq.length ≤ 12 → s.orq.length ≤ 16 →
    s.fillProgress ≤ 4194304 →
    controlValue 0x00#8 s = some 0x5C2E16400003#64 ∧
    (∃ v, controlValue 0x01#8 s = some v ∧ v.toNat = s.number.val + 256 * s.sizeCode) ∧
    (∃ v, controlValue 0x02#8 s = some v ∧ v.toNat = (match s.station with
      | .init => 0 | .setup => 1 | .starting => 2 | .run => 3 | .halted => 4) + (if s.runRequested then 256 else 0)) ∧
    (∃ v, controlValue 0x03#8 s = some v ∧ v.toNat = s.fillProgress) ∧
    (∀ w : Byte, w.toNat = 0x04 ∨ (0x05 ≤ w.toNat ∧ w.toNat ≤ 0x07) ∨ (0x0D ≤ w.toNat ∧ w.toNat ≤ 0x0F) ∨
        (0x22 ≤ w.toNat ∧ w.toNat ≤ 0x27) ∨ (0x2B ≤ w.toNat ∧ w.toNat ≤ 0x2F) ∨ 0x3C ≤ w.toNat →
      controlValue w s = none) ∧
    (∃ v, controlValue 0x08#8 s = some v ∧ v.toNat = s.setup.replyWait) ∧
    (∃ v, controlValue 0x09#8 s = some v ∧ v.toNat = s.setup.refuseLimit) ∧
    (∃ v, controlValue 0x0A#8 s = some v ∧ v.toNat = s.setup.refuseStep) ∧
    (∃ v, controlValue 0x0B#8 s = some v ∧ v.toNat = s.setup.urgentBudget) ∧
    (∃ v, controlValue 0x0C#8 s = some v ∧ v.toNat = if s.setup.cacheEnable then 1 else 0) ∧
    (∀ p : Station, ∃ v, controlValue (BitVec.ofNat 8 (0x10 + p.val)) s = some v ∧
      v.toNat = (match s.rights[p] with | .none => 0 | .read => 1 | .readWrite => 2)) ∧
    (∃ v, controlValue 0x20#8 s = some v ∧ v.toNat = ((List.finRange 16).filter fun t => s.tracker[t].state != .free).length
      + 2 ^ 8 * s.orq.length + 2 ^ 16 * s.svq.length + 2 ^ 24 * s.rpq.length) ∧
    (∃ v, controlValue 0x21#8 s = some v ∧ v.toNat = s.llt.length + 2 ^ 8 * s.cache.length + 2 ^ 16 * s.lwb.length) ∧
    (∃ v, controlValue 0x28#8 s = some v ∧ v.toNat = s.flags.toNat) ∧
    (∃ v, controlValue 0x29#8 s = some v ∧ v.toNat = s.irqMask.toNat) ∧
    (∃ v, controlValue 0x2A#8 s = some v ∧ ∀ i : Fin 64,
      (1 ≤ i.val ∧ i.val ≤ 7) ∨ (12 ≤ i.val ∧ i.val ≤ 15) ∨ (17 ≤ i.val ∧ i.val ≤ 19) ∨ (25 ≤ i.val ∧ i.val ≤ 27) ∨
        (33 ≤ i.val ∧ i.val ≤ 39) ∨ 62 ≤ i.val → v.getLsbD i.val = false) ∧
    (s.firstFault = none → ∃ v, controlValue 0x2A#8 s = some v ∧ v.getLsbD 0 = false) ∧
    (∀ r, s.firstFault = some r → ∃ v, controlValue 0x2A#8 s = some v ∧ v.getLsbD 0 = true ∧
      (v.extractLsb' 8 4).toNat = (faultPosition r.kind).val ∧
      v.getLsbD 16 = r.peer.isSome ∧ (∀ p, r.peer = some p → (v.extractLsb' 20 4).toNat = p.val) ∧
      v.getLsbD 24 = r.hostTag.isSome ∧ (∀ h, r.hostTag = some h → (v.extractLsb' 28 4).toNat = h.val) ∧
      v.getLsbD 32 = r.line.isSome ∧ (∀ l, r.line = some l → v.extractLsb' 40 22 = l)) ∧
    (∀ k : Fin 12, ∃ v, controlValue (BitVec.ofNat 8 (0x30 + k.val)) s = some v ∧ v.toNat = s.counts[k])

/-! ### Contests -/

/-- The ORQ candidate (R58): the first entry in ORQ order that is QUEUED and has no earlier entry with the same target. -/
def Obligations.OrqCandidateRule : Prop :=
  ∀ (s : State) (t : Tag),
    orqCandidate s = some t ↔
      ∃ earlier later : List Tag, s.orq = earlier ++ t :: later ∧
        (s.tracker[t].state = .queued ∧ ∀ x ∈ earlier, s.tracker[x].target ≠ s.tracker[t].target) ∧
        ∀ (before after : List Tag) (x : Tag), earlier = before ++ x :: after →
          ¬(s.tracker[x].state = .queued ∧ ∀ y ∈ before, s.tracker[y].target ≠ s.tracker[x].target)

/-- CONTEST_OPENING (R25 to R29): a silent station takes no part; a listening one offers the head of its Reply Queue, else the
frame of its ORQ candidate, in the class of R29, or stands aside. It opens anew where another station's frame or an undecided
contest is noted, and changes nothing while the station itself sends: no contest is open then (R24), so both are the model's
choice (log entries 20, 25). -/
def Obligations.ContestOpens : Prop :=
  (∀ (s : State) (o : Offer), s.pinHeld = false → s.span = .sending o → exec .contestOpening s = .next s) ∧
  ∀ s : State, s.pinHeld = false → (∀ o, s.span ≠ .sending o) →
    let offers (offer : Option Offer) : Prop :=
      exec .contestOpening s = .next { s with span := .contest true offer }
    (listening s = false → exec .contestOpening s = .next { s with span := .contest false none }) ∧
    (listening s = true →
      (∀ it rest, s.rpq = it :: rest → frameUrgent it.frame = true → 0 < s.budget →
        offers (some { source := .replyQueue, frame := it.frame, cls := .urgent, gone := false })) ∧
      (∀ it rest, s.rpq = it :: rest → frameUrgent it.frame = true → s.budget = 0 → s.waived = false →
        offers (some { source := .replyQueue, frame := it.frame, cls := .plain, gone := false })) ∧
      (∀ it rest, s.rpq = it :: rest → frameUrgent it.frame = true → s.budget = 0 → s.waived = true → offers none) ∧
      (∀ t : Tag, s.rpq = [] → orqCandidate s = some t → s.waived = true → TrackerOk s → offers none) ∧
      (∀ t : Tag, s.rpq = [] → orqCandidate s = some t → s.waived = false → TrackerOk s → ∃ f,
        offers (some { source := .tracker t, frame := f, cls := .plain, gone := false }) ∧
        (s.tracker[t].kind = some .ask →
          f = .ask s.number s.tracker[t].target t s.tracker[t].epoch s.tracker[t].keep s.tracker[t].line) ∧
        (∀ p, s.tracker[t].kind = some .putPosted → s.tracker[t].put = some p →
          f = .put s.number s.tracker[t].target none s.tracker[t].line p.mask p.data) ∧
        (∀ p, s.tracker[t].kind = some .putConfirmed → s.tracker[t].put = some p →
          f = .put s.number s.tracker[t].target (some (t, s.tracker[t].epoch)) s.tracker[t].line p.mask p.data)) ∧
      (s.rpq = [] → orqCandidate s = none → offers none))

/-- CONTEST_DECISION (R30 to R32): the urgent class first, then the lower number; the winner pays its budget or its waived
flag and sends; an idle contest refreshes both at every station that took part; a contest that another station wins changes
no contest state. A decision with no contest noted open is that of one the station took no part in, and one while the station
itself sends changes nothing: the model's choice (log entries 20, 25). -/
def Obligations.ContestDecides : Prop :=
  ∀ (others : List Contender) (s : State), s.pinHeld = false →
    (∀ part o, s.span = .contest part (some o) →
      let wins : Prop := ∀ c ∈ others, (o.cls = .urgent ∧ c.cls = .plain) ∨ (o.cls = c.cls ∧ s.number ≤ c.number)
      (wins → o.cls = .urgent →
        exec (.contestDecision others) s = .next { s with span := .sending o, budget := s.budget - 1 }) ∧
      (wins → o.cls = .plain →
        exec (.contestDecision others) s = .next { s with span := .sending o, waived := true }) ∧
      (¬wins → exec (.contestDecision others) s = .next { s with span := .frame (listening s) })) ∧
    (∀ part, s.span = .contest part none →
      (others = [] → part = true → exec (.contestDecision others) s = .next
        { s with span := .free, waived := false, budget := s.setup.urgentBudget }) ∧
      (others = [] → part = false → exec (.contestDecision others) s = .next { s with span := .free }) ∧
      (others ≠ [] → exec (.contestDecision others) s = .next { s with span := .frame (listening s) })) ∧
    (s.span = .free ∨ (∃ whole, s.span = .frame whole) →
      (others = [] → exec (.contestDecision others) s = .next { s with span := .free }) ∧
      (others ≠ [] → exec (.contestDecision others) s = .next { s with span := .frame (listening s) })) ∧
    (∀ o, s.span = .sending o → exec (.contestDecision others) s = .next s)

/-! ### Frames of other stations -/

/-- The stand-or-fall rule (R13, R17): the classification of a frame from its three end slots. -/
def Obligations.StandOrFallRule : Prop :=
  ∀ spoil accept refuse addressed : Bool,
    classify { spoil := spoil, accept := accept, refuse := refuse } addressed =
      match spoil, refuse, accept, addressed with
      | true, _, _, _ => .spoiled
      | false, true, _, _ => .refused
      | false, false, false, true => .absent
      | false, false, false, false => .stood
      | false, false, true, _ => .stood

/-- FRAME_FALLS (R8 to R14): a receiving station asserts SPOIL alone for a frame it finds bad, ACCEPT or REFUSE alone as a target
in RUN, and nothing otherwise; it takes nothing of a frame that falls. -/
def Obligations.FallenFrameIsNotTaken : Prop :=
  ∀ (bits : List Bool) (others : EndSlots) (s : State), s.pinHeld = false → receives s = true →
    let ends (slots : EndSlots) : State := { s with slots := slots, span := spanAfterFrame s.span }
    (receiveFrame bits = none →
      exec (.frameFalls bits others) s = .next (ends { spoil := true, accept := false, refuse := false })) ∧
    (∀ f, receiveFrame bits = some f →
      (frameTarget f = some s.number → s.station = .run → isRequestFrame f = true → 8 ≤ s.svq.length →
        exec (.frameFalls bits others) s = .next (ends { spoil := false, accept := false, refuse := true })) ∧
      (frameTarget f = some s.number → s.station = .run → (isRequestFrame f = true → s.svq.length < 8) →
        (others.spoil = true ∨ others.refuse = true) →
        exec (.frameFalls bits others) s = .next (ends { spoil := false, accept := true, refuse := false })) ∧
      ((frameTarget f ≠ some s.number ∨ s.station = .starting) →
        classify others (frameTarget f).isSome ≠ .stood →
        exec (.frameFalls bits others) s = .next (ends { spoil := false, accept := false, refuse := false })))

/-- A station that does not receive a frame asserts nothing at its end and takes nothing of it, stand or fall: it is silent, was
not listening when the frame began, or sends itself (R14, R16). -/
def Obligations.UnreceivedFrameIsNotTaken : Prop :=
  ∀ (c : Instr) (s : State), s.pinHeld = false → receives s = false →
    let u : State := { s with
      slots := { spoil := false, accept := false, refuse := false }, span := spanAfterFrame s.span }
    (∀ bits others, exec (.frameFalls bits others) s = .next u) ∧
    ((∃ src tgt tag ep keep line, c = .askStands src tgt tag ep keep line) ∨
        (∃ src tgt confirm line mask data, c = .putStands src tgt confirm line mask data) ∨
        (∃ src tgt tag ep mended data, c = .giveStands src tgt tag ep mended data) ∨
        (∃ src tgt tag ep outcome, c = .noteStands src tgt tag ep outcome) ∨
        (∃ src line sharers, c = .recallStands src line sharers) ∨ (∃ src, c = .startStands src) →
      exec c s = .next (settle s u))

/-- ASK_STANDS (R2, R11, R96): its target in RUN, with fewer than 8 requests queued, appends the request with the time of the
standing; one with 8 refuses it and appends nothing; another station draws no effect. -/
def Obligations.AskStands : Prop :=
  ∀ (source target : Station) (tag : Tag) (epoch : Epoch) (keep : Bool) (line : LineIndex) (s : State),
    s.pinHeld = false → receives s = true → source ≠ target → source ≠ s.number →
    let ends (slots : EndSlots) : State := { s with slots := slots, span := spanAfterFrame s.span }
    (target = s.number → s.station = .run → s.svq.length < 8 →
      exec (.askStands source target tag epoch keep line) s = .next (settle s { ends Claims.acceptOnly with
        svq := s.svq ++ [{ requester := source, line := line, kind := .ask keep tag epoch, acceptedAt := s.now }] })) ∧
    (target = s.number → s.station = .run → 8 ≤ s.svq.length →
      exec (.askStands source target tag epoch keep line) s = .next (settle s
        (ends { spoil := false, accept := false, refuse := true }))) ∧
    (target ≠ s.number ∨ s.station = .starting →
      exec (.askStands source target tag epoch keep line) s = .next (settle s
        (ends { spoil := false, accept := false, refuse := false })))

/-- PUT_STANDS (R3, R11, R73, R87, R96, R129): its target in RUN appends the request and leaves the writer alone in the line's
sharer set, and with 8 requests queued refuses it; its target in STARTING asserts neither slot, and the PUT has no effect on it;
another station drops its copy of the line and marks its WAITING ASK entries for the line overtaken. -/
def Obligations.PutStands : Prop :=
  ∀ (source target : Station) (confirm : Option (Tag × Epoch)) (line : LineIndex) (mask : Mask) (data : Line) (s : State),
    s.pinHeld = false → receives s = true → source ≠ target → mask ≠ 0#64 → source ≠ s.number →
    let ends (slots : EndSlots) : State := { s with slots := slots, span := spanAfterFrame s.span }
    (target = s.number → s.station = .run → s.svq.length < 8 →
      exec (.putStands source target confirm line mask data) s = .next (settle s { ends Claims.acceptOnly with
        svq := s.svq ++ [{ requester := source, line := line, kind := .put confirm mask data, acceptedAt := s.now }]
        llt := s.llt.filterMap fun e =>
          if e.line ≠ line then some e
          else if e.sharers.getLsbD source.val then some { e with sharers := 1#16 <<< source.val } else none })) ∧
    (target = s.number → s.station = .run → 8 ≤ s.svq.length →
      exec (.putStands source target confirm line mask data) s = .next (settle s
        (ends { spoil := false, accept := false, refuse := true }))) ∧
    (target = s.number → s.station = .starting →
      exec (.putStands source target confirm line mask data) s = .next (settle s
        (ends { spoil := false, accept := false, refuse := false }))) ∧
    (target ≠ s.number →
      exec (.putStands source target confirm line mask data) s = .next (settle s
        { ends { spoil := false, accept := false, refuse := false } with
          cache := s.cache.filter fun c => !(c.owner == target && c.line == line)
          tracker := Vector.ofFn fun t : Tag =>
            if s.tracker[t].state = .waiting ∧ s.tracker[t].kind = some .ask ∧ s.tracker[t].target = target ∧
                s.tracker[t].line = line then { s.tracker[t] with overtaken := true } else s.tracker[t] }))

/-- What a waiter of an ASK entry is answered by a line (R70). -/
def Sys2Proof.Claims.dataFor (data : Line) (mended : Bool) : Waiter → Response
  | .read tag _ .line => .data tag data.toList mended
  | .read tag offset .word => .data tag ((data.toList.drop offset).take 8) mended
  | .write tag => .done tag false

/-- GIVE_STANDS at its target in RUN, where the entry its tag names waits for it (R69, R70, R86): each waiter is answered in
order with the bytes it asked for, the line is installed if keep is set, CACHE_ENABLE is 1 and the entry is not overtaken, and
the entry is released. -/
def Obligations.GiveAnswersWaiters : Prop :=
  ∀ (source target : Station) (tag : Tag) (epoch : Epoch) (mended : Bool) (data : Line) (s : State),
    s.pinHeld = false → receives s = true → s.station = .run → source ≠ target → source ≠ s.number → target = s.number →
    s.tracker[tag].state = .waiting → s.tracker[tag].epoch = epoch → s.tracker[tag].target = source →
    s.tracker[tag].kind = some .ask →
    let u : State := Claims.freedAt tag (Claims.sent (s.tracker[tag].waiters.map (Claims.dataFor data mended))
      { s with slots := Claims.acceptOnly, span := spanAfterFrame s.span })
    exec (.giveStands source target tag epoch mended data) s = .next (settle s
      (if s.tracker[tag].keep = true ∧ s.setup.cacheEnable = true ∧ s.tracker[tag].overtaken = false then
        { u with cache := { owner := source, line := s.tracker[tag].line, data := data } ::
          (s.cache.filter fun c => !(c.owner == source && c.line == s.tracker[tag].line)).take 15 }
      else u))

/-- NOTE_STANDS at its target in RUN, where the entry its tag names waits for it (R69, R71): each waiter is answered by the
outcome, nothing is handed to the cache, no fault is reported, and the entry is released. -/
def Obligations.NoteAnswersWaiters : Prop :=
  ∀ (source target : Station) (tag : Tag) (epoch : Epoch) (outcome : NoteOutcome) (s : State),
    s.pinHeld = false → receives s = true → s.station = .run → source ≠ target → source ≠ s.number → target = s.number →
    s.tracker[tag].state = .waiting → s.tracker[tag].epoch = epoch → s.tracker[tag].target = source →
    (s.tracker[tag].kind = some .putConfirmed ∨ s.tracker[tag].kind = some .ask ∧ outcome ≠ .done) →
    exec (.noteStands source target tag epoch outcome) s = .next (settle s
      (Claims.freedAt tag (Claims.sent
        (s.tracker[tag].waiters.map fun w => match outcome with
          | .done => .done (waiterTag w) false
          | .denied => .fault (waiterTag w) .denied
          | .range => .fault (waiterTag w) .range
          | .poison => .fault (waiterTag w) .poison)
        { s with slots := Claims.acceptOnly, span := spanAfterFrame s.span })))

/-- A GIVE or NOTE that does not match the entry its tag names is stray (R69): it changes no entry, answers no waiter, hands
nothing to the cache, and reports STRAY with its source and the line the entry holds. A reply for another station has no effect
(R15), whatever entry its tag names here; nor has one for this station before RUN, which does not accept it (R11). -/
def Obligations.StrayReply : Prop :=
  ∀ (c : Instr) (source target : Station) (tag : Tag) (epoch : Epoch) (s : State),
    s.pinHeld = false → receives s = true → source ≠ target → source ≠ s.number →
    ((∃ mended data, c = .giveStands source target tag epoch mended data ∧
        ¬(s.tracker[tag].state = .waiting ∧ s.tracker[tag].epoch = epoch ∧ s.tracker[tag].target = source ∧
          s.tracker[tag].kind = some .ask)) ∨
      (∃ outcome, c = .noteStands source target tag epoch outcome ∧
        ¬(s.tracker[tag].state = .waiting ∧ s.tracker[tag].epoch = epoch ∧ s.tracker[tag].target = source ∧
          (s.tracker[tag].kind = some .putConfirmed ∨ s.tracker[tag].kind = some .ask ∧ outcome ≠ .done))) →
      target = s.number → s.station = .run → exec c s = .next (settle s
        (takeReport (Claims.fault .stray (some source) (some s.tracker[tag].line) none)
          { s with slots := Claims.acceptOnly, span := spanAfterFrame s.span }))) ∧
    ((∃ mended data, c = .giveStands source target tag epoch mended data) ∨
        (∃ outcome, c = .noteStands source target tag epoch outcome) →
      target ≠ s.number ∨ s.station = .starting → exec c s = .next (settle s
      { s with slots := { spoil := false, accept := false, refuse := false }, span := spanAfterFrame s.span }))

/-- RECALL_STANDS (R6, R88): a station its sharer set names drops its copy of the line; another keeps it. -/
def Obligations.RecallDropsCopy : Prop :=
  ∀ (source : Station) (line : LineIndex) (sharers : SharerSet) (s : State),
    s.pinHeld = false → receives s = true → sharers ≠ 0#16 → sharers.getLsbD source.val = false → source ≠ s.number →
    let u : State := { s with slots := { spoil := false, accept := false, refuse := false }, span := spanAfterFrame s.span }
    (sharers.getLsbD s.number.val = true → exec (.recallStands source line sharers) s = .next (settle s
      { u with cache := s.cache.filter fun c => !(c.owner == source && c.line == line) })) ∧
    (sharers.getLsbD s.number.val = false → exec (.recallStands source line sharers) s = .next (settle s u))

/-- START_STANDS from another station X (R7, R76, R89, R110, R131): WAITING entries to X are abandoned, their waiters answered and
one report made for each in tag order; X's requests leave the Serve Queue, its operation is orphaned, replies to it leave the
Reply Queue; X leaves every sharer set; X's lines leave the cache. -/
def Obligations.StartForgetsItsSource : Prop :=
  ∀ (x : Station) (s : State), s.pinHeld = false → receives s = true → x ≠ s.number →
    let gone (t : Tag) : Bool := s.tracker[t].state == .waiting && s.tracker[t].target == x
    let tags : List Tag := (List.finRange 16).filter gone
    let reported : State := tags.foldl (fun u t => takeReport (Claims.fault .abandoned (some x) (some s.tracker[t].line)
      (s.tracker[t].waiters.head?.map waiterTag)) u) s
    let replyToX (it : RpqItem) : Bool := match it.frame with
      | .give _ tgt _ _ _ _ => tgt == x
      | .note _ tgt _ _ _ => tgt == x
      | _ => false
    let ownOp : Bool := match s.serveOp with
      | some op => op.req.requester == x
      | none => false
    exec (.startStands x) s = .next (settle s
      { Claims.sent (tags.flatMap fun t => Claims.faults .abandoned s.tracker[t].waiters) reported with
        slots := { spoil := false, accept := false, refuse := false }
        span := spanAfterFrame s.span
        tracker := Vector.ofFn fun t : Tag => if gone t then Claims.freed s.tracker[t] else s.tracker[t]
        orq := s.orq.filter fun t => !gone t
        svq := s.svq.filter fun r => r.requester != x
        serveOp := s.serveOp.map fun op => if op.req.requester = x then { op with orphaned := true } else op
        reserve := if ownOp then 0 else s.reserve
        rpq := s.rpq.filter fun it => !replyToX it
        spoilCount := if (s.rpq.head?.map replyToX).getD false then 0 else s.spoilCount
        llt := s.llt.filterMap fun e =>
          if e.sharers &&& ~~~(1#16 <<< x.val) = 0#16 then none
          else some { e with sharers := e.sharers &&& ~~~(1#16 <<< x.val) }
        cache := s.cache.filter fun c => c.owner != x })

/-- A standing frame with the station's own number as source that it did not send (R22, R44): fault DUPLICATE, then the
teardown with code HALTED, and the station is in HALTED; no other effect of the frame is taken. -/
def Obligations.DuplicateHalts : Prop :=
  ∀ (c : Instr) (f : Frame) (s : State), s.pinHeld = false → receives s = true → frameConsistent f = true →
    frameSource f = s.number →
    ((∃ src tgt tag ep keep line, f = .ask src tgt tag ep keep line ∧ c = .askStands src tgt tag ep keep line) ∨
      (∃ src tgt confirm line mask data, f = .put src tgt confirm line mask data ∧
        c = .putStands src tgt confirm line mask data) ∨
      (∃ src tgt tag ep mended data, f = .give src tgt tag ep mended data ∧ c = .giveStands src tgt tag ep mended data) ∨
      (∃ src tgt tag ep outcome, f = .note src tgt tag ep outcome ∧ c = .noteStands src tgt tag ep outcome) ∨
      (∃ src line sharers, f = .recall src line sharers ∧ c = .recallStands src line sharers) ∨
      ∃ src, f = .start src ∧ c = .startStands src) →
    exec c s = .next (settle s
      { teardown .halted (takeReport (Claims.fault .duplicate (some s.number) none none)
          { s with slots := { spoil := false, accept := false, refuse := false }, span := spanAfterFrame s.span }) with
        station := .halted })

/-! ### The end of the station's own frame -/

/-- An entry that fails (R68): its waiters are answered FAULT with the code, a posted PUT sets the lost-write flag, the fault is
reported with the host tag of the first waiter, and the entry is released. -/
def Sys2Proof.Claims.failed (t : Tag) (code : HostCode) (kind : FaultKind) (s : State) : State :=
  let u : State := Claims.freedAt t (takeReport (Claims.fault kind (some s.tracker[t].target) (some s.tracker[t].line)
    (s.tracker[t].waiters.head?.map waiterTag)) (Claims.sent (Claims.faults code s.tracker[t].waiters) s))
  { u with lostWrite := s.lostWrite || s.tracker[t].kind == some .putPosted }

/-- SENDER_FRAME_END for a tracker entry whose frame stands (R17, R62, R63): a posted PUT is released; any other entry leaves the
ORQ and waits REPLY_WAIT microseconds for its reply, the keep flag of an ASK as its frame carried it. -/
def Obligations.EntryFrameStands : Prop :=
  ∀ (t : Tag) (others : EndSlots) (o : Offer) (s : State), s.pinHeld = false → s.span = .sending o → o.gone = false →
    o.source = .tracker t → s.tracker[t].state = .queued → (frameTarget o.frame).isSome = true →
    classify others true = .stood →
    let u : State := { s with span := .free, slots := { spoil := false, accept := false, refuse := false } }
    (s.tracker[t].kind = some .putPosted →
      exec (.senderFrameEnd others) s = .next (settle s (Claims.freedAt t u))) ∧
    (∀ keep, s.tracker[t].kind ≠ some .putPosted →
      (keep = match o.frame with
        | .ask _ _ _ _ k _ => k
        | _ => false) →
      exec (.senderFrameEnd others) s = .next (settle s { u with
        tracker := s.tracker.set t.val { s.tracker[t] with
          state := .waiting, replyTimer := some s.setup.replyWait, keep := keep }
        orq := s.orq.filter (· != t) }))

/-- SENDER_FRAME_END for a tracker entry whose frame falls (R64, R65, R67, R68): spoiled, it counts to the fourth, which fails it
with LINK; refused, it backs off REFUSE_STEP times its refusal count, until REFUSE_LIMIT fails it with BUSY; absent, it fails
with ABSENT at once. -/
def Obligations.EntryFrameFalls : Prop :=
  ∀ (t : Tag) (others : EndSlots) (o : Offer) (s : State), s.pinHeld = false → s.span = .sending o → o.gone = false →
    o.source = .tracker t → s.tracker[t].state = .queued → (frameTarget o.frame).isSome = true →
    let u : State := { s with span := .free, slots := { spoil := false, accept := false, refuse := false } }
    (classify others true = .spoiled → s.tracker[t].spoils < 3 →
      exec (.senderFrameEnd others) s = .next (settle s
        { u with tracker := s.tracker.set t.val { s.tracker[t] with spoils := s.tracker[t].spoils + 1 } })) ∧
    (classify others true = .spoiled → s.tracker[t].spoils = 3 →
      exec (.senderFrameEnd others) s = .next (settle s (Claims.failed t .link .link u))) ∧
    (classify others true = .refused → s.tracker[t].refusals + 1 < s.setup.refuseLimit →
      exec (.senderFrameEnd others) s = .next (settle s
        { u with tracker := s.tracker.set t.val { s.tracker[t] with
          refusals := s.tracker[t].refusals + 1, spoils := 0, state := .backoff
          backoffTimer := some (s.setup.refuseStep * (s.tracker[t].refusals + 1)) } })) ∧
    (classify others true = .refused → s.tracker[t].refusals + 1 = s.setup.refuseLimit →
      exec (.senderFrameEnd others) s = .next (settle s (Claims.failed t .busy .busyOut u))) ∧
    (classify others true = .absent →
      exec (.senderFrameEnd others) s = .next (settle s (Claims.failed t .absent .absentOut u)))

/-- SENDER_FRAME_END for the head of the Reply Queue when it stands (R18, R43): it leaves the queue and the next head has spoil
count 0; the station's own START takes a station in STARTING to RUN. The outcome of a frame whose item is gone is discarded,
and it moves the station to no other state (R23). -/
def Obligations.ReplyHeadStands : Prop :=
  ∀ (others : EndSlots) (o : Offer) (s : State), s.pinHeld = false → s.span = .sending o →
    let u : State := { s with span := .free, slots := { spoil := false, accept := false, refuse := false } }
    (o.gone = true → exec (.senderFrameEnd others) s = .next (settle s u)) ∧
    (o.gone = false → o.source = .replyQueue → frameUrgent o.frame = true →
      classify others (frameTarget o.frame).isSome = .stood →
      exec (.senderFrameEnd others) s = .next (settle s { u with
        rpq := s.rpq.tail
        spoilCount := 0
        station := if s.station = .starting ∧ o.frame = .start (frameSource o.frame) then .run else s.station }))

/-- SENDER_FRAME_END for the head of the Reply Queue when it falls (R19 to R21, R44): a frame spoiled fewer than four times stays
and counts; the fourth spoil drops a GIVE or NOTE with fault LINK, and halts the station for a RECALL or START with fault LINK;
a GIVE or NOTE that falls absent or refused is dropped with fault ABSENT_OUT. -/
def Obligations.ReplyHeadFalls : Prop :=
  ∀ (others : EndSlots) (o : Offer) (s : State), s.pinHeld = false → s.span = .sending o → o.gone = false →
    o.source = .replyQueue → frameUrgent o.frame = true →
    let u : State := { s with span := .free, slots := { spoil := false, accept := false, refuse := false } }
    (others.spoil = true → s.spoilCount < 3 →
      exec (.senderFrameEnd others) s = .next (settle s { u with spoilCount := s.spoilCount + 1 })) ∧
    (∀ target, frameTarget o.frame = some target →
      (others.spoil = true → s.spoilCount = 3 →
        exec (.senderFrameEnd others) s = .next (settle s
          { takeReport (Claims.fault .link (some target) none none) u with rpq := s.rpq.tail, spoilCount := 0 })) ∧
      (classify others true = .absent ∨ classify others true = .refused →
        exec (.senderFrameEnd others) s = .next (settle s
          { takeReport (Claims.fault .absentOut (some target) none none) u with
            rpq := s.rpq.tail, spoilCount := 0 }))) ∧
    (others.spoil = true → s.spoilCount = 3 → frameTarget o.frame = none →
      exec (.senderFrameEnd others) s = .next (settle s
        { teardown .halted (takeReport (Claims.fault .link none
            (match o.frame with
              | .recall _ line _ => some line
              | _ => none) none) u) with
          station := .halted }))

/-! ### Timers -/

/-- BACKOFF_EXPIRY (R66): the entry is QUEUED again in its ORQ place. REPLY_TIMER_EXPIRY (R72): each waiter is answered FAULT
TIMEOUT, TIMEOUT is reported with the target, the line and the first waiter's host tag, and the entry is released. At either the
time the timer had left has passed, for every running timer (log entry 13). -/
def Obligations.TimersExpire : Prop :=
  ∀ (t : Tag) (n : Nat) (s : State), s.pinHeld = false →
    let later : State := { s with
      now := s.now + n
      tracker := Vector.ofFn fun x : Tag => { s.tracker[x] with
        backoffTimer := s.tracker[x].backoffTimer.map (· - n), replyTimer := s.tracker[x].replyTimer.map (· - n) } }
    (s.tracker[t].state = .backoff → s.tracker[t].backoffTimer = some n → exec (.backoffExpiry t) s = .next
      { later with tracker := later.tracker.set t.val { later.tracker[t] with state := .queued, backoffTimer := none } }) ∧
    (s.tracker[t].state = .waiting → s.tracker[t].replyTimer = some n → exec (.replyTimerExpiry t) s = .next (settle s
      (Claims.freedAt t (takeReport (Claims.fault .timeout (some s.tracker[t].target) (some s.tracker[t].line)
        (s.tracker[t].waiters.head?.map waiterTag)) (Claims.sent (Claims.faults .timeout s.tracker[t].waiters) later)))))

/-! ### The Serve Engine -/

/-- The Serve Engine's choice (R99): the oldest clear ASK goes ahead of an oldest PUT while the pass count is below 4; in every
other case the oldest request is taken and the pass count is 0. -/
def Obligations.ServeChoice : Prop :=
  ∀ (pass : Nat) (oldest : ServeReq) (rest : List ServeReq),
    let queue : List ServeReq := oldest :: rest
    let clear (before : List ServeReq) (r : ServeReq) : Prop :=
      isServeAsk r = true ∧ ∀ q ∈ before, q.line ≠ r.line
    (isServeAsk oldest = false → pass < 4 →
      ∀ (before after : List ServeReq) (a : ServeReq), queue = before ++ a :: after → clear before a →
        (∀ (p q : List ServeReq) (b : ServeReq), before = p ++ b :: q → ¬clear p b) →
        chooseServe pass queue = some (a, before ++ after, pass + 1)) ∧
    ((isServeAsk oldest = true ∨ 4 ≤ pass ∨
        ∀ (before after : List ServeReq) (a : ServeReq), queue = before ++ a :: after → ¬clear before a) →
      chooseServe pass queue = some (oldest, rest, 0))

/-- SERVE_TAKE (R98, R100 to R103): the request chosen leaves the Serve Queue and is checked for age, rights and range, in this
order; the first check that fails reports its fault and answers a request that has a tag with a NOTE, except for age; a
request that passes is in flight with two places reserved. When the conditions of R98 do not hold nothing is taken. -/
def Obligations.ServeTaking : Prop :=
  ∀ s : State, s.pinHeld = false →
    let takes (X : State) : Prop := canServe s = true ∧ serveTakeNow s = X ∧ exec .serveTake s = .next (settle s X)
    (s.serveOp ≠ none ∨ 10 < s.rpq.length ∨ s.svq = [] → canServe s = false ∧ exec .serveTake s = .next (settle s s)) ∧
    (∀ r rest pass, s.serveOp = none → s.rpq.length ≤ 10 → chooseServe s.passCount s.svq = some (r, rest, pass) →
      let taken : State := { s with svq := rest, passCount := pass }
      let allowed : Prop := s.rights[r.requester] = .readWrite ∨
        s.rights[r.requester] = .read ∧ isServeAsk r = true
      let note (outcome : NoteOutcome) (kind : FaultKind) : State :=
        let u : State := takeReport (Claims.fault kind (some r.requester) (some r.line) none) taken
        match serveTag r.kind with
        | some (tag, epoch) => rpqAppend (.note s.number r.requester tag epoch outcome) false u
        | none => u
      (s.serveLimit < s.now - r.acceptedAt →
        takes (takeReport (Claims.fault .expired (some r.requester) (some r.line) none) taken)) ∧
      (s.now - r.acceptedAt ≤ s.serveLimit → ¬allowed → takes (note .denied .deniedIn)) ∧
      (s.now - r.acceptedAt ≤ s.serveLimit → allowed → installedLines s.sizeCode ≤ r.line.toNat →
        takes (note .range .rangeIn)) ∧
      (s.now - r.acceptedAt ≤ s.serveLimit → allowed → r.line.toNat < installedLines s.sizeCode →
        takes { taken with serveOp := some { req := r, orphaned := false }, reserve := 2 }))

/-! ### The store -/

/-- STORE_GRANT, and the grant within another event (R141, R142, R145, R158, R162): a free store is granted to the INIT fill alone while it waits; when both sides wait, to the side
the turn record names, which then names the other; when one waits, to that one. The local side offers its READ ahead of a drain unless the buffer is
full. The READ offered is an eligible local one, of high priority first, else the first in HRQ order; it waits for the store when
the routing of R159 serves it. -/
def Obligations.StoreGranting : Prop :=
  (∀ (s : State) (it : HrqItem),
    let isLocal (x : HrqItem) : Prop := ∃ addr size cacheable high,
      x.req = .read addr size cacheable high ∧ addrStation addr = s.number
    let isHigh (x : HrqItem) : Prop := ∃ addr size cacheable, x.req = .read addr size cacheable true
    (offeredRead s = some it ↔ ∃ earlier later, eligibleNow s = earlier ++ it :: later ∧ isLocal it ∧
      (isHigh it → ∀ x ∈ earlier, isLocal x → ¬isHigh x) ∧
      (¬isHigh it → (∀ x ∈ earlier, ¬isLocal x) ∧ ∀ x ∈ later, isLocal x → ¬isHigh x)) ∧
    (∀ addr size cacheable high, it.req = .read addr size cacheable high → (waitingRead s = some it ↔
      offeredRead s = some it ∧ s.station ≠ .init ∧ (addrLine addr).toNat < installedLines s.sizeCode))) ∧
  (∀ s : State, s.pinHeld = false → s.storeOp ≠ none → grant s = none ∧ exec .storeGrant s = .next (settle s s)) ∧
  ∀ s : State, s.pinHeld = false → s.storeOp = none →
    let grants (X : State) : Prop := grant s = some X ∧ exec .storeGrant s = .next (settle s X)
    let localWaits : Prop := waitingRead s ≠ none ∨ drainWaits s = true
    let drained (u : State) : Prop :=
      ∃ b rest, s.lwb = b :: rest ∧
        u = { s with storeOp := some .drain, turn := .serveEngine, lwb := { b with draining := true } :: rest }
    (fillWaits s = true → grants { s with storeOp := some .fill }) ∧
    (fillWaits s = false → s.serveOp ≠ none → (s.turn = .serveEngine ∨ ¬localWaits) →
      grants { s with storeOp := some .serve, turn := .localSide }) ∧
    (fillWaits s = false → (s.serveOp = none ∨ s.turn = .localSide) → ∀ it addr size c high,
      waitingRead s = some it → it.req = .read addr size c high → ¬(drainWaits s = true ∧ s.lwb.length = 4) →
      grants { markStarted it.tag s with
        storeOp := some (.localRead it.tag (addrLine addr) (addrOffset addr) size), turn := .serveEngine }) ∧
    (fillWaits s = false → (s.serveOp = none ∨ s.turn = .localSide) → drainWaits s = true →
      (waitingRead s = none ∨ s.lwb.length = 4) →
      ∃ u, drained u ∧ grants u) ∧
    (fillWaits s = false → s.serveOp = none → ¬localWaits → grant s = none ∧ exec .storeGrant s = .next (settle s s))

/-- INIT_FILL_LINE_COMPLETE (R39, R148): every byte of the line is zero and every word good, the progress rises by 1, the store
is free; at the last line the station enters SETUP, or STARTING when the run-requested flag is set. -/
def Obligations.FillLineCompletes : Prop :=
  ∀ s : State, s.pinHeld = false → s.storeOp = some .fill → s.station = .init → Memory.wf s.mem = true → ∃ u,
    let line : Nat := s.fillProgress
    let last : Prop := installedLines s.sizeCode ≤ line + 1
    exec .initFillLineComplete s = .next (settle s u) ∧
    (∀ a, memRead u.mem a = if a / 64 = line then 0#8 else memRead s.mem a) ∧
    (∀ n, n ∈ u.poison ↔ n ∈ s.poison ∧ n / 8 ≠ line) ∧
    (¬last → u = { s with mem := u.mem, poison := u.poison, fillProgress := line + 1, storeOp := none }) ∧
    (last → s.runRequested = false →
      u = { s with mem := u.mem, poison := u.poison, fillProgress := line + 1, storeOp := none, station := .setup }) ∧
    (last → s.runRequested = true → u = { s with
      mem := u.mem, poison := u.poison, fillProgress := line + 1, storeOp := none, station := .starting
      runRequested := false, rpq := [{ frame := .start s.number, writeCaused := false, covered := false }], spoilCount := 0
      waived := false, budget := s.setup.urgentBudget })

/-- What a reader sees of a line (R103, R136, R137, R146): each byte as the newest buffer entry that masks it holds it, else as the
store does; a read is POISON when a word it reads is poisoned in the store and not covered whole by the buffer; it mends when a
word it reads has a single-bit error and is not poisoned; and the words it finds beyond correction join the poisoned ones. -/
def Obligations.ReadSeesBuffer : Prop :=
  ∀ (s : State) (line : LineIndex) (i : Fin 64),
    ((∀ b ∈ s.lwb, b.line = line → b.mask.getLsbD i.val = false) →
      (lineSeen s line)[i] = memRead s.mem (lineAddr line i.val)) ∧
    (∀ older b newer, s.lwb = older ++ b :: newer → b.line = line → b.mask.getLsbD i.val = true →
      (∀ c ∈ newer, c.line = line → c.mask.getLsbD i.val = false) → (lineSeen s line)[i] = b.data[i]) ∧
    (∀ e ws, readPoisoned s line e ws = true ↔
      ∃ w ∈ ws, (wordNumber line w ∈ s.poison ∨ e.multi.getLsbD w.val = true) ∧
        ∃ k : Fin 8, ∀ b ∈ s.lwb, b.line = line → b.mask.getLsbD (8 * w.val + k.val) = false) ∧
    (∀ e ws, readMends s line e ws = true ↔
      ∃ w ∈ ws, wordNumber line w ∉ s.poison ∧ e.multi.getLsbD w.val = false ∧ e.single.getLsbD w.val = true) ∧
    (∀ e ws n, n ∈ poisonAfterRead s line e ws ↔
      n ∈ s.poison ∨ ∃ w ∈ ws, e.multi.getLsbD w.val = true ∧ n = wordNumber line w)

/-- A line write (R136, R138, R139): a word that the mask covers in part is read, and a poisoned one withholds the whole write;
otherwise the masked bytes are stored, every other byte stays, and the words covered whole are good. -/
def Obligations.LineWriteRule : Prop :=
  ∀ (s : State) (line : LineIndex) (mask : Mask) (data : Line) (e : WordErrors), Memory.wf s.mem = true →
    let named (w : Fin 8) (k : Fin 8) : Prop := mask.getLsbD (8 * w.val + k.val) = true
    let part (w : Fin 8) : Prop := (∃ k, named w k) ∧ ∃ k, ¬named w k
    let bad (w : Fin 8) : Prop := wordNumber line w ∈ s.poison ∨ e.multi.getLsbD w.val = true
    let w := lineWrite s line mask data e
    ((∃ x, part x ∧ bad x) → w.performed = false ∧ w.mem = s.mem ∧
      ∀ n, n ∈ w.poison ↔ n ∈ s.poison ∨ ∃ x, part x ∧ bad x ∧ n = wordNumber line x) ∧
    ((∀ x, part x → ¬bad x) → w.performed = true ∧
      (∀ i : Fin 64, mask.getLsbD i.val = true → memRead w.mem (lineAddr line i.val) = data[i]) ∧
      (∀ a, (∀ i : Fin 64, mask.getLsbD i.val = true → a ≠ lineAddr line i.val) → memRead w.mem a = memRead s.mem a) ∧
      ∀ n, n ∈ w.poison ↔ n ∈ s.poison ∧ ∀ x, (∀ k, named x k) → n ≠ wordNumber line x) ∧
    (w.mended = true ↔ ∃ x, part x ∧ ¬bad x ∧ e.single.getLsbD x.val = true)

/-- LOCAL_READ_COMPLETE (R137, R147): DATA with the bytes asked for and the mended flag, or FAULT POISON with fault POISON; a
corrected word is reported as MENDED first; the words found poisoned stay so. -/
def Obligations.LocalReadCompletes : Prop :=
  ∀ (e : WordErrors) (tag : HostTag) (line : LineIndex) (offset : Nat) (size : ReadSize) (s : State),
    s.pinHeld = false → s.storeOp = some (.localRead tag line offset size) →
    let ws : List (Fin 8) := match size with
      | .line => List.finRange 8
      | .word => [Fin.ofNat 8 (offset / 8)]
    let mended : Bool := readMends s line e ws
    let freed : State := { s with storeOp := none, poison := poisonAfterRead s line e ws }
    let u : State := if mended then takeReport (Claims.fault .mended none (some line) (some tag)) freed else freed
    (readPoisoned s line e ws = false → exec (.localReadComplete e) s = .next (settle s
      (respond (.data tag (match size with
        | .line => (lineSeen s line).toList
        | .word => ((lineSeen s line).toList.drop offset).take 8) mended) u))) ∧
    (readPoisoned s line e ws = true → exec (.localReadComplete e) s = .next (settle s
      (respond (.fault tag .poison) (takeReport (Claims.fault .poison none (some line) (some tag)) u))))

/-- DRAIN_COMPLETE (R137, R145): the oldest entry's masked bytes are written under R138 and R139 and the entry leaves the
buffer; a confirmed write is answered DONE or FAULT POISON; a withheld one is reported as POISON, and a posted one sets the
lost-write flag. -/
def Obligations.DrainCompletes : Prop :=
  ∀ (e : WordErrors) (b : LwbEntry) (rest : List LwbEntry) (s : State),
    s.pinHeld = false → s.storeOp = some .drain → s.lwb = b :: rest →
    let w := lineWrite s b.line b.mask b.data e
    let left : State := { s with mem := w.mem, poison := w.poison, storeOp := none, lwb := rest }
    let u : State := if w.mended then takeReport (Claims.fault .mended none (some b.line) none) left else left
    (w.performed = true → b.confirm = none → exec (.drainComplete e) s = .next (settle s u)) ∧
    (∀ tag, w.performed = true → b.confirm = some tag →
      exec (.drainComplete e) s = .next (settle s (respond (.done tag false) u))) ∧
    (∀ tag, w.performed = false → b.confirm = some tag → exec (.drainComplete e) s = .next (settle s
      (respond (.fault tag .poison) (takeReport (Claims.fault .poison none (some b.line) (some tag)) u)))) ∧
    (w.performed = false → b.confirm = none → exec (.drainComplete e) s = .next (settle s
      { takeReport (Claims.fault .poison none (some b.line) none) u with lostWrite := true }))

/-- SERVE_READ_COMPLETE (R104, R105, R107, R120, R121, R137): a good read with keep lends the line, an eviction RECALL going
ahead, and appends the GIVE; a poisoned one appends NOTE POISON and reports it; an orphaned one does neither. -/
def Obligations.ServeReadCompletes : Prop :=
  ∀ (e : WordErrors) (op : ServeOp) (keep : Bool) (tag : Tag) (epoch : Epoch) (s : State),
    s.pinHeld = false → s.storeOp = some .serve → s.serveOp = some op → op.req.kind = .ask keep tag epoch →
    let line := op.req.line
    let p := op.req.requester
    let words : List (Fin 8) := List.finRange 8
    let mended : Bool := readMends s line e words
    let ended : State := { s with
      storeOp := none, serveOp := none, reserve := 0, poison := poisonAfterRead s line e words }
    let u : State := if mended then takeReport (Claims.fault .mended (some p) (some line) none) ended else ended
    let give : Frame := .give s.number p tag epoch mended (lineSeen s line)
    (op.orphaned = true → exec (.serveReadComplete e) s = .next (settle s u)) ∧
    (op.orphaned = false → readPoisoned s line e words = true → exec (.serveReadComplete e) s = .next (settle s
      (rpqAppend (.note s.number p tag epoch .poison) false
        (takeReport (Claims.fault .poison (some p) (some line) none) u)))) ∧
    (op.orphaned = false → readPoisoned s line e words = false →
      (keep = false → exec (.serveReadComplete e) s = .next (settle s (rpqAppend give false u))) ∧
      (∀ entry, keep = true → lltFind line s = some entry → exec (.serveReadComplete e) s = .next (settle s
        (rpqAppend give false { u with
          llt := { entry with sharers := entry.sharers ||| (1#16 <<< p.val) } ::
            s.llt.filter fun d => d.line != line }))) ∧
      (keep = true → lltFind line s = none → s.llt.length < 64 → exec (.serveReadComplete e) s = .next (settle s
        (rpqAppend give false { u with llt := { line := line, sharers := 1#16 <<< p.val } :: s.llt }))) ∧
      (∀ older v, keep = true → lltFind line s = none → s.llt = older ++ [v] → 64 ≤ s.llt.length →
        exec (.serveReadComplete e) s = .next (settle s (rpqAppend give false
          { rpqAppend (.recall s.number v.line v.sharers) false u with
            llt := { line := line, sharers := 1#16 <<< p.val } :: older }))))

/-- SERVE_WRITE_COMPLETE (R106, R107, R137, R146): the PUT's bytes are written under R138 and R139 and, when performed, laid over
the buffer's entries for the line where both masks name them; a confirmed PUT is answered NOTE DONE or NOTE POISON; a withheld
write is reported as POISON; an orphaned one is written and neither answered nor reported. -/
def Obligations.ServeWriteCompletes : Prop :=
  ∀ (e : WordErrors) (op : ServeOp) (confirm : Option (Tag × Epoch)) (mask : Mask) (data : Line) (s : State),
    s.pinHeld = false → s.storeOp = some .serve → s.serveOp = some op → op.req.kind = .put confirm mask data →
    let line := op.req.line
    let p := op.req.requester
    let w := lineWrite s line mask data e
    let ended : State := { s with
      storeOp := none, serveOp := none, reserve := 0, mem := w.mem, poison := w.poison
      lwb := if w.performed then
          s.lwb.map fun b => if b.line = line then { b with data := overlay (b.mask &&& mask) data b.data } else b
        else s.lwb }
    let u : State := if w.mended then takeReport (Claims.fault .mended (some p) (some line) none) ended else ended
    let poisoned : State := takeReport (Claims.fault .poison (some p) (some line) none) u
    (op.orphaned = true → exec (.serveWriteComplete e) s = .next (settle s u)) ∧
    (op.orphaned = false → w.performed = true →
      (confirm = none → exec (.serveWriteComplete e) s = .next (settle s u)) ∧
      (∀ tag epoch, confirm = some (tag, epoch) → exec (.serveWriteComplete e) s = .next (settle s
        (rpqAppend (.note s.number p tag epoch .done) false u)))) ∧
    (op.orphaned = false → w.performed = false →
      (confirm = none → exec (.serveWriteComplete e) s = .next (settle s poisoned)) ∧
      (∀ tag epoch, confirm = some (tag, epoch) → exec (.serveWriteComplete e) s = .next (settle s
        (rpqAppend (.note s.number p tag epoch .poison) false poisoned))))

/-! ### The Fault Record -/

/-- The taking of a fault report (R175 to R177, R180): its flag is set and no other changes, its count rises by 1 up to 65,535,
an empty first-fault record takes a copy, a filled one keeps its own, and the line is asserted exactly when some kind has both
its flag and its mask bit set; nothing outside the Fault Record changes. -/
def Obligations.FaultReportTaken : Prop :=
  ∀ (r : FaultReport) (s : State), ∃ u, takeReport r s = u ∧
    u = { s with flags := u.flags, counts := u.counts, firstFault := u.firstFault, irq := u.irq } ∧
    (∀ k : Fin 12, u.flags.getLsbD k.val = (s.flags.getLsbD k.val || decide (k = faultPosition r.kind))) ∧
    (∀ k : Fin 12, u.counts[k] =
      if k = faultPosition r.kind ∧ s.counts[k] < 65535 then s.counts[k] + 1 else s.counts[k]) ∧
    (s.firstFault = none → u.firstFault = some r) ∧ (s.firstFault ≠ none → u.firstFault = s.firstFault) ∧
    (u.irq = true ↔ ∃ k : Fin 12, u.flags.getLsbD k.val = true ∧ s.irqMask.getLsbD k.val = true)
end

