-- ==== Sys2Proof/Laws/Evolves.lean ====
section
/-! SUPPORT. What an operation of the station may do to its state, said once: `Evolves s t` holds when t can follow s inside an
event. Every shared operation has a lemma `<operation>_evolves`; a statement about every step follows from these without
unfolding an operation. -/

-- Theorems are elaborated one after another: many at once take more threads than the memory limit allows.
set_option Elab.async false

namespace Sys2Proof.Laws

open Sys2Proof.Machine Sys2Proof.Safety

theorem FaultRecordOk_of {s t : State} (h1 : t.flags = s.flags) (h2 : t.counts = s.counts)
    (h3 : t.firstFault = s.firstFault) (h4 : t.irqMask = s.irqMask) (h5 : t.irq = s.irq) (h : FaultRecordOk s) :
    FaultRecordOk t := by
  obtain ⟨a, b, c, d, e⟩ := h
  constructor <;> simp only [h1, h2, h3, h4, h5] <;> assumption

theorem listening_of {s t : State} (h : t.station = s.station) : listening t = listening s := by
  unfold listening; rw [h]

theorem SetupOk_of {s t : State} (h1 : t.setup = s.setup) (h2 : t.serveLimit = s.serveLimit)
    (h3 : t.sizeCode = s.sizeCode) (h4 : t.budget = s.budget) (h5 : t.station = s.station) (h : SetupOk s) : SetupOk t := by
  obtain ⟨a, b, c, d, e, f, g, i⟩ := h
  constructor <;> simp only [h1, h2, h3, h4, listening_of h5] <;> assumption

theorem StoreOk_of {s t : State} (h1 : t.mem = s.mem) (h2 : t.poison = s.poison) (h : StoreOk s) : StoreOk t := by
  obtain ⟨a, b⟩ := h
  constructor <;> simp only [h1, h2] <;> assumption

theorem QueuesOk_of {s t : State} (h1 : t.hrq = s.hrq) (h2 : t.lwb = s.lwb) (h3 : t.svq = s.svq) (h4 : t.cache = s.cache)
    (h5 : t.llt = s.llt) (h6 : t.passCount = s.passCount) (h7 : t.spoilCount = s.spoilCount) (h : QueuesOk s) :
    QueuesOk t := by
  obtain ⟨a1, a2, a3, a4, a5, a6, a7, a8, a9, a10, a11⟩ := h
  constructor <;> simp only [h1, h2, h3, h4, h5, h6, h7] <;> assumption

theorem ReplyOk_of {s t : State} (h1 : t.reserve = s.reserve) (h2 : t.serveOp = s.serveOp)
    (h3 : t.rpq.length = s.rpq.length) (h : ReplyOk s) : ReplyOk t := by
  obtain ⟨a, b⟩ := h
  constructor <;> simp only [h1, h2, h3] <;> assumption

theorem QuietOk_of {s t : State} (h1 : t.station = s.station) (h2 : t.tracker = s.tracker)
    (h3 : t.orq = s.orq) (h4 : t.cache = s.cache) (h5 : t.svq = s.svq) (h6 : t.llt = s.llt) (h7 : t.serveOp = s.serveOp)
    (h8 : t.span = s.span) (h : QuietOk s) : QuietOk t := by
  obtain ⟨a1, a2, a3, a4, a5, a6, a7⟩ := h
  constructor <;> simp only [h1, h2, h3, h4, h5, h6, h7, h8] <;> assumption

theorem LaunchOk_of {s t : State} (h1 : t.station = s.station) (h2 : t.rpq = s.rpq) (h3 : t.span = s.span)
    (h4 : t.number = s.number) (h : LaunchOk s) : LaunchOk t := by
  obtain ⟨a, b, c⟩ := h
  constructor <;> simp only [listening_of h1, h1, h2, h3, h4] <;> assumption

theorem OwnOk_of {s t : State} (h1 : t.cache = s.cache) (h2 : t.llt = s.llt) (h3 : t.svq = s.svq)
    (h4 : t.serveOp = s.serveOp) (h5 : t.number = s.number) (h : OwnOk s) : OwnOk t := by
  obtain ⟨a, b, c, d⟩ := h
  constructor <;> simp only [h1, h2, h3, h4, h5] <;> assumption

theorem StoreWorkOk_of {s t : State} (h1 : t.storeOp = s.storeOp) (h2 : t.lwb = s.lwb) (h3 : t.serveOp = s.serveOp)
    (h : StoreWorkOk s) : StoreWorkOk t := by
  obtain ⟨a, b, c⟩ := h
  constructor <;> simp only [h1, h2, h3] <;> assumption

/-- In RUN the Reply Queue is bound by nothing that `LaunchOk` says. -/
theorem LaunchOk_run {s : State} (h : s.station = .run) : LaunchOk s where
  silent := fun n => by simp [listening, h] at n
  starting := fun n => by simp [h] at n
  offer := fun n => absurd h n

theorem TrackerOk_of {s t : State} (h1 : t.tracker = s.tracker) (h2 : t.orq = s.orq) (h3 : t.span = s.span)
    (h : TrackerOk s) : TrackerOk t := by
  obtain ⟨a1, a2, a3, a4⟩ := h
  constructor <;> simp only [h1, h2, h3] <;> assumption

/-- The part of `Evolves` that asks nothing of the Reply Queue, of the station state and of the stations dealt with. -/
structure EvolvesBase (s t : State) : Prop where
  sent : s.hostTx <+: t.hostTx := by exact List.prefix_rfl
  clock : s.now ≤ t.now := by exact Nat.le_refl _
  number : t.number = s.number := by rfl
  sizeCode : t.sizeCode = s.sizeCode := by rfl
  pinHeld : t.pinHeld = s.pinHeld := by rfl
  pending : t.pending = s.pending := by rfl
  mem : t.mem = s.mem := by rfl
  closed : setupOpen s = false →
    setupOpen t = false ∧ t.setup = s.setup ∧ t.rights = s.rights ∧ t.serveLimit = s.serveLimit := by
      exact fun h => ⟨h, rfl, rfl, rfl⟩
  store : StoreOk s → StoreOk t := by exact StoreOk_of rfl rfl
  fault : FaultRecordOk s → FaultRecordOk t := by exact FaultRecordOk_of rfl rfl rfl rfl rfl
  setup : SetupOk s → SetupOk t := by exact SetupOk_of rfl rfl rfl rfl rfl
  queues : QueuesOk s → QueuesOk t := by exact QueuesOk_of rfl rfl rfl rfl rfl rfl rfl
  tracker : TrackerOk s → TrackerOk t := by exact TrackerOk_of rfl rfl rfl
  work : StoreWorkOk s → StoreWorkOk t := by exact StoreWorkOk_of rfl rfl rfl

/-- The part of `Evolves` that asks nothing of the Reply Queue in STARTING. -/
structure EvolvesReply (s t : State) : Prop extends EvolvesBase s t where
  reply : ReplyOk s → ReplyOk t := by exact ReplyOk_of rfl rfl rfl
  quiet : QuietOk s → QuietOk t := by exact QuietOk_of rfl rfl rfl rfl rfl rfl rfl rfl
  own : OwnOk s → OwnOk t := by exact OwnOk_of rfl rfl rfl rfl rfl

/-- t can follow s inside an event: the responses sent stay sent, time does not run back, the straps, the pin and the store's
bytes stay, closed setup stays closed and unchanged, and the parts of Safety.lean that hold of s hold of t. -/
structure Evolves (s t : State) : Prop extends EvolvesReply s t where
  launch : QuietOk s → LaunchOk s → LaunchOk t := by exact fun _ => LaunchOk_of rfl rfl rfl rfl

theorem EvolvesBase.trans {s t u : State} (h : EvolvesBase s t) (k : EvolvesBase t u) : EvolvesBase s u where
  sent := h.sent.trans k.sent
  clock := h.clock.trans k.clock
  number := k.number.trans h.number
  sizeCode := k.sizeCode.trans h.sizeCode
  pinHeld := k.pinHeld.trans h.pinHeld
  pending := k.pending.trans h.pending
  mem := k.mem.trans h.mem
  closed := fun o =>
    let a := h.closed o
    let b := k.closed a.1
    ⟨b.1, b.2.1.trans a.2.1, b.2.2.1.trans a.2.2.1, b.2.2.2.trans a.2.2.2⟩
  store := k.store ∘ h.store
  fault := k.fault ∘ h.fault
  setup := k.setup ∘ h.setup
  queues := k.queues ∘ h.queues
  tracker := k.tracker ∘ h.tracker
  work := k.work ∘ h.work

theorem EvolvesReply.trans {s t u : State} (h : EvolvesReply s t) (k : EvolvesReply t u) : EvolvesReply s u where
  toEvolvesBase := h.toEvolvesBase.trans k.toEvolvesBase
  reply := k.reply ∘ h.reply
  quiet := k.quiet ∘ h.quiet
  own := k.own ∘ h.own

namespace Evolves

theorem refl (s : State) : Evolves s s where

theorem trans {s t u : State} (h : Evolves s t) (k : Evolves t u) : Evolves s u where
  toEvolvesReply := h.toEvolvesReply.trans k.toEvolvesReply
  launch := fun q l => k.launch (h.quiet q) (h.launch q l)

/-- A fold of operations that evolve the state evolves it. -/
theorem foldl {α : Type} (f : State → α → State) (hf : ∀ s a, Evolves s (f s a)) (l : List α) :
    ∀ s, Evolves s (l.foldl f s) := by
  induction l with
  | nil => exact fun s => refl s
  | cons a l ih => exact fun s => (hf s a).trans (ih (f s a))

end Evolves

/-! ### The host link and the Fault Record -/

theorem QueuesOk_hrq {s t : State} (h : QueuesOk s) (h1 : t.hrq.length ≤ Config.hrqCapacity)
    (h2 : (t.hrq.map (·.tag)).Nodup) (e2 : t.lwb = s.lwb) (e3 : t.svq = s.svq) (e4 : t.cache = s.cache)
    (e5 : t.llt = s.llt) (e6 : t.passCount = s.passCount) (e7 : t.spoilCount = s.spoilCount) : QueuesOk t := by
  obtain ⟨_, _, a3, a4, a5, a6, a7, a8, a9, a10, a11⟩ := h
  constructor <;> (try simp only [e2, e3, e4, e5, e6, e7]) <;> assumption

theorem send_evolves (r : Response) (s : State) : Evolves s (send r s) where
  sent := List.prefix_append _ _

theorem respond_evolves (r : Response) (s : State) : Evolves s (respond r s) where
  sent := List.prefix_append _ _
  queues := fun h => QueuesOk_hrq h ((List.length_filter_le _ _).trans h.hrq) ((List.filter_sublist.map _).nodup h.tags)
    rfl rfl rfl rfl rfl rfl

theorem markStarted_evolves (tag : HostTag) (s : State) : Evolves s (markStarted tag s) where
  queues := fun h => QueuesOk_hrq h (by simpa [markStarted] using h.hrq) (by
    have e : (fun it : HrqItem => (if it.tag = tag then { it with started := true } else it).tag) = fun it => it.tag := by
      funext it; split <;> rfl
    simpa [markStarted, List.map_map, Function.comp_def, e] using h.tags) rfl rfl rfl rfl rfl rfl

theorem countUp_le {n : Nat} (h : n ≤ Config.countLimit) : countUp n ≤ Config.countLimit := by
  unfold countUp; split <;> omega

theorem countUp_pos (n : Nat) : 0 < countUp n := by
  unfold countUp Config.countLimit; split <;> omega

theorem flagAt_bit (k j : Fin 12) : (flagAt k).getLsbD j.val = decide (j = k) := by
  revert k j; decide

theorem takeReport_evolves (r : FaultReport) (s : State) : Evolves s (takeReport r s) where
  fault := fun h => by
    have hbit : ∀ k : Fin 12, (s.flags ||| flagAt (faultPosition r.kind)).getLsbD k.val
        = (s.flags.getLsbD k.val || decide (k = faultPosition r.kind)) := by
      intro k; rw [BitVec.getLsbD_or, flagAt_bit]
    refine ⟨rfl, ?_, ?_, ?_, ?_⟩
    · intro k
      have := h.counts_le k
      simp only [takeReport, Fin.getElem_fin, Vector.getElem_set]
      split
      · exact countUp_le (h.counts_le _)
      · exact this
    · intro k
      have := h.flag_iff k
      simp only [takeReport, hbit, Fin.getElem_fin, Vector.getElem_set]
      by_cases hk : k = faultPosition r.kind
      · subst hk; simp [countUp_pos]
      · have : (faultPosition r.kind).val ≠ k.val := fun e => hk (Fin.ext e.symm)
        simp [this, hk]; simpa using h.flag_iff k
    · have hne : (s.flags ||| flagAt (faultPosition r.kind)) ≠ 0#12 := by
        intro e
        have := hbit (faultPosition r.kind)
        rw [e] at this; simp at this
      simp only [takeReport]
      constructor
      · intro e; cases hs : s.firstFault <;> simp [hs] at e
      · exact fun e => absurd e hne
    · intro r' hr
      simp only [takeReport] at hr ⊢
      rw [hbit]
      cases hs : s.firstFault with
      | none => simp [hs] at hr; subst hr; simp
      | some q => simp [hs] at hr; subst hr; simp [h.first_flag _ hs]

theorem clearFaultRecord_evolves (s : State) : Evolves s (clearFaultRecord s) where
  fault := fun _ => ⟨by simp [clearFaultRecord, irqLevel], by simp [clearFaultRecord], by simp [clearFaultRecord],
    by simp [clearFaultRecord], by simp [clearFaultRecord]⟩

theorem setIrqMask_evolves (v : CtrlValue) (s : State) : Evolves s (setIrqMask v s) where
  fault := fun h => ⟨rfl, h.counts_le, h.flag_iff, h.first_iff, h.first_flag⟩

end Sys2Proof.Laws
end

