-- ==== Sys2Proof/Laws/Queues.lean ====
section
/-! SUPPORT. What the operations on the tracker, the cache, the Lent-Line Table, the buffer and the Reply Queue may do
(`Evolves`). -/

-- Theorems are elaborated one after another: many at once take more threads than the memory limit allows.
set_option Elab.async false

namespace Sys2Proof.Laws

open Sys2Proof.Machine Sys2Proof.Safety

/-! ### The Request Tracker -/

theorem tracker_set (v : Vector Entry 16) (t x : Tag) (e : Entry) : (v.set t.val e)[x] = if x = t then e else v[x] := by
  simp only [Fin.getElem_fin, Vector.getElem_set, Fin.ext_iff, eq_comm]

theorem tracker_ofFn (f : Tag → Entry) (x : Tag) : (Vector.ofFn f)[x] = f x := by
  simp [Fin.getElem_fin]

/-- The tracker's part of Safety.lean after one entry has changed. -/
theorem TrackerOk_set {s u : State} (t : Tag) (e : Entry) (hu : u.tracker = s.tracker.set t.val e) (he : EntryOk e)
    (hq : ∀ x, x ∈ u.orq ↔ if x = t then e.state = .queued ∨ e.state = .backoff else x ∈ s.orq) (hn : u.orq.Nodup)
    (ho : ∀ x, OffersTag u.span x → OffersTag s.span x) (ht : OffersTag u.span t → e.state = .queued) (h : TrackerOk s) :
    TrackerOk u := by
  refine ⟨fun x => ?_, fun x => ?_, hn, fun x hx => ?_⟩
  · rw [hu, tracker_set]; split
    · exact he
    · exact h.entries x
  · rw [hq, hu, tracker_set]; split
    · exact Iff.rfl
    · exact h.orq_iff x
  · rw [hu, tracker_set]; split
    · subst x; exact ht hx
    · exact h.offered x (ho x hx)

/-- The tracker's part of Safety.lean after every entry has changed but kept its shape. -/
theorem TrackerOk_map {s u : State} (f : Entry → Entry) (hu : ∀ x : Tag, u.tracker[x] = f s.tracker[x])
    (hf : ∀ e, EntryOk e → EntryOk (f e)) (hs : ∀ e, (f e).state = e.state) (hq : u.orq = s.orq) (ho : u.span = s.span)
    (h : TrackerOk s) : TrackerOk u := by
  refine ⟨fun x => ?_, fun x => ?_, hq ▸ h.orq_nodup, fun x hx => ?_⟩
  · rw [hu]; exact hf _ (h.entries x)
  · rw [hq, hu, hs]; exact h.orq_iff x
  · rw [hu, hs]; exact h.offered x (ho ▸ hx)

theorem QuietOk_tracker {s u : State} (h : QuietOk s) (e1 : u.station = s.station)
    (e4 : u.cache = s.cache) (e5 : u.svq = s.svq) (e6 : u.llt = s.llt) (e7 : u.serveOp = s.serveOp) (e8 : u.span = s.span)
    (ht : s.station ≠ .run → ∀ x : Tag, u.tracker[x].state = .free) (hq : s.station ≠ .run → u.orq = []) : QuietOk u := by
  obtain ⟨_, _, a4, a5, a6, a7, a8⟩ := h
  constructor <;> simp only [e1, e4, e5, e6, e7, e8] <;> assumption

theorem releasedEntry_ok (e : Entry) : EntryOk (releasedEntry e) := by
  constructor <;> simp [releasedEntry, State.resetEntry]

theorem releaseEntry_evolves (t : Tag) (s : State) (ho : ¬OffersTag s.span t ∨ s.tracker[t].state ≠ .queued) :
    Evolves s (releaseEntry t s) where
  quiet := fun h => QuietOk_tracker h rfl rfl rfl rfl rfl rfl
    (fun n x => by
      show (s.tracker.set t.val (releasedEntry s.tracker[t]))[x].state = .free
      rw [tracker_set]; split
      · rfl
      · exact h.tracker n x)
    (fun n => by simp [releaseEntry, h.orq n])
  tracker := fun h => by
    refine TrackerOk_set t (releasedEntry s.tracker[t]) rfl (releasedEntry_ok _) (fun x => ?_)
      (h.orq_nodup.filter _) (fun x hx => hx) (fun hx => ?_) h
    · simp only [releaseEntry, List.mem_filter]
      by_cases hx : x = t <;> simp [hx, releasedEntry, State.resetEntry]
    · exact absurd (h.offered t hx) (ho.resolve_left fun n => n hx)

theorem answerWaiters_evolves (ws : List Waiter) (answer : Waiter → Response) (s : State) :
    Evolves s (answerWaiters ws answer s) :=
  Evolves.foldl _ (fun s _ => respond_evolves _ s) ws s

/-- Answering waiters changes the responses sent and the HRQ alone. -/
theorem answerWaiters_eq (ws : List Waiter) (answer : Waiter → Response) (s : State) :
    ∃ tx q, answerWaiters ws answer s = { s with hostTx := tx, hrq := q } := by
  induction ws generalizing s with
  | nil => exact ⟨s.hostTx, s.hrq, rfl⟩
  | cons w ws ih =>
    obtain ⟨tx, q, e⟩ := ih (respond (answer w) s)
    exact ⟨tx, q, e⟩

@[simp] theorem answerWaiters_tracker (ws answer) (s : State) : (answerWaiters ws answer s).tracker = s.tracker := by
  obtain ⟨tx, q, e⟩ := answerWaiters_eq ws answer s; rw [e]

@[simp] theorem answerWaiters_span (ws answer) (s : State) : (answerWaiters ws answer s).span = s.span := by
  obtain ⟨tx, q, e⟩ := answerWaiters_eq ws answer s; rw [e]

@[simp] theorem answerWaiters_station (ws answer) (s : State) : (answerWaiters ws answer s).station = s.station := by
  obtain ⟨tx, q, e⟩ := answerWaiters_eq ws answer s; rw [e]

@[simp] theorem answerWaiters_orq (ws answer) (s : State) : (answerWaiters ws answer s).orq = s.orq := by
  obtain ⟨tx, q, e⟩ := answerWaiters_eq ws answer s; rw [e]

theorem mapTracker_get (f : Entry → Entry) (s : State) (x : Tag) : (mapTracker f s).tracker[x] = f s.tracker[x] :=
  tracker_ofFn (fun t => f s.tracker[t]) x

theorem elapse_get (n : Nat) (s : State) (x : Tag) : (elapse n s).tracker[x] = elapseEntry n s.tracker[x] :=
  tracker_ofFn (fun t => elapseEntry n s.tracker[t]) x

/-- The tracker replaced by one whose entries keep their states and shapes. -/
theorem setTracker_evolves (s : State) (v : Vector Entry 16) (f : Entry → Entry) (hv : ∀ x : Tag, v[x] = f s.tracker[x])
    (hf : ∀ e, EntryOk e → EntryOk (f e)) (hs : ∀ e, (f e).state = e.state) : Evolves s { s with tracker := v } where
  quiet := fun h => QuietOk_tracker h rfl rfl rfl rfl rfl rfl
    (fun n x => by show v[x].state = .free; rw [hv, hs]; exact h.tracker n x) h.orq
  tracker := fun h => TrackerOk_map f hv hf hs rfl rfl h

/-- Entries changed in place, none in its shape. -/
theorem mapTracker_evolves (f : Entry → Entry) (hf : ∀ e, EntryOk e → EntryOk (f e)) (hs : ∀ e, (f e).state = e.state)
    (s : State) : Evolves s (mapTracker f s) :=
  setTracker_evolves s _ f (mapTracker_get f s) hf hs

/-- An entry keeps its shape when the fields that shape it are kept. -/
theorem EntryOk_of {e f : Entry} (h : EntryOk e) (h1 : f.state = e.state) (h2 : f.kind = e.kind)
    (h3 : f.backoffTimer.isSome = e.backoffTimer.isSome) (h4 : f.replyTimer.isSome = e.replyTimer.isSome)
    (h5 : f.put = e.put) (h6 : f.waiters = e.waiters) (h7 : f.spoils = e.spoils)
    (h8 : f.covered = true → e.covered = true ∨ e.kind = some .putPosted) : EntryOk f := by
  obtain ⟨a1, a2, a3, a4, a5, a6, a7, a8, a9, a10⟩ := h
  refine ⟨?_, ?_, ?_, ?_, ?_, ?_, ?_, ?_, ?_, fun h => h2.trans ((h8 h).elim a10 id)⟩ <;>
    simp only [h1, h2, h3, h4, h5, h6, h7] <;> assumption

theorem later_evolves (n : Nat) (s : State) : Evolves s { s with now := s.now + n } where
  clock := Nat.le_add_right _ _

theorem elapse_evolves (n : Nat) (s : State) : Evolves s (elapse n s) :=
  (later_evolves n s).trans (setTracker_evolves { s with now := s.now + n } _ (elapseEntry n) (elapse_get n s)
    (fun e he => EntryOk_of he rfl rfl (by simp [elapseEntry, timerAfter]) (by simp [elapseEntry, timerAfter]) rfl rfl rfl
      .inl)
    (fun _ => rfl))

theorem overtakeByWrite_evolves (owner : Station) (line : LineIndex) (s : State) : Evolves s (overtakeByWrite owner line s) :=
  mapTracker_evolves _ (fun e he => by split; exacts [EntryOk_of he rfl rfl rfl rfl rfl rfl rfl .inl, he])
    (fun e => by split <;> rfl) s

theorem overtakeByPut_evolves (owner : Station) (line : LineIndex) (s : State) : Evolves s (overtakeByPut owner line s) :=
  mapTracker_evolves _ (fun e he => by split; exacts [EntryOk_of he rfl rfl rfl rfl rfl rfl rfl .inl, he])
    (fun e => by split <;> rfl) s

theorem attachTag_spec {owner : Station} {line : LineIndex} {s : State} {t : Tag} (h : attachTag owner line s = some t) :
    attachable owner line s.tracker[t] = true := by
  simpa using List.find?_some h

theorem freeTag_spec {s : State} {t : Tag} (h : freeTag s = some t) : s.tracker[t].state = .free := by
  simpa using List.find?_some h

theorem attachRead_evolves (t : Tag) (w : Waiter) (keep : Bool) (s : State) {owner : Station} {line : LineIndex}
    (ha : attachable owner line s.tracker[t] = true) : Evolves s (attachRead t w keep s) where
  quiet := fun h => QuietOk_tracker h rfl rfl rfl rfl rfl rfl (fun n => by
      rw [attachable, isAskFor, h.tracker n t] at ha; simp at ha) h.orq
  tracker := fun h => by
    obtain ⟨a1, a2, a3, a4, a5, a6, a7, a8, a9, a10⟩ := h.entries t
    simp only [attachable, isAskFor, Bool.and_eq_true, beq_iff_eq, bne_iff_ne, decide_eq_true_eq] at ha
    have hk := ha.1.1.1.1.2
    refine TrackerOk_set t _ rfl ?_ (fun x => ?_) h.orq_nodup (fun x hx => hx) (fun hx => ?_) h
    · constructor <;> simp_all
    · by_cases hx : x = t
      · subst hx; simpa [attachRead] using h.orq_iff x
      · simp [attachRead, hx]
    · exact h.offered t hx

theorem createEntry_evolves (t : Tag) (kind : ReqKind) (owner : Station) (line : LineIndex) (keep : Bool) (put : Option PutData)
    (ws : List Waiter) (s : State) (hf : s.tracker[t].state = .free) (hr : s.station = .run)
    (hp : put.isSome ↔ kind = .putPosted ∨ kind = .putConfirmed)
    (hw : ws.length = if kind = .putPosted then 0 else 1) :
    Evolves s (createEntry t kind owner line keep put ws s) where
  quiet := fun h => QuietOk_tracker h rfl rfl rfl rfl rfl rfl (fun n => absurd hr n) (fun n => absurd hr n)
  tracker := fun h => by
    have hno : t ∉ s.orq := fun hm => by have := (h.orq_iff t).1 hm; rw [hf] at this; simp at this
    refine TrackerOk_set t _ rfl ?_ (fun x => ?_) ?_ (fun x hx => hx) (fun hx => ?_) h
    · constructor <;> simp [State.resetEntry] <;> cases kind <;> simp_all [Config.maxWaiters]
    · by_cases hx : x = t
      · subst hx; simp [createEntry]
      · simp [createEntry, hx]
    · simpa [createEntry, List.nodup_append] using ⟨h.orq_nodup, fun a ha e => hno (e ▸ ha)⟩
    · rfl

/-- One entry that is not FREE changed, its tag kept in the ORQ or taken from it as its new state asks. -/
theorem setEntry_evolves (t : Tag) (e : Entry) (q : List Tag) (s : State) (hf : s.tracker[t].state ≠ .free)
    (he : EntryOk s.tracker[t] → EntryOk e) (ho : OffersTag s.span t → e.state = .queued)
    (hq : TrackerOk s → q.Nodup ∧
      ∀ x, x ∈ q ↔ if x = t then e.state = .queued ∨ e.state = .backoff else x ∈ s.orq) :
    Evolves s { s with tracker := s.tracker.set t.val e, orq := q } where
  quiet := fun h => QuietOk_tracker h rfl rfl rfl rfl rfl rfl (fun n => absurd (h.tracker n t) hf)
    (fun n => absurd (h.tracker n t) hf)
  tracker := fun h => TrackerOk_set t e rfl (he (h.entries t)) (hq h).2 (hq h).1 (fun _ hx => hx) ho h

theorem orq_keep {s : State} {t : Tag} {e : Entry} (hs : s.tracker[t].state = .queued ∨ s.tracker[t].state = .backoff)
    (he : e.state = .queued ∨ e.state = .backoff) (h : TrackerOk s) : s.orq.Nodup ∧
      ∀ x, x ∈ s.orq ↔ if x = t then e.state = .queued ∨ e.state = .backoff else x ∈ s.orq := by
  refine ⟨h.orq_nodup, fun x => ?_⟩
  by_cases hx : x = t
  · subst hx; simp [(h.orq_iff x).2 hs, he]
  · simp [hx]

theorem orq_leave {s : State} {t : Tag} {e : Entry} (he : e.state = .waiting) (h : TrackerOk s) :
    (s.orq.filter (· != t)).Nodup ∧
      ∀ x, x ∈ s.orq.filter (· != t) ↔ if x = t then e.state = .queued ∨ e.state = .backoff else x ∈ s.orq := by
  refine ⟨h.orq_nodup.filter _, fun x => ?_⟩
  by_cases hx : x = t <;> simp [hx, he]

theorem lostWrite_evolves (b : Bool) (s : State) : Evolves s { s with lostWrite := b } where

theorem takeReport_tracker (r : FaultReport) (s : State) : (takeReport r s).tracker = s.tracker := rfl

theorem failEntry_evolves (t : Tag) (code : HostCode) (s : State) (ho : ¬OffersTag s.span t) :
    Evolves s (failEntry t code s) := by
  unfold failEntry
  refine (answerWaiters_evolves s.tracker[t].waiters (faultAnswer code) s).trans <|
    (takeReport_evolves (entryReport (failFault code) s.tracker[t]) _).trans <| (lostWrite_evolves _ _).trans <|
    releaseEntry_evolves t _ (Or.inl ?_)
  simpa [takeReport] using ho

theorem entryStands_evolves (t : Tag) (frame : Frame) (s : State) (ho : ¬OffersTag s.span t)
    (hs : s.tracker[t].state = .queued) : Evolves s (entryStands t frame s) := by
  unfold entryStands
  dsimp only
  split
  · exact releaseEntry_evolves t s (Or.inl ho)
  · rename_i hk
    refine setEntry_evolves t _ _ s (by rw [hs]; simp) (fun h => ?_) (fun h => absurd h ho) (orq_leave rfl)
    obtain ⟨a1, a2, a3, a4, a5, a6, a7, a8, a9, a10⟩ := h
    constructor <;> simp_all

theorem entrySpoiled_evolves (t : Tag) (s : State) (ho : ¬OffersTag s.span t) (hs : s.tracker[t].state = .queued) :
    Evolves s (entrySpoiled t s) := by
  unfold entrySpoiled
  dsimp only
  split
  · rename_i hk
    refine setEntry_evolves t _ s.orq s (by rw [hs]; simp) (fun h => ?_) (fun h => absurd h ho)
      (orq_keep (Or.inl hs) (Or.inl hs))
    obtain ⟨a1, a2, a3, a4, a5, a6, a7, a8, a9, a10⟩ := h
    constructor <;> assumption
  · exact failEntry_evolves t _ s ho

theorem entryRefused_evolves (t : Tag) (s : State) (ho : ¬OffersTag s.span t) (hs : s.tracker[t].state = .queued) :
    Evolves s (entryRefused t s) := by
  unfold entryRefused
  dsimp only
  split
  · refine setEntry_evolves t _ s.orq s (by rw [hs]; simp) (fun h => ?_) (fun h => absurd h ho)
      (orq_keep (Or.inl hs) (Or.inr rfl))
    obtain ⟨a1, a2, a3, a4, a5, a6, a7, a8, a9, a10⟩ := h
    constructor <;> simp_all
  · exact failEntry_evolves t _ s ho

theorem entryOutcome_evolves (t : Tag) (frame : Frame) (o : FrameOutcome) (s : State) (ho : ¬OffersTag s.span t)
    (hs : s.tracker[t].state = .queued) : Evolves s (entryOutcome t frame o s) := by
  cases o
  · exact entryStands_evolves t frame s ho hs
  · exact entrySpoiled_evolves t s ho hs
  · exact entryRefused_evolves t s ho hs
  · exact failEntry_evolves t _ s ho

theorem backoffExpires_evolves (t : Tag) (s : State) (hs : s.tracker[t].state = .backoff) :
    Evolves s (backoffExpires t s) := by
  refine setEntry_evolves t _ s.orq s (by rw [hs]; simp) (fun h => ?_) (fun _ => rfl)
    (orq_keep (Or.inr hs) (Or.inl rfl))
  obtain ⟨a1, a2, a3, a4, a5, a6, a7, a8, a9, a10⟩ := h
  constructor <;> simp_all

theorem replyTimerExpires_evolves (t : Tag) (s : State) (hs : s.tracker[t].state = .waiting) :
    Evolves s (replyTimerExpires t s) := by
  unfold replyTimerExpires
  refine (answerWaiters_evolves s.tracker[t].waiters (faultAnswer .timeout) s).trans <|
    (takeReport_evolves _ _).trans <| releaseEntry_evolves t _ (Or.inr ?_)
  simp only [takeReport, answerWaiters_tracker]
  rw [hs]; simp

theorem abandonEntry_evolves (x : Station) (s : State) (t : Tag) : Evolves s (abandonEntry x s t) := by
  unfold abandonEntry
  dsimp only
  split
  · rename_i h
    refine (answerWaiters_evolves s.tracker[t].waiters (faultAnswer .abandoned) s).trans <|
      (takeReport_evolves _ _).trans <| releaseEntry_evolves t _ (Or.inr ?_)
    simp only [Bool.and_eq_true, beq_iff_eq] at h
    simp only [takeReport, answerWaiters_tracker]
    rw [h.1]; simp
  · exact .refl s

theorem abandonAll_evolves (x : Station) (s : State) : Evolves s (abandonAll x s) :=
  Evolves.foldl _ (fun s t => abandonEntry_evolves x s t) _ s

theorem strayReply_evolves (source : Station) (t : Tag) (s : State) : Evolves s (strayReply source t s) :=
  takeReport_evolves _ s

/-! ### The tracker's teardown -/

theorem teardownEntry_evolves (code : HostCode) (s : State) (t : Tag) (ho : ∀ x, ¬OffersTag s.span x) :
    Evolves s (teardownEntry code s t) := by
  unfold teardownEntry
  dsimp only
  split
  · exact .refl s
  · exact (answerWaiters_evolves s.tracker[t].waiters (faultAnswer code) s).trans
      (releaseEntry_evolves t _ (Or.inl (by simpa using ho t)))

/-- Releasing entries at a teardown keeps what the Span Port offers and frees the entries released. -/
theorem teardownEntry_spec (code : HostCode) (s : State) (t : Tag) :
    (teardownEntry code s t).span = s.span ∧ (teardownEntry code s t).station = s.station ∧
      (∀ x : Tag, s.tracker[x].state = .free → (teardownEntry code s t).tracker[x].state = .free) ∧
      (teardownEntry code s t).tracker[t].state = .free := by
  unfold teardownEntry
  dsimp only
  split
  · rename_i h
    exact ⟨rfl, rfl, fun _ h => h, by simpa using h⟩
  · refine ⟨?_, ?_, fun x hx => ?_, ?_⟩
    · simp [releaseEntry]
    · simp [releaseEntry]
    · simp only [releaseEntry, answerWaiters_tracker]
      rw [tracker_set]; split
      · rfl
      · exact hx
    · simp only [releaseEntry]
      rw [tracker_set, if_pos rfl]; rfl

theorem teardownFold_spec (code : HostCode) (l : List Tag) : ∀ s : State,
    (l.foldl (teardownEntry code) s).span = s.span ∧ (l.foldl (teardownEntry code) s).station = s.station ∧
      (∀ x : Tag, s.tracker[x].state = .free ∨ x ∈ l → (l.foldl (teardownEntry code) s).tracker[x].state = .free) ∧
      ((∀ x, ¬OffersTag s.span x) → Evolves s (l.foldl (teardownEntry code) s)) := by
  induction l with
  | nil => exact fun s => ⟨rfl, rfl, fun x h => h.resolve_right (by simp), fun _ => .refl s⟩
  | cons t l ih =>
    intro s
    obtain ⟨a, b, c, d⟩ := teardownEntry_spec code s t
    obtain ⟨a', b', c', d'⟩ := ih (teardownEntry code s t)
    refine ⟨a'.trans a, b'.trans b, fun x hx => ?_, fun ho => ?_⟩
    · rcases hx with hx | hx
      · exact c' x (Or.inl (c x hx))
      · rcases List.mem_cons.1 hx with e | hx
        · exact c' x (Or.inl (e ▸ d))
        · exact c' x (Or.inr hx)
    · exact (teardownEntry_evolves code s t ho).trans (d' (by simpa [a] using ho))

theorem mapTracker_eq (f : Entry → Entry) (s : State) :
    ∃ v, mapTracker f s = { s with tracker := v } ∧ ∀ x : Tag, v[x] = f s.tracker[x] := ⟨_, rfl, mapTracker_get f s⟩

/-- After the tracker's part of a teardown every entry is FREE in epoch 0 and the ORQ is empty (R75). -/
theorem trackerTeardown_spec (code : HostCode) (s : State) :
    (trackerTeardown code s).span = s.span ∧ (trackerTeardown code s).station = s.station ∧
      (∀ x : Tag, (trackerTeardown code s).tracker[x].state = .free ∧ (trackerTeardown code s).tracker[x].epoch = 0) ∧
      (trackerTeardown code s).orq = [] := by
  obtain ⟨a, b, c, _⟩ := teardownFold_spec code (List.finRange 16) s
  unfold trackerTeardown
  generalize (List.finRange 16).foldl (teardownEntry code) s = u at a b c
  obtain ⟨v, hv, hx⟩ := mapTracker_eq (fun e => { e with epoch := 0 }) u
  dsimp only
  rw [hv]
  refine ⟨a, b, fun x => ?_, rfl⟩
  exact ⟨(congrArg Entry.state (hx x)).trans (c x (Or.inr (List.mem_finRange x))), congrArg Entry.epoch (hx x)⟩

theorem orqEmpty_evolves (s : State) (hf : ∀ x : Tag, s.tracker[x].state = .free) : Evolves s { s with orq := [] } where
  quiet := fun h => QuietOk_tracker h rfl rfl rfl rfl rfl rfl h.tracker (fun _ => rfl)
  tracker := fun h => ⟨h.entries, fun t => by have := hf t; rw [this]; simp, List.nodup_nil, h.offered⟩

theorem trackerTeardown_evolves (code : HostCode) (s : State) (ho : ∀ x, ¬OffersTag s.span x) :
    Evolves s (trackerTeardown code s) := by
  obtain ⟨_, _, c, d⟩ := teardownFold_spec code (List.finRange 16) s
  unfold trackerTeardown
  generalize (List.finRange 16).foldl (teardownEntry code) s = u at c d
  refine (d ho).trans ?_
  have h := mapTracker_evolves (fun e => { e with epoch := 0 }) (fun e he => EntryOk_of he rfl rfl rfl rfl rfl rfl rfl .inl)
    (fun _ => rfl) u
  obtain ⟨v, hv, hx⟩ := mapTracker_eq (fun e => { e with epoch := 0 }) u
  dsimp only
  rw [hv] at h ⊢
  refine h.trans ?_
  refine (lostWrite_evolves (s.lostWrite || anyPosted s) _).trans ?_
  refine orqEmpty_evolves _ (fun x => ?_)
  exact (congrArg Entry.state (hx x)).trans (c x (Or.inr (List.mem_finRange x)))

/-! ### The cache -/

/-- The cache replaced by one within its capacity, without duplicates and without a line of the station's own. -/
theorem setCache_evolves (c : List CacheLine) (s : State)
    (hc : QueuesOk s → c.length ≤ Config.cacheCapacity ∧ (c.map fun c => (c.owner, c.line)).Nodup)
    (hr : s.cache = [] → c = [] ∨ s.station = .run) (hn : OwnOk s → ∀ d ∈ c, d.owner ≠ s.number) :
    Evolves s { s with cache := c } where
  queues := fun h => ⟨h.hrq, h.tags, h.lwb, h.svq, (hc h).1, (hc h).2, h.llt, h.lent, h.sharers, h.pass, h.spoils⟩
  quiet := fun h => ⟨h.tracker, h.orq, fun n => (hr (h.cache n)).resolve_right n, h.svq, h.llt, h.serve, h.offer⟩
  own := fun h => ⟨hn h, h.sharers, h.requesters, h.serving⟩

theorem cacheFilter_evolves (p : CacheLine → Bool) (s : State) : Evolves s { s with cache := s.cache.filter p } :=
  setCache_evolves _ s (fun h => ⟨(List.length_filter_le _ _).trans h.cache, (List.filter_sublist.map _).nodup h.copies⟩)
    (fun e => Or.inl (by simp [e])) (fun h d hd => h.cache d (List.mem_of_mem_filter hd))

theorem cacheDrop_evolves (owner : Station) (line : LineIndex) (s : State) : Evolves s (cacheDrop owner line s) :=
  cacheFilter_evolves _ s

theorem cacheDropOwner_evolves (x : Station) (s : State) : Evolves s (cacheDropOwner x s) := cacheFilter_evolves _ s

theorem cacheEmpty_evolves (s : State) : Evolves s (cacheEmpty s) :=
  setCache_evolves _ s (fun _ => ⟨by simp, by simp⟩) (fun _ => Or.inl rfl) (fun _ _ hd => by cases hd)

/-- The entries for other lines, with an entry for the line in front, hold no line twice. -/
theorem copies_nodup (c : CacheLine) (l l' : List CacheLine) (hl : l'.Sublist (l.filter fun d => !isCopyOf c.owner c.line d))
    (h : (l.map fun c => (c.owner, c.line)).Nodup) : ((c :: l').map fun c => (c.owner, c.line)).Nodup := by
  rw [List.map_cons, List.nodup_cons]
  refine ⟨fun hm => ?_, ((hl.trans List.filter_sublist).map _).nodup h⟩
  obtain ⟨d, hd, e⟩ := List.mem_map.1 hm
  have := (List.mem_filter.1 (hl.subset hd)).2
  simp only [Prod.mk.injEq] at e
  simp [isCopyOf, e.1, e.2] at this

theorem cacheFront_evolves (c : CacheLine) (s : State) (hc : ∃ d ∈ s.cache, isCopyOf c.owner c.line d = true) :
    Evolves s (cacheFront c s) := by
  obtain ⟨d, hd, hk⟩ := hc
  refine setCache_evolves _ s (fun h => ⟨?_, copies_nodup c s.cache _ (List.Sublist.refl _) h.copies⟩) (fun e => ?_)
    (fun h x hx => ?_)
  · have : (s.cache.filter fun d => !isCopyOf c.owner c.line d).length < s.cache.length :=
      List.length_filter_lt_length_iff_exists.2 ⟨d, hd, by simp [hk]⟩
    have := h.cache
    simp only [List.length_cons]; omega
  · simp [e] at hd
  · rcases List.mem_cons.1 hx with rfl | hx
    · have ho := h.cache d hd
      simp only [isCopyOf, Bool.and_eq_true, beq_iff_eq] at hk
      rwa [hk.1] at ho
    · exact h.cache x (List.mem_of_mem_filter hx)

theorem cacheFind_spec {owner : Station} {line : LineIndex} {s : State} {c : CacheLine} (h : cacheFind owner line s = some c) :
    c ∈ s.cache ∧ c.owner = owner ∧ c.line = line := by
  refine ⟨List.mem_of_find?_eq_some h, ?_⟩
  simpa [isCopyOf] using List.find?_some h

theorem cacheWrite_evolves (owner : Station) (line : LineIndex) (mask : Mask) (data : Line) (s : State) :
    Evolves s (cacheWrite owner line mask data s) := by
  unfold cacheWrite
  split
  · rename_i c h
    obtain ⟨a, b, d⟩ := cacheFind_spec h
    exact cacheFront_evolves _ s ⟨c, a, by simp [isCopyOf]⟩
  · exact .refl s

theorem cacheInstall_evolves (owner : Station) (line : LineIndex) (data : Line) (s : State) (hr : s.station = .run)
    (hn : owner ≠ s.number) : Evolves s (cacheInstall owner line data s) := by
  refine setCache_evolves _ s (fun h => ⟨?_, ?_⟩) (fun _ => Or.inr hr) (fun h x hx => ?_)
  · simp only [List.length_cons, List.length_take, Config.cacheCapacity]; omega
  · exact copies_nodup { owner := owner, line := line, data := data } s.cache _ (List.take_sublist _ _) h.copies
  · rcases List.mem_cons.1 hx with rfl | hx
    · exact hn
    · exact h.cache x (List.mem_of_mem_filter (List.mem_of_mem_take hx))

end Sys2Proof.Laws
end

