-- ==== Sys2Proof/Laws/Serving.lean ====
section
/-! SUPPORT. What the operations on the Reply Queue, the Lent-Line Table, the store's bookkeeping, the Local Write Buffer and the
Serve Engine may do (`Evolves`). -/

-- Theorems are elaborated one after another: many at once take more threads than the memory limit allows.
set_option Elab.async false

namespace Sys2Proof.Laws

open Sys2Proof.Machine Sys2Proof.Safety

/-! ### The Reply Queue -/

theorem rpqAppend_base (f : Frame) (w : Bool) (s : State) : EvolvesBase s (rpqAppend f w s) where
  queues := fun h => ⟨h.hrq, h.tags, h.lwb, h.svq, h.cache, h.copies, h.llt, h.lent, h.sharers, h.pass, by
    show (if s.rpq.isEmpty then 0 else s.spoilCount) ≤ _
    split
    · exact Nat.zero_le _
    · exact h.spoils⟩

theorem rpqAppend_evolves (f : Frame) (w : Bool) (s : State) (hroom : s.rpq.length + s.reserve < Config.rpqPlaces)
    (hr : QuietOk s → s.station = .run) : Evolves s (rpqAppend f w s) where
  toEvolvesBase := rpqAppend_base f w s
  reply := fun h => ⟨h.reserve, by simp only [rpqAppend, List.length_append, List.length_singleton]; omega⟩
  launch := fun q _ => LaunchOk_run (hr q)

theorem rpqDropHead_reply (s : State) : EvolvesReply s (rpqDropHead s) where
  queues := fun h => ⟨h.hrq, h.tags, h.lwb, h.svq, h.cache, h.copies, h.llt, h.lent, h.sharers, h.pass, Nat.zero_le _⟩
  reply := fun h => ⟨h.reserve, by have := h.places; simp only [rpqDropHead, List.length_tail]; omega⟩

theorem spoilCount_evolves (n : Nat) (s : State) (hn : n ≤ Config.lastSpoil) : Evolves s { s with spoilCount := n } where
  queues := fun h => ⟨h.hrq, h.tags, h.lwb, h.svq, h.cache, h.copies, h.llt, h.lent, h.sharers, h.pass, hn⟩

/-! ### The Lent-Line Table -/

/-- The table replaced by one within its capacity, without duplicates, without an empty sharer set and without the station's own
number. -/
theorem setLlt_base (l : List LentLine) (s : State) (hl : QueuesOk s → l.length ≤ Config.lltCapacity ∧
    (l.map (·.line)).Nodup ∧ ∀ e ∈ l, e.sharers ≠ 0#16) : EvolvesBase s { s with llt := l } where
  queues := fun h =>
    ⟨h.hrq, h.tags, h.lwb, h.svq, h.cache, h.copies, (hl h).1, (hl h).2.1, (hl h).2.2, h.pass, h.spoils⟩

theorem setLlt_evolves (l : List LentLine) (s : State) (hl : QueuesOk s → l.length ≤ Config.lltCapacity ∧
    (l.map (·.line)).Nodup ∧ ∀ e ∈ l, e.sharers ≠ 0#16) (hr : s.llt = [] → l = [] ∨ s.station = .run)
    (hn : OwnOk s → ∀ e ∈ l, e.sharers.getLsbD s.number.val = false) : Evolves s { s with llt := l } where
  toEvolvesBase := setLlt_base l s hl
  own := fun h => ⟨h.cache, hn h, h.requesters, h.serving⟩
  quiet := fun h => ⟨h.tracker, h.orq, h.cache, h.svq, fun n => (hr (h.llt n)).resolve_right n, h.serve, h.offer⟩

theorem lltFilter_evolves (p : LentLine → Bool) (s : State) : Evolves s { s with llt := s.llt.filter p } :=
  setLlt_evolves _ s (fun h => ⟨(List.length_filter_le _ _).trans h.llt, (List.filter_sublist.map _).nodup h.lent,
    fun e he => h.sharers e (List.mem_of_mem_filter he)⟩) (fun e => Or.inl (by simp [e]))
    (fun h e he => h.sharers e (List.mem_of_mem_filter he))

theorem lltRemove_evolves (line : LineIndex) (s : State) : Evolves s (lltRemove line s) := lltFilter_evolves _ s

theorem onlySharer_ne (p : Station) : onlySharer p ≠ 0#16 := by revert p; decide

theorem or_sharer_ne (x : SharerSet) (p : Station) : x ||| onlySharer p ≠ 0#16 := by
  intro h
  have h1 : ∀ p : Station, (onlySharer p).getLsbD p.val = true := by decide
  have h2 : (x ||| onlySharer p).getLsbD p.val = false := by rw [h]; simp
  rw [BitVec.getLsbD_or, h1, Bool.or_true] at h2
  exact absurd h2 (by decide)

theorem lltFind_none {line : LineIndex} {s : State} (h : lltFind line s = none) : line ∉ s.llt.map (·.line) := by
  intro hm
  obtain ⟨e, he, hl⟩ := List.mem_map.1 hm
  have := List.find?_eq_none.1 h e he
  simp [hl] at this

theorem lltLend_base (line : LineIndex) (p : Station) (s : State) : EvolvesBase s (lltLend line p s) := by
  unfold lltLend
  split
  · rename_i e he
    have hm : e ∈ s.llt := List.mem_of_find?_eq_some he
    have hk : e.line = line := by simpa using List.find?_some he
    refine setLlt_base _ s fun h => ⟨?_, ?_, ?_⟩
    · have : (s.llt.filter fun d => d.line != line).length < s.llt.length :=
        List.length_filter_lt_length_iff_exists.2 ⟨e, hm, by simp [hk]⟩
      have := h.llt
      simp only [List.length_cons]; omega
    · rw [List.map_cons, List.nodup_cons]
      refine ⟨fun hx => ?_, (List.filter_sublist.map _).nodup h.lent⟩
      obtain ⟨d, hd, e'⟩ := List.mem_map.1 hx
      have := (List.mem_filter.1 hd).2
      simp [e', hk] at this
    · intro d hd
      rcases List.mem_cons.1 hd with rfl | hd
      · exact or_sharer_ne _ _
      · exact h.sharers d (List.mem_of_mem_filter hd)
  · rename_i he
    have hno := lltFind_none he
    dsimp only
    split
    · refine setLlt_base _ s fun h => ⟨?_, ?_, ?_⟩
      · simp only [List.length_cons]; omega
      · rw [List.map_cons, List.nodup_cons]; exact ⟨hno, h.lent⟩
      · intro d hd
        rcases List.mem_cons.1 hd with rfl | hd
        · exact onlySharer_ne _
        · exact h.sharers d hd
    · rename_i hfull
      unfold lltEvict
      split
      · refine (rpqAppend_base _ _ s).trans (setLlt_base _ _ fun h => ⟨?_, ?_, ?_⟩)
        · have := h.llt
          simp only [rpqAppend, Config.lltCapacity] at this hfull
          simp only [List.length_cons, List.length_dropLast, Config.lltCapacity]; omega
        · rw [List.map_cons, List.nodup_cons]
          exact ⟨fun hx => hno (((List.dropLast_sublist _).map _).subset hx), ((List.dropLast_sublist _).map _).nodup h.lent⟩
        · intro d hd
          rcases List.mem_cons.1 hd with rfl | hd
          · exact onlySharer_ne _
          · exact h.sharers d (List.mem_of_mem_dropLast hd)
      · rename_i h
        rw [List.getLast?_eq_none_iff] at h
        exact absurd (by rw [h]; decide) hfull

/-- A lend changes the table, the Reply Queue by at most one frame, and the spoil count of its head. -/
theorem lltLend_eq (line : LineIndex) (p : Station) (s : State) :
    ∃ q l c, lltLend line p s = { s with rpq := q, llt := l, spoilCount := c } ∧ q.length ≤ s.rpq.length + 1 := by
  unfold lltLend
  split
  · exact ⟨s.rpq, _, s.spoilCount, rfl, Nat.le_succ _⟩
  · dsimp only
    split
    · exact ⟨s.rpq, _, s.spoilCount, rfl, Nat.le_succ _⟩
    · unfold lltEvict
      split
      · exact ⟨_, _, _, rfl, by simp [rpqAppend]⟩
      · exact ⟨s.rpq, _, s.spoilCount, rfl, Nat.le_succ _⟩

theorem onlySharer_bit (p n : Station) (h : p ≠ n) : (onlySharer p).getLsbD n.val = false := by
  revert p n; decide

/-- A lend to another station puts no own number into a sharer set. -/
theorem lltLend_own (line : LineIndex) (p : Station) (s : State) (hp : p ≠ s.number) (h : OwnOk s) : OwnOk (lltLend line p s) := by
  have hb := onlySharer_bit p s.number hp
  have key (u : State) (l : List LentLine) (hu : u.cache = s.cache ∧ u.svq = s.svq ∧ u.serveOp = s.serveOp ∧ u.number = s.number)
      (hl : ∀ e ∈ l, e ∈ s.llt) (e : LentLine) (he : e.sharers.getLsbD s.number.val = false) :
      OwnOk { u with llt := e :: l } := by
    obtain ⟨h1, h2, h3, h4⟩ := hu
    refine ⟨?_, ?_, ?_, ?_⟩ <;> simp only [h1, h2, h3, h4]
    · exact h.cache
    · intro x hx
      rcases List.mem_cons.1 hx with rfl | hx
      · exact he
      · exact h.sharers x (hl x hx)
    · exact h.requesters
    · exact h.serving
  unfold lltLend
  split
  · rename_i e he
    refine key s _ ⟨rfl, rfl, rfl, rfl⟩ (fun x hx => List.mem_of_mem_filter hx) _ ?_
    rw [BitVec.getLsbD_or, h.sharers e (List.mem_of_find?_eq_some he), hb]; rfl
  · dsimp only
    split
    · exact key s _ ⟨rfl, rfl, rfl, rfl⟩ (fun x hx => hx) _ hb
    · unfold lltEvict
      split
      · exact key (rpqAppend _ false s) _ ⟨rfl, rfl, rfl, rfl⟩ (fun x hx => List.mem_of_mem_dropLast hx) _ hb
      · exact key s _ ⟨rfl, rfl, rfl, rfl⟩ (fun x hx => hx) _ hb

theorem lltRecallForWrite_evolves (line : LineIndex) (s : State)
    (h : (lltFind line s).isNone = true ∨ 0 < freePlaces s) : Evolves s (lltRecallForWrite line s) := by
  unfold lltRecallForWrite
  split
  · rename_i e he
    refine (rpqAppend_evolves _ _ s ?_ (fun q => ?_)).trans (lltRemove_evolves _ _)
    · rcases h with h | h
      · simp [he] at h
      · simp only [freePlaces] at h; omega
    · by_contra n
      have hm : e ∈ s.llt := List.mem_of_find?_eq_some he
      rw [q.llt n] at hm; cases hm
  · exact .refl s

theorem lltPutStands_evolves (line : LineIndex) (w : Station) (s : State) : Evolves s (lltPutStands line w s) := by
  refine setLlt_evolves _ s (fun h => ⟨?_, ?_, ?_⟩) (fun e => Or.inl (by simp [e])) (fun h x hx => ?_)
  · exact (List.length_filter_le _ _).trans (by simpa using h.llt)
  · refine (List.filter_sublist.map _).nodup ?_
    have e : (fun d : LentLine => (if d.line = line then { d with sharers := d.sharers &&& onlySharer w } else d).line)
        = fun d => d.line := by
      funext d; split <;> rfl
    simpa [List.map_map, Function.comp_def, e] using h.lent
  · intro e he
    obtain ⟨hm, hp⟩ := List.mem_filter.1 he
    obtain ⟨d, hd, rfl⟩ := List.mem_map.1 hm
    by_cases hl : d.line = line
    · simpa [hl] using hp
    · simpa [hl] using h.sharers d hd
  · obtain ⟨d, hd, rfl⟩ := List.mem_map.1 (List.mem_of_mem_filter hx)
    have := h.sharers d hd
    split
    · rw [BitVec.getLsbD_and, this]; rfl
    · exact this

theorem lltStartStands_evolves (x : Station) (s : State) : Evolves s (lltStartStands x s) := by
  refine setLlt_evolves _ s (fun h => ⟨?_, ?_, ?_⟩) (fun e => Or.inl (by simp [e])) (fun h x hx => ?_)
  · exact (List.length_filter_le _ _).trans (by simpa using h.llt)
  · refine (List.filter_sublist.map _).nodup ?_
    simpa [List.map_map, Function.comp_def] using h.lent
  · intro e he
    simpa using (List.mem_filter.1 he).2
  · obtain ⟨d, hd, rfl⟩ := List.mem_map.1 (List.mem_of_mem_filter hx)
    rw [BitVec.getLsbD_and, h.sharers d hd]; rfl

/-! ### The store's bookkeeping and the Local Write Buffer -/

/-- The store's operation and the operation in flight replaced together, neither a drain. -/
theorem StoreWorkOk_op {s u : State} (hl : u.lwb = s.lwb) (hs : s.storeOp ≠ some .drain) (hu : u.storeOp ≠ some .drain)
    (hw : u.storeOp = some .serve → u.serveOp ≠ none) (h : StoreWorkOk s) : StoreWorkOk u :=
  ⟨by rw [hl, ← h.drain]; exact ⟨fun e => absurd e hu, fun e => absurd e hs⟩, by rw [hl]; exact h.others, hw⟩

theorem storeOp_evolves (o : Option StoreOp) (s : State) (hw : StoreWorkOk s → StoreWorkOk { s with storeOp := o }) :
    Evolves s { s with storeOp := o } where
  work := hw

/-- An operation that is no drain begins in the free store, or ends. -/
theorem storeOp_other {o : Option StoreOp} {s : State} (hs : s.storeOp ≠ some .drain) (ho : o ≠ some .drain)
    (hv : o = some .serve → s.serveOp ≠ none) : Evolves s { s with storeOp := o } :=
  storeOp_evolves o s (StoreWorkOk_op rfl hs ho hv)

theorem turn_evolves (x : Side) (s : State) : Evolves s { s with turn := x } where

theorem insertNumber_mem (n x : Nat) (l : List Nat) : x ∈ insertNumber n l → x = n ∨ x ∈ l := by
  induction l with
  | nil => simp [insertNumber]
  | cons k l ih =>
    unfold insertNumber
    split
    · simp
    · split
      · exact Or.inr
      · intro h
        rcases List.mem_cons.1 h with rfl | h
        · simp
        · rcases ih h with h | h <;> simp [h]

theorem insertNumber_pairwise (n : Nat) (l : List Nat) (h : l.Pairwise (· < ·)) : (insertNumber n l).Pairwise (· < ·) := by
  induction l with
  | nil => simp [insertNumber]
  | cons k l ih =>
    rw [List.pairwise_cons] at h
    unfold insertNumber
    split
    · rename_i hk
      rw [List.pairwise_cons, List.pairwise_cons]
      refine ⟨fun x hx => ?_, h⟩
      rcases List.mem_cons.1 hx with rfl | hx
      · exact hk
      · exact hk.trans (h.1 x hx)
    · split
      · rw [List.pairwise_cons]; exact h
      · rename_i h1 h2
        rw [List.pairwise_cons]
        refine ⟨fun x hx => ?_, ih h.2⟩
        rcases insertNumber_mem n x l hx with rfl | hx
        · omega
        · exact h.1 x hx

theorem poisonAfterRead_pairwise (s : State) (line : LineIndex) (e : WordErrors) (ws : List (Fin 8))
    (h : s.poison.Pairwise (· < ·)) : (poisonAfterRead s line e ws).Pairwise (· < ·) := by
  unfold poisonAfterRead
  generalize ws.filter (fun w => judgeWord s line e w == .poisoned) = l
  generalize s.poison = p at h
  induction l generalizing p with
  | nil => exact h
  | cons w l ih => exact ih _ (insertNumber_pairwise _ _ h)

theorem setPoison_evolves (p : List Nat) (s : State) (hp : s.poison.Pairwise (· < ·) → p.Pairwise (· < ·)) :
    Evolves s { s with poison := p } where
  store := fun h => ⟨h.mem, hp h.poison⟩

theorem reportMended_evolves (m : Bool) (p : Option Station) (line : LineIndex) (tag : Option HostTag) (s : State) :
    Evolves s (reportMended m p line tag s) := by
  unfold reportMended
  split
  · exact takeReport_evolves _ s
  · exact .refl s

theorem reportPoison_evolves (p : Option Station) (line : LineIndex) (tag : Option HostTag) (s : State) :
    Evolves s (reportPoison p line tag s) := takeReport_evolves _ s

/-- The buffer changed but for its draining marks, or lengthened by an entry that is not draining. -/
theorem StoreWorkOk_lwb {s : State} {l : List LwbEntry} (hl : l.map (·.draining) = s.lwb.map (·.draining) ∨
    ∃ b, l = s.lwb ++ [b] ∧ b.draining = false) (h : StoreWorkOk s) : StoreWorkOk { s with lwb := l } := by
  have hd := h.drain
  have ht := h.others
  refine ⟨?_, ?_, h.serve⟩
  · show s.storeOp = some .drain ↔ ∃ b rest, l = b :: rest ∧ b.draining = true
    rw [hd]
    rcases hl with hl | ⟨b, rfl, hb⟩
    · cases hs : s.lwb <;> cases l <;> simp_all
    · cases hs : s.lwb <;> simp_all
  · show ∀ b ∈ l.tail, b.draining = false
    rcases hl with hl | ⟨b, rfl, hb⟩
    · cases hs : s.lwb <;> cases l <;> simp_all only [List.map_nil, List.map_cons, List.tail_nil, List.tail_cons, List.cons.injEq,
        reduceCtorEq, List.not_mem_nil, false_imp_iff, implies_true]
      rename_i r a r'
      intro b hb
      have : b.draining ∈ r.map (·.draining) := by rw [← hl.2]; exact List.mem_map_of_mem hb
      obtain ⟨c, hc, e⟩ := List.mem_map.1 this
      rw [← e]; exact ht c hc
    · intro c hc
      cases hs : s.lwb with
      | nil => rw [hs] at hc; cases hc
      | cons a r =>
        rw [hs] at hc ht
        simp only [List.cons_append, List.tail_cons, List.mem_append, List.mem_singleton] at hc ht
        rcases hc with hc | rfl
        · exact ht c hc
        · exact hb

/-- The buffer replaced by one within its capacity. -/
theorem setLwb_evolves (l : List LwbEntry) (s : State) (hl : s.lwb.length ≤ Config.lwbCapacity → l.length ≤ Config.lwbCapacity)
    (hw : StoreWorkOk s → StoreWorkOk { s with lwb := l }) : Evolves s { s with lwb := l } where
  work := hw
  queues := fun h =>
    ⟨h.hrq, h.tags, hl h.lwb, h.svq, h.cache, h.copies, h.llt, h.lent, h.sharers, h.pass, h.spoils⟩

theorem updateNewest_length (line : LineIndex) (f : LwbEntry → LwbEntry) (l : List LwbEntry) :
    (updateNewest line f l).length = l.length := by
  induction l with
  | nil => rfl
  | cons b l ih => unfold updateNewest; split <;> simp [ih]

theorem updateNewest_map {α : Type} (g : LwbEntry → α) (line : LineIndex) (f : LwbEntry → LwbEntry) (hf : ∀ b, g (f b) = g b)
    (l : List LwbEntry) : (updateNewest line f l).map g = l.map g := by
  induction l with
  | nil => rfl
  | cons b l ih => unfold updateNewest; split <;> simp [ih, hf]

theorem lwbTake_evolves (line : LineIndex) (mask : Mask) (data : Line) (c : Option HostTag) (s : State)
    (h : lwbReceives s line c.isSome = true) : Evolves s (lwbTake line mask data c s) := by
  unfold lwbTake
  split
  · exact setLwb_evolves _ s (fun hl => by rw [updateNewest_length]; exact hl)
      (StoreWorkOk_lwb (.inl (updateNewest_map (·.draining) line (mergeInto mask data) (fun _ => rfl) s.lwb)))
  · rename_i hm
    refine setLwb_evolves _ s (fun _ => ?_) (StoreWorkOk_lwb (.inr ⟨_, rfl, rfl⟩))
    simp only [lwbReceives, hm, Bool.false_or, decide_eq_true_eq] at h
    simp only [List.length_append, List.length_singleton]; omega

theorem lwbTakePut_evolves (line : LineIndex) (mask : Mask) (data : Line) (s : State) : Evolves s (lwbTakePut line mask data s) :=
  setLwb_evolves _ s (fun h => by simpa using h) (StoreWorkOk_lwb (.inl (by
    rw [List.map_map]; exact List.map_congr_left fun b _ => by dsimp only [Function.comp]; split <;> rfl)))

/-! ### The Serve Queue and the Serve Engine -/

theorem svqAppend_evolves (p : Station) (line : LineIndex) (k : ServeKind) (s : State) (hr : s.station = .run)
    (hl : s.svq.length < Config.svqCapacity) (hp : p ≠ s.number) : Evolves s (svqAppend p line k s) where
  own := fun h => ⟨h.cache, h.sharers, fun r hr => by
    rcases List.mem_append.1 hr with hr | hr
    · exact h.requesters r hr
    · rw [List.mem_singleton.1 hr]; exact hp, h.serving⟩
  queues := fun h => ⟨h.hrq, h.tags, h.lwb, by simp only [svqAppend, List.length_append, List.length_singleton]; omega,
    h.cache, h.copies, h.llt, h.lent, h.sharers, h.pass, h.spoils⟩
  quiet := fun h => ⟨h.tracker, h.orq, h.cache, fun n => absurd hr n, h.llt, h.serve, h.offer⟩

theorem appendNote_base (r : ServeReq) (o : NoteOutcome) (s : State) : EvolvesBase s (appendNote r o s) := by
  unfold appendNote
  split
  · exact rpqAppend_base _ _ s
  · exact (Evolves.refl s).toEvolvesBase

/-- The queue and the pass count after a taking. -/
theorem setSvq_evolves (q : List ServeReq) (n : Nat) (s : State) (hq : q.length ≤ s.svq.length) (hn : n ≤ Config.passLimit)
    (hm : ∀ r ∈ q, r ∈ s.svq) : Evolves s { s with svq := q, passCount := n } where
  own := fun h => ⟨h.cache, h.sharers, fun r hr => h.requesters r (hm r hr), h.serving⟩
  queues := fun h => ⟨h.hrq, h.tags, h.lwb, hq.trans h.svq, h.cache, h.copies, h.llt, h.lent, h.sharers, hn, h.spoils⟩
  quiet := fun h => ⟨h.tracker, h.orq, h.cache, fun n => by
    have := h.svq n
    show q = []
    rw [this] at hq; exact List.length_eq_zero_iff.1 (Nat.le_zero.1 hq), h.llt, h.serve, h.offer⟩

/-- The clear ASK and the queue without it are the queue. -/
theorem takeClearAsk_perm (seen l : List ServeReq) (r : ServeReq) (q : List ServeReq) (h : takeClearAsk seen l = some (r, q)) :
    (r :: q).Perm (seen ++ l) := by
  induction l generalizing seen with
  | nil => simp [takeClearAsk] at h
  | cons a l ih =>
    unfold takeClearAsk at h
    split at h
    · simp only [Option.some.injEq, Prod.mk.injEq] at h
      rw [← h.1, ← h.2]; exact List.perm_middle.symm
    · simpa using ih _ h

/-- The request taken and the queue left are the queue; the pass count stays within its limit. -/
theorem chooseServe_spec {n : Nat} {l q : List ServeReq} {r : ServeReq} {m : Nat} (h : chooseServe n l = some (r, q, m)) :
    (r :: q).Perm l ∧ m ≤ Config.passLimit := by
  cases l with
  | nil => simp [chooseServe] at h
  | cons a l =>
    simp only [chooseServe] at h
    by_cases hc : (!isServeAsk a && decide (n < Config.passLimit)) = true
    · rw [if_pos hc] at h
      cases hx : takeClearAsk [] (a :: l) with
      | some x =>
        obtain ⟨b, o⟩ := x
        simp only [hx, Option.some.injEq, Prod.mk.injEq] at h
        have := takeClearAsk_perm _ _ _ _ hx
        simp only [Bool.and_eq_true, decide_eq_true_eq] at hc
        exact ⟨by rw [← h.1, ← h.2.1]; exact this, by omega⟩
      | none =>
        simp only [hx, Option.some.injEq, Prod.mk.injEq] at h
        exact ⟨by rw [← h.1, ← h.2.1], by rw [← h.2.2]; exact Nat.zero_le _⟩
    · rw [if_neg hc] at h
      simp only [Option.some.injEq, Prod.mk.injEq] at h
      exact ⟨by rw [← h.1, ← h.2.1], by rw [← h.2.2]; exact Nat.zero_le _⟩

/-- A NOTE appended, if one is, changes the Reply Queue and the spoil count of its head alone. -/
theorem appendNote_eq (r : ServeReq) (o : NoteOutcome) (s : State) :
    ∃ q c, appendNote r o s = { s with rpq := q, spoilCount := c } ∧ q.length ≤ s.rpq.length + 1 := by
  unfold appendNote
  split
  · exact ⟨_, _, rfl, by simp⟩
  · exact ⟨s.rpq, s.spoilCount, rfl, Nat.le_succ _⟩

/-- The checks on a taken request keep the station's state. -/
theorem serveCheck_station (r : ServeReq) (s : State) : (serveCheck r s).station = s.station := by
  have hnote : ∀ o k, (appendNote r o (takeReport (serveReport k r) s)).station = s.station := fun o k => by
    obtain ⟨q, c, e, _⟩ := appendNote_eq r o (takeReport (serveReport k r) s)
    rw [e]; rfl
  unfold serveCheck
  repeat' split
  · rfl
  · exact hnote _ _
  · exact hnote _ _
  · rfl

/-- The checks on a taken request of another station, as long as no operation is in flight and two places are free; in RUN they
keep QuietOk. -/
theorem serveCheck_evolves (r : ServeReq) (s : State) (hop : s.serveOp = none)
    (hroom : s.rpq.length + Config.serveReserve ≤ Config.rpqPlaces) :
    EvolvesBase s (serveCheck r s) ∧ (ReplyOk s → ReplyOk (serveCheck r s)) ∧
      (s.station = .run → QuietOk s → QuietOk (serveCheck r s)) ∧
      (r.requester ≠ s.number → OwnOk s → OwnOk (serveCheck r s)) := by
  have hnote : ∀ o k, EvolvesBase s (appendNote r o (takeReport (serveReport k r) s)) ∧
      (ReplyOk s → ReplyOk (appendNote r o (takeReport (serveReport k r) s))) ∧
      (s.station = .run → QuietOk s → QuietOk (appendNote r o (takeReport (serveReport k r) s))) ∧
      (r.requester ≠ s.number → OwnOk s → OwnOk (appendNote r o (takeReport (serveReport k r) s))) := fun o k => by
    refine ⟨(takeReport_evolves _ s).toEvolvesBase.trans (appendNote_base r o _), fun h => ?_, fun hr h => ?_, fun hp h => ?_⟩
    rotate_right
    · obtain ⟨q, c, e, hq⟩ := appendNote_eq r o (takeReport (serveReport k r) s)
      rw [e]; exact ⟨h.cache, h.sharers, h.requesters, h.serving⟩
    · obtain ⟨q, c, e, hq⟩ := appendNote_eq r o (takeReport (serveReport k r) s)
      have h0 : s.reserve = 0 := by have := h.reserve; rwa [hop] at this
      rw [e]
      refine ⟨h.reserve, ?_⟩
      show q.length + s.reserve ≤ _
      simp only [takeReport, Config.serveReserve] at hq hroom
      omega
    · obtain ⟨q, c, e, hq⟩ := appendNote_eq r o (takeReport (serveReport k r) s)
      rw [e]
      exact ⟨h.tracker, h.orq, h.cache, h.svq, h.llt, h.serve, h.offer⟩
  unfold serveCheck
  split
  · exact ⟨(takeReport_evolves _ s).toEvolvesBase, (takeReport_evolves _ s).reply, fun _ => (takeReport_evolves _ s).quiet,
      fun _ => (takeReport_evolves _ s).own⟩
  split
  · exact hnote _ _
  split
  · exact hnote _ _
  · exact ⟨{ work := fun h => ⟨h.drain, h.others, fun _ => by simp⟩ }, fun h => ⟨rfl, hroom⟩, fun hr h =>
      ⟨h.tracker, h.orq, h.cache, h.svq, h.llt, fun n => absurd hr n, h.offer⟩, fun hp h =>
      ⟨h.cache, h.sharers, h.requesters, fun op ho => by rw [← Option.some.inj ho]; exact hp⟩⟩

theorem serveTakeNow_evolves (s : State) : Evolves s (serveTakeNow s) := by
  unfold serveTakeNow
  split
  · rename_i hc
    simp only [canServe, Bool.and_eq_true, Option.isNone_iff_eq_none, decide_eq_true_eq, Bool.not_eq_true',
      List.isEmpty_eq_false_iff] at hc
    obtain ⟨⟨hop, hroom⟩, hne⟩ := hc
    split
    · rename_i r q m hch
      obtain ⟨hl, hm⟩ := chooseServe_spec hch
      have hlen := hl.length_eq
      rw [List.length_cons] at hlen
      have h1 := setSvq_evolves q m s (by omega) hm (fun x hx => hl.subset (List.mem_cons_of_mem _ hx))
      obtain ⟨a, b, c, d⟩ := serveCheck_evolves r { s with svq := q, passCount := m } hop hroom
      exact { toEvolvesBase := h1.toEvolvesBase.trans a
              reply := fun h => b (h1.reply h)
              own := fun h => d (h.requesters r (hl.subset (List.mem_cons_self ..))) (h1.own h)
              launch := fun h _ => LaunchOk_run ((serveCheck_station _ _).trans (by
                by_contra hn; exact hne (h.svq hn)))
              quiet := fun h => by
                by_cases hn : s.station = .run
                · exact c hn (h1.quiet h)
                · exact absurd (h.svq hn) hne }
    · exact .refl s
  · exact .refl s

theorem orphanServe_evolves (s : State) : Evolves s (orphanServe s) where
  reply := fun h => by
    refine ⟨?_, by have := h.places; show s.rpq.length + 0 ≤ _; omega⟩
    simp only [orphanServe]
    cases s.serveOp <;> rfl
  quiet := fun h => ⟨h.tracker, h.orq, h.cache, h.svq, h.llt, fun n op ho => by
    simp only [orphanServe, Option.map_eq_some_iff] at ho
    obtain ⟨_, _, rfl⟩ := ho; rfl, h.offer⟩
  own := fun h => ⟨h.cache, h.sharers, h.requesters, fun op ho => by
    simp only [orphanServe, Option.map_eq_some_iff] at ho
    obtain ⟨op', h', rfl⟩ := ho
    exact h.serving op' h'⟩
  work := fun h => ⟨h.drain, h.others, fun e => by
    have := h.serve e
    simpa [orphanServe] using this⟩

/-- The end of a serve operation: the store is free, no operation is in flight, the reserve is released. -/
theorem serveDone_evolves (s : State) (hs : s.storeOp = some .serve) : Evolves s (serveEnd { s with storeOp := none }) where
  reply := fun h => ⟨rfl, by have := h.places; show s.rpq.length + 0 ≤ _; omega⟩
  quiet := fun h => ⟨h.tracker, h.orq, h.cache, h.svq, h.llt, fun _ op ho => by simp [serveEnd] at ho, h.offer⟩
  own := fun h => ⟨h.cache, h.sharers, h.requesters, fun op ho => by simp [serveEnd] at ho⟩
  work := StoreWorkOk_op rfl (by rw [hs]; simp) (by simp [serveEnd]) (by simp [serveEnd])

/-- The Reply Queue shortened in place by frames other than a START, the spoil count of its head kept or cleared. -/
theorem setRpq_evolves (p : RpqItem → Bool) (c : Nat) (s : State) (hp : ∀ n w b, p ⟨.start n, w, b⟩ = true)
    (hc : c = 0 ∨ c = s.spoilCount) : Evolves s { s with rpq := s.rpq.filter p, spoilCount := c } where
  queues := fun h => ⟨h.hrq, h.tags, h.lwb, h.svq, h.cache, h.copies, h.llt, h.lent, h.sharers, h.pass, by
    rcases hc with rfl | rfl
    · exact Nat.zero_le _
    · exact h.spoils⟩
  reply := fun h => ⟨h.reserve, by
    have := h.places
    have := List.length_filter_le p s.rpq
    show (s.rpq.filter p).length + s.reserve ≤ _; omega⟩
  launch := fun _ h => ⟨fun n => by simp [h.silent n], fun n => by simp [h.starting n, hp], h.offer⟩

theorem servePurge_evolves (x : Station) (s : State) : Evolves s (servePurge x s) := by
  have h1 : Evolves s { s with svq := s.svq.filter fun r => r.requester != x } :=
    { queues := fun h => ⟨h.hrq, h.tags, h.lwb, (List.length_filter_le _ _).trans h.svq, h.cache, h.copies, h.llt, h.lent,
        h.sharers, h.pass, h.spoils⟩
      quiet := fun h => ⟨h.tracker, h.orq, h.cache, fun n => by simp [h.svq n], h.llt, h.serve, h.offer⟩
      own := fun h => ⟨h.cache, h.sharers, fun r hr => h.requesters r (List.mem_of_mem_filter hr), h.serving⟩ }
  have h2 := h1.trans (setRpq_evolves (fun it => !isReplyTo x it)
    (if (s.rpq.head?.map (isReplyTo x)).getD false then 0 else s.spoilCount) _ (fun _ _ _ => rfl)
    (by split <;> simp))
  unfold servePurge
  dsimp only
  split
  · split
    · exact h2.trans (orphanServe_evolves _)
    · exact h2
  · exact h2

/-- What follows the end of an operation that is not orphaned: two places are free, and the station is in RUN. -/
theorem serveRoom {s : State} {op : ServeOp} (hop : s.serveOp = some op) (ho : op.orphaned = false) :
    (ReplyOk s → s.rpq.length + 2 ≤ Config.rpqPlaces) ∧ (QuietOk s → s.station = .run) := by
  refine ⟨fun h => ?_, fun h => ?_⟩
  · have h1 := h.reserve
    have h2 := h.places
    simp only [hop, ho, Config.serveReserve] at h1
    simp at h1; omega
  · by_contra n
    have := h.serve n op hop
    simp [ho] at this

theorem reportMended_eq (m : Bool) (p : Option Station) (line : LineIndex) (tag : Option HostTag) (s : State) :
    ∃ a b c d, reportMended m p line tag s = { s with flags := a, counts := b, firstFault := c, irq := d } := by
  unfold reportMended
  split
  · exact ⟨_, _, _, _, rfl⟩
  · exact ⟨s.flags, s.counts, s.firstFault, s.irq, rfl⟩

theorem serveReadEnds_evolves (op : ServeOp) (keep : Bool) (tag : Tag) (epoch : Epoch) (e : WordErrors) (s : State)
    (hst : s.storeOp = some .serve) (hop : s.serveOp = some op) : Evolves s (serveReadEnds op keep tag epoch e s) := by
  have h1 : Evolves s (serveEnd { s with poison := poisonAfterRead s op.req.line e allWords, storeOp := none }) :=
    (setPoison_evolves _ s (poisonAfterRead_pairwise s _ e allWords)).trans (serveDone_evolves _ hst)
  have h2 := h1.trans (reportMended_evolves (readMends s op.req.line e allWords) (some op.req.requester) op.req.line none _)
  unfold serveReadEnds
  dsimp only
  split
  · exact h2
  rename_i ho
  obtain ⟨hroom, hrun⟩ := serveRoom hop (by simpa using ho)
  obtain ⟨a, b, c, d, em⟩ := reportMended_eq (readMends s op.req.line e allWords) (some op.req.requester) op.req.line none
    (serveEnd { s with poison := poisonAfterRead s op.req.line e allWords, storeOp := none })
  rw [em] at h2 ⊢
  split
  · refine ⟨⟨(h2.trans (reportPoison_evolves (some op.req.requester) op.req.line none _)).toEvolvesBase.trans
      (appendNote_base op.req .poison _), fun h => ?_, fun h => ?_, fun h => ?_⟩, fun h _ => ?_⟩
    rotate_right 2
    · obtain ⟨q, n, eq, hq⟩ := appendNote_eq op.req .poison (reportPoison (some op.req.requester) op.req.line none
        { serveEnd { s with poison := poisonAfterRead s op.req.line e allWords, storeOp := none } with
          flags := a, counts := b, firstFault := c, irq := d })
      rw [eq]
      have k := h2.own h
      exact ⟨k.cache, k.sharers, k.requesters, k.serving⟩
    · obtain ⟨q, n, eq, hq⟩ := appendNote_eq op.req .poison (reportPoison (some op.req.requester) op.req.line none
        { serveEnd { s with poison := poisonAfterRead s op.req.line e allWords, storeOp := none } with
          flags := a, counts := b, firstFault := c, irq := d })
      rw [eq]
      exact LaunchOk_run (hrun h)
    · obtain ⟨q, n, eq, hq⟩ := appendNote_eq op.req .poison (reportPoison (some op.req.requester) op.req.line none
        { serveEnd { s with poison := poisonAfterRead s op.req.line e allWords, storeOp := none } with
          flags := a, counts := b, firstFault := c, irq := d })
      rw [eq]
      have h3 := hroom h
      have h4 : q.length ≤ s.rpq.length + 1 := hq
      exact ⟨rfl, by show q.length + 0 ≤ _; omega⟩
    · obtain ⟨q, n, eq, hq⟩ := appendNote_eq op.req .poison (reportPoison (some op.req.requester) op.req.line none
        { serveEnd { s with poison := poisonAfterRead s op.req.line e allWords, storeOp := none } with
          flags := a, counts := b, firstFault := c, irq := d })
      rw [eq]
      exact ⟨h.tracker, h.orq, h.cache, h.svq, h.llt, fun n => absurd (hrun h) n, h.offer⟩
  · generalize hs1 : { serveEnd { s with poison := poisonAfterRead s op.req.line e allWords, storeOp := none } with
      flags := a, counts := b, firstFault := c, irq := d } = s1 at h2
    have hlend : ∃ q l n, (if keep then lltLend op.req.line op.req.requester s1 else s1)
        = { s1 with rpq := q, llt := l, spoilCount := n } ∧ q.length ≤ s1.rpq.length + 1 := by
      split
      · exact lltLend_eq _ _ _
      · exact ⟨s1.rpq, s1.llt, s1.spoilCount, rfl, Nat.le_succ _⟩
    have hbase : EvolvesBase s1 (if keep then lltLend op.req.line op.req.requester s1 else s1) := by
      split
      · exact lltLend_base _ _ _
      · exact (Evolves.refl _).toEvolvesBase
    refine ⟨⟨h2.toEvolvesBase.trans (hbase.trans (rpqAppend_base _ _ _)), fun h => ?_, fun h => ?_, fun h => ?_⟩, fun h _ => ?_⟩
    rotate_right 2
    · have hp : op.req.requester ≠ s1.number := by rw [← hs1]; exact h.serving op hop
      have k := h2.own h
      have k2 : OwnOk (if keep then lltLend op.req.line op.req.requester s1 else s1) := by
        split
        · exact lltLend_own _ _ s1 hp k
        · exact k
      exact ⟨k2.cache, k2.sharers, k2.requesters, k2.serving⟩
    · obtain ⟨q, l, n, eq, hq⟩ := hlend
      rw [eq]
      exact LaunchOk_run (by rw [← hs1]; exact hrun h)
    · obtain ⟨q, l, n, eq, hq⟩ := hlend
      rw [eq]
      have h3 := hroom h
      have h4 : q.length ≤ s.rpq.length + 1 := by rw [← hs1] at hq; exact hq
      refine ⟨by rw [← hs1]; rfl, ?_⟩
      have h5 : s1.reserve = 0 := by rw [← hs1]; rfl
      simp only [rpqAppend, List.length_append, List.length_singleton, h5]; omega
    · obtain ⟨q, l, n, eq, hq⟩ := hlend
      rw [eq]
      have k := h2.quiet h
      have hr : s1.station = .run := by rw [← hs1]; exact hrun h
      exact ⟨k.tracker, k.orq, k.cache, k.svq, fun n => absurd hr n, k.serve, k.offer⟩

/-- A serve write: what follows the write of the line. -/
theorem serveWriteEnds_evolves (op : ServeOp) (mask : Mask) (data : Line) (e : WordErrors) (s : State)
    (hst : s.storeOp = some .serve) (hop : s.serveOp = some op) :
    Evolves { s with mem := (lineWrite s op.req.line mask data e).mem, poison := (lineWrite s op.req.line mask data e).poison }
      (serveWriteEnds op mask data e s) := by
  unfold serveWriteEnds
  dsimp only
  generalize lineWrite s op.req.line mask data e = w
  generalize hs0 : { s with mem := w.mem, poison := w.poison } = s0
  have hop0 : s0.serveOp = some op := by rw [← hs0]; exact hop
  have e0 : { s with mem := w.mem, poison := w.poison, storeOp := none } = { s0 with storeOp := none } := by rw [← hs0]
  rw [e0]
  have h1 : Evolves s0 (serveEnd { s0 with storeOp := none }) := serveDone_evolves s0 (by rw [← hs0]; exact hst)
  have h2 : Evolves s0 (if w.performed then lwbTakePut op.req.line mask data (serveEnd { s0 with storeOp := none })
      else serveEnd { s0 with storeOp := none }) := by
    split
    · exact h1.trans (lwbTakePut_evolves _ _ _ _)
    · exact h1
  have e2 : ∃ l, (if w.performed then lwbTakePut op.req.line mask data (serveEnd { s0 with storeOp := none })
      else serveEnd { s0 with storeOp := none }) = { s0 with storeOp := none, serveOp := none, reserve := 0, lwb := l } := by
    split
    · exact ⟨_, rfl⟩
    · exact ⟨s0.lwb, rfl⟩
  obtain ⟨l, e2⟩ := e2
  rw [e2] at h2 ⊢
  have h3 := h2.trans (reportMended_evolves w.mended (some op.req.requester) op.req.line none _)
  obtain ⟨a, b, c, d, em⟩ := reportMended_eq w.mended (some op.req.requester) op.req.line none
    { s0 with storeOp := none, serveOp := none, reserve := 0, lwb := l }
  rw [em] at h3 ⊢
  split
  · exact h3
  rename_i ho
  obtain ⟨hroom, hrun⟩ := serveRoom hop0 (by simpa using ho)
  have key : ∀ (o : NoteOutcome) (u : State), Evolves s0 u → u.reserve = 0 → u.serveOp = none →
      u.rpq = s0.rpq → u.station = s0.station → Evolves s0 (appendNote op.req o u) := by
    intro o u hb h5 h6 h7 h8
    have h9 := hb.quiet
    refine ⟨⟨hb.toEvolvesBase.trans (appendNote_base op.req o u), fun h => ?_, fun h => ?_, fun h => ?_⟩, fun h _ => ?_⟩
    rotate_right 2
    · obtain ⟨q, n, eq, hq⟩ := appendNote_eq op.req o u
      have k := hb.own h
      rw [eq]
      exact ⟨k.cache, k.sharers, k.requesters, k.serving⟩
    · obtain ⟨q, n, eq, hq⟩ := appendNote_eq op.req o u
      rw [eq]
      exact LaunchOk_run (h8.trans (hrun h))
    · obtain ⟨q, n, eq, hq⟩ := appendNote_eq op.req o u
      have := hroom h
      rw [h7] at hq
      rw [eq]
      exact ⟨by show u.reserve = (match u.serveOp with | some op => _ | none => 0); rw [h6, h5], by
        show q.length + u.reserve ≤ _; omega⟩
    · obtain ⟨q, n, eq, hq⟩ := appendNote_eq op.req o u
      have k := h9 h
      have hr : u.station = .run := h8.trans (hrun h)
      rw [eq]
      exact ⟨k.tracker, k.orq, k.cache, k.svq, fun n => absurd hr n, k.serve, k.offer⟩
  split
  · exact key _ _ h3 rfl rfl rfl rfl
  · exact key _ _ (h3.trans (reportPoison_evolves _ _ _ _)) rfl rfl rfl rfl

end Sys2Proof.Laws
end

