-- ==== Sys2Proof/Laws/Control.lean ====
section
/-! SUPPORT. What the FENCE's answer, a teardown, the commands and the control requests may do. -/

-- Theorems are elaborated one after another: many at once take more threads than the memory limit allows.
set_option Elab.async false

namespace Sys2Proof.Laws

open Sys2Proof.Machine Sys2Proof.Safety

/-! ### FENCE -/

/-- The FENCE's answer changes the responses sent, the HRQ and the lost-write flag alone. -/
theorem answerFence_eq (s : State) : ∃ tx q l, answerFence s = { s with hostTx := tx, hrq := q, lostWrite := l } := by
  unfold answerFence respondFence
  repeat' split
  · exact ⟨_, _, _, rfl⟩
  · exact ⟨_, _, s.lostWrite, rfl⟩
  · exact ⟨s.hostTx, s.hrq, s.lostWrite, rfl⟩
  · exact ⟨s.hostTx, s.hrq, s.lostWrite, rfl⟩

theorem answerFence_evolves (s : State) : Evolves s (answerFence s) := by
  unfold answerFence respondFence
  repeat' split
  · exact (lostWrite_evolves _ s).trans (respond_evolves _ _)
  · exact respond_evolves _ s
  · exact .refl s
  · exact .refl s

theorem rpqMap_evolves (f : RpqItem → RpqItem) (s : State) (hf : ∀ n, f ⟨.start n, false, false⟩ = ⟨.start n, false, false⟩) :
    Evolves s { s with rpq := s.rpq.map f } where
  reply := fun h => ⟨h.reserve, by simpa using h.places⟩
  launch := fun _ h => ⟨fun n => by simp [h.silent n], fun n => by simp [h.starting n, hf], h.offer⟩

theorem recordCovered_evolves (s : State) : Evolves s (recordCovered s) := by
  have h := mapTracker_evolves (fun e => { e with covered := e.kind == some .putPosted })
    (fun _ he => EntryOk_of he rfl rfl rfl rfl rfl rfl rfl fun h => .inr (by simpa using h)) (fun _ => rfl) s
  unfold recordCovered
  dsimp only
  obtain ⟨v, hv, _⟩ := mapTracker_eq (fun e => { e with covered := e.kind == some .putPosted }) s
  rw [hv] at h ⊢
  exact h.trans (rpqMap_evolves (fun it => { it with covered := it.writeCaused }) { s with tracker := v } fun _ => rfl)

theorem startFence_evolves (tag : HostTag) (s : State) : Evolves s (startFence tag s) :=
  (recordCovered_evolves s).trans ((markStarted_evolves tag _).trans (answerFence_evolves _))

/-! ### Teardown -/

theorem spanTeardown_offer (p : SpanPhase) (o : Offer) : ¬Offers (spanTeardown p) o := by
  rintro ⟨h2, ⟨part, h1⟩ | h1⟩
  · cases p with
    | contest a b =>
      cases b with
      | none => simp [spanTeardown] at h1
      | some b => simp only [spanTeardown, Option.map_some, SpanPhase.contest.injEq, Option.some.injEq] at h1
                  rw [← h1.2] at h2; simp at h2
    | free => simp [spanTeardown] at h1
    | sending a => simp [spanTeardown] at h1
    | frame a => simp [spanTeardown] at h1
  · cases p with
    | sending a => simp only [spanTeardown, SpanPhase.sending.injEq] at h1
                   rw [← h1] at h2; simp at h2
    | free => simp [spanTeardown] at h1
    | contest a b => simp [spanTeardown] at h1
    | frame a => simp [spanTeardown] at h1

theorem spanTeardown_offers (p : SpanPhase) (t : Tag) : ¬OffersTag (spanTeardown p) t :=
  fun ⟨o, h, _⟩ => spanTeardown_offer p o h

/-- The Span changed to a phase that offers nothing it did not offer. -/
theorem setSpan_evolves (p : SpanPhase) (s : State) (hp : ∀ o, Offers p o → Offers s.span o) :
    Evolves s { s with span := p } where
  quiet := fun h => ⟨h.tracker, h.orq, h.cache, h.svq, h.llt, h.serve, fun n t ⟨o, ho, e⟩ => h.offer n t ⟨o, hp o ho, e⟩⟩
  tracker := fun h => ⟨h.entries, h.orq_iff, h.orq_nodup, fun t ⟨o, ho, e⟩ => h.offered t ⟨o, hp o ho, e⟩⟩
  launch := fun _ h => ⟨h.silent, h.starting, fun n o ho => h.offer n o (hp o ho)⟩

/-- What a teardown empties. In STARTING the START leaves the Reply Queue, until the station leaves the state or enters it
anew. -/
theorem emptySpanSide_reply (s : State) : EvolvesReply s (emptySpanSide s) := by
  have h1 : EvolvesReply s { s with cache := [], svq := [], passCount := 0, rpq := [], spoilCount := 0, llt := [] } :=
    { queues := fun h => ⟨h.hrq, h.tags, h.lwb, by simp, by simp, by simp, by simp, by simp, by simp, by simp, by simp⟩
      reply := fun h => ⟨h.reserve, by have := h.places; show 0 + s.reserve ≤ _; omega⟩
      quiet := fun h => ⟨h.tracker, h.orq, fun _ => rfl, fun _ => rfl, fun _ => rfl, h.serve, h.offer⟩
      own := fun h => ⟨fun _ hc => (by cases hc), fun _ hc => (by cases hc), fun _ hc => (by cases hc), h.serving⟩ }
  exact h1.trans ((setSpan_evolves (spanTeardown s.span) _ (fun o h => absurd h (spanTeardown_offer _ o))).trans
    (orphanServe_evolves _)).toEvolvesReply

theorem answerUnstartedRemote_evolves (code : HostCode) (s : State) : Evolves s (answerUnstartedRemote code s) :=
  Evolves.foldl _ (fun s _ => respond_evolves _ s) _ s

theorem respondFold_eq (code : HostCode) (l : List HrqItem) : ∀ s : State,
    ∃ tx q, l.foldl (fun s it => respond (.fault it.tag code) s) s = { s with hostTx := tx, hrq := q } := by
  induction l with
  | nil => exact fun s => ⟨s.hostTx, s.hrq, rfl⟩
  | cons it l ih =>
    intro s
    obtain ⟨tx, q, e⟩ := ih (respond (.fault it.tag code) s)
    exact ⟨tx, q, e⟩

theorem teardownEntry_eq (code : HostCode) (s : State) (t : Tag) :
    ∃ v o tx q, teardownEntry code s t = { s with tracker := v, orq := o, hostTx := tx, hrq := q } := by
  unfold teardownEntry
  dsimp only
  split
  · exact ⟨s.tracker, s.orq, s.hostTx, s.hrq, rfl⟩
  · obtain ⟨tx, q, e⟩ := answerWaiters_eq s.tracker[t].waiters (faultAnswer code) s
    rw [e]; exact ⟨_, _, tx, q, rfl⟩

theorem teardownFold_eq (code : HostCode) (l : List Tag) : ∀ s : State,
    ∃ v o tx q, l.foldl (teardownEntry code) s = { s with tracker := v, orq := o, hostTx := tx, hrq := q } := by
  induction l with
  | nil => exact fun s => ⟨s.tracker, s.orq, s.hostTx, s.hrq, rfl⟩
  | cons t l ih =>
    intro s
    obtain ⟨v, o, tx, q, e⟩ := teardownEntry_eq code s t
    obtain ⟨v', o', tx', q', e'⟩ := ih (teardownEntry code s t)
    rw [List.foldl_cons, e', e]; exact ⟨v', o', tx', q', rfl⟩

theorem trackerTeardown_eq (code : HostCode) (s : State) : ∃ v o tx q l,
    trackerTeardown code s = { s with tracker := v, orq := o, hostTx := tx, hrq := q, lostWrite := l } := by
  obtain ⟨v, o, tx, q, e⟩ := teardownFold_eq code (List.finRange 16) s
  unfold trackerTeardown
  obtain ⟨w, hw, _⟩ := mapTracker_eq (fun e => { e with epoch := 0 })
    { s with tracker := v, orq := o, hostTx := tx, hrq := q }
  dsimp only
  rw [e, hw]; exact ⟨_, _, _, _, _, rfl⟩

theorem teardown_reply (code : HostCode) (s : State) : EvolvesReply s (teardown code s) :=
  (emptySpanSide_reply s).trans <|
    ((trackerTeardown_evolves code _ (fun t => spanTeardown_offers s.span t)).trans <|
    (answerUnstartedRemote_evolves code _).trans (answerFence_evolves _)).toEvolvesReply

/-- What a teardown leaves (R46, R47): beside the tracker, the responses, the HRQ and the lost-write flag, it changes only what
`emptySpanSide` says; every tracker entry is FREE in epoch 0 and the ORQ is empty. -/
theorem teardown_eq (code : HostCode) (s : State) : ∃ v tx q l, teardown code s =
    { s with
      tracker := v, orq := [], hostTx := tx, hrq := q, lostWrite := l, cache := [], svq := [], passCount := 0, rpq := [],
      spoilCount := 0, llt := [], span := spanTeardown s.span, reserve := 0,
      serveOp := s.serveOp.map fun op => { op with orphaned := true } } ∧
    ∀ x : Tag, v[x].state = .free ∧ v[x].epoch = 0 := by
  obtain ⟨a, b, c, d⟩ := trackerTeardown_spec code (emptySpanSide s)
  obtain ⟨v, o, tx, q, l, e⟩ := trackerTeardown_eq code (emptySpanSide s)
  unfold teardown
  rw [e] at c d ⊢
  obtain ⟨tx', q', e'⟩ := respondFold_eq code
    (({ emptySpanSide s with tracker := v, orq := o, hostTx := tx, hrq := q, lostWrite := l } : State).hrq.filter
      fun it => !it.started && isRemote { emptySpanSide s with tracker := v, orq := o, hostTx := tx, hrq := q, lostWrite := l }
        it.req) { emptySpanSide s with tracker := v, orq := o, hostTx := tx, hrq := q, lostWrite := l }
  unfold answerUnstartedRemote
  rw [e']
  obtain ⟨tx'', q'', l'', e''⟩ := answerFence_eq
    { emptySpanSide s with tracker := v, orq := o, hostTx := tx', hrq := q', lostWrite := l }
  refine ⟨v, tx'', q'', l'', ?_, c⟩
  have d' : o = [] := d
  rw [e'', d']
  rfl

/-! ### The states -/

/-- The station state changed at a state that is already empty of what QuietOk names, or stays outside RUN. -/
theorem setStation_reply (x : StationState) (s : State) (hx : x ≠ .init ∧ (x = .setup → setupOpen s = true))
    (hl : x = .run → listening s = true) (hst : x ≠ .starting)
    (hq : x ≠ .run → s.station = .run → QuietOk s → (∀ t : Tag, s.tracker[t].state = .free) ∧ s.orq = [] ∧ s.cache = [] ∧
      s.svq = [] ∧ s.llt = [] ∧ (∀ op, s.serveOp = some op → op.orphaned = true) ∧ ∀ t, ¬OffersTag s.span t) :
    EvolvesReply s { s with station := x } where
  setup := fun h => ⟨h.1, h.2, h.3, h.4, h.5, h.6, h.7, fun n => by
    cases x with
    | run => exact h.round (hl rfl)
    | starting => exact absurd rfl hst
    | _ => simp [listening] at n⟩
  closed := fun h => by
    refine ⟨?_, rfl, rfl, rfl⟩
    cases x <;> simp_all [setupOpen]
  quiet := fun h => by
    have key : x ≠ .run → (∀ t : Tag, s.tracker[t].state = .free) ∧ s.orq = [] ∧ s.cache = [] ∧ s.svq = [] ∧ s.llt = [] ∧
        (∀ op, s.serveOp = some op → op.orphaned = true) ∧ ∀ t, ¬OffersTag s.span t := fun n => by
      by_cases hr : s.station = .run
      · exact hq n hr h
      · exact ⟨h.tracker hr, h.orq hr, h.cache hr, h.svq hr, h.llt hr, h.serve hr, h.offer hr⟩
    exact ⟨fun n => (key n).1, fun n => (key n).2.1, fun n => (key n).2.2.1, fun n => (key n).2.2.2.1,
      fun n => (key n).2.2.2.2.1, fun n => (key n).2.2.2.2.2.1, fun n => (key n).2.2.2.2.2.2⟩

theorem teardown_empty (code : HostCode) (s : State) :
    (∀ t : Tag, (teardown code s).tracker[t].state = .free) ∧ (teardown code s).orq = [] ∧ (teardown code s).cache = [] ∧
      (teardown code s).svq = [] ∧ (teardown code s).llt = [] ∧
      (∀ op, (teardown code s).serveOp = some op → op.orphaned = true) ∧ ∀ t, ¬OffersTag (teardown code s).span t := by
  obtain ⟨v, tx, q, l, e, hv⟩ := teardown_eq code s
  rw [e]
  refine ⟨fun t => (hv t).1, rfl, rfl, rfl, rfl, fun op ho => ?_, fun t => spanTeardown_offers s.span t⟩
  simp only [Option.map_eq_some_iff] at ho
  obtain ⟨_, _, rfl⟩ := ho; rfl

/-- After a teardown the Reply Queue is empty and nothing is on offer but what is gone (R46, R112). -/
theorem teardown_silent (code : HostCode) (s : State) :
    (teardown code s).rpq = [] ∧ ∀ o, ¬Offers (teardown code s).span o := by
  obtain ⟨v, tx, q, l, e, hv⟩ := teardown_eq code s
  rw [e]
  exact ⟨rfl, fun o => spanTeardown_offer s.span o⟩

theorem halted_launch (s : State) (h1 : s.rpq = []) (h2 : ∀ o, ¬Offers s.span o) : LaunchOk { s with station := .halted } where
  silent := fun _ => h1
  starting := fun n => by cases n
  offer := fun _ o h => absurd h (h2 o)

theorem enterHalted_evolves (s : State) : Evolves s (enterHalted s) where
  toEvolvesReply := (teardown_reply .halted s).trans
    (setStation_reply .halted _ ⟨by simp, by simp⟩ (by simp) (by simp) fun _ _ _ => teardown_empty _ s)
  launch := fun _ _ =>
    halted_launch _ (teardown_silent .halted s).1 (teardown_silent .halted s).2

/-- Entry to STARTING from a state empty of what QuietOk names. -/
theorem enterStarting_reply (s : State) (hq : s.station = .run → QuietOk s → (∀ t : Tag, s.tracker[t].state = .free) ∧
      s.orq = [] ∧ s.cache = [] ∧ s.svq = [] ∧ s.llt = [] ∧ (∀ op, s.serveOp = some op → op.orphaned = true) ∧
      ∀ t, ¬OffersTag s.span t) : EvolvesReply s (enterStarting s) := by
  have key : QuietOk s → QuietOk (enterStarting s) := fun h => by
    by_cases hr : s.station = .run
    · obtain ⟨a1, a2, a3, a4, a5, a6, a7⟩ := hq hr h
      exact ⟨fun _ => a1, fun _ => a2, fun _ => a3, fun _ => a4, fun _ => a5, fun _ => a6, fun _ => a7⟩
    · exact ⟨fun _ => h.tracker hr, fun _ => h.orq hr, fun _ => h.cache hr, fun _ => h.svq hr, fun _ => h.llt hr,
        fun _ => h.serve hr, fun _ => h.offer hr⟩
  exact
    { closed := fun h => ⟨by simp [enterStarting, setupOpen], rfl, rfl, rfl⟩
      quiet := key
      setup := fun h => ⟨h.replyWait, h.refuseLimit, h.refuseStep, h.urgentBudget, h.serveLimit, h.sizeCode,
        h.urgentBudget.2, fun _ => Nat.le_refl _⟩
      queues := fun h => ⟨h.hrq, h.tags, h.lwb, h.svq, h.cache, h.copies, h.llt, h.lent, h.sharers, h.pass, Nat.zero_le _⟩
      reply := fun h => ⟨h.reserve, by
        have h1 : s.reserve ≤ 2 := by
          have := h.reserve
          rw [this]; split
          · split <;> simp [Config.serveReserve]
          · simp
        show 1 + s.reserve ≤ _; simp only [Config.rpqPlaces]; omega⟩ }

/-- In STARTING the Reply Queue holds the START alone, if nothing of it was on offer before (R42). -/
theorem enterStarting_launch (s : State) (ho : ∀ o, Offers s.span o → o.source ≠ .replyQueue) : LaunchOk (enterStarting s) where
  silent := fun n => by have n' : listening (enterStarting s) = true := rfl; rw [n'] at n; cases n
  starting := fun _ => rfl
  offer := fun _ o h e => absurd e (ho o h)

/-- Entry to STARTING from SETUP or at the end of INIT. -/
theorem enterStarting_evolves (s : State) (h1 : s.station ≠ .run) (h2 : s.station ≠ .starting) : Evolves s (enterStarting s) where
  toEvolvesReply := enterStarting_reply s fun h => absurd h h1
  launch := fun _ h => enterStarting_launch s fun o ho e => h2 (h.offer h1 o ho e).1

theorem restart_evolves (s : State) : Evolves s (enterStarting (teardown .restarted s)) where
  toEvolvesReply := (teardown_reply .restarted s).trans (enterStarting_reply _ fun _ _ => teardown_empty _ s)
  launch := fun _ _ => enterStarting_launch _ fun o h => absurd h ((teardown_silent .restarted s).2 o)

theorem closeSetup_evolves (s : State) (h : setupOpen s = true) : Evolves s (closeSetup s) where
  closed := fun h' => by rw [h] at h'; cases h'
  setup := fun h => ⟨h.replyWait, h.refuseLimit, h.refuseStep, h.urgentBudget, by
    have := h.replyWait
    simp only [closeSetup, Config.replyWaitMin, Config.replyWaitMax] at this ⊢; omega, h.sizeCode, h.budget, h.round⟩

/-! ### Commands and control requests -/

theorem commandRun_evolves (tag : HostTag) (s : State) : Evolves s (commandRun tag s) := by
  unfold commandRun
  split
  · rename_i hs
    exact (closeSetup_evolves s (by simp [setupOpen, hs])).trans
      ((enterStarting_evolves _ (by show s.station ≠ _; simp [hs]) (by show s.station ≠ _; simp [hs])).trans
        (respond_evolves _ _))
  · rename_i hs
    split
    · exact respond_evolves _ s
    · rename_i hf
      have ho : setupOpen s = true := by simp [setupOpen, hs, hf]
      refine (closeSetup_evolves s ho).trans (.trans ?_ (respond_evolves _ _))
      exact { closed := fun h => ⟨by simp [setupOpen, closeSetup, hs], rfl, rfl, rfl⟩ }
  · exact respond_evolves _ s
  · exact respond_evolves _ s
  · exact respond_evolves _ s

theorem commandRestart_evolves (tag : HostTag) (s : State) : Evolves s (commandRestart tag s) := by
  unfold commandRestart
  split
  · exact (restart_evolves s).trans (respond_evolves _ _)
  · exact (restart_evolves s).trans (respond_evolves _ _)
  · exact (restart_evolves s).trans (respond_evolves _ _)
  · exact respond_evolves _ s
  · exact respond_evolves _ s

theorem commandWrite_evolves (tag : HostTag) (v : CtrlValue) (s : State) : Evolves s (commandWrite tag v s) := by
  unfold commandWrite
  split
  · exact commandRun_evolves tag s
  · exact commandRestart_evolves tag s
  · exact (cacheEmpty_evolves s).trans (respond_evolves _ _)
  · exact (clearFaultRecord_evolves s).trans (respond_evolves _ _)
  · exact respond_evolves _ s

theorem clamp_mem (low high v : Nat) (h : low ≤ high) : low ≤ clamp low high v ∧ clamp low high v ≤ high := by
  unfold clamp; split
  · omega
  · split <;> omega

theorem setupRange_le (w : SetupWord) : (setupRange w).1 ≤ (setupRange w).2 := by
  cases w <;> simp [setupRange, Config.replyWaitMin, Config.replyWaitMax, Config.refuseLimitMin, Config.refuseLimitMax,
    Config.refuseStepMin, Config.refuseStepMax, Config.urgentBudgetMin, Config.urgentBudgetMax]

theorem setupStored_mem (w : SetupWord) (v : Nat) :
    (setupRange w).1 ≤ setupStored w v ∧ setupStored w v ≤ (setupRange w).2 := clamp_mem _ _ _ (setupRange_le w)

/-- A station with open setup is not listening (R41). -/
theorem setupOpen_silent {s t : State} (h : setupOpen s = true) (ht : t.station = s.station := by rfl) : listening t = false := by
  rw [listening_of ht]
  cases hs : s.station <;> simp_all [setupOpen, listening]

theorem setupWrite_evolves (tag : HostTag) (w : SetupWord) (v : CtrlValue) (s : State) : Evolves s (setupWrite tag w v s) := by
  unfold setupWrite
  split
  · rename_i ho
    have hm := setupStored_mem w v.toNat
    refine .trans ?_ (respond_evolves _ _)
    have hc : setupOpen s = false → ∀ t, setupOpen t = false ∧ t.setup = s.setup ∧ t.rights = s.rights ∧
        t.serveLimit = s.serveLimit := fun h => by rw [ho] at h; cases h
    cases w
    · exact { closed := fun h => hc h _, setup := fun h => ⟨hm, h.2, h.3, h.4, h.5, h.6, h.7, h.8⟩ }
    · exact { closed := fun h => hc h _, setup := fun h => ⟨h.1, hm, h.3, h.4, h.5, h.6, h.7, h.8⟩ }
    · exact { closed := fun h => hc h _, setup := fun h => ⟨h.1, h.2, hm, h.4, h.5, h.6, h.7, h.8⟩ }
    · exact { closed := fun h => hc h _, setup := fun h => ⟨h.1, h.2, h.3, hm, h.5, h.6, h.7, fun n => by
        rw [setupOpen_silent ho] at n; cases n⟩ }
    · exact { closed := fun h => hc h _, setup := fun h => ⟨h.1, h.2, h.3, h.4, h.5, h.6, h.7, h.8⟩ }
    · exact { closed := fun h => hc h _ }
  · exact respond_evolves _ s

theorem controlWriteStarts_evolves (tag : HostTag) (w : Byte) (v : CtrlValue) (s : State) :
    Evolves s (controlWriteStarts tag w v s) := by
  unfold controlWriteStarts
  split
  · exact commandWrite_evolves tag v s
  split
  · exact (setIrqMask_evolves v s).trans (respond_evolves _ _)
  split
  · exact setupWrite_evolves tag _ v s
  · exact respond_evolves _ s

theorem useFree_evolves (w : Byte) (s : State) : Evolves s (useFree w s) := by
  unfold useFree
  split
  · exact {}
  · exact .refl s

theorem controlReadStarts_evolves (tag : HostTag) (w : Byte) (s : State) : Evolves s (controlReadStarts tag w s) := by
  unfold controlReadStarts
  split
  · exact (useFree_evolves w s).trans (respond_evolves _ _)
  · exact respond_evolves _ s

end Sys2Proof.Laws
end

