-- ==== Sys2Proof/Laws/HostLink.lean ====
section
/-! SUPPORT. What the starts of host requests, the grant and `settle` may do. -/

-- Theorems are elaborated one after another: many at once take more threads than the memory limit allows.
set_option Elab.async false

namespace Sys2Proof.Laws

open Sys2Proof.Machine Sys2Proof.Safety

/-! ### Starts -/

theorem readToTracker_evolves {tag : HostTag} {owner : Station} {line : LineIndex} {off : Nat} {size : ReadSize} {keep : Bool}
    {s t : State} (hr : s.station = .run) (h : readToTracker tag owner line off size keep s = some t) : Evolves s t := by
  unfold readToTracker at h
  dsimp only at h
  split at h
  · rename_i x hx
    simp only [Option.some.injEq] at h
    rw [← h]
    exact (attachRead_evolves x _ keep s (attachTag_spec hx)).trans (markStarted_evolves _ _)
  · split at h
    · rename_i x hx
      simp only [Option.some.injEq] at h
      rw [← h]
      exact (createEntry_evolves x .ask owner line keep none _ s (freeTag_spec hx) hr (by simp) (by simp)).trans
        (markStarted_evolves _ _)
    · cases h

theorem startRemoteRead_evolves {tag : HostTag} {addr : SpanAddr} {size : ReadSize} {c : Bool} {s t : State}
    (h : startRemoteRead tag addr size c s = some t) : Evolves s t := by
  unfold startRemoteRead at h
  dsimp only at h
  split at h
  · simp only [Option.some.injEq] at h
    rw [← h]; exact respond_evolves _ s
  · rename_i hr
    split at h
    · rename_i x hx
      simp only [Option.some.injEq] at h
      rw [← h]
      split at hx
      · obtain ⟨a, b, d⟩ := cacheFind_spec hx
        exact (cacheFront_evolves x s ⟨x, a, by simp [isCopyOf]⟩).trans (respond_evolves _ _)
      · cases hx
    · exact readToTracker_evolves (by simpa using hr) h

theorem cacheWrite_eq (owner : Station) (line : LineIndex) (mask : Mask) (data : Line) (s : State) :
    ∃ c, cacheWrite owner line mask data s = { s with cache := c } := by
  unfold cacheWrite
  split
  · exact ⟨_, rfl⟩
  · exact ⟨s.cache, rfl⟩

theorem startRemoteWrite_evolves {tag : HostTag} {addr : SpanAddr} {mask : Mask} {data : Line} {c : Bool} {s t : State}
    (h : startRemoteWrite tag addr mask data c s = some t) : Evolves s t := by
  unfold startRemoteWrite at h
  dsimp only at h
  split at h
  · simp only [Option.some.injEq] at h
    rw [← h]; exact respond_evolves _ s
  · rename_i hr
    split at h
    · cases h
    · rename_i x hx
      have h1 := (cacheWrite_evolves (addrStation addr) (addrLine addr) mask data s).trans
        (overtakeByWrite_evolves (addrStation addr) (addrLine addr) _)
      obtain ⟨ca, ec⟩ := cacheWrite_eq (addrStation addr) (addrLine addr) mask data s
      rw [ec] at h h1
      have hf : (overtakeByWrite (addrStation addr) (addrLine addr) { s with cache := ca }).tracker[x].state = .free := by
        have := freeTag_spec hx
        rw [overtakeByWrite, mapTracker_get]
        split <;> exact this
      have hrun : (overtakeByWrite (addrStation addr) (addrLine addr) { s with cache := ca }).station = .run := by
        simpa [overtakeByWrite, mapTracker] using hr
      split at h
      · simp only [Option.some.injEq] at h
        rw [← h]
        exact h1.trans ((createEntry_evolves x .putConfirmed _ _ _ _ _ _ hf hrun (by simp) (by simp)).trans
          (markStarted_evolves _ _))
      · simp only [Option.some.injEq] at h
        rw [← h]
        exact h1.trans ((createEntry_evolves x .putPosted _ _ _ _ _ _ hf hrun (by simp) (by simp)).trans
          (respond_evolves _ _))

theorem lwbTake_eq (line : LineIndex) (mask : Mask) (data : Line) (c : Option HostTag) (s : State) :
    ∃ l, lwbTake line mask data c s = { s with lwb := l } := by
  unfold lwbTake
  split
  · exact ⟨_, rfl⟩
  · exact ⟨_, rfl⟩

theorem takeLocalWrite_evolves (tag : HostTag) (line : LineIndex) (mask : Mask) (data : Line) (c : Bool) (s : State)
    (h : canTakeWrite s line c = true) : Evolves s (takeLocalWrite tag line mask data c s) := by
  simp only [canTakeWrite, Bool.and_eq_true, Bool.or_eq_true, decide_eq_true_eq] at h
  have hc : (if c then some tag else none : Option HostTag).isSome = c := by cases c <;> rfl
  have h1 := lwbTake_evolves line mask data (if c then some tag else none) s (by rw [hc]; exact h.1)
  unfold takeLocalWrite
  dsimp only
  obtain ⟨l, e⟩ := lwbTake_eq line mask data (if c then some tag else none) s
  rw [e] at h1 ⊢
  have h2 := h1.trans (lltRecallForWrite_evolves line { s with lwb := l } h.2)
  split
  · exact h2.trans (markStarted_evolves _ _)
  · exact h2.trans (respond_evolves _ _)

theorem startLocalWrite_evolves {tag : HostTag} {addr : SpanAddr} {mask : Mask} {data : Line} {c : Bool} {s t : State}
    (h : startLocalWrite tag addr mask data c s = some t) : Evolves s t := by
  unfold startLocalWrite at h
  dsimp only at h
  split at h
  · simp only [Option.some.injEq] at h
    rw [← h]; exact respond_evolves _ s
  · split at h
    · rename_i hc
      simp only [Option.some.injEq] at h
      rw [← h]; exact takeLocalWrite_evolves _ _ _ _ _ _ hc
    · cases h

theorem tryStart_evolves {s t : State} {it : HrqItem} (h : tryStart s it = some t) : Evolves s t := by
  unfold tryStart at h
  split at h
  · split at h
    · exact startRemoteRead_evolves h
    · cases h
  · split at h
    · exact startRemoteWrite_evolves h
    · exact startLocalWrite_evolves h
  · simp only [Option.some.injEq] at h
    rw [← h]; exact startFence_evolves _ s
  · simp only [Option.some.injEq] at h
    rw [← h]; exact controlReadStarts_evolves _ _ s
  · simp only [Option.some.injEq] at h
    rw [← h]; exact controlWriteStarts_evolves _ _ _ s

theorem startNamed_evolves (sort : State → Request → Bool) (tag : HostTag) (s : State) :
    Evolves s (startNamed sort tag s) := by
  unfold startNamed
  split
  · rename_i it _
    cases h : tryStart s it with
    | none => exact .refl s
    | some t => exact tryStart_evolves h
  · exact .refl s

/-! ### The arbiter -/

theorem grantDrain_evolves (s : State) (hd : drainWaits s = true) : Evolves s (grantDrain s) := by
  unfold grantDrain
  simp only [drainWaits, Bool.and_eq_true, Bool.not_eq_true', List.isEmpty_eq_false_iff, List.any_eq_false] at hd
  cases hl : s.lwb with
  | nil => exact absurd hl hd.1
  | cons b rest =>
    refine (turn_evolves .serveEngine s).trans
      { queues := fun h => ⟨h.hrq, h.tags, ?_, h.svq, h.cache, h.copies, h.llt, h.lent, h.sharers, h.pass, h.spoils⟩
        work := fun h => ⟨⟨fun _ => ⟨_, _, rfl, rfl⟩, fun _ => rfl⟩, fun x hx => ?_, fun e => by cases e⟩ }
    · have := h.lwb
      simpa [hl] using this
    · have := hd.2 x (by rw [hl]; exact List.mem_cons_of_mem _ hx)
      simpa using this

theorem grantRead_evolves (it : HrqItem) (s : State) (hs : s.storeOp = none) : Evolves s (grantRead it s) := by
  unfold grantRead
  dsimp only
  have h1 := (turn_evolves .serveEngine s).trans (markStarted_evolves it.tag _)
  split
  · refine h1.trans (storeOp_other ?_ (by simp) (by simp))
    show s.storeOp ≠ _
    rw [hs]; simp
  · exact h1

theorem grantServe_evolves (s : State) (hs : s.storeOp = none) (hv : serveWaits s = true) : Evolves s (grantServe s) :=
  (storeOp_other (s := s) (o := some .serve) (by rw [hs]; simp) (by simp)
    (fun _ n => by simp [serveWaits, n] at hv)).trans (turn_evolves .localSide _)

theorem grantLocal_evolves {s t : State} (hs : s.storeOp = none) (h : grantLocal s = some t) : Evolves s t := by
  unfold grantLocal at h
  split at h
  · split at h <;> (rename_i hd; simp only [Option.some.injEq] at h; rw [← h])
    · exact grantDrain_evolves s (Bool.and_eq_true_iff.1 hd).1
    · exact grantRead_evolves _ s hs
  · split at h
    · rename_i hd
      simp only [Option.some.injEq] at h
      rw [← h]; exact grantDrain_evolves s hd
    · cases h

theorem grant_evolves {s t : State} (h : grant s = some t) : Evolves s t := by
  unfold grant at h
  split at h
  · cases h
  rename_i hs
  have hs : s.storeOp = none := by simpa using hs
  split at h
  · simp only [Option.some.injEq] at h
    rw [← h]; exact storeOp_other (by rw [hs]; simp) (by simp) (by simp)
  split at h
  · rename_i hv
    simp only [Option.some.injEq] at h
    rw [← h]; exact grantServe_evolves s hs (Bool.and_eq_true_iff.1 hv).1
  split at h
  · rename_i x hx
    simp only [Option.some.injEq] at h
    rw [← h]; exact grantLocal_evolves hs hx
  · split at h
    · rename_i hv
      simp only [Option.some.injEq] at h
      rw [← h]; exact grantServe_evolves s hs hv
    · cases h

/-! ### Settling -/

theorem refuseOfferedRead_evolves {s t : State} (h : refuseOfferedRead s = some t) : Evolves s t := by
  unfold refuseOfferedRead at h
  split at h
  · simp only [Option.map_eq_some_iff] at h
    obtain ⟨_, _, rfl⟩ := h
    exact respond_evolves _ s
  · cases h

theorem startFirst_evolves {s t : State} (h : startFirst s = some t) : Evolves s t := by
  unfold startFirst at h
  obtain ⟨it, _, h⟩ := List.exists_of_findSome?_eq_some h
  exact tryStart_evolves h

theorem settleOne_evolves {s t : State} (h : settleOne s = some t) : Evolves s t := by
  unfold settleOne at h
  split at h
  · simp only [Option.some.injEq] at h
    rw [← h]; exact answerFence_evolves s
  · simp only [Option.or_eq_some_iff] at h
    rcases h with h | ⟨_, h | ⟨_, h⟩⟩
    · exact refuseOfferedRead_evolves h
    · exact grant_evolves h
    · exact startFirst_evolves h

theorem settleLoop_evolves (n : Nat) : ∀ s : State, Evolves s (settleLoop n s) := by
  induction n with
  | zero => exact .refl
  | succ n ih =>
    intro s
    unfold settleLoop
    split
    · rename_i t h
      exact (settleOne_evolves h).trans (ih t)
    · exact .refl s

theorem engineTakes_evolves (n : Nat) : ∀ s : State, Evolves s (engineTakes n s) := by
  induction n with
  | zero => exact .refl
  | succ n ih =>
    intro s
    unfold engineTakes
    split
    · exact (serveTakeNow_evolves s).trans (ih _)
    · exact .refl s

/-- The engine takes nothing where no waiting local WRITE claims a place. -/
theorem engineFirst_none {before s : State} (h : writeClaimsPlace s = false) : engineFirst before s = s := by
  unfold engineFirst
  split
  · cases s.svq.length <;> simp [engineTakes, h]
  · rfl

theorem engineFirst_evolves (before s : State) : Evolves s (engineFirst before s) := by
  unfold engineFirst
  split
  · exact engineTakes_evolves _ s
  · exact .refl s

theorem settle_evolves (before s : State) : Evolves s (settle before s) :=
  (engineFirst_evolves before s).trans (settleLoop_evolves _ _)

/-- Nothing settles when nothing is due: no FENCE to answer, no offered read to refuse, no grant, no start. -/
theorem settleLoop_quiet {s : State} (h : settleOne s = none) (n : Nat) : settleLoop n s = s := by
  cases n with
  | zero => rfl
  | succ n => simp [settleLoop, h]

/-- With no host request waiting and nothing for the store to do, an event has no further effect. -/
theorem settle_idle {before s : State} (hq : s.hrq = [])
    (hs : s.storeOp.isSome = true ∨ (s.lwb = [] ∧ s.serveOp = none ∧ fillWaits s = false)) : settle before s = s := by
  have h1 : engineFirst before s = s := engineFirst_none (by simp [writeClaimsPlace, hq])
  have h2 : offeredRead s = none := by simp [offeredRead, eligibleNow, hq, eligibleItems]
  have h3 : settleOne s = none := by
    have ha : fenceDue s = false := by simp [fenceDue, startedFence, hq]
    have hb : refuseOfferedRead s = none := by simp [refuseOfferedRead, h2]
    have hc : startFirst s = none := by simp [startFirst, eligibleNow, hq, eligibleItems]
    have hd : grant s = none := by
      unfold grant
      rcases hs with hs | ⟨h4, h5, h6⟩
      · simp [hs]
      · simp [h6, serveWaits, h5, grantLocal, waitingRead, h2, drainWaits, h4]
    simp [settleOne, ha, hb, hc, hd]
  unfold settle
  rw [h1]
  exact settleLoop_quiet h3 _

/-! ### Arrival -/

theorem arrive_evolves (m : HostMsg) (s : State) : Evolves s (arrive m s) := by
  unfold arrive
  split
  · exact send_evolves _ s
  split
  · exact send_evolves _ s
  split
  · exact send_evolves _ s
  · rename_i h1 h2
    refine { queues := fun h => QueuesOk_hrq h ?_ ?_ rfl rfl rfl rfl rfl rfl }
    · simp only [List.length_append, List.length_singleton]; omega
    · simp only [List.map_append, List.map_cons, List.map_nil]
      refine List.Nodup.append h.tags (by simp) ?_
      intro a ha hb
      simp only [List.mem_singleton] at hb
      obtain ⟨it, hit, rfl⟩ := List.mem_map.1 ha
      exact h1 (List.any_eq_true.2 ⟨it, hit, by simp [hb]⟩)

theorem arriveAll_evolves (n : Nat) : ∀ (bytes : List Byte) (s : State), Evolves s (arriveAll n bytes s) := by
  induction n with
  | zero => exact fun _ s => .refl s
  | succ n ih =>
    intro bytes s
    unfold arriveAll
    split
    · exact (arrive_evolves _ s).trans ((settle_evolves _ _).trans (ih _ _))
    · exact .refl s

end Sys2Proof.Laws
end

