-- ==== Sys2Proof/Laws/Memory.lean ====
section
/-! SUPPORT. The store's bytes: what a byte reads as after each operation, and that each keeps the canonical form. -/

-- Theorems are elaborated one after another: many at once take more threads than the memory limit allows.
set_option Elab.async false

namespace Sys2Proof.Laws

open Sys2Proof.Machine

/-- A byte is read back after it is written; every other byte reads as before. -/
theorem memRead_memWrite (m : Memory) (a b : Nat) (v : Byte) (h : Memory.wf m = true) :
    memRead (memWrite m a v) b = if b = a then v else memRead m b := by
  induction m with
  | nil =>
    unfold memWrite
    split
    · rename_i hv; split
      · simp [memRead, hv]
      · rfl
    · simp [memRead, eq_comm]
  | cons c m ih =>
    obtain ⟨k, w⟩ := c
    simp only [Memory.wf, Bool.and_eq_true, bne_iff_ne, List.all_eq_true, decide_eq_true_eq] at h
    obtain ⟨⟨hw, hlt⟩, hm⟩ := h
    have hrest : ∀ x, x ≤ k → memRead m x = Config.unwrittenByte := by
      intro x hx
      clear ih
      induction m with
      | nil => rfl
      | cons d m ih2 =>
        obtain ⟨j, u⟩ := d
        have := hlt (j, u) (by simp)
        simp only [Memory.wf, Bool.and_eq_true] at hm
        simp only [memRead]
        rw [if_neg (by omega)]
        exact ih2 hm.2 (fun x hx => hlt x (List.mem_cons_of_mem _ hx))
    unfold memWrite
    split
    · rename_i h1
      simp only [memRead, ih hm]
      by_cases hb : b = a
      · subst hb; simp [show k ≠ b by omega]
      · simp [hb]
    · split
      · rename_i h1 h2
        subst h2
        split
        · rename_i hv
          by_cases hb : b = k
          · subst hb; simp [hrest b (Nat.le_refl _), hv]
          · simp [memRead, hb, Ne.symm hb]
        · by_cases hb : b = k
          · subst hb; simp [memRead]
          · simp [memRead, hb, Ne.symm hb]
      · rename_i h1 h2
        split
        · rename_i hv
          by_cases hb : b = a
          · subst hb
            simp only [memRead, if_neg h2, if_pos]
            rw [hrest b (by omega), hv]
          · simp [hb]
        · by_cases hb : b = a
          · subst hb; simp [memRead]
          · simp [memRead, hb, Ne.symm hb]

theorem memWrite_mem (m : Memory) (a : Nat) (v : Byte) (c : Host.Cell) (h : c ∈ memWrite m a v) : c = (a, v) ∨ c ∈ m := by
  induction m with
  | nil => unfold memWrite at h; split at h <;> simp_all
  | cons d m ih =>
    obtain ⟨k, w⟩ := d
    unfold memWrite at h
    split at h
    · rcases List.mem_cons.1 h with h | h
      · simp [h]
      · rcases ih h with h | h <;> simp [h]
    · split at h
      · split at h
        · simp [h]
        · rcases List.mem_cons.1 h with h | h <;> simp [h]
      · split at h
        · exact Or.inr h
        · rcases List.mem_cons.1 h with h | h
          · simp [h]
          · exact Or.inr h

/-- A write keeps the canonical form. -/
theorem memWrite_wf (m : Memory) (a : Nat) (v : Byte) (h : Memory.wf m = true) : Memory.wf (memWrite m a v) = true := by
  induction m with
  | nil =>
    unfold memWrite
    split
    · rfl
    · rename_i hv; simp [Memory.wf, hv]
  | cons c m ih =>
    obtain ⟨k, w⟩ := c
    have h' := h
    simp only [Memory.wf, Bool.and_eq_true, bne_iff_ne, List.all_eq_true, decide_eq_true_eq] at h
    obtain ⟨⟨hw, hlt⟩, hm⟩ := h
    unfold memWrite
    split
    · rename_i h1
      simp only [Memory.wf, Bool.and_eq_true, bne_iff_ne, List.all_eq_true, decide_eq_true_eq]
      refine ⟨⟨hw, fun c hc => ?_⟩, ih hm⟩
      rcases memWrite_mem m a v c hc with rfl | hc
      · exact h1
      · exact hlt c hc
    · split
      · rename_i h1 h2
        subst h2
        split
        · exact hm
        · rename_i hv
          simp only [Memory.wf, Bool.and_eq_true, bne_iff_ne, List.all_eq_true, decide_eq_true_eq]
          exact ⟨⟨hv, hlt⟩, hm⟩
      · rename_i h1 h2
        split
        · exact h'
        · rename_i hv
          rw [Memory.wf]
          simp only [Bool.and_eq_true, bne_iff_ne, List.all_eq_true, decide_eq_true_eq]
          refine ⟨⟨hv, fun c hc => ?_⟩, h'⟩
          rcases List.mem_cons.1 hc with rfl | hc
          · show a < k; omega
          · have := hlt c hc; omega

/-- Keeping some of the bytes keeps the canonical form. -/
theorem filter_wf (p : Host.Cell → Bool) (m : Memory) (h : Memory.wf m = true) : Memory.wf (m.filter p) = true := by
  induction m with
  | nil => rfl
  | cons c m ih =>
    obtain ⟨k, w⟩ := c
    simp only [Memory.wf, Bool.and_eq_true, bne_iff_ne, List.all_eq_true, decide_eq_true_eq] at h
    obtain ⟨⟨hw, hlt⟩, hm⟩ := h
    rw [List.filter_cons]
    split
    · simp only [Memory.wf, Bool.and_eq_true, bne_iff_ne, List.all_eq_true, decide_eq_true_eq]
      exact ⟨⟨hw, fun c hc => hlt c (List.mem_of_mem_filter hc)⟩, ih hm⟩
    · exact ih hm

theorem fillLine_wf (m : Memory) (line : Nat) (h : Memory.wf m = true) : Memory.wf (fillLine m line) = true :=
  filter_wf _ m h

/-- After the fill of a line its bytes read as zero; every other byte reads as before. -/
theorem memRead_fillLine (m : Memory) (line a : Nat) :
    memRead (fillLine m line) a = if a / 64 = line then Config.unwrittenByte else memRead m a := by
  induction m with
  | nil => simp [fillLine, memRead]
  | cons c m ih =>
    obtain ⟨k, w⟩ := c
    unfold fillLine at ih ⊢
    rw [List.filter_cons]
    by_cases hk : k / 64 = line
    · simp only [hk, bne_self_eq_false, Bool.false_eq_true, if_false, ih, memRead]
      by_cases ha : a / 64 = line
      · simp [ha]
      · have : k ≠ a := fun e => ha (e ▸ hk)
        simp [ha, this]
    · have hk' : (k / 64 != line) = true := by simpa using hk
      simp only [hk', if_true, memRead, ih]
      by_cases hka : k = a
      · subst hka; simp [hk]
      · simp [hka]

theorem writeMaskedByte_wf (line : LineIndex) (mask : Mask) (data : Line) (m : Memory) (i : Fin 64)
    (h : Memory.wf m = true) : Memory.wf (writeMaskedByte line mask data m i) = true := by
  unfold writeMaskedByte
  split
  · exact memWrite_wf _ _ _ h
  · exact h

/-- A line write keeps the canonical form. -/
theorem writeLine_wf (m : Memory) (line : LineIndex) (mask : Mask) (data : Line) (h : Memory.wf m = true) :
    Memory.wf (writeLine m line mask data) = true := by
  unfold writeLine
  generalize List.finRange 64 = l
  induction l generalizing m with
  | nil => exact h
  | cons i l ih => exact ih _ (writeMaskedByte_wf line mask data m i h)

theorem lineAddr_inj {line : LineIndex} {i j : Fin 64} : lineAddr line i.val = lineAddr line j.val ↔ i = j := by
  simp [lineAddr, Fin.ext_iff]

/-- After a line write a byte reads as written when it is a masked byte of the line, and as before otherwise. -/
theorem memRead_writeLine (m : Memory) (line : LineIndex) (mask : Mask) (data : Line) (a : Nat) (h : Memory.wf m = true) :
    memRead (writeLine m line mask data) a =
      if a / 64 = line.toNat ∧ mask.getLsbD (a % 64) = true then data[a % 64]'(Nat.mod_lt _ (by omega)) else memRead m a := by
  have key : ∀ (l : List (Fin 64)) (m : Memory), Memory.wf m = true → memRead (l.foldl (writeMaskedByte line mask data) m) a =
      if a / 64 = line.toNat ∧ (⟨a % 64, Nat.mod_lt _ (by omega)⟩ : Fin 64) ∈ l ∧ mask.getLsbD (a % 64) = true then
        data[a % 64]'(Nat.mod_lt _ (by omega)) else memRead m a := by
    intro l
    induction l with
    | nil => intro m _; simp
    | cons i l ih =>
      intro m hm
      rw [List.foldl_cons, ih _ (writeMaskedByte_wf line mask data m i hm)]
      by_cases hi : i = ⟨a % 64, Nat.mod_lt _ (by omega)⟩
      · subst hi
        by_cases ha : a / 64 = line.toNat
        · have hadr : lineAddr line (a % 64) = a := by unfold lineAddr; omega
          simp only [ha, true_and, List.mem_cons, true_or, writeMaskedByte, hadr]
          by_cases hmk : mask.getLsbD (a % 64) = true
          · simp [hmk, memRead_memWrite _ _ _ _ hm]
          · simp [hmk]
        · have hadr : a ≠ lineAddr line (a % 64) := fun e => ha (by unfold lineAddr at e; omega)
          simp only [ha, false_and, if_false, writeMaskedByte]
          split
          · rw [memRead_memWrite _ _ _ _ hm, if_neg hadr]
          · rfl
      · have hadr : a ≠ lineAddr line i.val := fun e => hi (by
          have := i.isLt
          unfold lineAddr at e
          exact Fin.ext (by simp only; omega))
        have e1 : memRead (writeMaskedByte line mask data m i) a = memRead m a := by
          unfold writeMaskedByte
          split
          · rw [memRead_memWrite _ _ _ _ hm, if_neg hadr]
          · rfl
        simp [e1, Ne.symm hi]
  rw [writeLine, key _ _ h]
  simp [List.mem_finRange]

theorem lineWrite_wf (s : State) (line : LineIndex) (mask : Mask) (data : Line) (e : WordErrors)
    (h : Memory.wf s.mem = true) : Memory.wf (lineWrite s line mask data e).mem = true := by
  unfold lineWrite
  dsimp only
  split
  · exact h
  · exact writeLine_wf _ _ _ _ h

/-- A line read right after a write of the line shows the masked bytes over the old ones. -/
theorem readLine_writeLine (m : Memory) (line : LineIndex) (mask : Mask) (data : Line) (h : Memory.wf m = true) :
    readLine (writeLine m line mask data) line = overlay mask data (readLine m line) := by
  unfold readLine overlay
  congr 1
  funext i
  have h1 : lineAddr line i.val / 64 = line.toNat := by unfold lineAddr; omega
  have h2 : lineAddr line i.val % 64 = i.val := by unfold lineAddr; omega
  rw [memRead_writeLine _ _ _ _ _ h]
  simp [h1, h2]

end Sys2Proof.Laws
end

