-- ==== Sys2Proof/Laws/Events.lean ====
section
/-! SUPPORT. What every command may do. -/

-- Theorems are elaborated one after another: many at once take more threads than the memory limit allows.
set_option Elab.async false

namespace Sys2Proof.Laws

open Sys2Proof.Machine Sys2Proof.Safety

/-! ### Contests -/

theorem orqPick_spec (v : Vector Entry 16) (l : List Tag) : ∀ (seen : List Station) (t : Tag),
    orqPick v seen l = some t → v[t].state = .queued ∧ t ∈ l := by
  induction l with
  | nil => intro seen t h; simp [orqPick] at h
  | cons a l ih =>
    intro seen t h
    unfold orqPick at h
    dsimp only at h
    split at h
    · rename_i hc
      simp only [Option.some.injEq] at h
      subst h
      simp only [Bool.and_eq_true, beq_iff_eq] at hc
      exact ⟨hc.1, by simp⟩
    · obtain ⟨x, y⟩ := ih _ _ h
      exact ⟨x, by simp [y]⟩

theorem offerNow_spec {s : State} {o : Offer} (h : offerNow s = some o) :
    o.gone = false ∧ (∀ t, o.source = .tracker t → s.tracker[t].state = .queued ∧ t ∈ s.orq) ∧
      (o.source = .replyQueue → ∃ it, s.rpq.head? = some it ∧ o.frame = it.frame) := by
  unfold offerNow candidate at h
  split at h
  · rename_i src f hc
    simp only [Option.map_eq_some_iff] at h
    obtain ⟨c, _, rfl⟩ := h
    refine ⟨rfl, fun t ht => ?_, fun ht => ?_⟩
    · simp only at ht
      split at hc
      · simp only [Option.some.injEq, Prod.mk.injEq] at hc
        rw [← hc.1] at ht; cases ht
      · split at hc
        · rename_i x hx
          simp only [Option.map_eq_some_iff, Prod.mk.injEq] at hc
          obtain ⟨_, _, e, _⟩ := hc
          rw [← e] at ht
          cases ht
          exact orqPick_spec _ _ _ _ hx
        · cases hc
    · simp only at ht
      split at hc
      · rename_i it hi
        simp only [Option.some.injEq, Prod.mk.injEq] at hc
        exact ⟨it, hi, hc.2.symm⟩
      · split at hc
        · simp only [Option.map_eq_some_iff, Prod.mk.injEq] at hc
          obtain ⟨_, _, e, _⟩ := hc
          rw [← e] at ht; cases ht
        · cases hc
  · cases h

theorem openContest_evolves (s : State) : Evolves s (openContest s) := by
  unfold openContest
  split
  · exact .refl s
  · have now : ∀ o, Offers (.contest (listening s) (if listening s then offerNow s else none)) o →
        listening s = true ∧ offerNow s = some o := by
      rintro o ⟨_, ⟨part, h1⟩ | h1⟩
      · simp only [SpanPhase.contest.injEq] at h1
        have := h1.2
        split at this
        · rename_i hl; exact ⟨hl, this⟩
        · cases this
      · cases h1
    have key : ∀ t, OffersTag (.contest (listening s) (if listening s then offerNow s else none)) t →
        s.tracker[t].state = .queued ∧ t ∈ s.orq := fun t ⟨o, ho, e⟩ => (offerNow_spec (now o ho).2).2.1 t e
    exact { launch := fun _ h => ⟨h.silent, h.starting, fun n o ho e => by
              obtain ⟨hl, hk⟩ := now o ho
              have hs : s.station = .starting := by
                simp only [listening, Bool.or_eq_true, beq_iff_eq] at hl
                exact hl.resolve_right n
              obtain ⟨it, hi, ef⟩ := (offerNow_spec hk).2.2 e
              rw [h.starting hs, List.head?_cons, Option.some.injEq] at hi
              exact ⟨hs, by rw [ef, ← hi]⟩⟩
            quiet := fun h => ⟨h.tracker, h.orq, h.cache, h.svq, h.llt, h.serve, fun n t ht => by
              have := (key t ht).2
              simp [h.orq n] at this⟩
            tracker := fun h => ⟨h.entries, h.orq_iff, h.orq_nodup, fun t ht => (key t ht).1⟩ }

theorem offers_of_sending {part : Bool} {o x : Offer} (h : Offers (.sending o) x) : Offers (.contest part (some o)) x := by
  rcases h with ⟨h2, ⟨_, h⟩ | h1⟩
  · cases h
  · cases h1; exact ⟨h2, .inl ⟨part, rfl⟩⟩

theorem no_offer_free (o : Offer) : ¬Offers .free o := by
  rintro ⟨_, ⟨_, h⟩ | h⟩ <;> cases h

theorem no_offers_free (t : Tag) : ¬OffersTag .free t := fun ⟨o, h, _⟩ => no_offer_free o h

theorem no_offer_frame (b : Bool) (o : Offer) : ¬Offers (.frame b) o := by
  rintro ⟨_, ⟨_, h⟩ | h⟩ <;> cases h

theorem contestState_evolves (w : Bool) (b : Nat) (s : State) (hb : b ≤ s.budget ∨ b = s.setup.urgentBudget) :
    Evolves s { s with waived := w, budget := b } where
  setup := fun h => ⟨h.1, h.2, h.3, h.4, h.5, h.6, by
    rcases hb with hb | rfl
    · exact hb.trans h.budget
    · exact h.urgentBudget.2, fun n => by
    rcases hb with hb | rfl
    · exact hb.trans (h.round n)
    · exact Nat.le_refl _⟩

theorem decideContest_evolves (part : Bool) (offer : Option Offer) (others : List Contender) (s : State)
    (hs : ∀ o, offer = some o → s.span = .contest part offer) : Evolves s (decideContest part offer others s) := by
  have hf : ∀ b, Evolves s { s with span := .frame b } :=
    fun b => setSpan_evolves _ s (fun o h => absurd h (no_offer_frame b o))
  unfold decideContest
  split
  · rename_i o
    split
    · have h1 : Evolves s { s with span := .sending o } :=
        setSpan_evolves _ s (fun t h => by rw [hs o rfl]; exact offers_of_sending h)
      unfold winContest
      split
      · exact h1.trans (contestState_evolves s.waived (s.budget - 1) _ (Or.inl (Nat.sub_le _ _)))
      · exact h1.trans (contestState_evolves true s.budget _ (Or.inl (Nat.le_refl _)))
    · exact hf _
  · split
    · have h1 : Evolves s { s with span := .free } := setSpan_evolves _ s (fun o h => absurd h (no_offer_free o))
      unfold idleContest
      split
      · exact h1.trans (contestState_evolves false s.setup.urgentBudget _ (Or.inr rfl))
      · exact h1
    · exact hf _

/-! ### Frames of other stations -/

theorem spanAfterFrame_offers {p : SpanPhase} {o : Offer} (h : Offers (spanAfterFrame p) o) : Offers p o := by
  cases p <;> first | exact h | exact absurd h (no_offer_free o)

theorem frameEnds_evolves (x : EndSlots) (s : State) : Evolves s (frameEnds x s) := by
  have h1 : Evolves s { s with slots := x } := {}
  exact h1.trans (setSpan_evolves (spanAfterFrame s.span) _ (fun o h => spanAfterFrame_offers h))

theorem takeDuplicate_evolves (s : State) : Evolves s (takeDuplicate s) :=
  (takeReport_evolves _ s).trans (enterHalted_evolves _)

theorem takesAsTarget_run {s : State} {t : Station} (h : takesAsTarget s t = true) : s.station = .run := by
  simp only [takesAsTarget, Bool.and_eq_true, beq_iff_eq] at h; exact h.2

theorem takeAsk_evolves (source target : Station) (tag : Tag) (epoch : Epoch) (keep : Bool) (line : LineIndex) (s : State)
    (hl : takesAsTarget s target = true → s.svq.length < Config.svqCapacity) (hn : source ≠ s.number) :
    Evolves s (takeAsk source target tag epoch keep line s) := by
  unfold takeAsk
  split
  · rename_i h
    exact svqAppend_evolves _ _ _ s (takesAsTarget_run h) (hl h) hn
  · exact .refl s

theorem takePut_evolves (source target : Station) (c : Option (Tag × Epoch)) (line : LineIndex) (mask : Mask) (data : Line)
    (s : State) (hl : takesAsTarget s target = true → s.svq.length < Config.svqCapacity) (hn : source ≠ s.number) :
    Evolves s (takePut source target c line mask data s) := by
  unfold takePut
  split
  · rename_i h
    exact (svqAppend_evolves _ _ _ s (takesAsTarget_run h) (hl h) hn).trans (lltPutStands_evolves _ _ _)
  split
  · exact .refl s
  · exact (cacheDrop_evolves _ _ s).trans (overtakeByPut_evolves _ _ _)

theorem takeGive_evolves (source target : Station) (tag : Tag) (epoch : Epoch) (mended : Bool) (data : Line) (s : State)
    (hn : source ≠ s.number) :
    Evolves s (takeGive source target tag epoch mended data s) := by
  unfold takeGive
  split
  · rename_i ht
    dsimp only
    split
    · rename_i h
      simp only [replyNames, Bool.and_eq_true, beq_iff_eq] at h
      have h1 := answerWaiters_evolves s.tracker[tag].waiters (giveAnswer data mended) s
      have h2 : Evolves s (if installs s s.tracker[tag] = true then
          cacheInstall s.tracker[tag].target s.tracker[tag].line data (answerWaiters s.tracker[tag].waiters (giveAnswer data mended) s)
          else answerWaiters s.tracker[tag].waiters (giveAnswer data mended) s) := by
        split
        · exact h1.trans (cacheInstall_evolves _ _ _ _ (by rw [answerWaiters_station]; exact takesAsTarget_run ht)
            (by rw [h.1.2, (answerWaiters_evolves _ _ s).number]; exact hn))
        · exact h1
      refine h2.trans (releaseEntry_evolves tag _ (Or.inr ?_))
      have e : (if installs s s.tracker[tag] = true then
          cacheInstall s.tracker[tag].target s.tracker[tag].line data (answerWaiters s.tracker[tag].waiters (giveAnswer data mended) s)
          else answerWaiters s.tracker[tag].waiters (giveAnswer data mended) s).tracker = s.tracker := by
        split
        · exact answerWaiters_tracker _ _ s
        · exact answerWaiters_tracker _ _ s
      rw [e, h.1.1.1]; simp
    · exact strayReply_evolves _ _ s
  · exact .refl s

theorem takeNote_evolves (source target : Station) (tag : Tag) (epoch : Epoch) (o : NoteOutcome) (s : State) :
    Evolves s (takeNote source target tag epoch o s) := by
  unfold takeNote
  split
  · dsimp only
    split
    · rename_i h
      simp only [replyNames, Bool.and_eq_true, beq_iff_eq] at h
      refine (answerWaiters_evolves s.tracker[tag].waiters (noteAnswer o) s).trans (releaseEntry_evolves tag _ (Or.inr ?_))
      rw [answerWaiters_tracker, h.1.1.1]; simp
    · exact strayReply_evolves _ _ s
  · exact .refl s

theorem takeRecall_evolves (source : Station) (line : LineIndex) (x : SharerSet) (s : State) :
    Evolves s (takeRecall source line x s) := by
  unfold takeRecall
  split
  · exact cacheDrop_evolves _ _ s
  · exact .refl s

theorem takeStart_evolves (source : Station) (s : State) : Evolves s (takeStart source s) :=
  (abandonAll_evolves source s).trans ((servePurge_evolves source _).trans ((lltStartStands_evolves source _).trans
    (cacheDropOwner_evolves source _)))

theorem takeFrame_evolves (f : Frame) (s : State)
    (hl : ∀ t, frameTarget f = some t → isRequestFrame f = true → takesAsTarget s t = true →
      s.svq.length < Config.svqCapacity) (hn : frameSource f ≠ s.number) : Evolves s (takeFrame f s) := by
  match f with
  | .ask a b c d e g => exact takeAsk_evolves a b c d e g s (hl b rfl rfl) hn
  | .put a b c d e g => exact takePut_evolves a b c d e g s (hl b rfl rfl) hn
  | .give a b c d e g => exact takeGive_evolves a b c d e g s hn
  | .note a b c d e => exact takeNote_evolves a b c d e s
  | .recall a b c => exact takeRecall_evolves a b c s
  | .start a => exact takeStart_evolves a s

/-- A request addressed to a station whose Serve Queue is full does not stand with its REFUSE. -/
theorem classify_refuse {s : State} {f : Frame} {others : EndSlots} {b : Bool}
    (h : classify (wiredSlots (assertSlots s (some f)) others) b = .stood) :
    ∀ t, frameTarget f = some t → isRequestFrame f = true → takesAsTarget s t = true → s.svq.length < Config.svqCapacity := by
  intro t ht hr hk
  by_contra hn
  have hn' : Config.svqCapacity ≤ s.svq.length := by omega
  simp only [takesAsTarget, Bool.and_eq_true, beq_iff_eq] at hk
  have e : assertSlots s (some f) = { noSlots with refuse := true } := by
    simp [assertSlots, ht, hk, hr, hn']
  rw [e] at h
  unfold classify wiredSlots noSlots at h
  cases others with
  | mk x y z => cases x <;> simp at h

theorem standingEnd_evolves (f : Frame) (s : State) : Evolves s (standingEnd f s) := by
  unfold standingEnd
  split
  · dsimp only
    have h1 := frameEnds_evolves (assertSlots s (foundConsistent f)) s
    split
    · rename_i hst
      split
      · exact h1.trans (takeDuplicate_evolves _)
      · rename_i hn
        refine h1.trans (takeFrame_evolves f _ ?_ hn)
        have hc : frameConsistent f = true := by
          by_contra hc
          simp [letsStand, foundConsistent, hc, assertSlots, classify, wiredSlots] at hst
        have hst' : letsStand s f = true := hst
        simp only [letsStand, foundConsistent, hc, if_true, beq_iff_eq] at hst'
        exact classify_refuse hst'
    · exact h1
  · exact frameEnds_evolves _ s

theorem receivedEnd_evolves (bits : List Bool) (others : EndSlots) (s : State) : Evolves s (receivedEnd bits others s) := by
  unfold receivedEnd
  split
  · dsimp only
    have h1 := frameEnds_evolves (assertSlots s (receiveFrame bits)) s
    split
    · rename_i f hf
      split
      · rename_i hst
        refine .trans ?_ (settle_evolves _ _)
        split
        · exact h1.trans (takeDuplicate_evolves _)
        · rename_i hn
          refine h1.trans (takeFrame_evolves f _ ?_ hn)
          rw [hf] at hst
          exact classify_refuse hst
      · exact h1
    · exact h1
  · exact frameEnds_evolves _ s

/-! ### The station's own frame -/

theorem replyOutcome_reply (target : Station) (o : FrameOutcome) (s : State) : EvolvesReply s (replyOutcome target o s) := by
  have hd (k : FaultReport) : EvolvesReply s (rpqDropHead (takeReport k s)) :=
    (takeReport_evolves k s).toEvolvesReply.trans (rpqDropHead_reply _)
  unfold replyOutcome
  dsimp only
  split
  · exact rpqDropHead_reply s
  · split
    · exact (spoilCount_evolves _ s (by omega)).toEvolvesReply
    · exact hd _
  · exact hd _
  · exact hd _

theorem replyOutcome_station (target : Station) (o : FrameOutcome) (s : State) :
    (replyOutcome target o s).station = s.station := by
  unfold replyOutcome
  dsimp only
  repeat' split
  all_goals rfl

theorem broadcastOutcome_reply (line : Option LineIndex) (o : FrameOutcome) (s : State) :
    EvolvesReply s (broadcastOutcome line o s) := by
  unfold broadcastOutcome
  split
  · exact rpqDropHead_reply s
  · split
    · exact (spoilCount_evolves _ s (by omega)).toEvolvesReply
    · exact ((takeReport_evolves _ s).trans (enterHalted_evolves _)).toEvolvesReply
  · exact (Evolves.refl s).toEvolvesReply
  · exact (Evolves.refl s).toEvolvesReply

/-- A broadcast frame that does not stand leaves the Reply Queue as `LaunchOk` has it. -/
theorem broadcastOutcome_launch (line : Option LineIndex) (o : FrameOutcome) (s : State) (ho : s.station = .run ∨ o ≠ .stood)
    (q : QuietOk s) (h : LaunchOk s) : LaunchOk (broadcastOutcome line o s) := by
  unfold broadcastOutcome
  split
  · exact LaunchOk_run (ho.resolve_right fun n => n rfl)
  · split
    · exact (spoilCount_evolves _ s (by omega)).launch q h
    · exact ((takeReport_evolves _ s).trans (enterHalted_evolves _)).launch q h
  · exact h
  · exact h

theorem ownStartStands_reply (o : FrameOutcome) (s : State) : EvolvesReply s (ownStartStands o s) := by
  unfold ownStartStands
  split
  · rename_i h
    exact setStation_reply .run s ⟨by simp, by simp⟩ (fun _ => by simp [listening, h.2]) (by simp) (fun h => absurd rfl h)
  · exact (Evolves.refl s).toEvolvesReply

/-- The end of the station's own START (R21, R43): when it stands, a station in STARTING is in RUN. -/
theorem ownStart_launch (o : FrameOutcome) (s : State) (hs : s.station = .run ∨ s.station = .starting) (q : QuietOk s)
    (h : LaunchOk s) : LaunchOk (ownStartStands o (broadcastOutcome none o s)) := by
  unfold ownStartStands
  split
  · exact LaunchOk_run rfl
  · rename_i hn
    by_cases ho : o = .stood
    · refine LaunchOk_run ?_
      subst ho
      have e : (broadcastOutcome none .stood s).station = s.station := rfl
      rw [e] at hn ⊢
      exact hs.resolve_right fun n => hn ⟨rfl, n⟩
    · exact broadcastOutcome_launch none o s (.inr ho) q h

/-- What the outcome of a Reply Queue frame does, for a frame that may be its head (R18 to R21, R43). -/
theorem ownOutcome_launch (x : Offer) (o : FrameOutcome) (s : State) (hx : x.source = .replyQueue)
    (ho : s.station ≠ .run → s.station = .starting ∧ x.frame = .start s.number) (q : QuietOk s) (h : LaunchOk s) :
    LaunchOk (ownOutcome x o s) := by
  by_cases hr : s.station = .run
  · unfold ownOutcome
    rw [hx]
    dsimp only
    split
    · exact LaunchOk_run ((replyOutcome_station _ _ s).trans hr)
    · exact LaunchOk_run ((replyOutcome_station _ _ s).trans hr)
    · exact broadcastOutcome_launch _ o s (.inl hr) q h
    · exact ownStart_launch o s (.inl hr) q h
    · exact h
    · exact h
  · unfold ownOutcome
    rw [hx, (ho hr).2]
    exact ownStart_launch o s (.inr (ho hr).1) q h

theorem ownEnd_evolves (others : EndSlots) (s : State) : Evolves s (ownEnd others s) := by
  unfold ownEnd
  split
  · rename_i o ho
    dsimp only
    have h0 : Evolves s { s with slots := noSlots } := {}
    have h1 : Evolves s { s with span := .free, slots := noSlots } :=
      h0.trans (setSpan_evolves .free _ (fun o h => absurd h (no_offer_free o)))
    split
    · exact h1
    · rename_i hg
      cases ht : o.source with
      | tracker t =>
        unfold ownOutcome
        rw [ht]
        dsimp only
        split
        · rename_i hq
          exact h1.trans (entryOutcome_evolves t _ _ _ (no_offers_free t) hq)
        · exact h1
      | replyQueue =>
        refine ⟨h1.toEvolvesReply.trans ?_, fun q h => ownOutcome_launch o _ _ ht (fun n => ?_) (h1.quiet q) (h1.launch q h)⟩
        · unfold ownOutcome
          rw [ht]
          dsimp only
          split
          · exact replyOutcome_reply _ _ _
          · exact replyOutcome_reply _ _ _
          · exact broadcastOutcome_reply _ _ _
          · exact (broadcastOutcome_reply _ _ _).trans (ownStartStands_reply _ _)
          · exact (Evolves.refl _).toEvolvesReply
          · exact (Evolves.refl _).toEvolvesReply
        · exact h.offer n o ⟨by simpa using hg, .inr ho⟩ ht
  · exact .refl s

/-! ### The commands -/

theorem unlessHeld_next {s t u : State} (h : unlessHeld s t = .next u) : u = if s.pinHeld then s else t := by
  unfold unlessHeld at h
  exact (Host.Outcome.next.inj h).symm

/-- An event whose own effects evolve the state evolves it. -/
theorem event_evolves {s t : State} {f : State → State} (hf : Evolves s (f s)) (h : event s f = .next t) : Evolves s t := by
  rw [unlessHeld_next h]
  split
  · exact .refl s
  · exact hf.trans (settle_evolves _ _)

theorem held_evolves {s u t : State} (hf : Evolves s t) (h : unlessHeld s t = .next u) : Evolves s u := by
  rw [unlessHeld_next h]
  split
  · exact .refl s
  · exact hf

/-- What a station with its pin held notes of the Span offers nothing new. -/
theorem spanEvent_evolves {p : SpanPhase} {s t u : State} (hp : ∀ x, Offers p x → Offers s.span x) (hf : Evolves s t)
    (h : spanEvent p s t = .next u) : Evolves s u := by
  rw [(Host.Outcome.next.inj h).symm]
  split
  · exact setSpan_evolves p s hp
  · exact hf

theorem no_offer_idle (part : Bool) (o : Offer) : ¬Offers (.contest part none) o := by
  rintro ⟨_, ⟨_, h⟩ | h⟩ <;> cases h

theorem spanOpened_offers {p : SpanPhase} {o : Offer} (h : Offers (spanOpened p) o) : Offers p o := by
  cases p <;> first | exact h | exact absurd h (no_offer_idle _ o)

theorem spanDecided_offers {others : List Contender} {p : SpanPhase} {o : Offer} (h : Offers (spanDecided others p) o) :
    Offers p o := by
  have key : ¬Offers (if others.isEmpty then .free else .frame false) o := by
    split
    · exact no_offer_free o
    · exact no_offer_frame _ o
  cases p <;> first | exact h | exact absurd h key

theorem frameEvent_evolves {s t u : State} (hf : Evolves s t) (h : frameEvent s t = .next u) : Evolves s u :=
  spanEvent_evolves (fun _ => spanAfterFrame_offers) hf h

theorem standingEvent_evolves {f : Frame} {s t : State} (h : standingEvent f s = .next t) : Evolves s t :=
  frameEvent_evolves ((standingEnd_evolves f s).trans (settle_evolves _ _)) h

theorem backoffExpiryEvent_evolves (t : Tag) (s : State) : Evolves s (backoffExpiryEvent t s) := by
  unfold backoffExpiryEvent
  dsimp only
  split
  · rename_i h
    exact (elapse_evolves _ s).trans (backoffExpires_evolves t _ (by rw [elapse_get]; exact h))
  · exact .refl s

theorem replyExpiryEvent_evolves (t : Tag) (s : State) : Evolves s (replyExpiryEvent t s) := by
  unfold replyExpiryEvent
  dsimp only
  split
  · rename_i h
    exact (elapse_evolves _ s).trans (replyTimerExpires_evolves t _ (by rw [elapse_get]; exact h))
  · exact .refl s

theorem idle_evolves (s : State) : Evolves s (idle s) := by
  unfold idle
  split
  · exact later_evolves 1 s
  split
  · split
    · exact (replyExpiryEvent_evolves _ s).trans (settle_evolves _ _)
    · exact backoffExpiryEvent_evolves _ s
  · split
    · exact (serveTakeNow_evolves s).trans (settle_evolves _ _)
    · exact elapse_evolves 1 s

theorem localReadEnds_evolves (tag : HostTag) (line : LineIndex) (off : Nat) (size : ReadSize) (e : WordErrors) (s : State)
    (hs : s.storeOp = some (.localRead tag line off size)) : Evolves s (localReadEnds tag line off size e s) := by
  unfold localReadEnds
  dsimp only
  have h1 : Evolves s { s with poison := poisonAfterRead s line e (readWords off size), storeOp := none } :=
    (setPoison_evolves _ s (poisonAfterRead_pairwise s line e _)).trans
      (storeOp_other (by show s.storeOp ≠ _; rw [hs]; simp) (by simp) (by simp))
  have h2 := h1.trans (reportMended_evolves (readMends s line e (readWords off size)) none line (some tag) _)
  split
  · exact h2.trans ((reportPoison_evolves _ _ _ _).trans (respond_evolves _ _))
  · exact h2.trans (respond_evolves _ _)

theorem drainAnswer_evolves (b : LwbEntry) (p : Bool) (s : State) : Evolves s (drainAnswer b p s) := by
  unfold drainAnswer
  split
  · exact respond_evolves _ s
  · exact .refl s
  · exact (reportPoison_evolves _ _ _ _).trans (respond_evolves _ _)
  · exact (reportPoison_evolves _ _ _ _).trans (lostWrite_evolves _ _)

/-- A drain: what follows the write of the line. -/
theorem drainEnds_evolves (b : LwbEntry) (rest : List LwbEntry) (e : WordErrors) (s : State)
    (hl : s.lwb = b :: rest) :
    Evolves { s with mem := (lineWrite s b.line b.mask b.data e).mem, poison := (lineWrite s b.line b.mask b.data e).poison }
      (drainEnds b rest e s) := by
  unfold drainEnds
  dsimp only
  generalize lineWrite s b.line b.mask b.data e = w
  refine .trans ?_ ((reportMended_evolves _ _ _ _ _).trans (drainAnswer_evolves _ _ _))
  exact
    { queues := fun h => ⟨h.hrq, h.tags, by
        have := h.lwb
        simp only [hl, List.length_cons] at this
        show rest.length ≤ _; omega, h.svq, h.cache, h.copies, h.llt, h.lent, h.sharers, h.pass, h.spoils⟩
      work := fun h => by
        have ho : ∀ c ∈ rest, c.draining = false := by have := h.others; simpa [hl] using this
        refine ⟨⟨fun e => (by cases e), ?_⟩, fun c hc => ho c (List.mem_of_mem_tail hc), fun e => by cases e⟩
        rintro ⟨c, r, e, hc⟩
        have := ho c (by rw [show rest = c :: r from e]; exact List.mem_cons_self ..)
        rw [this] at hc; cases hc }

/-- The state in which the fill of a line has been written, before Station Control hears of it. -/
def filled (s : State) : State :=
  { s with mem := fillLine s.mem s.fillProgress, poison := s.poison.filter fun n => n / 8 != s.fillProgress }

theorem fillEnds_evolves (s : State) (hs : s.station = .init) : Evolves s (fillEnds s) := by
  unfold fillEnds
  split
  · exact enterStarting_evolves s (by simp [hs]) (by simp [hs])
  · rename_i hr
    refine ⟨setStation_reply .setup s ⟨by simp, fun _ => by simp [setupOpen, hs, hr]⟩ (by simp) (by simp)
      (fun _ h => by rw [hs] at h; cases h), fun _ h => ⟨fun _ => h.silent (by simp [listening, hs]), fun n => (by cases n),
      fun _ o ho e => ?_⟩⟩
    have := (h.offer (by simp [hs]) o ho e).1
    rw [hs] at this; cases this

theorem fillLineEnds_evolves (s : State) (hs : s.storeOp = some .fill) : Evolves (filled s) (fillLineEnds s) := by
  unfold fillLineEnds
  dsimp only
  have h0 : Evolves (filled s) { filled s with fillProgress := s.fillProgress + 1 } := {}
  have h1 : Evolves (filled s) { filled s with fillProgress := s.fillProgress + 1, storeOp := none } :=
    h0.trans (storeOp_other (by show s.storeOp ≠ _; rw [hs]; simp) (by simp) (by simp))
  split
  · rename_i h
    exact h1.trans (fillEnds_evolves _ h.1)
  · exact h1

/-! ### The parts of Safety.lean under a change of the store alone -/

theorem StoreOk_lineWrite {s : State} (h : StoreOk s) (line : LineIndex) (mask : Mask) (data : Line) (e : WordErrors) :
    StoreOk { s with mem := (lineWrite s line mask data e).mem, poison := (lineWrite s line mask data e).poison } := by
  refine ⟨lineWrite_wf s line mask data e h.mem, ?_⟩
  have hp := poisonAfterRead_pairwise s line e (allWords.filter (partWord mask)) h.poison
  show (lineWrite s line mask data e).poison.Pairwise (· < ·)
  unfold lineWrite
  dsimp only
  split
  · exact hp
  · exact hp.filter _

theorem StoreOk_filled {s : State} (h : StoreOk s) : StoreOk (filled s) :=
  ⟨fillLine_wf _ _ h.mem, h.poison.filter _⟩

end Sys2Proof.Laws
end

