-- ==== Sys2Proof/Laws/Operands.lean ====
section
/-! SUPPORT. The layouts read back what they write, and what is read was written so: numbers, bytes and fields of frames,
multi-byte numbers of host messages. -/

-- Theorems are elaborated one after another: many at once take more threads than the memory limit allows.
set_option Elab.async false

namespace Sys2Proof.Laws

open Sys2Proof.Machine

/-- A number written in w bits is read back modulo 2 ^ w, whatever follows. -/
theorem takeBE_bitsBE (w n : Nat) (rest : List Bool) : takeBE w (bitsBE w n ++ rest) = some (n % 2 ^ w, rest) := by
  induction w with
  | zero => simp [takeBE, bitsBE, Nat.mod_one]
  | succ w ih =>
    simp only [bitsBE, List.cons_append, takeBE, ih]
    have h : (if n.testBit w then 2 ^ w else 0) + n % 2 ^ w = n % 2 ^ (w + 1) := by
      rw [Nat.mod_pow_succ, Nat.testBit_eq_decide_div_mod_eq]
      rcases Nat.mod_two_eq_zero_or_one (n / 2 ^ w) with e | e <;> simp [e, Nat.add_comm]
    rw [h]

theorem takeBE_fin {k : Nat} (w : Nat) (x : Fin k) (h : k ≤ 2 ^ w) (rest : List Bool) :
    takeBE w (bitsBE w x.val ++ rest) = some (x.val, rest) := by
  rw [takeBE_bitsBE, Nat.mod_eq_of_lt (Nat.lt_of_lt_of_le x.isLt h)]

theorem takeBE_bitVec {w : Nat} (x : BitVec w) (rest : List Bool) :
    takeBE w (bitsBE w x.toNat ++ rest) = some (x.toNat, rest) := by
  rw [takeBE_bitsBE, Nat.mod_eq_of_lt x.isLt]

theorem takeBytes_bits (l : List Byte) (rest : List Bool) :
    takeBytes l.length ((l.flatMap fun b => bitsBE 8 b.toNat) ++ rest) = some (l, rest) := by
  induction l with
  | nil => rfl
  | cons b l ih =>
    simp only [List.flatMap_cons, List.append_assoc, List.length_cons, takeBytes, takeBE_bitVec, ih, BitVec.ofNat_toNat,
      BitVec.setWidth_eq]

theorem lineOfBytes_toList (d : Line) : lineOfBytes d.toList = d := by
  apply Vector.ext
  intro i hi
  simp only [lineOfBytes, Vector.getElem_ofFn]
  rw [List.getD_eq_getElem?_getD, Vector.getElem?_toList, Vector.getElem?_eq_getElem hi]
  rfl

/-- The data of a frame is read back, whatever follows. -/
theorem takeBytes_dataBits (d : Line) (rest : List Bool) : takeBytes 64 (dataBits d ++ rest) = some (d.toList, rest) := by
  have h := takeBytes_bits d.toList rest
  rwa [Vector.length_toList] at h

theorem nibble_val (x : Fin 16) : nibble x.val = x := by
  apply Fin.ext
  simp [nibble, Fin.ofNat]

theorem epoch_val (x : Fin 8) : Fin.ofNat 8 x.val = x := by
  apply Fin.ext
  simp [Fin.ofNat]

/-! ### What is read was written -/

theorem bitsBE_congr {w n m : Nat} (h : ∀ i, i < w → n.testBit i = m.testBit i) : bitsBE w n = bitsBE w m := by
  induction w with
  | zero => rfl
  | succ w ih => rw [bitsBE, bitsBE, h w (by omega), ih fun i hi => h i (by omega)]

/-- A number that was read is the number those bits write. -/
theorem takeBE_eq {w : Nat} : ∀ {bs rest : List Bool} {n : Nat}, takeBE w bs = some (n, rest) →
    bs = bitsBE w n ++ rest ∧ n < 2 ^ w := by
  induction w with
  | zero =>
    intro bs rest n h
    simp only [takeBE, Option.some.injEq, Prod.mk.injEq] at h
    obtain ⟨rfl, rfl⟩ := h
    simp [bitsBE]
  | succ w ih =>
    intro bs rest n h
    cases bs with
    | nil => cases h
    | cons b bs =>
      unfold takeBE at h
      split at h
      · rename_i m r hm
        simp only [Option.some.injEq, Prod.mk.injEq] at h
        obtain ⟨rfl, rfl⟩ := h
        obtain ⟨rfl, hlt⟩ := ih hm
        have hw : m.testBit w = false := Nat.testBit_lt_two_pow hlt
        have e : bitsBE w ((if b then 2 ^ w else 0) + m) = bitsBE w m := bitsBE_congr fun i hi => by
          cases b
          · simp
          · simp [Nat.testBit_two_pow_add_gt hi]
        refine ⟨?_, ?_⟩
        · rw [bitsBE, e]
          cases b
          · simp [hw]
          · simp [Nat.testBit_two_pow_add_eq, hw]
        · rw [Nat.pow_succ]
          cases b
          · simp; omega
          · simp; omega
      · cases h

theorem takeBytes_eq {n : Nat} : ∀ {bs rest : List Bool} {l : List Byte}, takeBytes n bs = some (l, rest) →
    bs = (l.flatMap fun b => bitsBE 8 b.toNat) ++ rest ∧ l.length = n := by
  induction n with
  | zero =>
    intro bs rest l h
    simp only [takeBytes, Option.some.injEq, Prod.mk.injEq] at h
    obtain ⟨rfl, rfl⟩ := h
    simp
  | succ n ih =>
    intro bs rest l h
    unfold takeBytes at h
    split at h
    · cases h
    · rename_i b r hb
      split at h
      · rename_i l' r' hl
        simp only [Option.some.injEq, Prod.mk.injEq] at h
        obtain ⟨rfl, rfl⟩ := h
        obtain ⟨rfl, hlt⟩ := takeBE_eq hb
        obtain ⟨rfl, hn⟩ := ih hl
        have : (BitVec.ofNat 8 b).toNat = b := by rw [BitVec.toNat_ofNat]; exact Nat.mod_eq_of_lt hlt
        simp [this, hn]
      · cases h

theorem lineOfBytes_data {l : List Byte} (h : l.length = 64) :
    dataBits (lineOfBytes l) = l.flatMap fun b => bitsBE 8 b.toNat := by
  have : (lineOfBytes l).toList = l := by
    apply List.ext_getElem
    · simp [h]
    · intro i h1 h2
      simp [lineOfBytes, List.getD_eq_getElem?_getD, h2]
  rw [dataBits, this]

theorem bitsBE_length (w n : Nat) : (bitsBE w n).length = w := by
  induction w with
  | zero => rfl
  | succ w ih => simp [bitsBE, ih]

theorem beNat_append (l : List Byte) (b : Byte) : beNat (l ++ [b]) = beNat l * 256 + b.toNat := by
  simp [beNat, List.foldl_append]

theorem beBytes_length (n v : Nat) : (beBytes n v).length = n := by
  induction n generalizing v with
  | zero => rfl
  | succ n ih => simp [beBytes, ih]

theorem foldl_beBytes (n v a : Nat) :
    (beBytes n v).foldl (fun m b => m * 256 + b.toNat) a = a * 256 ^ n + v % 256 ^ n := by
  induction n generalizing a with
  | zero => simp [beBytes, Nat.mod_one]
  | succ n ih =>
    simp only [beBytes, List.foldl_cons, ih, BitVec.toNat_ofNat]
    have h : v % 256 ^ (n + 1) = v % 256 ^ n + 256 ^ n * (v / 256 ^ n % 256) := Nat.mod_pow_succ
    have h8 : 2 ^ 8 = 256 := rfl
    rw [h, h8]
    ring

/-- A multi-byte number is read back modulo its width. -/
theorem beNat_beBytes (n v : Nat) : beNat (beBytes n v) = v % 256 ^ n := by
  unfold beNat
  rw [foldl_beBytes]
  simp

/-! ### The fields of a frame -/

/-- The fields of a frame are read back. -/
theorem parseBody_frameBody (f : Frame) : parseBody (frameBody f) = some (f, []) := by
  have e4 (x : Fin 16) (r : List Bool) : takeBE 4 (bitsBE 4 x.val ++ r) = some (x.val, r) := takeBE_fin 4 x (by decide) r
  have e3 (x : Fin 8) (r : List Bool) : takeBE 3 (bitsBE 3 x.val ++ r) = some (x.val, r) := takeBE_fin 3 x (by decide) r
  have k1 (n : Nat) (h : n < 16) (r : List Bool) : takeBE 4 (bitsBE 4 n ++ r) = some (n, r) := by
    rw [takeBE_bitsBE, show n % 2 ^ 4 = n from Nat.mod_eq_of_lt h]
  match f with
  | .ask src tgt tag ep keep line =>
    unfold parseBody frameBody
    have e22 := takeBE_bitVec line []
    rw [List.append_nil] at e22
    simp only [List.append_assoc, k1 1 (by decide), e4, e3, Option.bind_eq_bind, Option.bind_some, flagBits, List.cons_append,
      List.nil_append, takeFlag, e22, nibble_val, epoch_val, BitVec.ofNat_toNat, BitVec.setWidth_eq]
    rfl
  | .put src tgt c line mask data =>
    have ed := takeBytes_dataBits data []
    rw [List.append_nil] at ed
    have el (r : List Bool) := takeBE_bitVec line r
    have em (r : List Bool) := takeBE_bitVec mask r
    cases c with
    | none =>
      unfold parseBody frameBody
      simp only [List.append_assoc, k1 2 (by decide), e4, Option.bind_eq_bind, Option.bind_some, flagBits, List.cons_append,
        List.nil_append, takeConfirm, el, em, ed, nibble_val, BitVec.ofNat_toNat, BitVec.setWidth_eq, lineOfBytes_toList]
      rfl
    | some p =>
      obtain ⟨tag, ep⟩ := p
      unfold parseBody frameBody
      simp only [List.append_assoc, k1 2 (by decide), e4, e3, Option.bind_eq_bind, Option.bind_some, flagBits, List.cons_append,
        List.nil_append, takeConfirm, el, em, ed, nibble_val, epoch_val, BitVec.ofNat_toNat, BitVec.setWidth_eq,
        lineOfBytes_toList, Option.pure_def]
  | .give src tgt tag ep mended data =>
    have ed := takeBytes_dataBits data []
    rw [List.append_nil] at ed
    unfold parseBody frameBody
    simp only [List.append_assoc, k1 3 (by decide), e4, e3, Option.bind_eq_bind, Option.bind_some, flagBits, List.cons_append,
      List.nil_append, takeFlag, ed, nibble_val, epoch_val, lineOfBytes_toList]
    rfl
  | .note src tgt tag ep o =>
    have eo := takeBE_bitsBE 3 (outcomeCode o) []
    rw [List.append_nil] at eo
    have hc : outcomeOfCode (outcomeCode o % 2 ^ 3) = some o := by cases o <;> rfl
    unfold parseBody frameBody
    simp only [List.append_assoc, k1 4 (by decide), e4, e3, Option.bind_eq_bind, Option.bind_some, eo, hc, nibble_val, epoch_val]
    rfl
  | .recall src line sharers =>
    have el (r : List Bool) := takeBE_bitVec line r
    have es := takeBE_bitVec sharers []
    rw [List.append_nil] at es
    unfold parseBody frameBody
    simp only [List.append_assoc, k1 5 (by decide), e4, Option.bind_eq_bind, Option.bind_some, el, es, nibble_val,
      BitVec.ofNat_toNat, BitVec.setWidth_eq]
    rfl
  | .start src =>
    have es := e4 src []
    rw [List.append_nil] at es
    unfold parseBody frameBody
    simp only [k1 6 (by decide), Option.bind_eq_bind, Option.bind_some, es, nibble_val]
    rfl

theorem takeFlag_eq {bs rest : List Bool} {b : Bool} (h : takeFlag bs = some (b, rest)) : bs = flagBits b ++ rest := by
  cases bs with
  | nil => cases h
  | cons a bs => simp only [takeFlag, Option.some.injEq, Prod.mk.injEq] at h; obtain ⟨rfl, rfl⟩ := h; rfl

theorem nibble_ofNat {n : Nat} (h : n < 2 ^ 4) : (nibble n).val = n := Nat.mod_eq_of_lt h
theorem epoch_ofNat {n : Nat} (h : n < 2 ^ 3) : (Fin.ofNat 8 n).val = n := Nat.mod_eq_of_lt h
theorem toNat_ofNat_lt {w n : Nat} (h : n < 2 ^ w) : (BitVec.ofNat w n).toNat = n := by
  rw [BitVec.toNat_ofNat]; exact Nat.mod_eq_of_lt h
theorem outcomeCode_ofCode {n : Nat} {o : NoteOutcome} (h : outcomeOfCode n = some o) : outcomeCode o = n := by
  unfold outcomeOfCode at h
  split at h <;> cases h <;> rfl

/-- Bits read as a frame are the bits of that frame (R184). -/
theorem parseBody_eq {bs rest : List Bool} {f : Frame} (h : parseBody bs = some (f, rest)) : bs = frameBody f ++ rest := by
  unfold parseBody at h
  simp only [Option.bind_eq_bind, Option.bind_eq_some_iff, Prod.exists] at h
  obtain ⟨kind, b1, hk, src, b2, hs, h⟩ := h
  obtain ⟨rfl, _⟩ := takeBE_eq hk
  obtain ⟨rfl, ls⟩ := takeBE_eq hs
  split at h
  · simp only [Option.bind_eq_some_iff, Prod.exists, Option.pure_def, Option.some.injEq, Prod.mk.injEq] at h
    obtain ⟨tgt, b3, h3, tag, b4, h4, ep, b5, h5, keep, b6, h6, line, b7, h7, rfl, rfl⟩ := h
    obtain ⟨rfl, l3⟩ := takeBE_eq h3
    obtain ⟨rfl, l4⟩ := takeBE_eq h4
    obtain ⟨rfl, l5⟩ := takeBE_eq h5
    have := takeFlag_eq h6; subst this
    obtain ⟨rfl, l7⟩ := takeBE_eq h7
    simp only [frameBody, nibble_ofNat ls, nibble_ofNat l3, nibble_ofNat l4, epoch_ofNat l5, toNat_ofNat_lt l7,
      List.append_assoc]
  · simp only [Option.bind_eq_some_iff, Prod.exists, Option.pure_def, Option.some.injEq, Prod.mk.injEq] at h
    obtain ⟨tgt, b3, h3, c, b4, h4, line, b7, h7, mask, b8, h8, data, b9, h9, rfl, rfl⟩ := h
    obtain ⟨rfl, l3⟩ := takeBE_eq h3
    obtain ⟨rfl, l7⟩ := takeBE_eq h7
    obtain ⟨rfl, l8⟩ := takeBE_eq h8
    obtain ⟨rfl, l9⟩ := takeBytes_eq h9
    unfold takeConfirm at h4
    split at h4
    · cases h4
    · simp only [Option.some.injEq, Prod.mk.injEq] at h4
      obtain ⟨rfl, rfl⟩ := h4
      simp only [frameBody, nibble_ofNat ls, nibble_ofNat l3, toNat_ofNat_lt l7, toNat_ofNat_lt l8, lineOfBytes_data l9,
        flagBits, List.append_assoc, List.cons_append, List.nil_append]
    · simp only [Option.bind_eq_bind, Option.bind_eq_some_iff, Prod.exists, Option.pure_def, Option.some.injEq,
        Prod.mk.injEq] at h4
      obtain ⟨tag, b4, h4, ep, b5, h5, rfl, rfl⟩ := h4
      obtain ⟨rfl, l4⟩ := takeBE_eq h4
      obtain ⟨rfl, l5⟩ := takeBE_eq h5
      simp only [frameBody, nibble_ofNat ls, nibble_ofNat l3, nibble_ofNat l4, epoch_ofNat l5, toNat_ofNat_lt l7,
        toNat_ofNat_lt l8, lineOfBytes_data l9, flagBits, List.append_assoc, List.cons_append, List.nil_append]
  · simp only [Option.bind_eq_some_iff, Prod.exists, Option.pure_def, Option.some.injEq, Prod.mk.injEq] at h
    obtain ⟨tgt, b3, h3, tag, b4, h4, ep, b5, h5, keep, b6, h6, line, b7, h7, rfl, rfl⟩ := h
    obtain ⟨rfl, l3⟩ := takeBE_eq h3
    obtain ⟨rfl, l4⟩ := takeBE_eq h4
    obtain ⟨rfl, l5⟩ := takeBE_eq h5
    have := takeFlag_eq h6; subst this
    obtain ⟨rfl, l7⟩ := takeBytes_eq h7
    simp only [frameBody, nibble_ofNat ls, nibble_ofNat l3, nibble_ofNat l4, epoch_ofNat l5, lineOfBytes_data l7,
      List.append_assoc]
  · simp only [Option.bind_eq_some_iff, Prod.exists, Option.pure_def, Option.some.injEq, Prod.mk.injEq] at h
    obtain ⟨tgt, b3, h3, tag, b4, h4, ep, b5, h5, c, b6, h6, o, h7, rfl, rfl⟩ := h
    obtain ⟨rfl, l3⟩ := takeBE_eq h3
    obtain ⟨rfl, l4⟩ := takeBE_eq h4
    obtain ⟨rfl, l5⟩ := takeBE_eq h5
    obtain ⟨rfl, l6⟩ := takeBE_eq h6
    simp only [frameBody, nibble_ofNat ls, nibble_ofNat l3, nibble_ofNat l4, epoch_ofNat l5, outcomeCode_ofCode h7,
      List.append_assoc]
  · simp only [Option.bind_eq_some_iff, Prod.exists, Option.pure_def, Option.some.injEq, Prod.mk.injEq] at h
    obtain ⟨line, b7, h7, sh, b8, h8, rfl, rfl⟩ := h
    obtain ⟨rfl, l7⟩ := takeBE_eq h7
    obtain ⟨rfl, l8⟩ := takeBE_eq h8
    simp only [frameBody, nibble_ofNat ls, toNat_ofNat_lt l7, toNat_ofNat_lt l8, List.append_assoc]
  · simp only [Option.pure_def, Option.some.injEq, Prod.mk.injEq] at h
    obtain ⟨rfl, rfl⟩ := h
    simp only [frameBody, nibble_ofNat ls, List.append_assoc]
  · cases h

end Sys2Proof.Laws
end

