-- ==== Sys2Proof/Laws/Settling.lean ====
section
/-! SUPPORT. What settling does to the HRQ: a step of it answers or starts a request, or grants the store, so the weight of a
state (its requests, its unstarted requests, its free store) falls at every one; and what the searches of the HRQ, the tracker
and the Local Write Buffer find. -/

-- Theorems are elaborated one after another: many at once take more threads than the memory limit allows.
set_option Elab.async false

namespace Sys2Proof.Laws

open Sys2Proof.Machine

/-- A change of one request of the HRQ: answered, unchanged or started. -/
def HrqChange (g : HrqItem → Option HrqItem) : Prop :=
  ∀ x, g x = none ∨ g x = some x ∨ g x = some { x with started := true }

/-- The HRQ of t is that of s with requests answered or started. -/
def HrqFrom (s t : State) : Prop := ∃ g, HrqChange g ∧ t.hrq = s.hrq.filterMap g

theorem HrqFrom.of_eq {s t : State} (h : t.hrq = s.hrq) : HrqFrom s t := ⟨some, fun _ => .inr (.inl rfl), by simp [h]⟩

theorem HrqFrom.trans {s t u : State} (h : HrqFrom s t) (k : HrqFrom t u) : HrqFrom s u := by
  obtain ⟨f, hf, ef⟩ := h
  obtain ⟨g, hg, eg⟩ := k
  refine ⟨fun x => (f x).bind g, fun x => ?_, by rw [eg, ef, List.filterMap_filterMap]⟩
  rcases hf x with e | e | e <;> simp only [e, Option.bind_none, Option.bind_some, true_or]
  · exact hg x
  · rcases hg { x with started := true } with k | k | k <;> simp [k]

theorem respond_hrqFrom (r : Response) (s : State) : HrqFrom s (respond r s) :=
  ⟨Option.guard fun x => x.tag != responseTag r, fun x => by unfold Option.guard; split <;> simp, by
    rw [List.filterMap_eq_filter]; rfl⟩

theorem markStarted_hrqFrom (tag : HostTag) (s : State) : HrqFrom s (markStarted tag s) :=
  ⟨fun x => some (if x.tag = tag then { x with started := true } else x), fun x => by dsimp only; split <;> simp, by
    simp [markStarted]⟩

theorem HrqFrom.foldl {α : Type} (f : State → α → State) (hf : ∀ s a, HrqFrom s (f s a)) (l : List α) :
    ∀ s, HrqFrom s (l.foldl f s) := by
  induction l with
  | nil => exact fun s => .of_eq rfl
  | cons a l ih => exact fun s => (hf s a).trans (ih (f s a))

/-- No unstarted request has this tag. -/
def NoUnstarted (tag : HostTag) (s : State) : Prop := ∀ x ∈ s.hrq, x.tag = tag → x.started = true

theorem respond_noUnstarted (r : Response) (s : State) : NoUnstarted (responseTag r) (respond r s) := by
  intro x hx ht
  simp [respond, ht] at hx

theorem markStarted_noUnstarted (tag : HostTag) (s : State) : NoUnstarted tag (markStarted tag s) := by
  intro x hx ht
  simp only [markStarted, List.mem_map] at hx
  obtain ⟨y, _, rfl⟩ := hx
  by_cases h : y.tag = tag
  · simp [h]
  · rw [if_neg h] at ht; exact absurd ht h

theorem NoUnstarted.from {tag : HostTag} {s t : State} (h : NoUnstarted tag s) (k : HrqFrom s t) : NoUnstarted tag t := by
  obtain ⟨g, hg, e⟩ := k
  intro x hx ht
  rw [e, List.mem_filterMap] at hx
  obtain ⟨y, hy, hxy⟩ := hx
  rcases hg y with k | k | k <;> rw [k] at hxy
  · cases hxy
  · cases hxy; exact h _ hy ht
  · cases hxy; rfl

/-! ### The weight of the HRQ -/

/-- What a request weighs: 2 unstarted, 1 started. -/
def itemWeight (x : HrqItem) : Nat := if x.started then 1 else 2

/-- What the HRQ weighs. -/
def hrqWeight (s : State) : Nat := (s.hrq.map itemWeight).sum

theorem change_weight {g : HrqItem → Option HrqItem} (hg : HrqChange g) (x : HrqItem) :
    ((g x).map itemWeight).getD 0 ≤ itemWeight x := by
  rcases hg x with e | e | e <;> simp only [e, Option.map_none, Option.map_some, Option.getD_none, Option.getD_some]
  · omega
  · exact Nat.le_refl _
  · unfold itemWeight; simp only [if_true]; split <;> omega

theorem filterMap_weight (g : HrqItem → Option HrqItem) (l : List HrqItem) :
    ((l.filterMap g).map itemWeight).sum = (l.map fun x => ((g x).map itemWeight).getD 0).sum := by
  induction l with
  | nil => rfl
  | cons a l ih =>
    cases h : g a with
    | none => simp [h, ih]
    | some b => simp [h, ih]

theorem HrqFrom.weight_le {s t : State} (h : HrqFrom s t) : hrqWeight t ≤ hrqWeight s := by
  obtain ⟨g, hg, e⟩ := h
  unfold hrqWeight
  rw [e, filterMap_weight]
  exact List.sum_le_sum fun x _ => change_weight hg x

/-- The weight falls when an unstarted request of the HRQ is answered or started. -/
theorem HrqFrom.weight_lt {s t : State} (h : HrqFrom s t) {it : HrqItem} (hm : it ∈ s.hrq) (hu : it.started = false)
    (hn : NoUnstarted it.tag t) : hrqWeight t < hrqWeight s := by
  obtain ⟨g, hg, e⟩ := h
  have hit : g it ≠ some it := by
    intro k
    have := hn it (by rw [e]; exact List.mem_filterMap.2 ⟨it, hm, k⟩) rfl
    rw [hu] at this; cases this
  unfold hrqWeight
  rw [e, filterMap_weight]
  refine List.sum_lt_sum _ _ (fun x _ => change_weight hg x) ⟨it, hm, ?_⟩
  rcases hg it with k | k | k
  · simp [k, itemWeight, hu]
  · exact absurd k hit
  · simp [k, itemWeight, hu]

theorem eligibleItems_mem {earlier l : List HrqItem} {it : HrqItem} (h : it ∈ eligibleItems earlier l) :
    it ∈ l ∧ it.started = false := by
  induction l generalizing earlier with
  | nil => simp [eligibleItems] at h
  | cons a l ih =>
    unfold eligibleItems at h
    split at h
    · rename_i hc
      rcases List.mem_cons.1 h with rfl | h
      · exact ⟨List.mem_cons_self .., by simpa using (Bool.and_eq_true_iff.1 hc).1⟩
      · exact ⟨List.mem_cons_of_mem _ (ih h).1, (ih h).2⟩
    · exact ⟨List.mem_cons_of_mem _ (ih h).1, (ih h).2⟩

theorem offeredRead_mem {s : State} {it : HrqItem} (h : offeredRead s = some it) : it ∈ eligibleNow s := by
  unfold offeredRead at h
  dsimp only at h
  rcases Option.or_eq_some_iff.1 h with k | ⟨_, k⟩
  · exact (List.mem_filter.1 (List.mem_of_find?_eq_some k)).1
  · exact (List.mem_filter.1 (List.mem_of_mem_head? k)).1

/-! ### What the starts do to the HRQ and the store's operation -/

/-- t follows s with requests answered or started, none unstarted under the tag, and the store's operation as it was. -/
structure StartOf (tag : HostTag) (s t : State) : Prop where
  hrq : HrqFrom s t
  done : NoUnstarted tag t
  store : t.storeOp = s.storeOp

theorem StartOf.respond {tag : HostTag} {s t : State} {r : Response} (hr : responseTag r = tag) (h : HrqFrom s t)
    (hs : t.storeOp = s.storeOp) : StartOf tag s (respond r t) :=
  ⟨h.trans (respond_hrqFrom r t), hr ▸ respond_noUnstarted r t, hs⟩

theorem StartOf.mark {tag : HostTag} {s t : State} (h : HrqFrom s t) (hs : t.storeOp = s.storeOp) :
    StartOf tag s (markStarted tag t) :=
  ⟨h.trans (markStarted_hrqFrom tag t), markStarted_noUnstarted tag t, hs⟩

theorem StartOf.then {tag : HostTag} {s t u : State} (h : StartOf tag s t) (k : HrqFrom t u) (hs : u.storeOp = t.storeOp) :
    StartOf tag s u :=
  ⟨h.hrq.trans k, h.done.from k, hs.trans h.store⟩

theorem answerFence_hrqFrom (s : State) : HrqFrom s (answerFence s) := by
  unfold answerFence respondFence
  split
  · split
    · split
      · exact respond_hrqFrom _ { s with lostWrite := false }
      · exact respond_hrqFrom _ s
    · exact .of_eq rfl
  · exact .of_eq rfl

theorem answerFence_store (s : State) : (answerFence s).storeOp = s.storeOp := by
  obtain ⟨_, _, _, e⟩ := answerFence_eq s
  rw [e]

theorem startFence_startOf (tag : HostTag) (s : State) : StartOf tag s (startFence tag s) := by
  unfold startFence
  have h1 : (recordCovered s).hrq = s.hrq := by simp only [recordCovered, mapTracker]
  have h2 : (recordCovered s).storeOp = s.storeOp := by simp only [recordCovered, mapTracker]
  generalize recordCovered s = u at h1 h2 ⊢
  exact (StartOf.mark (.of_eq h1) h2).then (answerFence_hrqFrom _) (answerFence_store _)

theorem answerWaiters_hrqFrom (ws : List Waiter) (f : Waiter → Response) (s : State) : HrqFrom s (answerWaiters ws f s) :=
  HrqFrom.foldl _ (fun s w => respond_hrqFrom (f w) s) ws s

theorem teardownEntry_hrqFrom (code : HostCode) (s : State) (t : Tag) : HrqFrom s (teardownEntry code s t) := by
  unfold teardownEntry
  dsimp only
  split
  · exact .of_eq rfl
  · exact (answerWaiters_hrqFrom _ _ s).trans (.of_eq rfl)

theorem teardown_hrqFrom (code : HostCode) (s : State) : HrqFrom s (teardown code s) := by
  have h1 : HrqFrom s (emptySpanSide s) := .of_eq rfl
  have h2 (u : State) : HrqFrom u (trackerTeardown code u) := by
    unfold trackerTeardown
    dsimp only
    have h := HrqFrom.foldl _ (teardownEntry_hrqFrom code) (List.finRange 16) u
    generalize (List.finRange 16).foldl (teardownEntry code) u = w at h ⊢
    obtain ⟨v, hv, _⟩ := mapTracker_eq (fun e => { e with epoch := 0 }) w
    rw [hv]
    exact h.trans (.of_eq rfl)
  have h3 (u : State) : HrqFrom u (answerUnstartedRemote code u) :=
    HrqFrom.foldl _ (fun s _ => respond_hrqFrom _ s) _ _
  exact h1.trans ((h2 _).trans ((h3 _).trans (answerFence_hrqFrom _)))

theorem teardown_store (code : HostCode) (s : State) : (teardown code s).storeOp = s.storeOp := by
  obtain ⟨_, _, _, _, e, _⟩ := teardown_eq code s
  rw [e]

theorem commandWrite_startOf (tag : HostTag) (v : CtrlValue) (s : State) : StartOf tag s (commandWrite tag v s) := by
  have hf (c : HostCode) : StartOf tag s (respond (.fault tag c) s) := .respond rfl (.of_eq rfl) rfl
  unfold commandWrite
  split
  · unfold commandRun
    split
    · exact .respond rfl (.of_eq rfl) rfl
    · split
      · exact .respond rfl (.of_eq rfl) rfl
      · exact .respond rfl (.of_eq rfl) rfl
    · exact hf _
    · exact hf _
    · exact hf _
  · unfold commandRestart
    have hr := teardown_hrqFrom .restarted s
    have ht := teardown_store .restarted s
    generalize teardown .restarted s = w at hr ht ⊢
    split
    · exact .respond rfl (hr.trans (.of_eq rfl)) ht
    · exact .respond rfl (hr.trans (.of_eq rfl)) ht
    · exact .respond rfl (hr.trans (.of_eq rfl)) ht
    · exact hf _
    · exact hf _
  · exact .respond rfl (.of_eq rfl) rfl
  · exact .respond rfl (.of_eq rfl) rfl
  · exact hf _

theorem controlWriteStarts_startOf (tag : HostTag) (w : Byte) (v : CtrlValue) (s : State) :
    StartOf tag s (controlWriteStarts tag w v s) := by
  unfold controlWriteStarts
  split
  · exact commandWrite_startOf tag v s
  split
  · exact .respond rfl (.of_eq rfl) rfl
  split
  · unfold setupWrite
    split
    · exact .respond rfl (.of_eq (by unfold storeSetup; split <;> rfl)) (by unfold storeSetup; split <;> rfl)
    · exact .respond rfl (.of_eq rfl) rfl
  · exact .respond rfl (.of_eq rfl) rfl

theorem controlReadStarts_startOf (tag : HostTag) (w : Byte) (s : State) : StartOf tag s (controlReadStarts tag w s) := by
  unfold controlReadStarts
  split
  · exact .respond rfl (.of_eq (by unfold useFree; split <;> rfl)) (by unfold useFree; split <;> rfl)
  · exact .respond rfl (.of_eq rfl) rfl

theorem startRemoteRead_startOf {tag : HostTag} {addr : SpanAddr} {size : ReadSize} {c : Bool} {s t : State}
    (h : startRemoteRead tag addr size c s = some t) : StartOf tag s t := by
  unfold startRemoteRead at h
  dsimp only at h
  split at h
  · rw [← Option.some.inj h]; exact .respond rfl (.of_eq rfl) rfl
  · split at h
    · rw [← Option.some.inj h]; exact .respond rfl (.of_eq rfl) rfl
    · unfold readToTracker at h
      dsimp only at h
      split at h
      · rw [← Option.some.inj h]; exact .mark (.of_eq rfl) rfl
      · split at h
        · rw [← Option.some.inj h]; exact .mark (.of_eq rfl) rfl
        · cases h

theorem startRemoteWrite_startOf {tag : HostTag} {addr : SpanAddr} {mask : Mask} {data : Line} {c : Bool} {s t : State}
    (h : startRemoteWrite tag addr mask data c s = some t) : StartOf tag s t := by
  unfold startRemoteWrite at h
  dsimp only at h
  split at h
  · rw [← Option.some.inj h]; exact .respond rfl (.of_eq rfl) rfl
  · split at h
    · cases h
    · have hh : ∀ o l, (overtakeByWrite o l (cacheWrite o l mask data s)).hrq = s.hrq ∧
          (overtakeByWrite o l (cacheWrite o l mask data s)).storeOp = s.storeOp := by
        intro o l
        obtain ⟨q, e⟩ := cacheWrite_eq o l mask data s
        rw [e]; unfold overtakeByWrite
        obtain ⟨v, hv, _⟩ := mapTracker_eq (fun e => if isAskFor o l e then { e with overtaken := true } else e)
          { s with cache := q }
        rw [hv]; exact ⟨rfl, rfl⟩
      have h2 := hh (addrStation addr) (addrLine addr)
      generalize overtakeByWrite (addrStation addr) (addrLine addr)
        (cacheWrite (addrStation addr) (addrLine addr) mask data s) = w at h h2
      split at h
      · rw [← Option.some.inj h]; exact .mark (.of_eq h2.1) h2.2
      · rw [← Option.some.inj h]; exact .respond rfl (.of_eq h2.1) h2.2

theorem startLocalWrite_startOf {tag : HostTag} {addr : SpanAddr} {mask : Mask} {data : Line} {c : Bool} {s t : State}
    (h : startLocalWrite tag addr mask data c s = some t) : StartOf tag s t := by
  unfold startLocalWrite at h
  dsimp only at h
  split at h
  · rw [← Option.some.inj h]; exact .respond rfl (.of_eq rfl) rfl
  · split at h
    · rw [← Option.some.inj h]
      have hh : ∀ x : Option HostTag,
          (lltRecallForWrite (addrLine addr) (lwbTake (addrLine addr) mask data x s)).hrq = s.hrq ∧
          (lltRecallForWrite (addrLine addr) (lwbTake (addrLine addr) mask data x s)).storeOp = s.storeOp := by
        intro x
        obtain ⟨l, e⟩ := lwbTake_eq (addrLine addr) mask data x s
        rw [e]
        unfold lltRecallForWrite
        split <;> exact ⟨rfl, rfl⟩
      have h2 := hh (if c then some tag else none)
      unfold takeLocalWrite
      dsimp only
      generalize lltRecallForWrite (addrLine addr) (lwbTake (addrLine addr) mask data (if c then some tag else none) s) = w
        at h2 ⊢
      split
      · exact .mark (.of_eq h2.1) h2.2
      · exact .respond rfl (.of_eq h2.1) h2.2
    · cases h

/-- A start answers or starts its request, and leaves the store's operation as it is. -/
theorem tryStart_startOf {s t : State} {it : HrqItem} (h : tryStart s it = some t) : StartOf it.tag s t := by
  unfold tryStart at h
  split at h
  · split at h
    · exact startRemoteRead_startOf h
    · cases h
  · split at h
    · exact startRemoteWrite_startOf h
    · exact startLocalWrite_startOf h
  · rw [← Option.some.inj h]; exact startFence_startOf _ s
  · rw [← Option.some.inj h]; exact controlReadStarts_startOf _ _ s
  · rw [← Option.some.inj h]; exact controlWriteStarts_startOf _ _ _ s

/-- The weight of a state: its HRQ's, and 1 for a free store. -/
def weight (s : State) : Nat := hrqWeight s + if s.storeOp.isSome then 0 else 1

theorem grantLocal_weight {s t : State} (h : grantLocal s = some t) : HrqFrom s t ∧ t.storeOp.isSome = true := by
  have hd : HrqFrom s (grantDrain s) ∧ (grantDrain s).storeOp.isSome = true := ⟨.of_eq rfl, rfl⟩
  unfold grantLocal at h
  split at h
  · rename_i it hw
    have hr : HrqFrom s (grantRead it s) ∧ (grantRead it s).storeOp.isSome = true := by
      have hm : isRead it.req = true := by
        unfold waitingRead at hw
        split at hw
        · rename_i x hx
          split at hw
          · have := Option.some.inj hw; subst this
            unfold offeredRead at hx
            dsimp only at hx
            have : isLocalRead s x.req = true := by
              rcases Option.or_eq_some_iff.1 hx with k | ⟨_, k⟩
              · exact (List.mem_filter.1 (List.mem_of_find?_eq_some k)).2
              · exact (List.mem_filter.1 (List.mem_of_mem_head? k)).2
            exact (Bool.and_eq_true_iff.1 this).1
          · cases hw
        · cases hw
      unfold grantRead
      dsimp only
      split
      · exact ⟨markStarted_hrqFrom _ { s with turn := .serveEngine }, rfl⟩
      · rename_i hn
        exfalso
        cases hq : it.req with
        | read a b c d => exact hn a b c d hq
        | write _ _ _ _ => rw [hq] at hm; cases hm
        | fence => rw [hq] at hm; cases hm
        | controlRead _ => rw [hq] at hm; cases hm
        | controlWrite _ _ => rw [hq] at hm; cases hm
    split at h
    · rw [← Option.some.inj h]; exact hd
    · rw [← Option.some.inj h]; exact hr
  · split at h
    · rw [← Option.some.inj h]; exact hd
    · cases h

/-- A grant takes the free store. -/
theorem grant_weight {s t : State} (h : grant s = some t) : weight t < weight s := by
  have key : s.storeOp.isSome = false → HrqFrom s t ∧ t.storeOp.isSome = true → weight t < weight s := by
    intro hs hk
    have := hk.1.weight_le
    unfold weight
    rw [hs, hk.2]
    simp only [if_true, Bool.false_eq_true, if_false]
    omega
  unfold grant at h
  split at h
  · cases h
  · rename_i hs
    have hs : s.storeOp.isSome = false := by simpa using hs
    split at h
    · rw [← Option.some.inj h] at key ⊢; exact key hs ⟨.of_eq rfl, rfl⟩
    · split at h
      · rw [← Option.some.inj h] at key ⊢; exact key hs ⟨.of_eq rfl, rfl⟩
      · split at h
        · rename_i u hu
          rw [← Option.some.inj h] at key ⊢; exact key hs (grantLocal_weight hu)
        · split at h
          · rw [← Option.some.inj h] at key ⊢; exact key hs ⟨.of_eq rfl, rfl⟩
          · cases h

/-- Every step of settling makes the state lighter. -/
theorem settleOne_weight {s t : State} (h : settleOne s = some t) : weight t < weight s := by
  have key : ∀ {it : HrqItem}, it ∈ eligibleNow s → StartOf it.tag s t → weight t < weight s := by
    intro it hm k
    have hm := eligibleItems_mem hm
    have := k.hrq.weight_lt hm.1 hm.2 k.done
    unfold weight
    rw [k.store]
    omega
  unfold settleOne at h
  split at h
  · rename_i hd
    have ht := Option.some.inj h
    have hd' := Bool.and_eq_true_iff.1 hd
    obtain ⟨tag, htag⟩ := Option.isSome_iff_exists.1 hd'.1
    have hx : ∃ x ∈ s.hrq, x.tag = tag := by
      unfold startedFence at htag
      obtain ⟨x, hx, e⟩ := Option.map_eq_some_iff.1 htag
      exact ⟨x, List.mem_of_find?_eq_some hx, e⟩
    have hlt : hrqWeight t < hrqWeight s := by
      rw [← ht]
      unfold answerFence
      simp only [htag, hd'.2, if_true]
      have hr : ∀ (u : State) (r : Response), u.hrq = s.hrq → responseTag r = tag → hrqWeight (respond r u) < hrqWeight s := by
        intro u r hu hr
        obtain ⟨x, hx, hxt⟩ := hx
        unfold hrqWeight respond
        rw [hu, hr]
        dsimp only
        rw [← List.filterMap_eq_filter, filterMap_weight]
        refine List.sum_lt_sum _ _ (fun y _ => ?_) ⟨x, hx, ?_⟩
        · by_cases hy : y.tag = tag <;> simp [Option.guard, hy]
        · simp only [Option.guard, hxt]; unfold itemWeight; simp; split <;> omega
      unfold respondFence
      split
      · exact hr _ _ rfl rfl
      · exact hr _ _ rfl rfl
    have hst : t.storeOp = s.storeOp := ht ▸ answerFence_store s
    unfold weight
    rw [hst]; omega
  · rcases Option.or_eq_some_iff.1 h with k | ⟨_, k⟩
    · unfold refuseOfferedRead at k
      split at k
      · rename_i it hit
        obtain ⟨c, _, e⟩ := Option.map_eq_some_iff.1 k
        exact key (offeredRead_mem hit) (e ▸ .respond rfl (.of_eq rfl) rfl)
      · cases k
    · rcases Option.or_eq_some_iff.1 k with k | ⟨_, k⟩
      · exact grant_weight k
      · unfold startFirst at k
        obtain ⟨it, hm, hk⟩ := List.exists_of_findSome?_eq_some k
        exact key hm (tryStart_startOf hk)

theorem hrqWeight_le (s : State) : hrqWeight s ≤ 2 * s.hrq.length := by
  unfold hrqWeight
  have : ∀ l : List HrqItem, (l.map itemWeight).sum ≤ 2 * l.length := by
    intro l
    induction l with
    | nil => simp
    | cons a l ih =>
      have : itemWeight a ≤ 2 := by unfold itemWeight; split <;> omega
      simp only [List.map_cons, List.sum_cons, List.length_cons]; omega
  exact this s.hrq

/-! ### What the searches find -/

/-- The eligible requests stand in HRQ order. -/
theorem eligibleItems_sublist (l : List HrqItem) : ∀ earlier, (eligibleItems earlier l).Sublist l := by
  induction l with
  | nil => intro _; exact List.Sublist.slnil
  | cons a l ih =>
    intro e
    unfold eligibleItems
    split
    · exact (ih _).cons_cons a
    · exact (ih _).cons a

/-- A request is eligible as it stands in the HRQ, after the requests before it. -/
theorem mem_eligibleItems (it : HrqItem) (l : List HrqItem) : ∀ e, it ∈ eligibleItems e l ↔
    ∃ a b, l = a ++ it :: b ∧ it.started = false ∧ eligible (e ++ a) it.req = true := by
  induction l with
  | nil => intro e; simp [eligibleItems]
  | cons x l ih =>
    intro e
    have key : (it ∈ eligibleItems (e ++ [x]) l ↔ ∃ a b, x :: l = (x :: a) ++ it :: b ∧ it.started = false ∧
        eligible (e ++ (x :: a)) it.req = true) := by
      rw [ih]; simp
    have hx : (∃ a b, x :: l = a ++ it :: b ∧ it.started = false ∧ eligible (e ++ a) it.req = true) ↔
        (it = x ∧ it.started = false ∧ eligible e it.req = true) ∨ it ∈ eligibleItems (e ++ [x]) l := by
      rw [key]
      constructor
      · rintro ⟨a, b, h, h2, h3⟩
        cases a with
        | nil => simp only [List.nil_append, List.cons.injEq] at h; left; exact ⟨h.1.symm, h2, by simpa using h3⟩
        | cons y a => right; rw [List.cons_append, List.cons.injEq] at h; obtain ⟨rfl, h⟩ := h; exact ⟨a, b, by rw [h]; rfl, h2, h3⟩
      · rintro (⟨rfl, h2, h3⟩ | ⟨a, b, h, h2, h3⟩)
        · exact ⟨[], l, rfl, h2, by simpa using h3⟩
        · exact ⟨_, b, h, h2, h3⟩
    rw [hx, eligibleItems]
    split
    · rename_i hc
      simp only [Bool.and_eq_true, Bool.not_eq_true'] at hc
      rw [List.mem_cons]
      constructor
      · rintro (rfl | h)
        · exact .inl ⟨rfl, hc⟩
        · exact .inr h
      · rintro (⟨rfl, h⟩ | h)
        · exact .inl rfl
        · exact .inr h
    · rename_i hc
      simp only [Bool.and_eq_true, Bool.not_eq_true'] at hc
      constructor
      · exact .inr
      · rintro (⟨rfl, h⟩ | h)
        · exact absurd h hc
        · exact h

/-- With no tag twice, a search by a tag finds the request that has it. -/
theorem find_tag_unique {l : List HrqItem} (hn : (l.map (·.tag)).Nodup) {it : HrqItem} (hm : it ∈ l) (p : HrqItem → Bool)
    (hp : p it = true) : l.find? (fun x => x.tag == it.tag && p x) = some it := by
  induction l with
  | nil => cases hm
  | cons a l ih =>
    rw [List.map_cons, List.nodup_cons] at hn
    rcases List.mem_cons.1 hm with rfl | h
    · simp [hp]
    · have : a.tag ≠ it.tag := fun e => hn.1 (e ▸ List.mem_map_of_mem h)
      rw [List.find?_cons_of_neg (by simp [this])]
      exact ih hn.2 h

/-- A search over the tracker's tags finds the lowest. -/
theorem find_tag_iff (p : Tag → Bool) (t : Tag) :
    (List.finRange 16).find? p = some t ↔ p t = true ∧ ∀ u : Tag, u < t → p u = false := by
  rw [List.find?_eq_some_iff_getElem]
  refine and_congr_right fun _ => ⟨?_, fun h => ⟨t.val, by simp, by simp, fun j hj => ?_⟩⟩
  · rintro ⟨i, hi, rfl, h⟩ u hu
    have := h u.val (by simpa [Fin.lt_def] using hu)
    simpa using this
  · have := h ⟨j, by omega⟩ (by simpa [Fin.lt_def] using hj)
    simpa using this

/-- The newest entry of the Local Write Buffer for a line. -/
theorem newest_iff (line : LineIndex) (l : List LwbEntry) (b : LwbEntry) :
    (l.filter fun b => b.line == line).getLast? = some b ↔
      ∃ older newer, l = older ++ b :: newer ∧ b.line = line ∧ ∀ c ∈ newer, c.line ≠ line := by
  rw [List.getLast?_eq_head?_reverse, ← List.filter_reverse, List.head?_filter, List.find?_eq_some_iff_append]
  constructor
  · rintro ⟨h1, as, bs, h2, h3⟩
    refine ⟨bs.reverse, as.reverse, ?_, by simpa using h1, fun c hc => by simpa using h3 c (by simpa using hc)⟩
    have := congrArg List.reverse h2
    simpa using this
  · rintro ⟨older, newer, h1, h2, h3⟩
    exact ⟨by simpa using h2, newer.reverse, older.reverse, by rw [h1]; simp, fun c hc => by simpa using h3 c (by simpa using hc)⟩

/-- The newest entry for a line is the one changed. -/
theorem updateNewest_eq (line : LineIndex) (f : LwbEntry → LwbEntry) (b : LwbEntry) (newer : List LwbEntry) (hb : b.line = line)
    (hn : ∀ c ∈ newer, c.line ≠ line) : ∀ older, updateNewest line f (older ++ b :: newer) = older ++ f b :: newer := by
  intro older
  induction older with
  | nil =>
    rw [List.nil_append, updateNewest, if_pos]
    · rfl
    · refine ⟨hb, ?_⟩
      rw [Bool.not_eq_true', List.any_eq_false]
      intro c hc; simpa using hn c hc
  | cons a l ih =>
    rw [List.cons_append, updateNewest, if_neg, ih]
    · rfl
    · simp [hb]

/-! ### The ends of the loops -/

/-- A taking by the Serve Engine shortens its queue by one. -/
theorem serveTakeNow_shortens {s : State} (h : canServe s = true) : (serveTakeNow s).svq.length + 1 = s.svq.length := by
  have hne : s.svq ≠ [] := by
    simp only [canServe, Bool.and_eq_true, Bool.not_eq_true', List.isEmpty_eq_false_iff] at h
    exact h.2
  unfold serveTakeNow
  rw [if_pos h]
  cases hc : chooseServe s.passCount s.svq with
  | none =>
    cases hs : s.svq with
    | nil => exact absurd hs hne
    | cons r q => rw [hs] at hc; simp only [chooseServe] at hc; split at hc <;> cases hc
  | some x =>
    obtain ⟨r, q, p⟩ := x
    have hl := (chooseServe_spec hc).1.length_eq
    have hk : (serveCheck r { s with svq := q, passCount := p }).svq = q := by
      unfold serveCheck appendNote
      repeat' split
      all_goals rfl
    show (serveCheck r { s with svq := q, passCount := p }).svq.length + 1 = _
    rw [hk]
    simpa using hl

/-- Settling has nothing left to do after as many steps as the state weighs. -/
theorem settleLoop_done (n : Nat) : ∀ s : State, weight s < n + 1 → settleOne (settleLoop n s) = none := by
  induction n with
  | zero =>
    intro s h
    cases e : settleOne s with
    | none => exact e
    | some t => have := settleOne_weight e; omega
  | succ n ih =>
    intro s h
    unfold settleLoop
    cases e : settleOne s with
    | none => exact e
    | some t => have := settleOne_weight e; exact ih t (by omega)

/-- As many steps as the state weighs are as good as any more. -/
theorem settleLoop_enough (n : Nat) : ∀ (m : Nat) (s : State), weight s ≤ n → weight s ≤ m → settleLoop n s = settleLoop m s := by
  induction n with
  | zero =>
    intro m s h _
    have : settleOne s = none := by
      cases e : settleOne s with
      | none => rfl
      | some t => have := settleOne_weight e; omega
    exact (settleLoop_quiet this m).symm
  | succ n ih =>
    intro m s h k
    cases e : settleOne s with
    | none => rw [settleLoop_quiet e, settleLoop_quiet e]
    | some t =>
      have := settleOne_weight e
      obtain ⟨m, rfl⟩ : ∃ m', m = m' + 1 := ⟨m - 1, by omega⟩
      rw [settleLoop, settleLoop, e]
      exact ih m t (by omega) (by omega)

theorem weight_le (s : State) : weight s ≤ 2 * s.hrq.length + 1 := by
  have := hrqWeight_le s
  unfold weight
  split <;> omega

/-- Settling goes on from what the blocks do first. -/
theorem settle_step {before s t : State} (h : settleOne (engineFirst before s) = some t) : settle before s = settle t t := by
  have h1 : engineFirst t t = t := by unfold engineFirst; rw [if_neg (Nat.lt_irrefl _)]
  have := settleOne_weight h
  have := weight_le (engineFirst before s)
  have := weight_le t
  unfold settle
  dsimp only
  rw [h1, settleLoop, h]
  exact settleLoop_enough _ _ _ (by omega) (by omega)

/-- Where the blocks have nothing to do, settling changes nothing but for the engine's claim. -/
theorem settle_none {before s : State} (h : settleOne (engineFirst before s) = none) : settle before s = engineFirst before s :=
  settleLoop_quiet h _

end Sys2Proof.Laws
end

