-- ==== Sys2Proof/Laws/Steps.lean ====
section
/-! SUPPORT. What one command may do: every command but the reset pin's two and the three that write the store evolves the state
(`Evolves`); those five evolve it from the state in which the pin, or the line written, has changed. -/

-- Theorems are elaborated one after another: many at once take more threads than the memory limit allows.
set_option Elab.async false

namespace Sys2Proof.Laws

open Sys2Proof.Machine Sys2Proof.Safety

/-- The state in which a line write has been done, before anything follows it. -/
def lineWritten (s : State) (line : LineIndex) (mask : Mask) (data : Line) (e : WordErrors) : State :=
  { s with mem := (lineWrite s line mask data e).mem, poison := (lineWrite s line mask data e).poison }

/-- Where the next state of a command comes from. -/
inductive StepFrom (s t : State) : Prop where
  | evolves (h : Evolves s t)
  | asserted (h : t = pinReset s)
  | released (snum ssize : BitVec 4) (h : Evolves (pinRelease snum ssize s) t)
  | filled (h : Evolves (filled s) t)
  | written (line : LineIndex) (mask : Mask) (data : Line) (e : WordErrors) (h : Evolves (lineWritten s line mask data e) t)

theorem event_from {s t : State} {f : State → State} (h : event s f = .next t) :
    t = s ∨ ∀ a, Evolves a (f s) → Evolves a t := by
  rw [unlessHeld_next h]
  split
  · exact .inl rfl
  · exact .inr fun _ hf => hf.trans (settle_evolves _ _)

theorem fillComplete_from {s t : State} (h : execInitFillLineComplete s = .next t) : Evolves s t ∨ Evolves (filled s) t := by
  unfold execInitFillLineComplete at h
  rcases event_from h with rfl | k
  · exact .inl (.refl _)
  · by_cases hf : s.storeOp = some .fill
    · exact .inr (k _ (by rw [if_pos hf]; exact fillLineEnds_evolves s hf))
    · exact .inl (k _ (by rw [if_neg hf]; exact .refl s))

theorem localReadComplete_from {e : WordErrors} {s t : State} (h : execLocalReadComplete e s = .next t) : Evolves s t := by
  unfold execLocalReadComplete at h
  rcases event_from h with rfl | k
  · exact .refl _
  · clear h
    split at k
    · rename_i hs
      exact k _ (localReadEnds_evolves _ _ _ _ e s hs)
    · exact k _ (.refl s)

theorem drainComplete_from {e : WordErrors} {s t : State} (h : execDrainComplete e s = .next t) :
    Evolves s t ∨ ∃ b rest, s.lwb = b :: rest ∧ Evolves (lineWritten s b.line b.mask b.data e) t := by
  unfold execDrainComplete at h
  rcases event_from h with rfl | k
  · exact .inl (.refl _)
  · clear h
    split at k
    · rename_i b rest hs hl
      exact .inr ⟨b, rest, hl, k _ (drainEnds_evolves b rest e s hl)⟩
    · exact .inl (k _ (.refl s))

theorem serveReadComplete_from {e : WordErrors} {s t : State} (h : execServeReadComplete e s = .next t) : Evolves s t := by
  unfold execServeReadComplete at h
  rcases event_from h with rfl | k
  · exact .refl _
  · clear h
    split at k
    · rename_i op hst hop
      split at k
      · exact k _ (serveReadEnds_evolves op _ _ _ e s hst hop)
      · exact k _ (.refl s)
    · exact k _ (.refl s)

theorem serveWriteComplete_from {e : WordErrors} {s t : State} (h : execServeWriteComplete e s = .next t) :
    Evolves s t ∨ ∃ op mask data, s.serveOp = some op ∧ Evolves (lineWritten s op.req.line mask data e) t := by
  unfold execServeWriteComplete at h
  rcases event_from h with rfl | k
  · exact .inl (.refl _)
  · clear h
    split at k
    · rename_i op hst hop
      split at k
      · exact .inr ⟨op, _, _, hop, k _ (serveWriteEnds_evolves op _ _ e s hst hop)⟩
      · exact .inl (k _ (.refl s))
    · exact .inl (k _ (.refl s))

theorem storeGrant_evolves (s : State) : Evolves s ((grant s).getD s) := by
  cases h : grant s with
  | none => exact .refl s
  | some t => exact grant_evolves h

theorem takeDecision_evolves (others : List Contender) (s : State) : Evolves s (takeDecision others s) := by
  unfold takeDecision
  split
  · exact .refl s
  · rename_i part offer hs
    exact decideContest_evolves part offer others s (fun _ _ => hs)
  · exact decideContest_evolves false none others s (fun _ h => by cases h)

/-- The commands that neither move the reset pin nor write the store. -/
def ordinary : Instr → Bool
  | .pinResetAssert => false
  | .pinResetRelease _ _ => false
  | .initFillLineComplete => false
  | .drainComplete _ => false
  | .serveWriteComplete _ => false
  | _ => true

/-- Every other command evolves the state. -/
theorem exec_evolves {c : Instr} {s t : State} (hc : ordinary c = true) (h : exec c s = .next t) : Evolves s t := by
  cases c with
  | pinResetAssert => cases hc
  | pinResetRelease _ _ => cases hc
  | hostRequestArrival bytes => exact held_evolves (arriveAll_evolves _ bytes s) h
  | remoteReadStart tag => exact event_evolves (startNamed_evolves _ tag s) h
  | remoteWriteStart tag => exact event_evolves (startNamed_evolves _ tag s) h
  | localWriteTaken tag => exact event_evolves (startNamed_evolves _ tag s) h
  | fenceStart tag => exact event_evolves (startNamed_evolves _ tag s) h
  | fenceAnswer => exact event_evolves (answerFence_evolves s) h
  | run tag => exact event_evolves (arrive_evolves _ s) h
  | restart tag => exact event_evolves (arrive_evolves _ s) h
  | dropCache tag => exact event_evolves (arrive_evolves _ s) h
  | clearFaults tag => exact event_evolves (arrive_evolves _ s) h
  | setupWordWrite tag w v => exact event_evolves (arrive_evolves _ s) h
  | interruptMaskWrite tag v => exact event_evolves (arrive_evolves _ s) h
  | controlWrite tag w v => exact event_evolves (arrive_evolves _ s) h
  | contestOpening => exact spanEvent_evolves (fun _ => spanOpened_offers) (openContest_evolves s) h
  | contestDecision others => exact spanEvent_evolves (fun _ => spanDecided_offers) (takeDecision_evolves others s) h
  | frameFalls bits others => exact frameEvent_evolves (receivedEnd_evolves bits others s) h
  | askStands => exact standingEvent_evolves h
  | putStands => exact standingEvent_evolves h
  | giveStands => exact standingEvent_evolves h
  | noteStands => exact standingEvent_evolves h
  | recallStands => exact standingEvent_evolves h
  | startStands => exact standingEvent_evolves h
  | senderFrameEnd others => exact event_evolves (ownEnd_evolves others s) h
  | backoffExpiry t => exact held_evolves (backoffExpiryEvent_evolves t s) h
  | replyTimerExpiry t => exact event_evolves (replyExpiryEvent_evolves t s) h
  | serveTake => exact event_evolves (serveTakeNow_evolves s) h
  | storeGrant => exact event_evolves (storeGrant_evolves s) h
  | initFillLineComplete => cases hc
  | localReadComplete e => exact localReadComplete_from h
  | drainComplete e => cases hc
  | serveReadComplete e => exact serveReadComplete_from h
  | serveWriteComplete e => cases hc

theorem pinRelease_from {a b : BitVec 4} {s t : State} (h : exec (.pinResetRelease a b) s = .next t) :
    Evolves s t ∨ Evolves (pinRelease a b s) t := by
  have e := (Host.Outcome.next.inj h).symm
  rw [e]
  split
  · exact .inr (settle_evolves _ _)
  · exact .inl (.refl s)

/-- Every command's next state. -/
theorem exec_from {c : Instr} {s t : State} (h : exec c s = .next t) : StepFrom s t := by
  by_cases hc : ordinary c = true
  · exact .evolves (exec_evolves hc h)
  · cases c with
    | pinResetAssert => exact .asserted (Host.Outcome.next.inj h).symm
    | pinResetRelease a b => exact (pinRelease_from h).elim .evolves (.released a b)
    | initFillLineComplete => exact (fillComplete_from h).elim .evolves .filled
    | drainComplete e => exact (drainComplete_from h).elim .evolves fun ⟨_, _, _, k⟩ => .written _ _ _ _ k
    | serveWriteComplete e => exact (serveWriteComplete_from h).elim .evolves fun ⟨_, _, _, _, k⟩ => .written _ _ _ _ k
    | _ => exact absurd rfl hc

/-- Every step's next state: that of a command on the rest of the queue, or of the idle station. -/
theorem step_from {s t : State} (h : step s = .next t) : ∃ p, StepFrom { s with pending := p } t := by
  unfold step at h
  split at h
  · exact ⟨_, exec_from h⟩
  · exact ⟨s.pending, .evolves (by rw [← Host.Outcome.next.inj h]; exact idle_evolves s)⟩

/-! ### The parts of Safety.lean in the states a command may start from -/

theorem reset_fault : FaultRecordOk State.reset :=
  ⟨by decide, by decide, by decide, by decide, fun _ h => by cases h⟩

theorem pinReset_fault (s : State) : FaultRecordOk (pinReset s) :=
  FaultRecordOk_of (s := State.reset) rfl rfl rfl rfl rfl reset_fault

theorem pinReset_queues (s : State) : QueuesOk (pinReset s) := by
  constructor <;> simp [pinReset, State.reset]

theorem pinReset_reply (s : State) : ReplyOk (pinReset s) := ⟨rfl, by simp [pinReset, State.reset, Config.rpqPlaces]⟩

theorem resetTracker_get (t : Tag) : (Vector.replicate 16 State.resetEntry)[t] = State.resetEntry := by
  simp

theorem spanPinReset_offer (p : SpanPhase) (o : Offer) : ¬Offers (spanPinReset p) o := by
  rintro ⟨_, ⟨_, h⟩ | h⟩ <;> cases p <;> simp [spanPinReset] at h

theorem spanPinReset_offers (p : SpanPhase) (t : Tag) : ¬OffersTag (spanPinReset p) t :=
  fun ⟨o, h, _⟩ => spanPinReset_offer p o h

theorem pinReset_quiet (s : State) : QuietOk (pinReset s) where
  tracker := fun _ t => congrArg Entry.state (resetTracker_get t)
  orq := fun _ => rfl
  cache := fun _ => rfl
  svq := fun _ => rfl
  llt := fun _ => rfl
  serve := fun _ _ h => by cases h
  offer := fun _ => spanPinReset_offers s.span

theorem resetEntry_ok : EntryOk State.resetEntry := by
  constructor <;> simp [State.resetEntry, Config.lastSpoil]

theorem pinReset_tracker (s : State) : TrackerOk (pinReset s) where
  entries := fun t => by
    have : (pinReset s).tracker[t] = State.resetEntry := resetTracker_get t
    rw [this]; exact resetEntry_ok
  orq_iff := fun t => by
    have : (pinReset s).tracker[t] = State.resetEntry := resetTracker_get t
    rw [this]; simp [pinReset, State.reset, State.resetEntry]
  orq_nodup := List.nodup_nil
  offered := fun t h => absurd h (spanPinReset_offers s.span t)

theorem reset_setup : SetupOk State.reset :=
  ⟨by decide, by decide, by decide, by decide, by decide, by decide, by decide, by decide⟩

theorem pinReset_setup {s : State} (h : SetupOk s) : SetupOk (pinReset s) :=
  let r := reset_setup
  ⟨r.replyWait, r.refuseLimit, r.refuseStep, r.urgentBudget, r.serveLimit, h.sizeCode, r.budget, r.round⟩

theorem pinRelease_setup (a b : BitVec 4) (s : State) : SetupOk (pinRelease a b s) :=
  let r := reset_setup
  ⟨r.replyWait, r.refuseLimit, r.refuseStep, r.urgentBudget, r.serveLimit, Nat.min_le_right _ _, r.budget, r.round⟩

theorem pinReset_launch (s : State) : LaunchOk (pinReset s) where
  silent := fun _ => rfl
  starting := fun n => by cases n
  offer := fun _ o h => absurd h (spanPinReset_offer s.span o)

theorem pinReset_own (s : State) : OwnOk (pinReset s) where
  cache := fun _ h => by cases h
  sharers := fun _ h => by cases h
  requesters := fun _ h => by cases h
  serving := fun _ h => by cases h

theorem pinReset_work (s : State) : StoreWorkOk (pinReset s) where
  drain := ⟨fun h => (by cases h), (by rintro ⟨_, _, h, _⟩; cases h)⟩
  others := fun _ h => by cases h
  serve := fun h => by cases h

theorem pinReset_store {s : State} (h : StoreOk s) : StoreOk (pinReset s) := ⟨h.mem, h.poison⟩

end Sys2Proof.Laws
end

