-- ==== Sys2Proof/Laws/Requests.lean ====
section
/-! SUPPORT. What the operations do to the requests that wait for an answer and to the tracker's entries: `Keeps s t` holds when
every started READ and WRITE stays held once (`HeldOk`) and the entries stay as `AsksOk` has them. -/

-- Theorems are elaborated one after another: many at once take more threads than the memory limit allows.
set_option Elab.async false

namespace Sys2Proof.Laws

open Sys2Proof.Machine Sys2Proof.Safety

/-! ### Lists of tags that hold the started READs and WRITEs of a queue -/

/-- The started READs and WRITEs of a queue are held once each in a list of tags. -/
def HeldBy (l : List HostTag) (q : List HrqItem) : Prop :=
  l.Nodup ∧ ∀ tag, tag ∈ l ↔ ∃ it ∈ q, it.tag = tag ∧ it.started = true ∧ isAccess it.req = true

theorem heldOk_iff {s : State} : HeldOk s ↔ HeldBy (heldTags s) s.hrq := ⟨fun h => ⟨h.once, h.held⟩, fun h => ⟨h.1, h.2⟩⟩

/-- No started READ or WRITE of a queue has this tag. -/
def Unheld (tag : HostTag) (q : List HrqItem) : Prop := ∀ x ∈ q, x.tag = tag → ¬(x.started = true ∧ isAccess x.req = true)

theorem HeldBy.perm {l l' : List HostTag} {q : List HrqItem} (p : l.Perm l') (h : HeldBy l q) : HeldBy l' q :=
  ⟨p.nodup_iff.1 h.1, fun tag => by rw [← p.mem_iff]; exact h.2 tag⟩

/-- The requests of some tags answered and their tags let go. -/
theorem HeldBy.answer {ts l : List HostTag} {q : List HrqItem} (h : HeldBy (ts ++ l) q) :
    HeldBy l (q.filter fun it => !ts.contains it.tag) := by
  obtain ⟨hn, hm⟩ := h
  have hd := List.nodup_append.1 hn
  refine ⟨hd.2.1, fun tag => ⟨fun ht => ?_, ?_⟩⟩
  · obtain ⟨it, hi, e, hs⟩ := (hm tag).1 (List.mem_append_right _ ht)
    refine ⟨it, List.mem_filter.2 ⟨hi, ?_⟩, e, hs⟩
    simp only [Bool.not_eq_true', List.contains_eq_mem, decide_eq_false_iff_not]
    exact fun hx => hd.2.2 _ hx _ ht e
  · rintro ⟨it, hi, e, hs⟩
    obtain ⟨hi, hx⟩ := List.mem_filter.1 hi
    simp only [Bool.not_eq_true', List.contains_eq_mem, decide_eq_false_iff_not] at hx
    rcases List.mem_append.1 ((hm tag).2 ⟨it, hi, e, hs⟩) with k | k
    · exact absurd (e ▸ k) hx
    · exact k

/-- The request of one tag answered and its tag let go. -/
theorem HeldBy.answerOne {tag : HostTag} {l : List HostTag} {q : List HrqItem} (h : HeldBy (tag :: l) q) :
    HeldBy l (q.filter fun it => it.tag != tag) := by
  have e : (q.filter fun it => !([tag] : List HostTag).contains it.tag) = q.filter fun it => it.tag != tag :=
    List.filter_congr fun it _ => by
      by_cases k : it.tag = tag <;> simp [k]
  exact e ▸ HeldBy.answer (ts := [tag]) h

/-- A request that no record holds answered. -/
theorem HeldBy.drop {tag : HostTag} {l : List HostTag} {q : List HrqItem} (hu : Unheld tag q) (h : HeldBy l q) :
    HeldBy l (q.filter fun it => it.tag != tag) := by
  refine ⟨h.1, fun t => ⟨fun ht => ?_, ?_⟩⟩
  · obtain ⟨it, hi, e, hs⟩ := (h.2 t).1 ht
    exact ⟨it, List.mem_filter.2 ⟨hi, by simpa using fun k => hu it hi k hs⟩, e, hs⟩
  · rintro ⟨it, hi, e, hs⟩
    exact (h.2 t).2 ⟨it, List.mem_of_mem_filter hi, e, hs⟩

theorem nodup_tag {q : List HrqItem} (h : (q.map (·.tag)).Nodup) {a b : HrqItem} (ha : a ∈ q) (hb : b ∈ q)
    (e : a.tag = b.tag) : a = b := List.inj_on_of_nodup_map h ha hb e

/-- A READ or WRITE started, its tag held. -/
theorem HeldBy.start {it : HrqItem} {l : List HostTag} {q : List HrqItem} (hq : (q.map (·.tag)).Nodup) (hi : it ∈ q)
    (hu : it.started = false) (ha : isAccess it.req = true) (h : HeldBy l q) :
    HeldBy (it.tag :: l) (q.map fun x => if x.tag = it.tag then { x with started := true } else x) := by
  have hno : it.tag ∉ l := fun hx => by
    obtain ⟨y, hy, e, hs⟩ := (h.2 _).1 hx
    rw [nodup_tag hq hy hi e, hu] at hs; cases hs.1
  refine ⟨List.nodup_cons.2 ⟨hno, h.1⟩, fun t => ⟨fun ht => ?_, ?_⟩⟩
  · rcases List.mem_cons.1 ht with rfl | ht
    · exact ⟨{ it with started := true }, List.mem_map.2 ⟨it, hi, by simp⟩, rfl, rfl, ha⟩
    · obtain ⟨y, hy, e, hs⟩ := (h.2 t).1 ht
      refine ⟨y, List.mem_map.2 ⟨y, hy, ?_⟩, e, hs⟩
      rw [if_neg fun k => hno (by rw [← k, e]; exact ht)]
  · rintro ⟨y, hy, e, hs⟩
    obtain ⟨x, hx, rfl⟩ := List.mem_map.1 hy
    by_cases k : x.tag = it.tag
    · rw [if_pos k] at e; exact List.mem_cons.2 (.inl (e.symm.trans k))
    · rw [if_neg k] at e hs; exact List.mem_cons_of_mem _ ((h.2 t).2 ⟨x, hx, e, hs⟩)

/-- A request other than a READ or WRITE started. -/
theorem HeldBy.mark {tag : HostTag} {l : List HostTag} {q : List HrqItem} (hu : ∀ x ∈ q, x.tag = tag → isAccess x.req = false)
    (h : HeldBy l q) : HeldBy l (q.map fun x => if x.tag = tag then { x with started := true } else x) := by
  refine ⟨h.1, fun t => ⟨fun ht => ?_, ?_⟩⟩
  · obtain ⟨y, hy, e, hs⟩ := (h.2 t).1 ht
    refine ⟨y, List.mem_map.2 ⟨y, hy, ?_⟩, e, hs⟩
    rw [if_neg fun k => by rw [hu y hy k] at hs; cases hs.2]
  · rintro ⟨y, hy, e, hs⟩
    obtain ⟨x, hx, rfl⟩ := List.mem_map.1 hy
    by_cases k : x.tag = tag
    · rw [if_pos k] at hs; have := hs.2; rw [hu x hx k] at this; cases this
    · rw [if_neg k] at e hs; exact (h.2 t).2 ⟨x, hx, e, hs⟩

/-- A request that has not started joined to the queue. -/
theorem HeldBy.join {it : HrqItem} {l : List HostTag} {q : List HrqItem} (hu : it.started = false) (h : HeldBy l q) :
    HeldBy l (q ++ [it]) := by
  refine ⟨h.1, fun t => ⟨fun ht => ?_, ?_⟩⟩
  · obtain ⟨y, hy, k⟩ := (h.2 t).1 ht
    exact ⟨y, List.mem_append_left _ hy, k⟩
  · rintro ⟨y, hy, e, hs⟩
    rcases List.mem_append.1 hy with hy | hy
    · exact (h.2 t).2 ⟨y, hy, e, hs⟩
    · rw [List.mem_singleton.1 hy, hu] at hs; cases hs.1

/-! ### The tags a state holds -/

/-- The tags of the waiters of the tracker's entries. -/
def waiterTags (v : Vector Entry 16) : List HostTag := (List.finRange 16).flatMap fun t : Tag => v[t].waiters.map waiterTag

/-- The tags held by the buffer and by the store's operation. -/
def localTags (lwb : List LwbEntry) (op : Option StoreOp) : List HostTag :=
  lwb.filterMap (·.confirm) ++
    match op with
    | some (.localRead tag _ _ _) => [tag]
    | _ => []

theorem heldTags_eq (s : State) : heldTags s = waiterTags s.tracker ++ localTags s.lwb s.storeOp := rfl

/-- The waiters of one entry apart from those of the others. -/
theorem waiterTags_split (v : Vector Entry 16) (t : Tag) : ∃ rest, (waiterTags v).Perm (v[t].waiters.map waiterTag ++ rest) ∧
    ∀ e, (waiterTags (v.set t.val e)).Perm (e.waiters.map waiterTag ++ rest) := by
  have p := List.perm_cons_erase (List.mem_finRange t)
  refine ⟨((List.finRange 16).erase t).flatMap fun x : Tag => v[x].waiters.map waiterTag, ?_, fun e => ?_⟩
  · simpa [waiterTags] using p.flatMap_right fun x : Tag => v[x].waiters.map waiterTag
  · have h := p.flatMap_right fun x : Tag => (v.set t.val e)[x].waiters.map waiterTag
    rw [List.flatMap_cons, tracker_set, if_pos rfl] at h
    refine h.trans (List.Perm.of_eq (congrArg _ ?_))
    refine List.flatMap_congr fun x hx => ?_
    have : x ≠ t := fun k => ((List.nodup_finRange 16).mem_erase_iff.1 hx).1 k
    rw [tracker_set, if_neg this]

/-- The waiters of entries changed in place, none in its waiters. -/
theorem waiterTags_map {v w : Vector Entry 16} (h : ∀ x : Tag, w[x].waiters = v[x].waiters) : waiterTags w = waiterTags v :=
  List.flatMap_congr fun x _ => by rw [h]

theorem HeldOk_of {s t : State} (h1 : t.tracker = s.tracker) (h2 : t.lwb = s.lwb) (h3 : t.storeOp = s.storeOp)
    (h4 : t.hrq = s.hrq) (h : HeldOk s) : HeldOk t := by
  rw [heldOk_iff, heldTags_eq] at h ⊢
  rwa [h1, h2, h3, h4]

theorem AsksOk_of {s t : State} (h1 : t.tracker = s.tracker) (h2 : t.number = s.number) (h : AsksOk s) : AsksOk t := by
  obtain ⟨a, b, c⟩ := h
  constructor <;> simp only [h1, h2] <;> assumption

/-- The entry f can follow the entry e without a new ASK, target or refusal. -/
structure EntryLess (e f : Entry) : Prop where
  ask : ∀ o l, isAskFor o l f = true → isAskFor o l e = true ∧ (f.overtaken = false → e.overtaken = false)
  target : f.state ≠ .free → e.state ≠ .free ∧ f.target = e.target
  refusals : f.refusals ≤ e.refusals ∨ f.refusals ≤ Config.refuseLimitMax

theorem EntryLess.refl (e : Entry) : EntryLess e e := ⟨fun _ _ h => ⟨h, id⟩, fun h => ⟨h, rfl⟩, .inl (Nat.le_refl _)⟩

/-- An entry that is not FREE changed in nothing that `EntryLess` speaks of but its refusal count. -/
theorem EntryLess.of_eq {e f : Entry} (hs : e.state ≠ .free) (h1 : f.kind = e.kind) (h2 : f.target = e.target)
    (h3 : f.line = e.line) (h4 : f.overtaken = e.overtaken) (h5 : f.refusals ≤ e.refusals ∨ f.refusals ≤ Config.refuseLimitMax) :
    EntryLess e f where
  ask := fun o l h => by
    simp only [isAskFor, h1, h2, h3, Bool.and_eq_true] at h ⊢
    exact ⟨⟨⟨⟨by simpa using hs, h.1.1.2⟩, h.1.2⟩, h.2⟩, fun k => h4 ▸ k⟩
  target := fun _ => ⟨hs, h2⟩
  refusals := h5

theorem isAskFor_self {o : Station} {l : LineIndex} {e : Entry} (h : isAskFor o l e = true) : e.target = o ∧ e.line = l := by
  simp only [isAskFor, Bool.and_eq_true, beq_iff_eq] at h
  exact ⟨h.1.2, h.2⟩

theorem AsksOk_less {s t : State} (hn : t.number = s.number) (h : ∀ x : Tag, EntryLess s.tracker[x] t.tracker[x])
    (k : AsksOk s) : AsksOk t := by
  refine ⟨fun a b ha hb oa ob => ?_, fun x hx => ?_, fun x => ?_⟩
  · obtain ⟨ha', oa'⟩ := (h a).ask _ _ ha
    obtain ⟨hb', ob'⟩ := (h b).ask _ _ hb
    obtain ⟨e1, e2⟩ := isAskFor_self ha'
    rw [← e1, ← e2] at ha' hb'
    exact k.single a b ha' hb' (oa' oa) (ob' ob)
  · rw [hn, ((h x).target hx).2]; exact k.targets x ((h x).target hx).1
  · rcases (h x).refusals with r | r
    · exact r.trans (k.refusals x)
    · exact r

theorem AsksOk_set {s t : State} (x : Tag) (e : Entry) (hn : t.number = s.number) (ht : t.tracker = s.tracker.set x.val e)
    (he : EntryLess s.tracker[x] e) (k : AsksOk s) : AsksOk t := by
  refine AsksOk_less hn (fun y => ?_) k
  rw [ht, tracker_set]
  split
  · rename_i h; rw [h]; exact he
  · exact .refl _

/-- t can follow s inside an event as far as the started requests and the tracker's entries go. -/
structure Keeps (s t : State) : Prop extends EvolvesBase s t where
  held : QueuesOk s → TrackerOk s → HeldOk s → HeldOk t := by exact fun _ _ => HeldOk_of rfl rfl rfl rfl
  asks : QueuesOk s → SetupOk s → TrackerOk s → HeldOk s → AsksOk s → AsksOk t := by exact fun _ _ _ _ => AsksOk_of rfl rfl

namespace Keeps

theorem refl (s : State) : Keeps s s := { toEvolvesBase := (Evolves.refl s).toEvolvesBase }

theorem trans {s t u : State} (h : Keeps s t) (k : Keeps t u) : Keeps s u where
  toEvolvesBase := h.toEvolvesBase.trans k.toEvolvesBase
  held := fun q r a => k.held (h.queues q) (h.tracker r) (h.held q r a)
  asks := fun q p r a b => k.asks (h.queues q) (h.setup p) (h.tracker r) (h.held q r a) (h.asks q p r a b)

/-- An operation that leaves the tracker, the buffer, the store's operation and the HRQ. -/
theorem same {s t : State} (h : EvolvesBase s t) (h1 : t.tracker = s.tracker) (h2 : t.lwb = s.lwb) (h3 : t.storeOp = s.storeOp)
    (h4 : t.hrq = s.hrq) : Keeps s t where
  toEvolvesBase := h
  held := fun _ _ => HeldOk_of h1 h2 h3 h4
  asks := fun _ _ _ _ => AsksOk_of h1 h.number

/-- A fold of operations that keep the requests keeps them. -/
theorem foldl {α : Type} (f : State → α → State) (hf : ∀ s a, Keeps s (f s a)) (l : List α) : ∀ s, Keeps s (l.foldl f s) := by
  induction l with
  | nil => exact fun s => refl s
  | cons a l ih => exact fun s => (hf s a).trans (ih (f s a))

end Keeps

/-! ### Answers and starts -/

/-- A request that no record holds answered. -/
theorem respond_keeps (r : Response) (s : State) (hu : QueuesOk s → Unheld (responseTag r) s.hrq) : Keeps s (respond r s) where
  toEvolvesBase := (respond_evolves r s).toEvolvesBase
  held := fun q _ h => heldOk_iff.2 ((heldOk_iff.1 h).drop (hu q))

theorem Unheld.of_item {it : HrqItem} {s : State} (hi : it ∈ s.hrq) (hn : ¬(it.started = true ∧ isAccess it.req = true))
    (q : QueuesOk s) : Unheld it.tag s.hrq := fun _ hx e => by rw [nodup_tag q.tags hx hi e]; exact hn

/-- The answers of waiters leave their requests out of the HRQ. -/
theorem answerWaiters_spec (ws : List Waiter) (answer : Waiter → Response) (ha : ∀ w, responseTag (answer w) = waiterTag w)
    (s : State) : ∃ tx, answerWaiters ws answer s =
      { s with hostTx := tx, hrq := s.hrq.filter fun it => !(ws.map waiterTag).contains it.tag } := by
  induction ws generalizing s with
  | nil =>
    refine ⟨s.hostTx, ?_⟩
    have e : s.hrq.filter (fun it => !(([] : List Waiter).map waiterTag).contains it.tag) = s.hrq := by simp
    rw [e]; rfl
  | cons w ws ih =>
    obtain ⟨tx, e⟩ := ih (respond (answer w) s)
    refine ⟨tx, ?_⟩
    have e2 : (respond (answer w) s).hrq.filter (fun it => !(ws.map waiterTag).contains it.tag)
        = s.hrq.filter fun it => !((w :: ws).map waiterTag).contains it.tag := by
      unfold respond
      dsimp only
      rw [List.filter_filter, ha]
      refine List.filter_congr fun it _ => ?_
      simp only [List.map_cons, List.contains_cons, Bool.not_or]
      rw [Bool.and_comm]; rfl
    rw [e2] at e
    exact e

theorem faultAnswer_tag (code : HostCode) (w : Waiter) : responseTag (faultAnswer code w) = waiterTag w := rfl

theorem giveAnswer_tag (data : Line) (m : Bool) (w : Waiter) : responseTag (giveAnswer data m w) = waiterTag w := by
  cases w <;> rfl

theorem noteAnswer_tag (o : NoteOutcome) (w : Waiter) : responseTag (noteAnswer o w) = waiterTag w := by
  cases o <;> rfl

theorem releasedEntry_less (e : Entry) : EntryLess e (releasedEntry e) where
  ask := fun o l h => by simp [isAskFor, releasedEntry, State.resetEntry] at h
  target := fun h => absurd rfl h
  refusals := .inl (Nat.zero_le _)

/-- An entry released once its waiters are answered (R55). -/
theorem release_keeps {s u : State} (t : Tag) (hb : EvolvesBase s (releaseEntry t u))
    (hq : TrackerOk s → u.hrq = s.hrq.filter fun it => !(s.tracker[t].waiters.map waiterTag).contains it.tag)
    (e1 : u.tracker = s.tracker) (e2 : u.lwb = s.lwb) (e3 : u.storeOp = s.storeOp) : Keeps s (releaseEntry t u) where
  toEvolvesBase := hb
  held := fun _ k h => by
    rw [heldOk_iff, heldTags_eq] at h ⊢
    obtain ⟨rest, p1, p2⟩ := waiterTags_split s.tracker t
    have h2 := HeldBy.perm ((p1.append_right _).trans (by rw [List.append_assoc])) h
    have h3 := h2.answer
    rw [← hq k] at h3
    show HeldBy (waiterTags (u.tracker.set t.val (releasedEntry u.tracker[t])) ++ localTags u.lwb u.storeOp) u.hrq
    rw [e1, e2, e3]
    exact h3.perm ((p2 _).append_right _).symm
  asks := fun _ _ _ _ k => by
    refine AsksOk_set t (releasedEntry s.tracker[t]) hb.number ?_ (releasedEntry_less _) k
    show u.tracker.set t.val (releasedEntry u.tracker[t]) = _
    rw [e1]

/-- One entry replaced by another with the same waiters. -/
theorem setEntry_keeps {s t : State} (x : Tag) (e : Entry) (hb : EvolvesBase s t) (ht : t.tracker = s.tracker.set x.val e)
    (hw : e.waiters = s.tracker[x].waiters) (he : SetupOk s → EntryLess s.tracker[x] e) (e2 : t.lwb = s.lwb)
    (e3 : t.storeOp = s.storeOp) (e4 : t.hrq = s.hrq) : Keeps s t where
  toEvolvesBase := hb
  held := fun _ _ h => by
    rw [heldOk_iff, heldTags_eq] at h ⊢
    rw [e2, e3, e4, ht]
    rw [waiterTags_map (v := s.tracker) (fun y => by rw [tracker_set]; split <;> simp_all)]
    exact h
  asks := fun _ p _ _ => AsksOk_set x e hb.number ht (he p)

/-- Every entry changed in place, none in its waiters. -/
theorem setTracker_keeps {s t : State} (hb : EvolvesBase s t) (hw : ∀ x : Tag, t.tracker[x].waiters = s.tracker[x].waiters)
    (he : ∀ x : Tag, EntryLess s.tracker[x] t.tracker[x]) (e2 : t.lwb = s.lwb) (e3 : t.storeOp = s.storeOp)
    (e4 : t.hrq = s.hrq) : Keeps s t where
  toEvolvesBase := hb
  held := fun _ _ h => by
    rw [heldOk_iff, heldTags_eq] at h ⊢
    rw [e2, e3, e4, waiterTags_map hw]
    exact h
  asks := fun _ _ _ _ => AsksOk_less hb.number he

end Sys2Proof.Laws
end

