-- ==== Sys2Proof/Laws/RequestSteps.lean ====
section
/-! SUPPORT. What every command does to the requests that wait for an answer and to the tracker's entries (`Keeps`). -/

-- Theorems are elaborated one after another: many at once take more threads than the memory limit allows.
set_option Elab.async false

namespace Sys2Proof.Laws

open Sys2Proof.Machine Sys2Proof.Safety

/-! ### The tracker -/

theorem failEntry_keeps (t : Tag) (code : HostCode) (s : State) (ho : ¬OffersTag s.span t) : Keeps s (failEntry t code s) := by
  have hb := (failEntry_evolves t code s ho).toEvolvesBase
  unfold failEntry at hb ⊢
  obtain ⟨tx, e⟩ := answerWaiters_spec s.tracker[t].waiters (faultAnswer code) (faultAnswer_tag code) s
  dsimp only at hb ⊢
  rw [e] at hb ⊢
  exact release_keeps t hb (fun _ => rfl) rfl rfl rfl

theorem entryStands_keeps (t : Tag) (frame : Frame) (s : State) (ho : ¬OffersTag s.span t) (hs : s.tracker[t].state = .queued) :
    Keeps s (entryStands t frame s) := by
  have hb := (entryStands_evolves t frame s ho hs).toEvolvesBase
  unfold entryStands at hb ⊢
  dsimp only at hb ⊢
  split at hb
  · rename_i hk
    rw [if_pos hk]
    refine release_keeps t hb (fun k => ?_) rfl rfl rfl
    rw [(k.entries t).others (.inr (by simpa using hk))]
    simp
  · rename_i hk
    rw [if_neg hk]
    exact setEntry_keeps t _ hb rfl rfl (fun _ => .of_eq (by rw [hs]; decide) rfl rfl rfl rfl (.inl (Nat.le_refl _)))
      rfl rfl rfl

theorem entrySpoiled_keeps (t : Tag) (s : State) (ho : ¬OffersTag s.span t) (hs : s.tracker[t].state = .queued) :
    Keeps s (entrySpoiled t s) := by
  have hb := (entrySpoiled_evolves t s ho hs).toEvolvesBase
  unfold entrySpoiled at hb ⊢
  dsimp only at hb ⊢
  split at hb
  · rename_i hk
    rw [if_pos hk]
    exact setEntry_keeps t _ hb rfl rfl (fun _ => ⟨fun o l h => ⟨h, id⟩, fun h => ⟨h, rfl⟩, .inl (Nat.le_refl _)⟩) rfl rfl rfl
  · rename_i hk
    rw [if_neg hk]
    exact failEntry_keeps t _ s ho

theorem entryRefused_keeps (t : Tag) (s : State) (ho : ¬OffersTag s.span t) (hs : s.tracker[t].state = .queued) :
    Keeps s (entryRefused t s) := by
  have hb := (entryRefused_evolves t s ho hs).toEvolvesBase
  unfold entryRefused at hb ⊢
  dsimp only at hb ⊢
  split at hb
  · rename_i hk
    rw [if_pos hk]
    refine setEntry_keeps t _ hb rfl rfl (fun p => .of_eq (by rw [hs]; decide) rfl rfl rfl rfl (.inr ?_)) rfl rfl rfl
    have := p.refuseLimit.2
    show s.tracker[t].refusals + 1 ≤ _; omega
  · rename_i hk
    rw [if_neg hk]
    exact failEntry_keeps t _ s ho

theorem entryOutcome_keeps (t : Tag) (frame : Frame) (o : FrameOutcome) (s : State) (ho : ¬OffersTag s.span t)
    (hs : s.tracker[t].state = .queued) : Keeps s (entryOutcome t frame o s) := by
  cases o
  · exact entryStands_keeps t frame s ho hs
  · exact entrySpoiled_keeps t s ho hs
  · exact entryRefused_keeps t s ho hs
  · exact failEntry_keeps t _ s ho

theorem backoffExpires_keeps (t : Tag) (s : State) (hs : s.tracker[t].state = .backoff) : Keeps s (backoffExpires t s) := by
  refine setEntry_keeps t { s.tracker[t] with state := .queued, backoffTimer := none } (backoffExpires_evolves t s hs).toEvolvesBase
    rfl rfl (fun _ => .of_eq (by rw [hs]; decide) rfl rfl rfl rfl (.inl (Nat.le_refl _))) rfl rfl rfl

theorem replyTimerExpires_keeps (t : Tag) (s : State) (hs : s.tracker[t].state = .waiting) : Keeps s (replyTimerExpires t s) := by
  have hb := (replyTimerExpires_evolves t s hs).toEvolvesBase
  unfold replyTimerExpires at hb ⊢
  obtain ⟨tx, e⟩ := answerWaiters_spec s.tracker[t].waiters (faultAnswer .timeout) (faultAnswer_tag _) s
  dsimp only at hb ⊢
  rw [e] at hb ⊢
  exact release_keeps t hb (fun _ => rfl) rfl rfl rfl

theorem abandonEntry_keeps (x : Station) (s : State) (t : Tag) : Keeps s (abandonEntry x s t) := by
  have hb := (abandonEntry_evolves x s t).toEvolvesBase
  unfold abandonEntry at hb ⊢
  obtain ⟨tx, e⟩ := answerWaiters_spec s.tracker[t].waiters (faultAnswer .abandoned) (faultAnswer_tag _) s
  dsimp only at hb ⊢
  rw [e] at hb ⊢
  split at hb
  · rename_i hk
    rw [if_pos hk]
    exact release_keeps t hb (fun _ => rfl) rfl rfl rfl
  · rename_i hk
    rw [if_neg hk]
    exact .refl s

/-- Entries changed in place by a change that keeps their shape. -/
theorem mapTracker_keeps (f : Entry → Entry) (s : State) (hb : EvolvesBase s (mapTracker f s))
    (hw : ∀ e, (f e).waiters = e.waiters) (he : ∀ e, EntryLess e (f e)) : Keeps s (mapTracker f s) :=
  setTracker_keeps hb (fun x => by rw [mapTracker_get, hw]) (fun x => by rw [mapTracker_get]; exact he _) rfl rfl rfl

theorem overtake_less (p : Entry → Bool) (e : Entry) : EntryLess e (if p e then { e with overtaken := true } else e) := by
  split
  · exact ⟨fun o l h => ⟨h, fun k => by cases k⟩, fun h => ⟨h, rfl⟩, .inl (Nat.le_refl _)⟩
  · exact .refl e

theorem overtakeByWrite_keeps (owner : Station) (line : LineIndex) (s : State) : Keeps s (overtakeByWrite owner line s) :=
  mapTracker_keeps _ s (overtakeByWrite_evolves owner line s).toEvolvesBase (fun e => by split <;> rfl)
    (overtake_less (isAskFor owner line))

theorem overtakeByPut_keeps (owner : Station) (line : LineIndex) (s : State) : Keeps s (overtakeByPut owner line s) :=
  mapTracker_keeps _ s (overtakeByPut_evolves owner line s).toEvolvesBase (fun e => by split <;> rfl)
    (overtake_less fun e => isAskFor owner line e && e.state == .waiting)

theorem elapse_keeps (n : Nat) (s : State) : Keeps s (elapse n s) :=
  setTracker_keeps (elapse_evolves n s).toEvolvesBase (fun x => by rw [elapse_get]; rfl)
    (fun x => by rw [elapse_get]; exact ⟨fun _ _ h => ⟨h, id⟩, fun h => ⟨h, rfl⟩, .inl (Nat.le_refl _)⟩) rfl rfl rfl

/-! ### FENCE, teardown and control requests -/

theorem answerFence_keeps (s : State) : Keeps s (answerFence s) := by
  have key : ∀ tag, startedFence s = some tag → QueuesOk s → Unheld tag s.hrq := fun tag h q => by
    unfold startedFence at h
    obtain ⟨x, hx, rfl⟩ := Option.map_eq_some_iff.1 h
    refine Unheld.of_item (List.mem_of_find?_eq_some hx) (fun k => ?_) q
    have := List.find?_some hx
    simp only [Bool.and_eq_true, beq_iff_eq] at this
    rw [this.1] at k; cases k.2
  have hl : Keeps s { s with lostWrite := false } := .same (lostWrite_evolves _ s).toEvolvesBase rfl rfl rfl rfl
  unfold answerFence respondFence
  split
  · rename_i tag ht
    split
    · split
      · exact hl.trans (respond_keeps _ _ fun q => key tag ht
        (QueuesOk_of (s := { s with lostWrite := false }) (t := s) rfl rfl rfl rfl rfl rfl rfl q))
      · exact respond_keeps _ _ (key tag ht)
    · exact .refl s
  · exact .refl s

theorem recordCovered_keeps (s : State) : Keeps s (recordCovered s) := by
  have hb := (recordCovered_evolves s).toEvolvesBase
  unfold recordCovered at hb ⊢
  obtain ⟨v, hv, hx⟩ := mapTracker_eq (fun e => { e with covered := e.kind == some .putPosted }) s
  dsimp only at hb ⊢
  rw [hv] at hb ⊢
  exact setTracker_keeps hb (fun x => by show v[x].waiters = _; rw [hx])
    (fun x => by show EntryLess _ v[x]; rw [hx]; exact ⟨fun _ _ h => ⟨h, id⟩, fun h => ⟨h, rfl⟩, .inl (Nat.le_refl _)⟩)
    rfl rfl rfl

theorem recordCovered_hrq (s : State) : (recordCovered s).hrq = s.hrq := by
  unfold recordCovered
  obtain ⟨v, hv, _⟩ := mapTracker_eq (fun e => { e with covered := e.kind == some .putPosted }) s
  dsimp only
  rw [hv]

/-- A request other than a READ or WRITE marked started. -/
theorem markStarted_keeps (tag : HostTag) (s : State) (hu : QueuesOk s → ∀ x ∈ s.hrq, x.tag = tag → isAccess x.req = false) :
    Keeps s (markStarted tag s) where
  toEvolvesBase := (markStarted_evolves tag s).toEvolvesBase
  held := fun q _ h => heldOk_iff.2 ((heldOk_iff.1 h).mark (hu q))

theorem startFence_keeps {it : HrqItem} (s : State) (hi : it ∈ s.hrq) (hr : it.req = .fence) : Keeps s (startFence it.tag s) :=
  (recordCovered_keeps s).trans <|
    (markStarted_keeps it.tag _ fun q x hx e => by
      have hh := recordCovered_hrq s
      rw [hh] at hx
      have : x = it := nodup_tag (hh ▸ q.tags) hx hi e
      rw [this, hr]; rfl).trans (answerFence_keeps _)

theorem teardownEntry_keeps (code : HostCode) (s : State) (t : Tag) (ho : ∀ x, ¬OffersTag s.span x) :
    Keeps s (teardownEntry code s t) := by
  have hb := (teardownEntry_evolves code s t ho).toEvolvesBase
  unfold teardownEntry at hb ⊢
  obtain ⟨tx, e⟩ := answerWaiters_spec s.tracker[t].waiters (faultAnswer code) (faultAnswer_tag _) s
  dsimp only at hb ⊢
  rw [e] at hb ⊢
  split at hb
  · rename_i hk
    rw [if_pos hk]
    exact .refl s
  · rename_i hk
    rw [if_neg hk]
    exact release_keeps t hb (fun _ => rfl) rfl rfl rfl

theorem teardownFold_keeps (code : HostCode) (l : List Tag) : ∀ s : State, (∀ x, ¬OffersTag s.span x) →
    Keeps s (l.foldl (teardownEntry code) s) := by
  induction l with
  | nil => exact fun s _ => .refl s
  | cons t l ih =>
    intro s ho
    refine (teardownEntry_keeps code s t ho).trans (ih _ ?_)
    rw [(teardownEntry_spec code s t).1]; exact ho

theorem trackerTeardown_keeps (code : HostCode) (s : State) (ho : ∀ x, ¬OffersTag s.span x) :
    Keeps s (trackerTeardown code s) := by
  have hb := (trackerTeardown_evolves code s ho).toEvolvesBase
  have hf := teardownFold_keeps code (List.finRange 16) s ho
  unfold trackerTeardown at hb ⊢
  generalize (List.finRange 16).foldl (teardownEntry code) s = u at hb hf ⊢
  obtain ⟨v, hv, hx⟩ := mapTracker_eq (fun e => { e with epoch := 0 }) u
  dsimp only at hb ⊢
  rw [hv] at hb ⊢
  have hm : Keeps u { u with tracker := v } := setTracker_keeps
    (setTracker_evolves u v (fun e => { e with epoch := 0 }) hx (fun e he => EntryOk_of he rfl rfl rfl rfl rfl rfl rfl .inl) (fun _ => rfl)).toEvolvesBase
    (fun x => by show v[x].waiters = _; rw [hx])
    (fun x => by show EntryLess _ v[x]; rw [hx]; exact ⟨fun _ _ h => ⟨h, id⟩, fun h => ⟨h, rfl⟩, .inl (Nat.le_refl _)⟩)
    rfl rfl rfl
  have h := hf.trans hm
  exact
    { toEvolvesBase := hb
      held := fun q k a => HeldOk_of (s := { u with tracker := v }) rfl rfl rfl rfl (h.held q k a)
      asks := fun q p k a b => AsksOk_of (s := { u with tracker := v }) rfl rfl (h.asks q p k a b) }

theorem answerUnstartedRemote_keeps (code : HostCode) (s : State) : Keeps s (answerUnstartedRemote code s) := by
  have key : ∀ (l : List HrqItem) (u : State), (∀ it ∈ l, Unheld it.tag u.hrq) →
      Keeps u (l.foldl (fun s it => respond (.fault it.tag code) s) u) := by
    intro l
    induction l with
    | nil => exact fun u _ => .refl u
    | cons it l ih =>
      exact fun u hu => (respond_keeps (.fault it.tag code) u fun _ => hu it (List.mem_cons_self ..)).trans
        (ih _ fun x hx y hy e => hu x (List.mem_cons_of_mem _ hx) y (List.mem_of_mem_filter hy) e)
  have hl : QueuesOk s → Keeps s (answerUnstartedRemote code s) := fun q => key _ s fun it hi => by
    obtain ⟨h1, h2⟩ := List.mem_filter.1 hi
    simp only [Bool.and_eq_true, Bool.not_eq_true'] at h2
    exact Unheld.of_item h1 (by rw [h2.1]; simp) q
  exact { toEvolvesBase := (answerUnstartedRemote_evolves code s).toEvolvesBase
          held := fun q => (hl q).held q
          asks := fun q => (hl q).asks q }

theorem teardown_keeps (code : HostCode) (s : State) : Keeps s (teardown code s) :=
  (Keeps.same (emptySpanSide_reply s).toEvolvesBase rfl rfl rfl rfl).trans <|
    (trackerTeardown_keeps code _ (fun t => spanTeardown_offers s.span t)).trans <|
    (answerUnstartedRemote_keeps code _).trans (answerFence_keeps _)

/-- The station state, and what Station Control sets with it, changed after an operation that keeps the requests. -/
theorem Keeps.then {s u t : State} (k : Keeps s u) (hb : EvolvesBase s t) (h1 : t.tracker = u.tracker)
    (h2 : t.lwb = u.lwb) (h3 : t.storeOp = u.storeOp) (h4 : t.hrq = u.hrq) : Keeps s t where
  toEvolvesBase := hb
  held := fun q r a => HeldOk_of h1 h2 h3 h4 (k.held q r a)
  asks := fun q p r a b => AsksOk_of h1 (hb.number.trans k.number.symm) (k.asks q p r a b)

theorem enterHalted_keeps (s : State) : Keeps s (enterHalted s) := by
  have hb := (enterHalted_evolves s).toEvolvesBase
  have k := teardown_keeps .halted s
  unfold enterHalted at hb ⊢
  generalize teardown .halted s = u at hb k ⊢
  exact k.then hb rfl rfl rfl rfl

theorem restart_keeps (s : State) : Keeps s (enterStarting (teardown .restarted s)) := by
  have hb := (restart_evolves s).toEvolvesBase
  have k := teardown_keeps .restarted s
  generalize teardown .restarted s = u at hb k ⊢
  exact k.then hb rfl rfl rfl rfl

/-- The answer of a control request, after what it does (R167). -/
theorem respond_control {r : Response} {s t : State} (hn : ∀ x ∈ s.hrq, x.tag = responseTag r → isAccess x.req = false)
    (hf : HrqFrom s t) (k : Keeps s t) : Keeps s (respond r t) := by
  refine k.trans (respond_keeps r t fun _ x hx e hs => ?_)
  obtain ⟨g, hg, eq⟩ := hf
  rw [eq, List.mem_filterMap] at hx
  obtain ⟨y, hy, hxy⟩ := hx
  have := hs.2
  rcases hg y with k | k | k <;> rw [k] at hxy
  · cases hxy
  · cases hxy; rw [hn _ hy e] at this; cases this
  · cases hxy; rw [show isAccess y.req = false from hn _ hy e] at this; cases this

theorem commandWrite_keeps (tag : HostTag) (v : CtrlValue) (s : State)
    (hn : ∀ x ∈ s.hrq, x.tag = tag → isAccess x.req = false) : Keeps s (commandWrite tag v s) := by
  have hf (c : HostCode) : Keeps s (respond (.fault tag c) s) := respond_control hn (.of_eq rfl) (.refl s)
  unfold commandWrite
  split
  · have hb := (commandRun_evolves tag s).toEvolvesBase
    unfold commandRun at hb ⊢
    split
    · rename_i hs
      refine respond_control hn (.of_eq rfl) (.same ((closeSetup_evolves s (by simp [setupOpen, hs])).trans
        (enterStarting_evolves _ (by show s.station ≠ _; simp [hs]) (by show s.station ≠ _; simp [hs]))).toEvolvesBase
        rfl rfl rfl rfl)
    · rename_i hs
      split
      · exact respond_control hn (.of_eq rfl) (.refl s)
      · rename_i hr
        have hc : EvolvesBase s (closeSetup s) := (closeSetup_evolves s (by simp [setupOpen, hs, hr])).toEvolvesBase
        have hd : EvolvesBase (closeSetup s) { closeSetup s with runRequested := true } :=
          { closed := fun h => ⟨by simp [setupOpen, closeSetup, hs], rfl, rfl, rfl⟩ }
        exact respond_control hn (.of_eq rfl) (.same (hc.trans hd) rfl rfl rfl rfl)
    · exact hf _
    · exact hf _
    · exact hf _
  · have hk : Keeps s (respond (.done tag false) (enterStarting (teardown .restarted s))) := by
      have hr := teardown_hrqFrom .restarted s
      have k := restart_keeps s
      generalize teardown .restarted s = u at hr k ⊢
      exact respond_control hn (hr.trans (.of_eq rfl)) k
    unfold commandRestart
    split
    · exact hk
    · exact hk
    · exact hk
    · exact hf _
    · exact hf _
  · exact respond_control hn (.of_eq rfl) (.same (cacheEmpty_evolves s).toEvolvesBase rfl rfl rfl rfl)
  · exact respond_control hn (.of_eq rfl) (.same (clearFaultRecord_evolves s).toEvolvesBase rfl rfl rfl rfl)
  · exact hf _

theorem controlWriteStarts_keeps (tag : HostTag) (w : Byte) (v : CtrlValue) (s : State)
    (hn : ∀ x ∈ s.hrq, x.tag = tag → isAccess x.req = false) : Keeps s (controlWriteStarts tag w v s) := by
  have hb := (controlWriteStarts_evolves tag w v s).toEvolvesBase
  have hd (u : State) (r : Response) (hr : responseTag r = tag) (hu : EvolvesBase s (respond r u)) (h1 : u.tracker = s.tracker)
      (h2 : u.lwb = s.lwb) (h3 : u.storeOp = s.storeOp) (h4 : u.hrq = s.hrq) : Keeps s (respond r u) :=
    { toEvolvesBase := hu
      held := fun _ _ h => heldOk_iff.2 <| by
        have k := HeldBy.drop (tag := tag) (fun x hx e hs => by
          have := hs.2; rw [hn x hx e] at this; cases this) (heldOk_iff.1 h)
        show HeldBy (waiterTags u.tracker ++ localTags u.lwb u.storeOp) (u.hrq.filter fun it => it.tag != responseTag r)
        rw [h1, h2, h3, h4, hr]; exact k
      asks := fun _ _ _ _ => AsksOk_of h1 hu.number }
  unfold controlWriteStarts at hb ⊢
  split
  · exact commandWrite_keeps tag v s hn
  · rename_i h1
    rw [if_neg h1] at hb
    split
    · rename_i h2
      rw [if_pos h2] at hb
      exact hd _ _ rfl hb rfl rfl rfl rfl
    · rename_i h2
      rw [if_neg h2] at hb
      split
      · rename_i w hw
        rw [hw] at hb
        unfold setupWrite at hb ⊢
        dsimp only at hb ⊢
        split
        · rename_i ho
          rw [if_pos ho] at hb
          refine hd _ _ rfl hb ?_ ?_ ?_ ?_ <;> cases w <;> rfl
        · exact hd _ _ rfl (respond_evolves _ _).toEvolvesBase rfl rfl rfl rfl
      · exact hd _ _ rfl (respond_evolves _ _).toEvolvesBase rfl rfl rfl rfl

theorem controlReadStarts_keeps (tag : HostTag) (w : Byte) (s : State)
    (hn : ∀ x ∈ s.hrq, x.tag = tag → isAccess x.req = false) : Keeps s (controlReadStarts tag w s) := by
  unfold controlReadStarts
  split
  · have he : ∃ n, useFree w s = { s with freeCount := n } := by
      unfold useFree; split
      · exact ⟨_, rfl⟩
      · exact ⟨s.freeCount, rfl⟩
    have hb := (useFree_evolves w s).toEvolvesBase
    obtain ⟨n, e⟩ := he
    rw [e] at hb ⊢
    exact respond_control hn (.of_eq rfl) (.same hb rfl rfl rfl rfl)
  · exact respond_control hn (.of_eq rfl) (.refl s)

/-! ### Starts -/

/-- An ASK for a line that no READ can attach to is overtaken: otherwise its 8 waiters fill the HRQ beside the READ (R60). -/
theorem ask_overtaken {s : State} {it : HrqItem} {owner : Station} {line : LineIndex} (hi : it ∈ s.hrq)
    (hu : it.started = false) (ha : attachTag owner line s = none) (q : QueuesOk s) (h : HeldOk s) (y : Tag)
    (hy : isAskFor owner line s.tracker[y] = true) : s.tracker[y].overtaken = true := by
  by_contra ho
  have hn := List.find?_eq_none.1 ha y (List.mem_finRange y)
  simp only [attachable, hy, Bool.true_and, Bool.and_eq_true, Bool.not_eq_true', decide_eq_true_eq, not_and] at hn
  have h8 := hn (by simpa using ho)
  obtain ⟨rest, p, _⟩ := waiterTags_split s.tracker y
  have hb : HeldBy (s.tracker[y].waiters.map waiterTag ++ rest ++ localTags s.lwb s.storeOp) s.hrq :=
    (heldOk_iff.1 h).perm (p.append_right _)
  have hl : (s.tracker[y].waiters.map waiterTag).Nodup := (List.nodup_append.1 (List.nodup_append.1 hb.1).1).1
  have hs : ∀ x ∈ s.tracker[y].waiters.map waiterTag, ∃ i ∈ s.hrq, i.tag = x ∧ i.started = true := fun x hx => by
    obtain ⟨i, hi, e, k, _⟩ := (hb.2 x).1 (List.mem_append_left _ (List.mem_append_left _ hx))
    exact ⟨i, hi, e, k⟩
  have hc : (it.tag :: s.tracker[y].waiters.map waiterTag).Nodup := List.nodup_cons.2 ⟨fun hx => by
    obtain ⟨i, hi', e, k⟩ := hs _ hx
    rw [nodup_tag q.tags hi' hi e, hu] at k
    exact absurd k (by decide), hl⟩
  have hsub : (it.tag :: s.tracker[y].waiters.map waiterTag) ⊆ s.hrq.map (·.tag) := fun x hx => by
    rcases List.mem_cons.1 hx with rfl | hx
    · exact List.mem_map.2 ⟨it, hi, rfl⟩
    · obtain ⟨i, hi', e, _⟩ := hs x hx
      exact List.mem_map.2 ⟨i, hi', e⟩
  have := (hc.subperm hsub).length_le
  have := q.hrq
  simp only [List.length_cons, List.length_map, Config.hrqCapacity, Config.maxWaiters] at *
  omega

/-- An entry created in a FREE slot for another station, no ASK for its line being open if it is one (R59, R60). -/
theorem AsksOk_create {s t : State} (x : Tag) (e : Entry) (hn : t.number = s.number) (ht : t.tracker = s.tracker.set x.val e)
    (h1 : e.target ≠ s.number) (h2 : e.refusals = 0)
    (h3 : isAskFor e.target e.line e = true → ∀ y : Tag, isAskFor e.target e.line s.tracker[y] = true →
      s.tracker[y].overtaken = true) (k : AsksOk s) : AsksOk t := by
  have get (y : Tag) : t.tracker[y] = if y = x then e else s.tracker[y] := by rw [ht, tracker_set]
  refine ⟨fun a b ha hb oa ob => ?_, fun y hy => ?_, fun y => ?_⟩
  · rw [get a] at ha hb oa
    rw [get b] at hb ob
    by_cases ka : a = x <;> by_cases kb : b = x
    · rw [ka, kb]
    · rw [if_pos ka] at ha hb
      rw [if_neg kb] at hb ob
      rw [h3 ha b hb] at ob; cases ob
    · rw [if_neg ka] at ha hb oa
      rw [if_pos kb] at hb
      obtain ⟨e1, e2⟩ := isAskFor_self hb
      rw [e1, e2] at h3
      rw [h3 hb a ha] at oa; cases oa
    · rw [if_neg ka] at ha hb oa
      rw [if_neg kb] at hb ob
      exact k.single a b ha hb oa ob
  · rw [get y] at hy ⊢
    rw [hn]
    by_cases ky : y = x
    · rw [if_pos ky]; exact h1
    · rw [if_neg ky] at hy ⊢; exact k.targets y hy
  · rw [get y]
    split
    · rw [h2]; exact Nat.zero_le _
    · exact k.refusals y

/-- A READ or WRITE started as the last waiter of an entry. -/
theorem joinWaiter_keeps {s t : State} (x : Tag) (e : Entry) (it : HrqItem) (w : Waiter) (hb : EvolvesBase s t)
    (hi : it ∈ s.hrq) (hu : it.started = false) (ha : isAccess it.req = true) (ht : t.tracker = s.tracker.set x.val e)
    (hw : TrackerOk s → e.waiters = s.tracker[x].waiters ++ [w]) (hwt : waiterTag w = it.tag)
    (h2 : t.lwb = s.lwb) (h3 : t.storeOp = s.storeOp) (h4 : t.hrq = (markStarted it.tag s).hrq)
    (hk : QueuesOk s → TrackerOk s → HeldOk s → AsksOk s → AsksOk t) : Keeps s t where
  toEvolvesBase := hb
  held := fun q r h => by
    have h' := (heldOk_iff.1 h).start q.tags hi hu ha
    rw [heldOk_iff, heldTags_eq, h2, h3, h4, ht]
    refine h'.perm ?_
    obtain ⟨rest, p1, p2⟩ := waiterTags_split s.tracker x
    rw [heldTags_eq, ← List.cons_append]
    refine List.Perm.append_right _ (((p1.cons _).trans ?_).trans (p2 e).symm)
    rw [hw r, List.map_append, List.map_cons, List.map_nil, hwt, List.append_assoc, List.singleton_append]
    exact List.perm_middle.symm
  asks := fun q _ r h k => hk q r h k

theorem free_waiters {s : State} {x : Tag} (hf : s.tracker[x].state = .free) (r : TrackerOk s) : s.tracker[x].waiters = [] :=
  (r.entries x).others (.inl ((r.entries x).kind.1 hf))

theorem readToTracker_keeps {it : HrqItem} {owner : Station} {line : LineIndex} {off : Nat} {size : ReadSize} {keep : Bool}
    {s t : State} (hr : s.station = .run) (ho : owner ≠ s.number) (hi : it ∈ s.hrq) (hu : it.started = false)
    (ha : isAccess it.req = true) (h : readToTracker it.tag owner line off size keep s = some t) : Keeps s t := by
  have hb := (readToTracker_evolves hr h).toEvolvesBase
  unfold readToTracker at h
  dsimp only at h
  split at h
  · rename_i x hx
    rw [← Option.some.inj h] at hb ⊢
    have hs : s.tracker[x].state ≠ .free := by
      have := attachTag_spec hx
      simp only [attachable, isAskFor, Bool.and_eq_true, bne_iff_ne] at this
      exact this.1.1.1.1.1
    exact joinWaiter_keeps x _ it (.read it.tag off size) hb hi hu ha rfl (fun _ => rfl) rfl rfl rfl rfl fun _ _ _ k =>
      AsksOk_set (s := s) x _ rfl rfl (.of_eq hs rfl rfl rfl rfl (.inl (Nat.le_refl _))) k
  · rename_i hx
    split at h
    · rename_i y hy
      rw [← Option.some.inj h] at hb ⊢
      refine joinWaiter_keeps y _ it (.read it.tag off size) hb hi hu ha rfl
        (fun r => by rw [free_waiters (freeTag_spec hy) r]; rfl) rfl rfl rfl rfl fun q _ hh k => ?_
      exact AsksOk_create (s := s) y _ rfl rfl ho rfl (fun _ z hz => ask_overtaken hi hu hx q hh z hz) k
    · cases h

/-- A request that has not started answered, after what changes neither the HRQ nor the records that hold a tag. -/
theorem respond_unstarted {it : HrqItem} {r : Response} {s t : State} (hr : responseTag r = it.tag) (hi : it ∈ s.hrq)
    (hu : it.started = false) (hq : t.hrq = s.hrq) (k : Keeps s t) : Keeps s (respond r t) :=
  k.trans (respond_keeps r t fun q => by
    rw [hr]; exact Unheld.of_item (hq ▸ hi) (by rw [hu]; simp) q)

theorem startRemoteRead_keeps {it : HrqItem} {addr : SpanAddr} {size : ReadSize} {c : Bool} {s t : State}
    (ho : addrStation addr ≠ s.number) (hi : it ∈ s.hrq) (hu : it.started = false) (ha : isAccess it.req = true)
    (h : startRemoteRead it.tag addr size c s = some t) : Keeps s t := by
  have hb := (startRemoteRead_evolves h).toEvolvesBase
  unfold startRemoteRead at h
  dsimp only at h
  split at h
  · rw [← Option.some.inj h]; exact respond_unstarted rfl hi hu rfl (.refl s)
  · rename_i hr
    split at h
    · rename_i x hx
      rw [← Option.some.inj h] at hb ⊢
      refine respond_unstarted rfl hi hu rfl (.same (cacheFront_evolves x s ?_).toEvolvesBase rfl rfl rfl rfl)
      split at hx
      · obtain ⟨a, b, d⟩ := cacheFind_spec hx
        exact ⟨x, a, by simp [isCopyOf]⟩
      · cases hx
    · exact readToTracker_keeps (by simpa using hr) ho hi hu ha h

/-- A posted PUT entry created in a FREE slot. -/
theorem createPosted_keeps {s : State} (x : Tag) (owner : Station) (line : LineIndex) (p : PutData)
    (hf : s.tracker[x].state = .free) (hr : s.station = .run) (ho : owner ≠ s.number) :
    Keeps s (createEntry x .putPosted owner line false (some p) [] s) where
  toEvolvesBase := (createEntry_evolves x .putPosted owner line false (some p) [] s hf hr (by simp) (by simp)).toEvolvesBase
  held := fun _ r h => by
    rw [heldOk_iff, heldTags_eq] at h ⊢
    refine h.perm (List.Perm.append_right _ (List.Perm.of_eq (waiterTags_map fun y => ?_).symm))
    show (s.tracker.set x.val _)[y].waiters = _
    rw [tracker_set]
    split
    · rename_i e; rw [e, free_waiters hf r]
    · rfl
  asks := fun _ _ _ _ k => AsksOk_create (s := s) x _ rfl rfl ho rfl (fun h => by simp [isAskFor] at h) k

theorem startRemoteWrite_keeps {it : HrqItem} {addr : SpanAddr} {mask : Mask} {data : Line} {c : Bool} {s t : State}
    (ho : addrStation addr ≠ s.number) (hi : it ∈ s.hrq) (hu : it.started = false) (ha : isAccess it.req = true)
    (h : startRemoteWrite it.tag addr mask data c s = some t) : Keeps s t := by
  unfold startRemoteWrite at h
  dsimp only at h
  split at h
  · rw [← Option.some.inj h]; exact respond_unstarted rfl hi hu rfl (.refl s)
  · rename_i hr
    split at h
    · cases h
    · rename_i x hx
      have k0 := overtakeByWrite_keeps (addrStation addr) (addrLine addr)
        (cacheWrite (addrStation addr) (addrLine addr) mask data s)
      have b0 := (cacheWrite_evolves (addrStation addr) (addrLine addr) mask data s).toEvolvesBase
      obtain ⟨ca, ec⟩ := cacheWrite_eq (addrStation addr) (addrLine addr) mask data s
      rw [ec] at h k0 b0
      have k1 : Keeps s { s with cache := ca } := .same b0 rfl rfl rfl rfl
      unfold overtakeByWrite at h k0
      obtain ⟨v, hv, hx'⟩ := mapTracker_eq
        (fun e => if isAskFor (addrStation addr) (addrLine addr) e then { e with overtaken := true } else e) { s with cache := ca }
      rw [hv] at h k0
      have k2 := k1.trans k0
      have hf : ({ s with cache := ca, tracker := v } : State).tracker[x].state = .free := by
        show v[x].state = .free
        rw [hx']
        have := freeTag_spec hx
        split <;> exact this
      have hs : s.station = .run := by simpa using hr
      split at h
      · rw [← Option.some.inj h]
        refine k2.trans (joinWaiter_keeps x _ it (.write it.tag)
          ((createEntry_evolves x .putConfirmed _ _ _ _ _ _ hf hs (by simp) (by simp)).trans
            (markStarted_evolves _ _)).toEvolvesBase hi hu ha rfl (fun r => by rw [free_waiters hf r]; rfl) rfl rfl rfl rfl
          fun _ _ _ k => ?_)
        exact AsksOk_create (s := { s with cache := ca, tracker := v }) x _ rfl rfl ho rfl (fun h => by simp [isAskFor] at h) k
      · rw [← Option.some.inj h]
        exact respond_unstarted rfl hi hu rfl (k2.trans (createPosted_keeps x _ _ _ hf hs ho))

theorem lltRecallForWrite_eq (line : LineIndex) (s : State) :
    ∃ q n l, lltRecallForWrite line s = { s with rpq := q, spoilCount := n, llt := l } := by
  unfold lltRecallForWrite
  split
  · exact ⟨_, _, _, rfl⟩
  · exact ⟨s.rpq, s.spoilCount, s.llt, rfl⟩

/-- A confirmed write does not merge (R144). -/
theorem canMerge_confirm (s : State) (line : LineIndex) : canMerge s line true = false := by
  unfold canMerge
  split
  · simp
  · rfl

theorem takeLocalWrite_keeps {it : HrqItem} {line : LineIndex} {mask : Mask} {data : Line} {c : Bool} {s : State}
    (hi : it ∈ s.hrq) (hu : it.started = false) (ha : isAccess it.req = true) (h : canTakeWrite s line c = true) :
    Keeps s (takeLocalWrite it.tag line mask data c s) := by
  have hb := (takeLocalWrite_evolves it.tag line mask data c s h).toEvolvesBase
  unfold takeLocalWrite at hb ⊢
  dsimp only at hb ⊢
  cases c with
  | true =>
    have e1 : lwbTake line mask data (some it.tag) s = { s with lwb := s.lwb ++
        [{ line := line, mask := mask, data := data, confirm := some it.tag, draining := false }] } := by
      unfold lwbTake
      rw [if_neg]
      rw [show (some it.tag).isSome = true from rfl, canMerge_confirm]; decide
    simp only [if_true] at hb ⊢
    rw [e1] at hb ⊢
    obtain ⟨q, n, l, e2⟩ := lltRecallForWrite_eq line { s with lwb := s.lwb ++
        [{ line := line, mask := mask, data := data, confirm := some it.tag, draining := false }] }
    rw [e2] at hb ⊢
    exact
      { toEvolvesBase := hb
        held := fun q r h => by
          refine heldOk_iff.2 (((heldOk_iff.1 h).start q.tags hi hu ha).perm ?_)
          show (it.tag :: (waiterTags s.tracker ++ localTags s.lwb s.storeOp)).Perm
            (waiterTags s.tracker ++ localTags (s.lwb ++ _) s.storeOp)
          unfold localTags
          rw [List.filterMap_append]
          simp only [List.filterMap_cons, List.filterMap_nil, List.append_assoc, List.singleton_append]
          rw [← List.append_assoc, ← List.append_assoc]
          exact List.perm_middle.symm }
  | false =>
    have e1 : ∃ w, lwbTake line mask data none s = { s with lwb := w } ∧ w.filterMap (·.confirm) = s.lwb.filterMap (·.confirm) := by
      unfold lwbTake
      split
      · refine ⟨_, rfl, ?_⟩
        have := updateNewest_map (·.confirm) line (mergeInto mask data) (fun _ => rfl) s.lwb
        have := congrArg (List.filterMap id) this
        simpa [List.filterMap_map] using this
      · exact ⟨_, rfl, by simp⟩
    obtain ⟨w, e1, hw⟩ := e1
    simp only [Bool.false_eq_true, if_false] at hb ⊢
    rw [e1] at hb ⊢
    obtain ⟨q, n, l, e2⟩ := lltRecallForWrite_eq line { s with lwb := w }
    rw [e2] at hb ⊢
    exact
      { toEvolvesBase := hb
        held := fun q r h => by
          refine heldOk_iff.2 ?_
          have k := (heldOk_iff.1 h).drop (Unheld.of_item hi (by rw [hu]; simp) q)
          show HeldBy (waiterTags s.tracker ++ localTags w s.storeOp) _
          unfold localTags
          rw [hw]; exact k }

/-- A start of a request of the HRQ. -/
theorem tryStart_keeps {s t : State} {it : HrqItem} (hi : it ∈ s.hrq) (hu : it.started = false) (h : tryStart s it = some t) :
    Keeps s t := by
  have hctl : isAccess it.req = false → QueuesOk s → ∀ x ∈ s.hrq, x.tag = it.tag → isAccess x.req = false :=
    fun hr q x hx e => by rw [nodup_tag q.tags hx hi e]; exact hr
  have hb := (tryStart_evolves h).toEvolvesBase
  have ofq : (QueuesOk s → Keeps s t) → Keeps s t := fun k =>
    { toEvolvesBase := hb, held := fun q => (k q).held q, asks := fun q => (k q).asks q }
  unfold tryStart at h
  have rem : ∀ {a : SpanAddr} {r : Request}, requestLine r = some (addrStation a, addrLine a) → isRemote s r = true →
      addrStation a ≠ s.number := fun e k => by simpa [isRemote, e] using k
  split at h
  · rename_i a sz c hg hreq
    split at h
    · rename_i hr
      exact startRemoteRead_keeps (rem (by rw [hreq]; rfl) hr) hi hu (by rw [hreq]; rfl) h
    · cases h
  · rename_i a m d c hreq
    split at h
    · rename_i hr
      exact startRemoteWrite_keeps (rem (by rw [hreq]; rfl) hr) hi hu (by rw [hreq]; rfl) h
    · unfold startLocalWrite at h
      dsimp only at h
      split at h
      · rw [← Option.some.inj h]; exact respond_unstarted rfl hi hu rfl (.refl s)
      · split at h
        · rename_i hc
          rw [← Option.some.inj h]
          exact takeLocalWrite_keeps hi hu (by rw [hreq]; rfl) hc
        · cases h
  · rename_i hreq
    rw [← Option.some.inj h]; exact startFence_keeps s hi hreq
  · rename_i w hreq
    exact ofq fun q => by
      rw [← Option.some.inj h]; exact controlReadStarts_keeps _ _ s (hctl (by rw [hreq]; rfl) q)
  · rename_i w v hreq
    exact ofq fun q => by
      rw [← Option.some.inj h]; exact controlWriteStarts_keeps _ _ _ s (hctl (by rw [hreq]; rfl) q)

theorem startNamed_keeps (sort : State → Request → Bool) (tag : HostTag) (s : State) : Keeps s (startNamed sort tag s) := by
  unfold startNamed
  split
  · rename_i it hf
    obtain ⟨hi, hu⟩ := eligibleItems_mem (List.mem_of_find?_eq_some hf)
    cases h : tryStart s it with
    | none => exact .refl s
    | some t => exact tryStart_keeps hi hu h
  · exact .refl s

end Sys2Proof.Laws
end

