-- ==== Sys2Proof/Laws/RequestEvents.lean ====
section
/-! SUPPORT. What the grant, settling, the events and every command do to the requests that wait for an answer and to the tracker's
entries (`Keeps`). -/

-- Theorems are elaborated one after another: many at once take more threads than the memory limit allows.
set_option Elab.async false

namespace Sys2Proof.Laws

open Sys2Proof.Machine Sys2Proof.Safety

/-! ### The grant and settling -/

theorem localTags_none (l : List LwbEntry) (op : Option StoreOp) (h : ∀ tag line off size, op ≠ some (.localRead tag line off size)) :
    localTags l op = l.filterMap (·.confirm) := by
  unfold localTags
  split
  · rename_i tag a b c; exact absurd rfl (h tag a b c)
  · exact List.append_nil _

/-- The buffer and the store's operation changed, neither operation a local READ and no confirmed entry. -/
theorem setStore_keeps {s t : State} (hb : EvolvesBase s t) (h1 : t.tracker = s.tracker) (h4 : t.hrq = s.hrq)
    (hs : ∀ tag line off size, s.storeOp ≠ some (.localRead tag line off size))
    (ht : ∀ tag line off size, t.storeOp ≠ some (.localRead tag line off size))
    (hl : t.lwb.filterMap (·.confirm) = s.lwb.filterMap (·.confirm)) : Keeps s t where
  toEvolvesBase := hb
  held := fun _ _ h => by
    rw [heldOk_iff, heldTags_eq, localTags_none _ _ hs] at h
    rw [heldOk_iff, heldTags_eq, localTags_none _ _ ht, h1, h4, hl]
    exact h
  asks := fun _ _ _ _ => AsksOk_of h1 hb.number

theorem grantDrain_keeps (s : State) (hs : s.storeOp = none) (hd : drainWaits s = true) : Keeps s (grantDrain s) := by
  refine setStore_keeps (grantDrain_evolves s hd).toEvolvesBase rfl rfl (by rw [hs]; simp) (fun _ _ _ _ h => by cases h) ?_
  unfold grantDrain
  cases s.lwb <;> rfl

theorem waitingRead_spec {s : State} {it : HrqItem} (h : waitingRead s = some it) :
    it ∈ s.hrq ∧ it.started = false ∧ ∃ a sz c hg, it.req = .read a sz c hg := by
  unfold waitingRead at h
  split at h
  · rename_i x hx
    split at h
    · have e := Option.some.inj h
      subst e
      have hm := eligibleItems_mem (offeredRead_mem hx)
      refine ⟨hm.1, hm.2, ?_⟩
      unfold offeredRead at hx
      dsimp only at hx
      have : isLocalRead s x.req = true := by
        rcases Option.or_eq_some_iff.1 hx with k | ⟨_, k⟩
        · exact (List.mem_filter.1 (List.mem_of_find?_eq_some k)).2
        · exact (List.mem_filter.1 (List.mem_of_mem_head? k)).2
      have hr := (Bool.and_eq_true_iff.1 this).1
      cases hq : x.req with
      | read a b c d => exact ⟨a, b, c, d, rfl⟩
      | write _ _ _ _ => rw [hq] at hr; cases hr
      | fence => rw [hq] at hr; cases hr
      | controlRead _ => rw [hq] at hr; cases hr
      | controlWrite _ _ => rw [hq] at hr; cases hr
    · cases h
  · cases h

theorem grantRead_keeps {it : HrqItem} (s : State) (hs : s.storeOp = none) (hw : waitingRead s = some it) :
    Keeps s (grantRead it s) := by
  obtain ⟨hi, hu, a, sz, c, hg, hreq⟩ := waitingRead_spec hw
  have hb := (grantRead_evolves it s hs).toEvolvesBase
  have e : grantRead it s = { markStarted it.tag { s with turn := .serveEngine } with
      storeOp := some (.localRead it.tag (addrLine a) (addrOffset a) sz) } := by
    unfold grantRead; simp only [hreq]
  rw [e] at hb ⊢
  exact
    { toEvolvesBase := hb
      held := fun q _ h => by
        have k := (heldOk_iff.1 h).start q.tags hi hu (by rw [hreq]; rfl)
        rw [heldTags_eq, localTags_none _ _ (by rw [hs]; simp)] at k
        refine heldOk_iff.2 (k.perm ?_)
        show (it.tag :: (waiterTags s.tracker ++ s.lwb.filterMap (·.confirm))).Perm
          (waiterTags s.tracker ++ (s.lwb.filterMap (·.confirm) ++ [it.tag]))
        rw [← List.append_assoc]
        exact (List.perm_append_singleton _ _).symm }

theorem grantServe_keeps (s : State) (hs : s.storeOp = none) (hv : serveWaits s = true) : Keeps s (grantServe s) :=
  setStore_keeps (grantServe_evolves s hs hv).toEvolvesBase rfl rfl (by rw [hs]; simp) (fun _ _ _ _ h => by cases h) rfl

theorem grantLocal_keeps {s t : State} (hs : s.storeOp = none) (h : grantLocal s = some t) : Keeps s t := by
  unfold grantLocal at h
  split at h
  · rename_i it hw
    split at h <;> (rename_i hd; rw [← Option.some.inj h])
    · exact grantDrain_keeps s hs (Bool.and_eq_true_iff.1 hd).1
    · exact grantRead_keeps s hs hw
  · split at h
    · rename_i hd
      rw [← Option.some.inj h]; exact grantDrain_keeps s hs hd
    · cases h

theorem grant_keeps {s t : State} (h : grant s = some t) : Keeps s t := by
  have hb := (grant_evolves h).toEvolvesBase
  unfold grant at h
  split at h
  · cases h
  rename_i hs
  have hs : s.storeOp = none := by simpa using hs
  split at h
  · rw [← Option.some.inj h] at hb ⊢
    exact setStore_keeps hb rfl rfl (by rw [hs]; simp) (fun _ _ _ _ h => by cases h) rfl
  split at h
  · rename_i hv
    rw [← Option.some.inj h]; exact grantServe_keeps s hs (Bool.and_eq_true_iff.1 hv).1
  split at h
  · rename_i x hx
    rw [← Option.some.inj h]; exact grantLocal_keeps hs hx
  · split at h
    · rename_i hv
      rw [← Option.some.inj h]; exact grantServe_keeps s hs hv
    · cases h

theorem settleOne_keeps {s t : State} (h : settleOne s = some t) : Keeps s t := by
  unfold settleOne at h
  split at h
  · rw [← Option.some.inj h]; exact answerFence_keeps s
  · simp only [Option.or_eq_some_iff] at h
    rcases h with h | ⟨_, h | ⟨_, h⟩⟩
    · unfold refuseOfferedRead at h
      split at h
      · rename_i it hit
        simp only [Option.map_eq_some_iff] at h
        obtain ⟨c, _, rfl⟩ := h
        obtain ⟨hi, hu⟩ := eligibleItems_mem (offeredRead_mem hit)
        exact respond_unstarted rfl hi hu rfl (.refl s)
      · cases h
    · exact grant_keeps h
    · unfold startFirst at h
      obtain ⟨it, hm, h⟩ := List.exists_of_findSome?_eq_some h
      obtain ⟨hi, hu⟩ := eligibleItems_mem hm
      exact tryStart_keeps hi hu h

theorem settleLoop_keeps (n : Nat) : ∀ s : State, Keeps s (settleLoop n s) := by
  induction n with
  | zero => exact .refl
  | succ n ih =>
    intro s
    unfold settleLoop
    split
    · rename_i t h
      exact (settleOne_keeps h).trans (ih t)
    · exact .refl s

/-- The Serve Engine's taking leaves the tracker, the buffer, the store's operation and the HRQ. -/
theorem serveTakeNow_keeps (s : State) : Keeps s (serveTakeNow s) := by
  have hb := (serveTakeNow_evolves s).toEvolvesBase
  have hn : ∀ (r : ServeReq) (o : NoteOutcome) (k : FaultKind) (u : State), (appendNote r o (takeReport (serveReport k r) u)).tracker
      = u.tracker ∧ (appendNote r o (takeReport (serveReport k r) u)).lwb = u.lwb ∧
      (appendNote r o (takeReport (serveReport k r) u)).storeOp = u.storeOp ∧
      (appendNote r o (takeReport (serveReport k r) u)).hrq = u.hrq := fun r o k u => by
    obtain ⟨q, c, e, _⟩ := appendNote_eq r o (takeReport (serveReport k r) u)
    rw [e]; exact ⟨rfl, rfl, rfl, rfl⟩
  have hc : ∀ (r : ServeReq) (u : State), (serveCheck r u).tracker = u.tracker ∧ (serveCheck r u).lwb = u.lwb ∧
      (serveCheck r u).storeOp = u.storeOp ∧ (serveCheck r u).hrq = u.hrq := fun r u => by
    unfold serveCheck
    repeat' split
    · exact ⟨rfl, rfl, rfl, rfl⟩
    · exact hn _ _ _ _
    · exact hn _ _ _ _
    · exact ⟨rfl, rfl, rfl, rfl⟩
  have hall : (serveTakeNow s).tracker = s.tracker ∧ (serveTakeNow s).lwb = s.lwb ∧
      (serveTakeNow s).storeOp = s.storeOp ∧ (serveTakeNow s).hrq = s.hrq := by
    unfold serveTakeNow
    repeat' split
    · exact hc _ _
    · exact ⟨rfl, rfl, rfl, rfl⟩
    · exact ⟨rfl, rfl, rfl, rfl⟩
  exact .same hb hall.1 hall.2.1 hall.2.2.1 hall.2.2.2

theorem engineTakes_keeps (n : Nat) : ∀ s : State, Keeps s (engineTakes n s) := by
  induction n with
  | zero => exact .refl
  | succ n ih =>
    intro s
    unfold engineTakes
    split
    · exact (serveTakeNow_keeps s).trans (ih _)
    · exact .refl s

theorem settle_keeps (before s : State) : Keeps s (settle before s) := by
  unfold settle engineFirst
  dsimp only
  split
  · exact (engineTakes_keeps _ s).trans (settleLoop_keeps _ _)
  · exact settleLoop_keeps _ s

/-! ### Arrival -/

theorem arrive_keeps (m : HostMsg) (s : State) : Keeps s (arrive m s) := by
  have hb := (arrive_evolves m s).toEvolvesBase
  have send (r : Response) : Keeps s (Machine.send r s) := .same (send_evolves r s).toEvolvesBase rfl rfl rfl rfl
  unfold arrive at hb ⊢
  split
  · exact send _
  rename_i req hf
  rw [hf] at hb
  dsimp only at hb
  split
  · exact send _
  rename_i h1
  rw [if_neg h1] at hb
  split
  · exact send _
  · rename_i h2
    rw [if_neg h2] at hb
    exact { toEvolvesBase := hb, held := fun _ _ h => heldOk_iff.2 ((heldOk_iff.1 h).join rfl) }

theorem arriveAll_keeps (n : Nat) : ∀ (bytes : List Byte) (s : State), Keeps s (arriveAll n bytes s) := by
  induction n with
  | zero => exact fun _ s => .refl s
  | succ n ih =>
    intro bytes s
    unfold arriveAll
    split
    · exact (arrive_keeps _ s).trans ((settle_keeps _ _).trans (ih _ _))
    · exact .refl s

/-! ### Frames -/

theorem takeReport_keeps (r : FaultReport) (s : State) : Keeps s (takeReport r s) :=
  .same (takeReport_evolves r s).toEvolvesBase rfl rfl rfl rfl

theorem takeDuplicate_keeps (s : State) : Keeps s (takeDuplicate s) := (takeReport_keeps _ s).trans (enterHalted_keeps _)

theorem takeGive_keeps (source target : Station) (tag : Tag) (epoch : Epoch) (mended : Bool) (data : Line) (s : State)
    (hn : source ≠ s.number) : Keeps s (takeGive source target tag epoch mended data s) := by
  have hb := (takeGive_evolves source target tag epoch mended data s hn).toEvolvesBase
  unfold takeGive at hb ⊢
  obtain ⟨tx, e⟩ := answerWaiters_spec s.tracker[tag].waiters (giveAnswer data mended) (giveAnswer_tag data mended) s
  split
  · rename_i h1
    rw [if_pos h1] at hb
    dsimp only at hb ⊢
    split
    · rename_i h2
      rw [if_pos h2] at hb
      rw [e] at hb ⊢
      exact release_keeps tag hb (fun _ => by split <;> rfl) (by split <;> rfl) (by split <;> rfl) (by split <;> rfl)
    · exact takeReport_keeps _ s
  · exact .refl s

theorem takeNote_keeps (source target : Station) (tag : Tag) (epoch : Epoch) (o : NoteOutcome) (s : State) :
    Keeps s (takeNote source target tag epoch o s) := by
  have hb := (takeNote_evolves source target tag epoch o s).toEvolvesBase
  unfold takeNote at hb ⊢
  obtain ⟨tx, e⟩ := answerWaiters_spec s.tracker[tag].waiters (noteAnswer o) (noteAnswer_tag o) s
  split
  · rename_i h1
    rw [if_pos h1] at hb
    dsimp only at hb ⊢
    split
    · rename_i h2
      rw [if_pos h2] at hb
      rw [e] at hb ⊢
      exact release_keeps tag hb (fun _ => rfl) rfl rfl rfl
    · exact takeReport_keeps _ s
  · exact .refl s

theorem takeStart_keeps (source : Station) (s : State) : Keeps s (takeStart source s) := by
  unfold takeStart
  have h1 : Keeps s (abandonAll source s) := Keeps.foldl _ (fun s t => abandonEntry_keeps source s t) _ s
  generalize abandonAll source s = u at h1
  have hp : (servePurge source u).tracker = u.tracker ∧ (servePurge source u).lwb = u.lwb ∧
      (servePurge source u).storeOp = u.storeOp ∧ (servePurge source u).hrq = u.hrq := by
    unfold servePurge
    dsimp only
    repeat' split
    all_goals exact ⟨rfl, rfl, rfl, rfl⟩
  have h2 : Keeps u (servePurge source u) := .same (servePurge_evolves source u).toEvolvesBase hp.1 hp.2.1 hp.2.2.1 hp.2.2.2
  exact h1.trans (h2.trans ((Keeps.same (lltStartStands_evolves source _).toEvolvesBase rfl rfl rfl rfl).trans
    (.same (cacheDropOwner_evolves source _).toEvolvesBase rfl rfl rfl rfl)))

theorem takeFrame_keeps (f : Frame) (s : State) (hl : ∀ t, frameTarget f = some t → isRequestFrame f = true →
      takesAsTarget s t = true → s.svq.length < Config.svqCapacity) (hn : frameSource f ≠ s.number) :
    Keeps s (takeFrame f s) := by
  match f with
  | .ask a b c d e g =>
    have hc : Keeps s (takeAsk a b c d e g s) := by
      have hb := (takeAsk_evolves a b c d e g s (hl b rfl rfl) hn).toEvolvesBase
      unfold takeAsk at hb ⊢
      split
      · rename_i h1
        rw [if_pos h1] at hb
        exact .same hb rfl rfl rfl rfl
      · exact .refl s
    exact hc
  | .put a b c d e g =>
    have hc : Keeps s (takePut a b c d e g s) := by
      have hb := (takePut_evolves a b c d e g s (hl b rfl rfl) hn).toEvolvesBase
      unfold takePut at hb ⊢
      split
      · rename_i h1
        rw [if_pos h1] at hb
        exact .same hb rfl rfl rfl rfl
      split
      · exact .refl s
      · exact (Keeps.same (cacheDrop_evolves _ _ s).toEvolvesBase rfl rfl rfl rfl).trans (overtakeByPut_keeps _ _ _)
    exact hc
  | .give a b c d e g => exact takeGive_keeps a b c d e g s hn
  | .note a b c d e => exact takeNote_keeps a b c d e s
  | .recall a b c =>
    have hc : Keeps s (takeRecall a b c s) := by
      unfold takeRecall
      split
      · exact .same (cacheDrop_evolves _ _ s).toEvolvesBase rfl rfl rfl rfl
      · exact .refl s
    exact hc
  | .start a => exact takeStart_keeps a s

theorem frameEnds_keeps (x : EndSlots) (s : State) : Keeps s (frameEnds x s) :=
  .same (frameEnds_evolves x s).toEvolvesBase rfl rfl rfl rfl

theorem standingEnd_keeps (f : Frame) (s : State) : Keeps s (standingEnd f s) := by
  unfold standingEnd
  split
  · dsimp only
    have h1 := frameEnds_keeps (assertSlots s (foundConsistent f)) s
    split
    · rename_i hst
      split
      · exact h1.trans (takeDuplicate_keeps _)
      · rename_i hn
        refine h1.trans (takeFrame_keeps f _ ?_ hn)
        have hc : frameConsistent f = true := by
          by_contra hc
          simp [letsStand, foundConsistent, hc, assertSlots, classify, wiredSlots] at hst
        have hst' : letsStand s f = true := hst
        simp only [letsStand, foundConsistent, hc, if_true, beq_iff_eq] at hst'
        exact classify_refuse hst'
    · exact h1
  · exact frameEnds_keeps _ s

theorem receivedEnd_keeps (bits : List Bool) (others : EndSlots) (s : State) : Keeps s (receivedEnd bits others s) := by
  unfold receivedEnd
  split
  · dsimp only
    have h1 := frameEnds_keeps (assertSlots s (receiveFrame bits)) s
    split
    · rename_i f hf
      split
      · rename_i hst
        refine .trans ?_ (settle_keeps _ _)
        split
        · exact h1.trans (takeDuplicate_keeps _)
        · rename_i hn
          refine h1.trans (takeFrame_keeps f _ ?_ hn)
          rw [hf] at hst
          exact classify_refuse hst
      · exact h1
    · exact h1
  · exact frameEnds_keeps _ s

/-! ### The station's own frame -/

theorem replyOutcome_keeps (target : Station) (o : FrameOutcome) (s : State) : Keeps s (replyOutcome target o s) := by
  have hb := (replyOutcome_reply target o s).toEvolvesBase
  unfold replyOutcome at hb ⊢
  dsimp only at hb ⊢
  cases o with
  | stood => exact .same hb rfl rfl rfl rfl
  | refused => exact .same hb rfl rfl rfl rfl
  | absent => exact .same hb rfl rfl rfl rfl
  | spoiled =>
    dsimp only at hb ⊢
    split
    · rename_i h; rw [if_pos h] at hb; exact .same hb rfl rfl rfl rfl
    · rename_i h; rw [if_neg h] at hb; exact .same hb rfl rfl rfl rfl

theorem broadcastOutcome_keeps (line : Option LineIndex) (o : FrameOutcome) (s : State) :
    Keeps s (broadcastOutcome line o s) := by
  unfold broadcastOutcome
  split
  · exact .same (rpqDropHead_reply s).toEvolvesBase rfl rfl rfl rfl
  · split
    · exact .same (spoilCount_evolves _ s (by omega)).toEvolvesBase rfl rfl rfl rfl
    · exact (takeReport_keeps _ s).trans (enterHalted_keeps _)
  · exact .refl s
  · exact .refl s

theorem ownStartStands_keeps (o : FrameOutcome) (s : State) : Keeps s (ownStartStands o s) := by
  have hb := (ownStartStands_reply o s).toEvolvesBase
  unfold ownStartStands at hb ⊢
  split
  · rename_i h; rw [if_pos h] at hb; exact .same hb rfl rfl rfl rfl
  · exact .refl s

theorem ownEnd_keeps (others : EndSlots) (s : State) : Keeps s (ownEnd others s) := by
  unfold ownEnd
  split
  · rename_i o ho
    dsimp only
    have h0 : Evolves s { s with slots := noSlots } := {}
    have h1 : Keeps s { s with span := .free, slots := noSlots } :=
      .same (h0.trans (setSpan_evolves .free _ (fun o h => absurd h (no_offer_free o)))).toEvolvesBase rfl rfl rfl rfl
    split
    · exact h1
    · unfold ownOutcome
      split
      · rename_i t ht
        split
        · rename_i hq
          exact h1.trans (entryOutcome_keeps t _ _ _ (no_offers_free t) hq)
        · exact h1
      · split
        · exact h1.trans (replyOutcome_keeps _ _ _)
        · exact h1.trans (replyOutcome_keeps _ _ _)
        · exact h1.trans (broadcastOutcome_keeps _ _ _)
        · exact h1.trans ((broadcastOutcome_keeps _ _ _).trans (ownStartStands_keeps _ _))
        · exact h1
        · exact h1
  · exact .refl s

/-! ### Completions -/

theorem reportMended_keeps (m : Bool) (p : Option Station) (line : LineIndex) (tag : Option HostTag) (s : State) :
    Keeps s (reportMended m p line tag s) := by
  unfold reportMended
  split
  · exact takeReport_keeps _ s
  · exact .refl s

theorem lostWrite_keeps (b : Bool) (s : State) : Keeps s { s with lostWrite := b } :=
  .same (lostWrite_evolves b s).toEvolvesBase rfl rfl rfl rfl

/-- The tag of the local READ that the store performs is that of no other record, so its answer leaves the other tags held. -/
theorem localReadEnds_keeps (tag : HostTag) (line : LineIndex) (off : Nat) (size : ReadSize) (e : WordErrors) (s : State)
    (hs : s.storeOp = some (.localRead tag line off size)) : Keeps s (localReadEnds tag line off size e s) := by
  have hb := (localReadEnds_evolves tag line off size e s hs).toEvolvesBase
  have key (r : Response) (u : State) (hr : responseTag r = tag) (hu : EvolvesBase s (respond r u)) (h1 : u.tracker = s.tracker)
      (h2 : u.lwb = s.lwb) (h3 : u.storeOp = none) (h4 : u.hrq = s.hrq) : Keeps s (respond r u) :=
    { toEvolvesBase := hu
      held := fun _ _ h => by
        have k := heldOk_iff.1 h
        rw [heldTags_eq, hs] at k
        have k2 : HeldBy (tag :: (waiterTags s.tracker ++ s.lwb.filterMap (·.confirm))) s.hrq := by
          refine k.perm ?_
          show (waiterTags s.tracker ++ (s.lwb.filterMap (·.confirm) ++ [tag])).Perm _
          rw [← List.append_assoc]
          exact List.perm_append_singleton _ _
        have k3 := k2.answerOne
        rw [heldOk_iff, heldTags_eq]
        show HeldBy (waiterTags u.tracker ++ localTags u.lwb u.storeOp) (u.hrq.filter fun it => it.tag != responseTag r)
        rw [h1, h2, h3, h4, hr, localTags_none _ _ (by simp)]
        exact k3
      asks := fun _ _ _ _ => AsksOk_of h1 hu.number }
  unfold localReadEnds at hb ⊢
  dsimp only at hb ⊢
  obtain ⟨a, b, c, d, em⟩ := reportMended_eq (readMends s line e (readWords off size)) none line (some tag)
    { s with poison := poisonAfterRead s line e (readWords off size), storeOp := none }
  rw [em] at hb ⊢
  split
  · rename_i h; rw [if_pos h] at hb; exact key _ _ rfl hb rfl rfl rfl rfl
  · rename_i h; rw [if_neg h] at hb; exact key _ _ rfl hb rfl rfl rfl rfl

/-- A drain, from the state in which the line has been written. -/
theorem drainEnds_keeps (b : LwbEntry) (rest : List LwbEntry) (e : WordErrors) (s : State) (hs : s.storeOp = some .drain)
    (hl : s.lwb = b :: rest) : Keeps (lineWritten s b.line b.mask b.data e) (drainEnds b rest e s) := by
  have hb : EvolvesBase (lineWritten s b.line b.mask b.data e) (drainEnds b rest e s) :=
    (drainEnds_evolves b rest e s hl).toEvolvesBase
  have key (u : State) (hu : EvolvesBase (lineWritten s b.line b.mask b.data e) u) (h1 : u.tracker = s.tracker)
      (h2 : u.lwb = rest) (h3 : u.storeOp = none)
      (h4 : u.hrq = match b.confirm with
        | some tag => s.hrq.filter fun it => it.tag != tag
        | none => s.hrq) : Keeps (lineWritten s b.line b.mask b.data e) u :=
    { toEvolvesBase := hu
      held := fun _ _ h => by
        have k : HeldBy (waiterTags s.tracker ++ localTags s.lwb s.storeOp) s.hrq :=
          (heldOk_iff (s := lineWritten s b.line b.mask b.data e)).1 h
        rw [localTags_none _ _ (by rw [hs]; simp), hl] at k
        rw [heldOk_iff, heldTags_eq, h1, h2, h3, h4, localTags_none _ _ (by simp)]
        cases hc : b.confirm with
        | none => simpa [hc] using k
        | some tag =>
          rw [List.filterMap_cons_some hc] at k
          have k2 : HeldBy (tag :: (waiterTags s.tracker ++ rest.filterMap (·.confirm))) s.hrq := k.perm List.perm_middle
          exact k2.answerOne
      asks := fun _ _ _ _ => AsksOk_of h1 hu.number }
  unfold drainEnds at hb ⊢
  dsimp only at hb ⊢
  generalize lineWrite s b.line b.mask b.data e = w at hb ⊢
  obtain ⟨a, b', c, d, em⟩ := reportMended_eq w.mended none b.line none
    { s with mem := w.mem, poison := w.poison, storeOp := none, lwb := rest }
  rw [em] at hb ⊢
  unfold drainAnswer at hb ⊢
  cases hc : b.confirm with
  | none =>
    cases hp : w.performed <;> (rw [hc, hp] at hb; exact key _ hb rfl rfl rfl (by rw [hc]; try rfl))
  | some tag =>
    cases hp : w.performed <;> (rw [hc, hp] at hb; exact key _ hb rfl rfl rfl (by rw [hc]; try rfl))

theorem serveReadEnds_keeps (op : ServeOp) (keep : Bool) (tag : Tag) (epoch : Epoch) (e : WordErrors) (s : State)
    (hst : s.storeOp = some .serve) (hop : s.serveOp = some op) : Keeps s (serveReadEnds op keep tag epoch e s) := by
  have hb := (serveReadEnds_evolves op keep tag epoch e s hst hop).toEvolvesBase
  have key (t : State) (ht : EvolvesBase s t) (h : t.tracker = s.tracker ∧ t.lwb = s.lwb ∧ t.storeOp = none ∧ t.hrq = s.hrq) :
      Keeps s t :=
    setStore_keeps ht h.1 h.2.2.2 (by rw [hst]; simp) (by rw [h.2.2.1]; simp) (by rw [h.2.1])
  refine key _ hb ?_
  unfold serveReadEnds
  dsimp only
  obtain ⟨a, b, c, d, em⟩ := reportMended_eq (readMends s op.req.line e allWords) (some op.req.requester) op.req.line none
    (serveEnd { s with poison := poisonAfterRead s op.req.line e allWords, storeOp := none })
  rw [em]
  split
  · exact ⟨rfl, rfl, rfl, rfl⟩
  split
  · obtain ⟨q, n, eq, _⟩ := appendNote_eq op.req .poison (reportPoison (some op.req.requester) op.req.line none
      { serveEnd { s with poison := poisonAfterRead s op.req.line e allWords, storeOp := none } with
        flags := a, counts := b, firstFault := c, irq := d })
    rw [eq]; exact ⟨rfl, rfl, rfl, rfl⟩
  · split
    · obtain ⟨q, l, n, eq, _⟩ := lltLend_eq op.req.line op.req.requester
        { serveEnd { s with poison := poisonAfterRead s op.req.line e allWords, storeOp := none } with
          flags := a, counts := b, firstFault := c, irq := d }
      rw [eq]; exact ⟨rfl, rfl, rfl, rfl⟩
    · exact ⟨rfl, rfl, rfl, rfl⟩

/-- A serve write, from the state in which the line has been written. -/
theorem serveWriteEnds_keeps (op : ServeOp) (mask : Mask) (data : Line) (e : WordErrors) (s : State)
    (hst : s.storeOp = some .serve) (hop : s.serveOp = some op) :
    Keeps (lineWritten s op.req.line mask data e) (serveWriteEnds op mask data e s) := by
  have hb : EvolvesBase (lineWritten s op.req.line mask data e) (serveWriteEnds op mask data e s) :=
    (serveWriteEnds_evolves op mask data e s hst hop).toEvolvesBase
  have key (t : State) (ht : EvolvesBase (lineWritten s op.req.line mask data e) t)
      (h : t.tracker = s.tracker ∧ t.lwb.filterMap (·.confirm) = s.lwb.filterMap (·.confirm) ∧ t.storeOp = none ∧ t.hrq = s.hrq) :
      Keeps (lineWritten s op.req.line mask data e) t :=
    setStore_keeps ht h.1 h.2.2.2 (by show ∀ a b c d, s.storeOp ≠ _; rw [hst]; simp) (by rw [h.2.2.1]; simp) h.2.1
  refine key _ hb ?_
  clear hb key
  unfold serveWriteEnds
  dsimp only
  generalize lineWrite s op.req.line mask data e = w
  have e2 : ∃ l, (if w.performed then lwbTakePut op.req.line mask data (serveEnd { s with mem := w.mem, poison := w.poison, storeOp := none })
      else serveEnd { s with mem := w.mem, poison := w.poison, storeOp := none }) =
      { s with mem := w.mem, poison := w.poison, storeOp := none, serveOp := none, reserve := 0, lwb := l } ∧
      l.filterMap (·.confirm) = s.lwb.filterMap (·.confirm) := by
    split
    · refine ⟨_, rfl, ?_⟩
      rw [List.filterMap_map]
      exact List.filterMap_congr fun b _ => by dsimp only [Function.comp]; split <;> rfl
    · exact ⟨s.lwb, rfl, rfl⟩
  obtain ⟨l, e2, hl⟩ := e2
  rw [e2]
  obtain ⟨a, b, c, d, em⟩ := reportMended_eq w.mended (some op.req.requester) op.req.line none
    { s with mem := w.mem, poison := w.poison, storeOp := none, serveOp := none, reserve := 0, lwb := l }
  rw [em]
  have hn (o : NoteOutcome) (u : State) (h : u.tracker = s.tracker ∧ u.lwb.filterMap (·.confirm) = s.lwb.filterMap (·.confirm) ∧
      u.storeOp = none ∧ u.hrq = s.hrq) : (appendNote op.req o u).tracker = s.tracker ∧
      (appendNote op.req o u).lwb.filterMap (·.confirm) = s.lwb.filterMap (·.confirm) ∧
      (appendNote op.req o u).storeOp = none ∧ (appendNote op.req o u).hrq = s.hrq := by
    obtain ⟨q, n, eq, _⟩ := appendNote_eq op.req o u
    rw [eq]; exact h
  split
  · exact ⟨rfl, hl, rfl, rfl⟩
  split
  · exact hn _ _ ⟨rfl, hl, rfl, rfl⟩
  · exact hn _ _ ⟨rfl, hl, rfl, rfl⟩

theorem fillLineEnds_keeps (s : State) (hs : s.storeOp = some .fill) : Keeps (filled s) (fillLineEnds s) := by
  have hb := (fillLineEnds_evolves s hs).toEvolvesBase
  have h : (fillLineEnds s).tracker = s.tracker ∧ (fillLineEnds s).lwb = s.lwb ∧ (fillLineEnds s).storeOp = none ∧
      (fillLineEnds s).hrq = s.hrq := by
    unfold fillLineEnds fillEnds
    dsimp only
    repeat' split
    all_goals exact ⟨rfl, rfl, rfl, rfl⟩
  exact setStore_keeps hb h.1 h.2.2.2 (by show ∀ a b c d, s.storeOp ≠ _; rw [hs]; simp) (by rw [h.2.2.1]; simp) (by rw [h.2.1]; rfl)

/-! ### Timers and the idle station -/

theorem backoffExpiryEvent_keeps (t : Tag) (s : State) : Keeps s (backoffExpiryEvent t s) := by
  unfold backoffExpiryEvent
  dsimp only
  split
  · rename_i h
    exact (elapse_keeps _ s).trans (backoffExpires_keeps t _ (by rw [elapse_get]; exact h))
  · exact .refl s

theorem replyExpiryEvent_keeps (t : Tag) (s : State) : Keeps s (replyExpiryEvent t s) := by
  unfold replyExpiryEvent
  dsimp only
  split
  · rename_i h
    exact (elapse_keeps _ s).trans (replyTimerExpires_keeps t _ (by rw [elapse_get]; exact h))
  · exact .refl s

theorem idle_keeps (s : State) : Keeps s (idle s) := by
  unfold idle
  split
  · exact .same (later_evolves 1 s).toEvolvesBase rfl rfl rfl rfl
  split
  · split
    · exact (replyExpiryEvent_keeps _ s).trans (settle_keeps _ _)
    · exact backoffExpiryEvent_keeps _ s
  · split
    · exact (serveTakeNow_keeps s).trans (settle_keeps _ _)
    · exact elapse_keeps 1 s

/-! ### The commands -/

theorem event_keeps {s t : State} {f : State → State} (hf : Keeps s (f s)) (h : event s f = .next t) : Keeps s t := by
  rw [unlessHeld_next h]
  split
  · exact .refl s
  · exact hf.trans (settle_keeps _ _)

theorem held_keeps {s u t : State} (hf : Keeps s t) (h : unlessHeld s t = .next u) : Keeps s u := by
  rw [unlessHeld_next h]
  split
  · exact .refl s
  · exact hf

theorem spanEvent_keeps {p : SpanPhase} {s t u : State} (hp : ∀ x, Offers p x → Offers s.span x) (hf : Keeps s t)
    (h : spanEvent p s t = .next u) : Keeps s u := by
  rw [(Host.Outcome.next.inj h).symm]
  split
  · exact .same (setSpan_evolves p s hp).toEvolvesBase rfl rfl rfl rfl
  · exact hf

theorem standingEvent_keeps {f : Frame} {s t : State} (h : standingEvent f s = .next t) : Keeps s t :=
  spanEvent_keeps (fun _ => spanAfterFrame_offers) ((standingEnd_keeps f s).trans (settle_keeps _ _)) h

theorem openContest_keeps (s : State) : Keeps s (openContest s) := by
  have hb := (openContest_evolves s).toEvolvesBase
  unfold openContest at hb ⊢
  cases h : s.span <;> (rw [h] at hb; exact .same hb rfl rfl rfl rfl)

theorem takeDecision_same (others : List Contender) (s : State) : (takeDecision others s).tracker = s.tracker ∧
    (takeDecision others s).lwb = s.lwb ∧ (takeDecision others s).storeOp = s.storeOp ∧ (takeDecision others s).hrq = s.hrq := by
  unfold takeDecision decideContest winContest idleContest
  repeat' split
  all_goals exact ⟨rfl, rfl, rfl, rfl⟩

theorem takeDecision_keeps (others : List Contender) (s : State) : Keeps s (takeDecision others s) :=
  let h := takeDecision_same others s
  .same (takeDecision_evolves others s).toEvolvesBase h.1 h.2.1 h.2.2.1 h.2.2.2

theorem storeGrant_keeps (s : State) : Keeps s ((grant s).getD s) := by
  cases h : grant s with
  | none => exact .refl s
  | some t => exact grant_keeps h

theorem localReadComplete_keeps {e : WordErrors} {s t : State} (h : execLocalReadComplete e s = .next t) : Keeps s t := by
  unfold execLocalReadComplete at h
  refine event_keeps ?_ h
  split
  · rename_i hs
    exact localReadEnds_keeps _ _ _ _ e s hs
  · exact .refl s

theorem serveReadComplete_keeps {e : WordErrors} {s t : State} (h : execServeReadComplete e s = .next t) : Keeps s t := by
  unfold execServeReadComplete at h
  refine event_keeps ?_ h
  split
  · rename_i op hst hop
    split
    · exact serveReadEnds_keeps op _ _ _ e s hst hop
    · exact .refl s
  · exact .refl s

/-- Every command that neither moves the reset pin nor writes the store. -/
theorem exec_keeps {c : Instr} {s t : State} (hc : ordinary c = true) (h : exec c s = .next t) : Keeps s t := by
  cases c with
  | pinResetAssert => cases hc
  | pinResetRelease _ _ => cases hc
  | hostRequestArrival bytes => exact held_keeps (arriveAll_keeps _ bytes s) h
  | remoteReadStart tag => exact event_keeps (startNamed_keeps _ tag s) h
  | remoteWriteStart tag => exact event_keeps (startNamed_keeps _ tag s) h
  | localWriteTaken tag => exact event_keeps (startNamed_keeps _ tag s) h
  | fenceStart tag => exact event_keeps (startNamed_keeps _ tag s) h
  | fenceAnswer => exact event_keeps (answerFence_keeps s) h
  | run tag => exact event_keeps (arrive_keeps _ s) h
  | restart tag => exact event_keeps (arrive_keeps _ s) h
  | dropCache tag => exact event_keeps (arrive_keeps _ s) h
  | clearFaults tag => exact event_keeps (arrive_keeps _ s) h
  | setupWordWrite tag w v => exact event_keeps (arrive_keeps _ s) h
  | interruptMaskWrite tag v => exact event_keeps (arrive_keeps _ s) h
  | controlWrite tag w v => exact event_keeps (arrive_keeps _ s) h
  | contestOpening => exact spanEvent_keeps (fun _ => spanOpened_offers) (openContest_keeps s) h
  | contestDecision others => exact spanEvent_keeps (fun _ => spanDecided_offers) (takeDecision_keeps others s) h
  | frameFalls bits others => exact spanEvent_keeps (fun _ => spanAfterFrame_offers) (receivedEnd_keeps bits others s) h
  | askStands => exact standingEvent_keeps h
  | putStands => exact standingEvent_keeps h
  | giveStands => exact standingEvent_keeps h
  | noteStands => exact standingEvent_keeps h
  | recallStands => exact standingEvent_keeps h
  | startStands => exact standingEvent_keeps h
  | senderFrameEnd others => exact event_keeps (ownEnd_keeps others s) h
  | backoffExpiry t => exact held_keeps (backoffExpiryEvent_keeps t s) h
  | replyTimerExpiry t => exact event_keeps (replyExpiryEvent_keeps t s) h
  | serveTake => exact event_keeps (serveTakeNow_keeps s) h
  | storeGrant => exact event_keeps (storeGrant_keeps s) h
  | initFillLineComplete => cases hc
  | localReadComplete e => exact localReadComplete_keeps h
  | drainComplete e => cases hc
  | serveReadComplete e => exact serveReadComplete_keeps h
  | serveWriteComplete e => cases hc

/-! ### What every step does -/

/-- The invariants of the requests, with those they rest on. -/
structure RequestsOk (s : State) : Prop where
  queues : QueuesOk s
  setup : SetupOk s
  tracker : TrackerOk s
  held : HeldOk s

theorem Keeps.requests {s t : State} (k : Keeps s t) (h : RequestsOk s) : HeldOk t ∧ (AsksOk s → AsksOk t) :=
  ⟨k.held h.queues h.tracker h.held, k.asks h.queues h.setup h.tracker h.held⟩

theorem RequestsOk_of {s t : State} (h1 : QueuesOk s → QueuesOk t) (h2 : SetupOk s → SetupOk t) (h3 : TrackerOk s → TrackerOk t)
    (h4 : HeldOk s → HeldOk t) (h : RequestsOk s) : RequestsOk t :=
  ⟨h1 h.queues, h2 h.setup, h3 h.tracker, h4 h.held⟩

theorem pinReset_held (s : State) : HeldOk (pinReset s) := by
  have e : waiterTags (pinReset s).tracker = [] := by
    refine List.flatMap_eq_nil_iff.2 fun t _ => ?_
    rw [show (pinReset s).tracker[t] = State.resetEntry from resetTracker_get t]; rfl
  rw [heldOk_iff, heldTags_eq, e]
  exact ⟨List.nodup_nil, fun tag => ⟨fun h => (by cases h), fun ⟨it, h, _⟩ => (by cases h)⟩⟩

theorem pinReset_asks (s : State) : AsksOk (pinReset s) where
  single := fun t u h => by
    rw [show (pinReset s).tracker[t] = State.resetEntry from resetTracker_get t] at h; cases h
  targets := fun t h => by
    rw [show (pinReset s).tracker[t] = State.resetEntry from resetTracker_get t] at h; exact absurd rfl h
  refusals := fun t => by
    rw [show (pinReset s).tracker[t] = State.resetEntry from resetTracker_get t]; exact Nat.zero_le _

/-- The store's bytes and poisoned words are nothing to the requests. -/
theorem RequestsOk_store {s : State} (m : Memory) (p : List Nat) (h : RequestsOk s) :
    RequestsOk { s with mem := m, poison := p } :=
  RequestsOk_of (s := s) (QueuesOk_of rfl rfl rfl rfl rfl rfl rfl) (SetupOk_of rfl rfl rfl rfl rfl) (TrackerOk_of rfl rfl rfl)
    (HeldOk_of rfl rfl rfl rfl) h

theorem Keeps.requests_store {s t : State} {m : Memory} {p : List Nat} (k : Keeps { s with mem := m, poison := p } t)
    (h : RequestsOk s) : HeldOk t ∧ (AsksOk s → AsksOk t) :=
  let r := k.requests (RequestsOk_store m p h)
  ⟨r.1, fun a => r.2 (AsksOk_of (s := s) rfl rfl a)⟩

theorem RequestsOk_pending {s : State} (q : List Instr) (h : RequestsOk s) : RequestsOk { s with pending := q } :=
  RequestsOk_of (s := s) (QueuesOk_of rfl rfl rfl rfl rfl rfl rfl) (SetupOk_of rfl rfl rfl rfl rfl) (TrackerOk_of rfl rfl rfl)
    (HeldOk_of rfl rfl rfl rfl) h

theorem event_keeps_from {s t : State} {f : State → State} (h : event s f = .next t) :
    t = s ∨ ∀ a, Keeps a (f s) → Keeps a t := by
  rw [unlessHeld_next h]
  split
  · exact .inl rfl
  · exact .inr fun _ hf => hf.trans (settle_keeps _ _)

theorem fillComplete_keeps {s t : State} (h : execInitFillLineComplete s = .next t) : Keeps s t ∨ Keeps (filled s) t := by
  unfold execInitFillLineComplete at h
  rcases event_keeps_from h with rfl | k
  · exact .inl (.refl _)
  · by_cases hf : s.storeOp = some .fill
    · exact .inr (k _ (by rw [if_pos hf]; exact fillLineEnds_keeps s hf))
    · exact .inl (k _ (by rw [if_neg hf]; exact .refl s))

theorem drainComplete_keeps {e : WordErrors} {s t : State} (h : execDrainComplete e s = .next t) :
    Keeps s t ∨ ∃ b : LwbEntry, Keeps (lineWritten s b.line b.mask b.data e) t := by
  unfold execDrainComplete at h
  rcases event_keeps_from h with rfl | k
  · exact .inl (.refl _)
  · clear h
    split at k
    · rename_i b rest hs hl
      exact .inr ⟨b, k _ (drainEnds_keeps b rest e s hs hl)⟩
    · exact .inl (k _ (.refl s))

theorem serveWriteComplete_keeps {e : WordErrors} {s t : State} (h : execServeWriteComplete e s = .next t) :
    Keeps s t ∨ ∃ line mask data, Keeps (lineWritten s line mask data e) t := by
  unfold execServeWriteComplete at h
  rcases event_keeps_from h with rfl | k
  · exact .inl (.refl _)
  · clear h
    split at k
    · rename_i op hst hop
      split at k
      · exact .inr ⟨_, _, _, k _ (serveWriteEnds_keeps op _ _ e s hst hop)⟩
      · exact .inl (k _ (.refl s))
    · exact .inl (k _ (.refl s))

theorem pinRelease_requests (a b : BitVec 4) (s : State) : RequestsOk (pinRelease a b s) ∧ AsksOk (pinRelease a b s) := by
  refine ⟨⟨QueuesOk_of (s := pinReset s) rfl rfl rfl rfl rfl rfl rfl (pinReset_queues s), pinRelease_setup a b s,
    TrackerOk_of (s := pinReset s) rfl rfl rfl (pinReset_tracker s),
    HeldOk_of (s := pinReset s) rfl rfl rfl rfl (pinReset_held s)⟩, ?_⟩
  have get (t : Tag) : (pinRelease a b s).tracker[t] = State.resetEntry := resetTracker_get t
  exact ⟨fun t u h => (by rw [get t] at h; cases h), fun t h => (by rw [get t] at h; exact absurd rfl h),
    fun t => (by rw [get t]; exact Nat.zero_le _)⟩

/-- Every command keeps the requests held and the entries as `AsksOk` has them. -/
theorem exec_requests {c : Instr} {s t : State} (h : exec c s = .next t) (hr : RequestsOk s) :
    HeldOk t ∧ (AsksOk s → AsksOk t) := by
  by_cases hc : ordinary c = true
  · exact (exec_keeps hc h).requests hr
  · cases c with
    | pinResetAssert =>
      rw [(Host.Outcome.next.inj h).symm]; exact ⟨pinReset_held s, fun _ => pinReset_asks s⟩
    | pinResetRelease a b =>
      rw [(Host.Outcome.next.inj h).symm]
      split
      · obtain ⟨hu, ha⟩ := pinRelease_requests a b s
        have k := (settle_keeps s (pinRelease a b s)).requests hu
        exact ⟨k.1, fun _ => k.2 ha⟩
      · exact ⟨hr.held, id⟩
    | initFillLineComplete =>
      exact (fillComplete_keeps h).elim (fun k => k.requests hr) fun k => Keeps.requests_store k hr
    | drainComplete e =>
      exact (drainComplete_keeps h).elim (fun k => k.requests hr) fun ⟨_, k⟩ => Keeps.requests_store k hr
    | serveWriteComplete e =>
      exact (serveWriteComplete_keeps h).elim (fun k => k.requests hr) fun ⟨_, _, _, k⟩ => Keeps.requests_store k hr
    | _ => exact absurd rfl hc

/-- Every step keeps the requests held and the entries as `AsksOk` has them. -/
theorem step_requests {s t : State} (h : step s = .next t) (hr : RequestsOk s) : HeldOk t ∧ (AsksOk s → AsksOk t) := by
  unfold step at h
  split at h
  · have k := exec_requests h (RequestsOk_pending _ hr)
    exact ⟨k.1, fun a => k.2 (AsksOk_of (s := s) rfl rfl a)⟩
  · rw [(Host.Outcome.next.inj h).symm]
    exact (idle_keeps s).requests hr

end Sys2Proof.Laws
end

