-- ==== Sys2Proof/Laws/State.lean ====
section
/-! SUPPORT. The fields of the state after each shared update: one rewrite for every field written, and one law `_frame` whose
conjuncts are the rewrites for every field left as it is. All are true by unfolding; a proof cites them in place of the updates. -/

-- Theorems are elaborated one after another: many at once take more threads than the memory limit allows.
set_option Elab.async false

namespace Sys2Proof.Laws

open Sys2Proof.Machine

@[simp] theorem send_hostTx (r : Response) (s : State) : (send r s).hostTx = s.hostTx ++ [r] := rfl
@[simp] theorem send_frame (r : Response) (s : State) :
    (send r s).pinHeld = s.pinHeld ∧ (send r s).station = s.station ∧ (send r s).runRequested = s.runRequested ∧
    (send r s).setup = s.setup ∧ (send r s).rights = s.rights ∧ (send r s).serveLimit = s.serveLimit ∧
    (send r s).number = s.number ∧ (send r s).sizeCode = s.sizeCode ∧ (send r s).span = s.span ∧ (send r s).slots = s.slots ∧
    (send r s).waived = s.waived ∧ (send r s).budget = s.budget ∧ (send r s).spoilCount = s.spoilCount ∧
    (send r s).tracker = s.tracker ∧ (send r s).orq = s.orq ∧ (send r s).cache = s.cache ∧ (send r s).svq = s.svq ∧
    (send r s).serveOp = s.serveOp ∧ (send r s).reserve = s.reserve ∧ (send r s).passCount = s.passCount ∧
    (send r s).rpq = s.rpq ∧ (send r s).llt = s.llt ∧ (send r s).mem = s.mem ∧ (send r s).poison = s.poison ∧
    (send r s).storeOp = s.storeOp ∧ (send r s).turn = s.turn ∧ (send r s).fillProgress = s.fillProgress ∧
    (send r s).lwb = s.lwb ∧ (send r s).hrq = s.hrq ∧ (send r s).lostWrite = s.lostWrite ∧ (send r s).flags = s.flags ∧
    (send r s).counts = s.counts ∧ (send r s).firstFault = s.firstFault ∧ (send r s).irqMask = s.irqMask ∧
    (send r s).irq = s.irq ∧ (send r s).now = s.now ∧ (send r s).freeCount = s.freeCount ∧ (send r s).pending = s.pending := by
  simp only [send, and_self]

@[simp] theorem respond_hostTx (r : Response) (s : State) : (respond r s).hostTx = s.hostTx ++ [r] := rfl
@[simp] theorem respond_hrq (r : Response) (s : State) :
    (respond r s).hrq = s.hrq.filter fun it => it.tag != responseTag r := rfl
@[simp] theorem respond_frame (r : Response) (s : State) :
    (respond r s).pinHeld = s.pinHeld ∧ (respond r s).station = s.station ∧ (respond r s).runRequested = s.runRequested ∧
    (respond r s).setup = s.setup ∧ (respond r s).rights = s.rights ∧ (respond r s).serveLimit = s.serveLimit ∧
    (respond r s).number = s.number ∧ (respond r s).sizeCode = s.sizeCode ∧ (respond r s).span = s.span ∧
    (respond r s).slots = s.slots ∧ (respond r s).waived = s.waived ∧ (respond r s).budget = s.budget ∧
    (respond r s).spoilCount = s.spoilCount ∧ (respond r s).tracker = s.tracker ∧ (respond r s).orq = s.orq ∧
    (respond r s).cache = s.cache ∧ (respond r s).svq = s.svq ∧ (respond r s).serveOp = s.serveOp ∧
    (respond r s).reserve = s.reserve ∧ (respond r s).passCount = s.passCount ∧ (respond r s).rpq = s.rpq ∧
    (respond r s).llt = s.llt ∧ (respond r s).mem = s.mem ∧ (respond r s).poison = s.poison ∧
    (respond r s).storeOp = s.storeOp ∧ (respond r s).turn = s.turn ∧ (respond r s).fillProgress = s.fillProgress ∧
    (respond r s).lwb = s.lwb ∧ (respond r s).lostWrite = s.lostWrite ∧ (respond r s).flags = s.flags ∧
    (respond r s).counts = s.counts ∧ (respond r s).firstFault = s.firstFault ∧ (respond r s).irqMask = s.irqMask ∧
    (respond r s).irq = s.irq ∧ (respond r s).now = s.now ∧ (respond r s).freeCount = s.freeCount ∧
    (respond r s).pending = s.pending := by
  simp only [respond, and_self]

@[simp] theorem markStarted_hrq (tag : HostTag) (s : State) :
    (markStarted tag s).hrq = s.hrq.map fun it => if it.tag = tag then { it with started := true } else it := rfl
@[simp] theorem markStarted_frame (tag : HostTag) (s : State) :
    (markStarted tag s).pinHeld = s.pinHeld ∧ (markStarted tag s).station = s.station ∧
    (markStarted tag s).runRequested = s.runRequested ∧ (markStarted tag s).setup = s.setup ∧
    (markStarted tag s).rights = s.rights ∧ (markStarted tag s).serveLimit = s.serveLimit ∧
    (markStarted tag s).number = s.number ∧ (markStarted tag s).sizeCode = s.sizeCode ∧ (markStarted tag s).span = s.span ∧
    (markStarted tag s).slots = s.slots ∧ (markStarted tag s).waived = s.waived ∧ (markStarted tag s).budget = s.budget ∧
    (markStarted tag s).spoilCount = s.spoilCount ∧ (markStarted tag s).tracker = s.tracker ∧ (markStarted tag s).orq = s.orq
    ∧ (markStarted tag s).cache = s.cache ∧ (markStarted tag s).svq = s.svq ∧ (markStarted tag s).serveOp = s.serveOp ∧
    (markStarted tag s).reserve = s.reserve ∧ (markStarted tag s).passCount = s.passCount ∧ (markStarted tag s).rpq = s.rpq ∧
    (markStarted tag s).llt = s.llt ∧ (markStarted tag s).mem = s.mem ∧ (markStarted tag s).poison = s.poison ∧
    (markStarted tag s).storeOp = s.storeOp ∧ (markStarted tag s).turn = s.turn ∧
    (markStarted tag s).fillProgress = s.fillProgress ∧ (markStarted tag s).lwb = s.lwb ∧
    (markStarted tag s).lostWrite = s.lostWrite ∧ (markStarted tag s).hostTx = s.hostTx ∧ (markStarted tag s).flags = s.flags
    ∧ (markStarted tag s).counts = s.counts ∧ (markStarted tag s).firstFault = s.firstFault ∧
    (markStarted tag s).irqMask = s.irqMask ∧ (markStarted tag s).irq = s.irq ∧ (markStarted tag s).now = s.now ∧
    (markStarted tag s).freeCount = s.freeCount ∧ (markStarted tag s).pending = s.pending := by
  simp only [markStarted, and_self]

@[simp] theorem rpqAppend_rpq (f : Frame) (w : Bool) (s : State) :
    (rpqAppend f w s).rpq = s.rpq ++ [{ frame := f, writeCaused := w, covered := false }] := rfl
@[simp] theorem rpqAppend_spoilCount (f : Frame) (w : Bool) (s : State) :
    (rpqAppend f w s).spoilCount = if s.rpq.isEmpty then 0 else s.spoilCount := rfl
@[simp] theorem rpqAppend_frame (f : Frame) (w : Bool) (s : State) :
    (rpqAppend f w s).pinHeld = s.pinHeld ∧ (rpqAppend f w s).station = s.station ∧
    (rpqAppend f w s).runRequested = s.runRequested ∧ (rpqAppend f w s).setup = s.setup ∧ (rpqAppend f w s).rights = s.rights
    ∧ (rpqAppend f w s).serveLimit = s.serveLimit ∧ (rpqAppend f w s).number = s.number ∧
    (rpqAppend f w s).sizeCode = s.sizeCode ∧ (rpqAppend f w s).span = s.span ∧ (rpqAppend f w s).slots = s.slots ∧
    (rpqAppend f w s).waived = s.waived ∧ (rpqAppend f w s).budget = s.budget ∧ (rpqAppend f w s).tracker = s.tracker ∧
    (rpqAppend f w s).orq = s.orq ∧ (rpqAppend f w s).cache = s.cache ∧ (rpqAppend f w s).svq = s.svq ∧
    (rpqAppend f w s).serveOp = s.serveOp ∧ (rpqAppend f w s).reserve = s.reserve ∧ (rpqAppend f w s).passCount = s.passCount
    ∧ (rpqAppend f w s).llt = s.llt ∧ (rpqAppend f w s).mem = s.mem ∧ (rpqAppend f w s).poison = s.poison ∧
    (rpqAppend f w s).storeOp = s.storeOp ∧ (rpqAppend f w s).turn = s.turn ∧ (rpqAppend f w s).fillProgress = s.fillProgress
    ∧ (rpqAppend f w s).lwb = s.lwb ∧ (rpqAppend f w s).hrq = s.hrq ∧ (rpqAppend f w s).lostWrite = s.lostWrite ∧
    (rpqAppend f w s).hostTx = s.hostTx ∧ (rpqAppend f w s).flags = s.flags ∧ (rpqAppend f w s).counts = s.counts ∧
    (rpqAppend f w s).firstFault = s.firstFault ∧ (rpqAppend f w s).irqMask = s.irqMask ∧ (rpqAppend f w s).irq = s.irq ∧
    (rpqAppend f w s).now = s.now ∧ (rpqAppend f w s).freeCount = s.freeCount ∧ (rpqAppend f w s).pending = s.pending := by
  simp only [rpqAppend, and_self]

@[simp] theorem rpqDropHead_rpq (s : State) : (rpqDropHead s).rpq = s.rpq.tail := rfl
@[simp] theorem rpqDropHead_spoilCount (s : State) : (rpqDropHead s).spoilCount = 0 := rfl
@[simp] theorem rpqDropHead_frame (s : State) :
    (rpqDropHead s).pinHeld = s.pinHeld ∧ (rpqDropHead s).station = s.station ∧ (rpqDropHead s).runRequested = s.runRequested
    ∧ (rpqDropHead s).setup = s.setup ∧ (rpqDropHead s).rights = s.rights ∧ (rpqDropHead s).serveLimit = s.serveLimit ∧
    (rpqDropHead s).number = s.number ∧ (rpqDropHead s).sizeCode = s.sizeCode ∧ (rpqDropHead s).span = s.span ∧
    (rpqDropHead s).slots = s.slots ∧ (rpqDropHead s).waived = s.waived ∧ (rpqDropHead s).budget = s.budget ∧
    (rpqDropHead s).tracker = s.tracker ∧ (rpqDropHead s).orq = s.orq ∧ (rpqDropHead s).cache = s.cache ∧
    (rpqDropHead s).svq = s.svq ∧ (rpqDropHead s).serveOp = s.serveOp ∧ (rpqDropHead s).reserve = s.reserve ∧
    (rpqDropHead s).passCount = s.passCount ∧ (rpqDropHead s).llt = s.llt ∧ (rpqDropHead s).mem = s.mem ∧
    (rpqDropHead s).poison = s.poison ∧ (rpqDropHead s).storeOp = s.storeOp ∧ (rpqDropHead s).turn = s.turn ∧
    (rpqDropHead s).fillProgress = s.fillProgress ∧ (rpqDropHead s).lwb = s.lwb ∧ (rpqDropHead s).hrq = s.hrq ∧
    (rpqDropHead s).lostWrite = s.lostWrite ∧ (rpqDropHead s).hostTx = s.hostTx ∧ (rpqDropHead s).flags = s.flags ∧
    (rpqDropHead s).counts = s.counts ∧ (rpqDropHead s).firstFault = s.firstFault ∧ (rpqDropHead s).irqMask = s.irqMask ∧
    (rpqDropHead s).irq = s.irq ∧ (rpqDropHead s).now = s.now ∧ (rpqDropHead s).freeCount = s.freeCount ∧
    (rpqDropHead s).pending = s.pending := by
  simp only [rpqDropHead, and_self]

@[simp] theorem takeReport_flags (r : FaultReport) (s : State) :
    (takeReport r s).flags = s.flags ||| flagAt (faultPosition r.kind) := rfl
@[simp] theorem takeReport_counts (r : FaultReport) (s : State) :
    (takeReport r s).counts = s.counts.set (faultPosition r.kind).val (countUp s.counts[faultPosition r.kind]) := rfl
@[simp] theorem takeReport_firstFault (r : FaultReport) (s : State) :
    (takeReport r s).firstFault = s.firstFault.or (some r) := rfl
@[simp] theorem takeReport_irq (r : FaultReport) (s : State) :
    (takeReport r s).irq = irqLevel (s.flags ||| flagAt (faultPosition r.kind)) s.irqMask := rfl
@[simp] theorem takeReport_frame (r : FaultReport) (s : State) :
    (takeReport r s).pinHeld = s.pinHeld ∧ (takeReport r s).station = s.station ∧
    (takeReport r s).runRequested = s.runRequested ∧ (takeReport r s).setup = s.setup ∧ (takeReport r s).rights = s.rights ∧
    (takeReport r s).serveLimit = s.serveLimit ∧ (takeReport r s).number = s.number ∧ (takeReport r s).sizeCode = s.sizeCode ∧
    (takeReport r s).span = s.span ∧ (takeReport r s).slots = s.slots ∧ (takeReport r s).waived = s.waived ∧
    (takeReport r s).budget = s.budget ∧ (takeReport r s).spoilCount = s.spoilCount ∧ (takeReport r s).tracker = s.tracker ∧
    (takeReport r s).orq = s.orq ∧ (takeReport r s).cache = s.cache ∧ (takeReport r s).svq = s.svq ∧
    (takeReport r s).serveOp = s.serveOp ∧ (takeReport r s).reserve = s.reserve ∧ (takeReport r s).passCount = s.passCount ∧
    (takeReport r s).rpq = s.rpq ∧ (takeReport r s).llt = s.llt ∧ (takeReport r s).mem = s.mem ∧
    (takeReport r s).poison = s.poison ∧ (takeReport r s).storeOp = s.storeOp ∧ (takeReport r s).turn = s.turn ∧
    (takeReport r s).fillProgress = s.fillProgress ∧ (takeReport r s).lwb = s.lwb ∧ (takeReport r s).hrq = s.hrq ∧
    (takeReport r s).lostWrite = s.lostWrite ∧ (takeReport r s).hostTx = s.hostTx ∧ (takeReport r s).irqMask = s.irqMask ∧
    (takeReport r s).now = s.now ∧ (takeReport r s).freeCount = s.freeCount ∧ (takeReport r s).pending = s.pending := by
  simp only [takeReport, and_self]

@[simp] theorem clearFaultRecord_flags (s : State) : (clearFaultRecord s).flags = 0#12 := rfl
@[simp] theorem clearFaultRecord_counts (s : State) : (clearFaultRecord s).counts = Vector.replicate 12 0 := rfl
@[simp] theorem clearFaultRecord_firstFault (s : State) : (clearFaultRecord s).firstFault = none := rfl
@[simp] theorem clearFaultRecord_irq (s : State) : (clearFaultRecord s).irq = false := rfl
@[simp] theorem clearFaultRecord_frame (s : State) :
    (clearFaultRecord s).pinHeld = s.pinHeld ∧ (clearFaultRecord s).station = s.station ∧
    (clearFaultRecord s).runRequested = s.runRequested ∧ (clearFaultRecord s).setup = s.setup ∧
    (clearFaultRecord s).rights = s.rights ∧ (clearFaultRecord s).serveLimit = s.serveLimit ∧
    (clearFaultRecord s).number = s.number ∧ (clearFaultRecord s).sizeCode = s.sizeCode ∧ (clearFaultRecord s).span = s.span ∧
    (clearFaultRecord s).slots = s.slots ∧ (clearFaultRecord s).waived = s.waived ∧ (clearFaultRecord s).budget = s.budget ∧
    (clearFaultRecord s).spoilCount = s.spoilCount ∧ (clearFaultRecord s).tracker = s.tracker ∧
    (clearFaultRecord s).orq = s.orq ∧ (clearFaultRecord s).cache = s.cache ∧ (clearFaultRecord s).svq = s.svq ∧
    (clearFaultRecord s).serveOp = s.serveOp ∧ (clearFaultRecord s).reserve = s.reserve ∧
    (clearFaultRecord s).passCount = s.passCount ∧ (clearFaultRecord s).rpq = s.rpq ∧ (clearFaultRecord s).llt = s.llt ∧
    (clearFaultRecord s).mem = s.mem ∧ (clearFaultRecord s).poison = s.poison ∧ (clearFaultRecord s).storeOp = s.storeOp ∧
    (clearFaultRecord s).turn = s.turn ∧ (clearFaultRecord s).fillProgress = s.fillProgress ∧ (clearFaultRecord s).lwb = s.lwb
    ∧ (clearFaultRecord s).hrq = s.hrq ∧ (clearFaultRecord s).lostWrite = s.lostWrite ∧ (clearFaultRecord s).hostTx = s.hostTx
    ∧ (clearFaultRecord s).irqMask = s.irqMask ∧ (clearFaultRecord s).now = s.now ∧
    (clearFaultRecord s).freeCount = s.freeCount ∧ (clearFaultRecord s).pending = s.pending := by
  simp only [clearFaultRecord, and_self]

@[simp] theorem setIrqMask_irqMask (v : CtrlValue) (s : State) : (setIrqMask v s).irqMask = v.extractLsb' 0 12 := rfl
@[simp] theorem setIrqMask_irq (v : CtrlValue) (s : State) : (setIrqMask v s).irq = irqLevel s.flags (v.extractLsb' 0 12) := rfl
@[simp] theorem setIrqMask_frame (v : CtrlValue) (s : State) :
    (setIrqMask v s).pinHeld = s.pinHeld ∧ (setIrqMask v s).station = s.station ∧
    (setIrqMask v s).runRequested = s.runRequested ∧ (setIrqMask v s).setup = s.setup ∧ (setIrqMask v s).rights = s.rights ∧
    (setIrqMask v s).serveLimit = s.serveLimit ∧ (setIrqMask v s).number = s.number ∧ (setIrqMask v s).sizeCode = s.sizeCode ∧
    (setIrqMask v s).span = s.span ∧ (setIrqMask v s).slots = s.slots ∧ (setIrqMask v s).waived = s.waived ∧
    (setIrqMask v s).budget = s.budget ∧ (setIrqMask v s).spoilCount = s.spoilCount ∧ (setIrqMask v s).tracker = s.tracker ∧
    (setIrqMask v s).orq = s.orq ∧ (setIrqMask v s).cache = s.cache ∧ (setIrqMask v s).svq = s.svq ∧
    (setIrqMask v s).serveOp = s.serveOp ∧ (setIrqMask v s).reserve = s.reserve ∧ (setIrqMask v s).passCount = s.passCount ∧
    (setIrqMask v s).rpq = s.rpq ∧ (setIrqMask v s).llt = s.llt ∧ (setIrqMask v s).mem = s.mem ∧
    (setIrqMask v s).poison = s.poison ∧ (setIrqMask v s).storeOp = s.storeOp ∧ (setIrqMask v s).turn = s.turn ∧
    (setIrqMask v s).fillProgress = s.fillProgress ∧ (setIrqMask v s).lwb = s.lwb ∧ (setIrqMask v s).hrq = s.hrq ∧
    (setIrqMask v s).lostWrite = s.lostWrite ∧ (setIrqMask v s).hostTx = s.hostTx ∧ (setIrqMask v s).flags = s.flags ∧
    (setIrqMask v s).counts = s.counts ∧ (setIrqMask v s).firstFault = s.firstFault ∧ (setIrqMask v s).now = s.now ∧
    (setIrqMask v s).freeCount = s.freeCount ∧ (setIrqMask v s).pending = s.pending := by
  simp only [setIrqMask, and_self]

@[simp] theorem releaseEntry_tracker (t : Tag) (s : State) :
    (releaseEntry t s).tracker = s.tracker.set t.val (releasedEntry s.tracker[t]) := rfl
@[simp] theorem releaseEntry_orq (t : Tag) (s : State) : (releaseEntry t s).orq = s.orq.filter (· != t) := rfl
@[simp] theorem releaseEntry_frame (t : Tag) (s : State) :
    (releaseEntry t s).pinHeld = s.pinHeld ∧ (releaseEntry t s).station = s.station ∧
    (releaseEntry t s).runRequested = s.runRequested ∧ (releaseEntry t s).setup = s.setup ∧
    (releaseEntry t s).rights = s.rights ∧ (releaseEntry t s).serveLimit = s.serveLimit ∧ (releaseEntry t s).number = s.number
    ∧ (releaseEntry t s).sizeCode = s.sizeCode ∧ (releaseEntry t s).span = s.span ∧ (releaseEntry t s).slots = s.slots ∧
    (releaseEntry t s).waived = s.waived ∧ (releaseEntry t s).budget = s.budget ∧ (releaseEntry t s).spoilCount = s.spoilCount
    ∧ (releaseEntry t s).cache = s.cache ∧ (releaseEntry t s).svq = s.svq ∧ (releaseEntry t s).serveOp = s.serveOp ∧
    (releaseEntry t s).reserve = s.reserve ∧ (releaseEntry t s).passCount = s.passCount ∧ (releaseEntry t s).rpq = s.rpq ∧
    (releaseEntry t s).llt = s.llt ∧ (releaseEntry t s).mem = s.mem ∧ (releaseEntry t s).poison = s.poison ∧
    (releaseEntry t s).storeOp = s.storeOp ∧ (releaseEntry t s).turn = s.turn ∧
    (releaseEntry t s).fillProgress = s.fillProgress ∧ (releaseEntry t s).lwb = s.lwb ∧ (releaseEntry t s).hrq = s.hrq ∧
    (releaseEntry t s).lostWrite = s.lostWrite ∧ (releaseEntry t s).hostTx = s.hostTx ∧ (releaseEntry t s).flags = s.flags ∧
    (releaseEntry t s).counts = s.counts ∧ (releaseEntry t s).firstFault = s.firstFault ∧
    (releaseEntry t s).irqMask = s.irqMask ∧ (releaseEntry t s).irq = s.irq ∧ (releaseEntry t s).now = s.now ∧
    (releaseEntry t s).freeCount = s.freeCount ∧ (releaseEntry t s).pending = s.pending := by
  simp only [releaseEntry, and_self]

@[simp] theorem mapTracker_tracker (f : Entry → Entry) (s : State) :
    (mapTracker f s).tracker = Vector.ofFn fun t : Tag => f s.tracker[t] := rfl
@[simp] theorem mapTracker_frame (f : Entry → Entry) (s : State) :
    (mapTracker f s).pinHeld = s.pinHeld ∧ (mapTracker f s).station = s.station ∧
    (mapTracker f s).runRequested = s.runRequested ∧ (mapTracker f s).setup = s.setup ∧ (mapTracker f s).rights = s.rights ∧
    (mapTracker f s).serveLimit = s.serveLimit ∧ (mapTracker f s).number = s.number ∧ (mapTracker f s).sizeCode = s.sizeCode ∧
    (mapTracker f s).span = s.span ∧ (mapTracker f s).slots = s.slots ∧ (mapTracker f s).waived = s.waived ∧
    (mapTracker f s).budget = s.budget ∧ (mapTracker f s).spoilCount = s.spoilCount ∧ (mapTracker f s).orq = s.orq ∧
    (mapTracker f s).cache = s.cache ∧ (mapTracker f s).svq = s.svq ∧ (mapTracker f s).serveOp = s.serveOp ∧
    (mapTracker f s).reserve = s.reserve ∧ (mapTracker f s).passCount = s.passCount ∧ (mapTracker f s).rpq = s.rpq ∧
    (mapTracker f s).llt = s.llt ∧ (mapTracker f s).mem = s.mem ∧ (mapTracker f s).poison = s.poison ∧
    (mapTracker f s).storeOp = s.storeOp ∧ (mapTracker f s).turn = s.turn ∧ (mapTracker f s).fillProgress = s.fillProgress ∧
    (mapTracker f s).lwb = s.lwb ∧ (mapTracker f s).hrq = s.hrq ∧ (mapTracker f s).lostWrite = s.lostWrite ∧
    (mapTracker f s).hostTx = s.hostTx ∧ (mapTracker f s).flags = s.flags ∧ (mapTracker f s).counts = s.counts ∧
    (mapTracker f s).firstFault = s.firstFault ∧ (mapTracker f s).irqMask = s.irqMask ∧ (mapTracker f s).irq = s.irq ∧
    (mapTracker f s).now = s.now ∧ (mapTracker f s).freeCount = s.freeCount ∧ (mapTracker f s).pending = s.pending := by
  simp only [mapTracker, and_self]

@[simp] theorem elapse_now (n : Nat) (s : State) : (elapse n s).now = s.now + n := rfl
@[simp] theorem elapse_tracker (n : Nat) (s : State) :
    (elapse n s).tracker = Vector.ofFn fun t : Tag => elapseEntry n s.tracker[t] := rfl
@[simp] theorem elapse_frame (n : Nat) (s : State) :
    (elapse n s).pinHeld = s.pinHeld ∧ (elapse n s).station = s.station ∧ (elapse n s).runRequested = s.runRequested ∧
    (elapse n s).setup = s.setup ∧ (elapse n s).rights = s.rights ∧ (elapse n s).serveLimit = s.serveLimit ∧
    (elapse n s).number = s.number ∧ (elapse n s).sizeCode = s.sizeCode ∧ (elapse n s).span = s.span ∧
    (elapse n s).slots = s.slots ∧ (elapse n s).waived = s.waived ∧ (elapse n s).budget = s.budget ∧
    (elapse n s).spoilCount = s.spoilCount ∧ (elapse n s).orq = s.orq ∧ (elapse n s).cache = s.cache ∧
    (elapse n s).svq = s.svq ∧ (elapse n s).serveOp = s.serveOp ∧ (elapse n s).reserve = s.reserve ∧
    (elapse n s).passCount = s.passCount ∧ (elapse n s).rpq = s.rpq ∧ (elapse n s).llt = s.llt ∧ (elapse n s).mem = s.mem ∧
    (elapse n s).poison = s.poison ∧ (elapse n s).storeOp = s.storeOp ∧ (elapse n s).turn = s.turn ∧
    (elapse n s).fillProgress = s.fillProgress ∧ (elapse n s).lwb = s.lwb ∧ (elapse n s).hrq = s.hrq ∧
    (elapse n s).lostWrite = s.lostWrite ∧ (elapse n s).hostTx = s.hostTx ∧ (elapse n s).flags = s.flags ∧
    (elapse n s).counts = s.counts ∧ (elapse n s).firstFault = s.firstFault ∧ (elapse n s).irqMask = s.irqMask ∧
    (elapse n s).irq = s.irq ∧ (elapse n s).freeCount = s.freeCount ∧ (elapse n s).pending = s.pending := by
  simp only [elapse, and_self]

@[simp] theorem cacheDrop_cache (owner : Station) (line : LineIndex) (s : State) :
    (cacheDrop owner line s).cache = s.cache.filter fun c => !isCopyOf owner line c := rfl
@[simp] theorem cacheDrop_frame (owner : Station) (line : LineIndex) (s : State) :
    (cacheDrop owner line s).pinHeld = s.pinHeld ∧ (cacheDrop owner line s).station = s.station ∧
    (cacheDrop owner line s).runRequested = s.runRequested ∧ (cacheDrop owner line s).setup = s.setup ∧
    (cacheDrop owner line s).rights = s.rights ∧ (cacheDrop owner line s).serveLimit = s.serveLimit ∧
    (cacheDrop owner line s).number = s.number ∧ (cacheDrop owner line s).sizeCode = s.sizeCode ∧
    (cacheDrop owner line s).span = s.span ∧ (cacheDrop owner line s).slots = s.slots ∧
    (cacheDrop owner line s).waived = s.waived ∧ (cacheDrop owner line s).budget = s.budget ∧
    (cacheDrop owner line s).spoilCount = s.spoilCount ∧ (cacheDrop owner line s).tracker = s.tracker ∧
    (cacheDrop owner line s).orq = s.orq ∧ (cacheDrop owner line s).svq = s.svq ∧ (cacheDrop owner line s).serveOp = s.serveOp
    ∧ (cacheDrop owner line s).reserve = s.reserve ∧ (cacheDrop owner line s).passCount = s.passCount ∧
    (cacheDrop owner line s).rpq = s.rpq ∧ (cacheDrop owner line s).llt = s.llt ∧ (cacheDrop owner line s).mem = s.mem ∧
    (cacheDrop owner line s).poison = s.poison ∧ (cacheDrop owner line s).storeOp = s.storeOp ∧
    (cacheDrop owner line s).turn = s.turn ∧ (cacheDrop owner line s).fillProgress = s.fillProgress ∧
    (cacheDrop owner line s).lwb = s.lwb ∧ (cacheDrop owner line s).hrq = s.hrq ∧
    (cacheDrop owner line s).lostWrite = s.lostWrite ∧ (cacheDrop owner line s).hostTx = s.hostTx ∧
    (cacheDrop owner line s).flags = s.flags ∧ (cacheDrop owner line s).counts = s.counts ∧
    (cacheDrop owner line s).firstFault = s.firstFault ∧ (cacheDrop owner line s).irqMask = s.irqMask ∧
    (cacheDrop owner line s).irq = s.irq ∧ (cacheDrop owner line s).now = s.now ∧
    (cacheDrop owner line s).freeCount = s.freeCount ∧ (cacheDrop owner line s).pending = s.pending := by
  simp only [cacheDrop, and_self]

@[simp] theorem cacheFront_cache (c : CacheLine) (s : State) :
    (cacheFront c s).cache = c :: s.cache.filter fun d => !isCopyOf c.owner c.line d := rfl
@[simp] theorem cacheFront_frame (c : CacheLine) (s : State) :
    (cacheFront c s).pinHeld = s.pinHeld ∧ (cacheFront c s).station = s.station ∧
    (cacheFront c s).runRequested = s.runRequested ∧ (cacheFront c s).setup = s.setup ∧ (cacheFront c s).rights = s.rights ∧
    (cacheFront c s).serveLimit = s.serveLimit ∧ (cacheFront c s).number = s.number ∧ (cacheFront c s).sizeCode = s.sizeCode ∧
    (cacheFront c s).span = s.span ∧ (cacheFront c s).slots = s.slots ∧ (cacheFront c s).waived = s.waived ∧
    (cacheFront c s).budget = s.budget ∧ (cacheFront c s).spoilCount = s.spoilCount ∧ (cacheFront c s).tracker = s.tracker ∧
    (cacheFront c s).orq = s.orq ∧ (cacheFront c s).svq = s.svq ∧ (cacheFront c s).serveOp = s.serveOp ∧
    (cacheFront c s).reserve = s.reserve ∧ (cacheFront c s).passCount = s.passCount ∧ (cacheFront c s).rpq = s.rpq ∧
    (cacheFront c s).llt = s.llt ∧ (cacheFront c s).mem = s.mem ∧ (cacheFront c s).poison = s.poison ∧
    (cacheFront c s).storeOp = s.storeOp ∧ (cacheFront c s).turn = s.turn ∧ (cacheFront c s).fillProgress = s.fillProgress ∧
    (cacheFront c s).lwb = s.lwb ∧ (cacheFront c s).hrq = s.hrq ∧ (cacheFront c s).lostWrite = s.lostWrite ∧
    (cacheFront c s).hostTx = s.hostTx ∧ (cacheFront c s).flags = s.flags ∧ (cacheFront c s).counts = s.counts ∧
    (cacheFront c s).firstFault = s.firstFault ∧ (cacheFront c s).irqMask = s.irqMask ∧ (cacheFront c s).irq = s.irq ∧
    (cacheFront c s).now = s.now ∧ (cacheFront c s).freeCount = s.freeCount ∧ (cacheFront c s).pending = s.pending := by
  simp only [cacheFront, and_self]

@[simp] theorem cacheEmpty_cache (s : State) : (cacheEmpty s).cache = [] := rfl
@[simp] theorem cacheEmpty_frame (s : State) :
    (cacheEmpty s).pinHeld = s.pinHeld ∧ (cacheEmpty s).station = s.station ∧ (cacheEmpty s).runRequested = s.runRequested ∧
    (cacheEmpty s).setup = s.setup ∧ (cacheEmpty s).rights = s.rights ∧ (cacheEmpty s).serveLimit = s.serveLimit ∧
    (cacheEmpty s).number = s.number ∧ (cacheEmpty s).sizeCode = s.sizeCode ∧ (cacheEmpty s).span = s.span ∧
    (cacheEmpty s).slots = s.slots ∧ (cacheEmpty s).waived = s.waived ∧ (cacheEmpty s).budget = s.budget ∧
    (cacheEmpty s).spoilCount = s.spoilCount ∧ (cacheEmpty s).tracker = s.tracker ∧ (cacheEmpty s).orq = s.orq ∧
    (cacheEmpty s).svq = s.svq ∧ (cacheEmpty s).serveOp = s.serveOp ∧ (cacheEmpty s).reserve = s.reserve ∧
    (cacheEmpty s).passCount = s.passCount ∧ (cacheEmpty s).rpq = s.rpq ∧ (cacheEmpty s).llt = s.llt ∧
    (cacheEmpty s).mem = s.mem ∧ (cacheEmpty s).poison = s.poison ∧ (cacheEmpty s).storeOp = s.storeOp ∧
    (cacheEmpty s).turn = s.turn ∧ (cacheEmpty s).fillProgress = s.fillProgress ∧ (cacheEmpty s).lwb = s.lwb ∧
    (cacheEmpty s).hrq = s.hrq ∧ (cacheEmpty s).lostWrite = s.lostWrite ∧ (cacheEmpty s).hostTx = s.hostTx ∧
    (cacheEmpty s).flags = s.flags ∧ (cacheEmpty s).counts = s.counts ∧ (cacheEmpty s).firstFault = s.firstFault ∧
    (cacheEmpty s).irqMask = s.irqMask ∧ (cacheEmpty s).irq = s.irq ∧ (cacheEmpty s).now = s.now ∧
    (cacheEmpty s).freeCount = s.freeCount ∧ (cacheEmpty s).pending = s.pending := by
  simp only [cacheEmpty, and_self]

@[simp] theorem lltRemove_llt (line : LineIndex) (s : State) :
    (lltRemove line s).llt = s.llt.filter fun e => e.line != line := rfl
@[simp] theorem lltRemove_frame (line : LineIndex) (s : State) :
    (lltRemove line s).pinHeld = s.pinHeld ∧ (lltRemove line s).station = s.station ∧
    (lltRemove line s).runRequested = s.runRequested ∧ (lltRemove line s).setup = s.setup ∧
    (lltRemove line s).rights = s.rights ∧ (lltRemove line s).serveLimit = s.serveLimit ∧ (lltRemove line s).number = s.number
    ∧ (lltRemove line s).sizeCode = s.sizeCode ∧ (lltRemove line s).span = s.span ∧ (lltRemove line s).slots = s.slots ∧
    (lltRemove line s).waived = s.waived ∧ (lltRemove line s).budget = s.budget ∧ (lltRemove line s).spoilCount = s.spoilCount
    ∧ (lltRemove line s).tracker = s.tracker ∧ (lltRemove line s).orq = s.orq ∧ (lltRemove line s).cache = s.cache ∧
    (lltRemove line s).svq = s.svq ∧ (lltRemove line s).serveOp = s.serveOp ∧ (lltRemove line s).reserve = s.reserve ∧
    (lltRemove line s).passCount = s.passCount ∧ (lltRemove line s).rpq = s.rpq ∧ (lltRemove line s).mem = s.mem ∧
    (lltRemove line s).poison = s.poison ∧ (lltRemove line s).storeOp = s.storeOp ∧ (lltRemove line s).turn = s.turn ∧
    (lltRemove line s).fillProgress = s.fillProgress ∧ (lltRemove line s).lwb = s.lwb ∧ (lltRemove line s).hrq = s.hrq ∧
    (lltRemove line s).lostWrite = s.lostWrite ∧ (lltRemove line s).hostTx = s.hostTx ∧ (lltRemove line s).flags = s.flags ∧
    (lltRemove line s).counts = s.counts ∧ (lltRemove line s).firstFault = s.firstFault ∧
    (lltRemove line s).irqMask = s.irqMask ∧ (lltRemove line s).irq = s.irq ∧ (lltRemove line s).now = s.now ∧
    (lltRemove line s).freeCount = s.freeCount ∧ (lltRemove line s).pending = s.pending := by
  simp only [lltRemove, and_self]

@[simp] theorem serveEnd_serveOp (s : State) : (serveEnd s).serveOp = none := rfl
@[simp] theorem serveEnd_reserve (s : State) : (serveEnd s).reserve = 0 := rfl
@[simp] theorem serveEnd_frame (s : State) :
    (serveEnd s).pinHeld = s.pinHeld ∧ (serveEnd s).station = s.station ∧ (serveEnd s).runRequested = s.runRequested ∧
    (serveEnd s).setup = s.setup ∧ (serveEnd s).rights = s.rights ∧ (serveEnd s).serveLimit = s.serveLimit ∧
    (serveEnd s).number = s.number ∧ (serveEnd s).sizeCode = s.sizeCode ∧ (serveEnd s).span = s.span ∧
    (serveEnd s).slots = s.slots ∧ (serveEnd s).waived = s.waived ∧ (serveEnd s).budget = s.budget ∧
    (serveEnd s).spoilCount = s.spoilCount ∧ (serveEnd s).tracker = s.tracker ∧ (serveEnd s).orq = s.orq ∧
    (serveEnd s).cache = s.cache ∧ (serveEnd s).svq = s.svq ∧ (serveEnd s).passCount = s.passCount ∧ (serveEnd s).rpq = s.rpq
    ∧ (serveEnd s).llt = s.llt ∧ (serveEnd s).mem = s.mem ∧ (serveEnd s).poison = s.poison ∧ (serveEnd s).storeOp = s.storeOp
    ∧ (serveEnd s).turn = s.turn ∧ (serveEnd s).fillProgress = s.fillProgress ∧ (serveEnd s).lwb = s.lwb ∧
    (serveEnd s).hrq = s.hrq ∧ (serveEnd s).lostWrite = s.lostWrite ∧ (serveEnd s).hostTx = s.hostTx ∧
    (serveEnd s).flags = s.flags ∧ (serveEnd s).counts = s.counts ∧ (serveEnd s).firstFault = s.firstFault ∧
    (serveEnd s).irqMask = s.irqMask ∧ (serveEnd s).irq = s.irq ∧ (serveEnd s).now = s.now ∧
    (serveEnd s).freeCount = s.freeCount ∧ (serveEnd s).pending = s.pending := by
  simp only [serveEnd, and_self]

@[simp] theorem frameEnds_slots (slots : EndSlots) (s : State) : (frameEnds slots s).slots = slots := rfl
@[simp] theorem frameEnds_span (slots : EndSlots) (s : State) : (frameEnds slots s).span = spanAfterFrame s.span := rfl
@[simp] theorem frameEnds_frame (slots : EndSlots) (s : State) :
    (frameEnds slots s).pinHeld = s.pinHeld ∧ (frameEnds slots s).station = s.station ∧
    (frameEnds slots s).runRequested = s.runRequested ∧ (frameEnds slots s).setup = s.setup ∧
    (frameEnds slots s).rights = s.rights ∧ (frameEnds slots s).serveLimit = s.serveLimit ∧
    (frameEnds slots s).number = s.number ∧ (frameEnds slots s).sizeCode = s.sizeCode ∧ (frameEnds slots s).waived = s.waived
    ∧ (frameEnds slots s).budget = s.budget ∧ (frameEnds slots s).spoilCount = s.spoilCount ∧
    (frameEnds slots s).tracker = s.tracker ∧ (frameEnds slots s).orq = s.orq ∧ (frameEnds slots s).cache = s.cache ∧
    (frameEnds slots s).svq = s.svq ∧ (frameEnds slots s).serveOp = s.serveOp ∧ (frameEnds slots s).reserve = s.reserve ∧
    (frameEnds slots s).passCount = s.passCount ∧ (frameEnds slots s).rpq = s.rpq ∧ (frameEnds slots s).llt = s.llt ∧
    (frameEnds slots s).mem = s.mem ∧ (frameEnds slots s).poison = s.poison ∧ (frameEnds slots s).storeOp = s.storeOp ∧
    (frameEnds slots s).turn = s.turn ∧ (frameEnds slots s).fillProgress = s.fillProgress ∧ (frameEnds slots s).lwb = s.lwb ∧
    (frameEnds slots s).hrq = s.hrq ∧ (frameEnds slots s).lostWrite = s.lostWrite ∧ (frameEnds slots s).hostTx = s.hostTx ∧
    (frameEnds slots s).flags = s.flags ∧ (frameEnds slots s).counts = s.counts ∧
    (frameEnds slots s).firstFault = s.firstFault ∧ (frameEnds slots s).irqMask = s.irqMask ∧ (frameEnds slots s).irq = s.irq
    ∧ (frameEnds slots s).now = s.now ∧ (frameEnds slots s).freeCount = s.freeCount ∧ (frameEnds slots s).pending = s.pending := by
  simp only [frameEnds, and_self]

@[simp] theorem closeSetup_serveLimit (s : State) : (closeSetup s).serveLimit = s.setup.replyWait / 2 := rfl
@[simp] theorem closeSetup_frame (s : State) :
    (closeSetup s).pinHeld = s.pinHeld ∧ (closeSetup s).station = s.station ∧ (closeSetup s).runRequested = s.runRequested ∧
    (closeSetup s).setup = s.setup ∧ (closeSetup s).rights = s.rights ∧ (closeSetup s).number = s.number ∧
    (closeSetup s).sizeCode = s.sizeCode ∧ (closeSetup s).span = s.span ∧ (closeSetup s).slots = s.slots ∧
    (closeSetup s).waived = s.waived ∧ (closeSetup s).budget = s.budget ∧ (closeSetup s).spoilCount = s.spoilCount ∧
    (closeSetup s).tracker = s.tracker ∧ (closeSetup s).orq = s.orq ∧ (closeSetup s).cache = s.cache ∧
    (closeSetup s).svq = s.svq ∧ (closeSetup s).serveOp = s.serveOp ∧ (closeSetup s).reserve = s.reserve ∧
    (closeSetup s).passCount = s.passCount ∧ (closeSetup s).rpq = s.rpq ∧ (closeSetup s).llt = s.llt ∧
    (closeSetup s).mem = s.mem ∧ (closeSetup s).poison = s.poison ∧ (closeSetup s).storeOp = s.storeOp ∧
    (closeSetup s).turn = s.turn ∧ (closeSetup s).fillProgress = s.fillProgress ∧ (closeSetup s).lwb = s.lwb ∧
    (closeSetup s).hrq = s.hrq ∧ (closeSetup s).lostWrite = s.lostWrite ∧ (closeSetup s).hostTx = s.hostTx ∧
    (closeSetup s).flags = s.flags ∧ (closeSetup s).counts = s.counts ∧ (closeSetup s).firstFault = s.firstFault ∧
    (closeSetup s).irqMask = s.irqMask ∧ (closeSetup s).irq = s.irq ∧ (closeSetup s).now = s.now ∧
    (closeSetup s).freeCount = s.freeCount ∧ (closeSetup s).pending = s.pending := by
  simp only [closeSetup, and_self]

end Sys2Proof.Laws
end

