-- ==== Sys2Proof/WellFormed.lean ====
section
/-! DEFINITION. What the operands of a command must satisfy to describe an event that can occur. The machine is
total without it: an ill-formed frame is a frame every receiver finds inconsistent (R9). -/

namespace Sys2Proof

/-- The errors of one word are of one of the three kinds of R136. -/
def WordErrors.wellFormed (e : WordErrors) : Bool := e.single &&& e.multi == 0#8

/-- The conditions of R9 on the frames a *_STANDS command names (an inconsistent frame never stands), a message of at
least one byte (R185), and no more other contenders than a Span can join: 2 to 16 stations (00_scope.md). Two of them may
present the same number, in one class or in both (R22, R30). -/
def Instr.wellFormed : Instr → Bool
  | .hostRequestArrival bytes => !bytes.isEmpty
  | .contestDecision others => others.length ≤ 15
  | .askStands source target _ _ _ _ => source != target
  | .putStands source target _ _ mask _ => source != target && mask != 0#64
  | .giveStands source target _ _ _ _ => source != target
  | .noteStands source target _ _ _ => source != target
  | .recallStands source _ sharers => sharers != 0#16 && !sharers.getLsbD source.val
  | .localReadComplete e => e.wellFormed
  | .drainComplete e => e.wellFormed
  | .serveReadComplete e => e.wellFormed
  | .serveWriteComplete e => e.wellFormed
  | .pinResetAssert => true
  | .pinResetRelease _ _ => true
  | .remoteReadStart _ => true
  | .remoteWriteStart _ => true
  | .localWriteTaken _ => true
  | .fenceStart _ => true
  | .fenceAnswer => true
  | .run _ => true
  | .restart _ => true
  | .dropCache _ => true
  | .clearFaults _ => true
  | .setupWordWrite _ _ _ => true
  | .interruptMaskWrite _ _ => true
  | .controlWrite _ _ _ => true
  | .contestOpening => true
  | .frameFalls _ _ => true
  | .startStands _ => true
  | .senderFrameEnd _ => true
  | .backoffExpiry _ => true
  | .replyTimerExpiry _ => true
  | .serveTake => true
  | .storeGrant => true
  | .initFillLineComplete => true

end Sys2Proof
end

