-- ==== Sys2Proof/Tests/Slice0.lean ====
section
/-! SUPPORT. The author's own checks: the ill-formed commands that WellFormed refuses, one small event for each command, and for
every statement of the certificates with hypotheses a state and operands that meet them, clause by clause. -/

-- Theorems are elaborated one after another: many at once take more threads than the memory limit allows.
set_option Elab.async false

namespace Sys2Proof.Tests

open Sys2Proof.Machine Sys2Proof.Safety Sys2Proof.Laws

/-! ### States the checks start from -/

/-- Station 2 in RUN with its store filled, nothing waiting. -/
def ready : State :=
  { State.reset with station := .run, storeOp := none, fillProgress := 16384, number := 2 }

/-- Station 2 in another state than RUN. -/
def inState (x : StationState) : State := { ready with station := x }

/-- Line 1 of station 5, and of station 2. -/
def remoteAddr : SpanAddr := 0x50000040#32
def localAddr : SpanAddr := 0x20000040#32

def someLine : Line := Vector.replicate 64 0xAB#8
def fullMask : Mask := 0xFFFFFFFFFFFFFFFF#64

def withReq (tag : HostTag) (req : Request) (started : Bool) (s : State) : State :=
  { s with hrq := s.hrq ++ [{ tag := tag, req := req, started := started }] }

def remoteRead : Request := .read remoteAddr .line true false
def remoteWrite : Request := .write remoteAddr 0xFF#64 someLine true
def localRead : Request := .read localAddr .word false false
def localWrite (confirm : Bool) : Request := .write localAddr 0xFF#64 someLine confirm

/-- An ASK entry for line 1 of station 5, with one waiter. -/
def askEntry (x : EntryState) : Entry :=
  { State.resetEntry with
    state := x, kind := some .ask, target := 5, line := 1#22, keep := true, waiters := [.read 3 0 .line],
    backoffTimer := if x = .backoff then some 0 else none, replyTimer := if x = .waiting then some 0 else none }

/-- A posted PUT entry for the same line. -/
def putEntry : Entry :=
  { State.resetEntry with
    state := .queued, kind := some .putPosted, target := 5, line := 1#22, put := some { mask := 0xFF#64, data := someLine } }

/-- A PUT-CONFIRMED entry for the same line, waiting for its NOTE. -/
def confirmedEntry : Entry :=
  { putEntry with state := .waiting, kind := some .putConfirmed, replyTimer := some 5, waiters := [.write 4] }

def withEntry (t : Tag) (e : Entry) (s : State) : State :=
  { s with
    tracker := s.tracker.set t.val e
    orq := if e.state = .queued ∨ e.state = .backoff then s.orq ++ [t] else s.orq }

def fullTracker : State := { ready with tracker := Vector.replicate 16 putEntry }

def copy : CacheLine := { owner := 5, line := 1#22, data := someLine }
def lent : LentLine := { line := 1#22, sharers := 0x0020#16 }
def posted : LwbEntry := { line := 1#22, mask := 0xFF#64, data := someLine, confirm := none, draining := false }
def askReq (line : LineIndex) : ServeReq := { requester := 5, line := line, kind := .ask true 1 0, acceptedAt := 0 }
def putReq (line : LineIndex) : ServeReq :=
  { requester := 5, line := line, kind := .put (some (1, 0)) 0x0F#64 someLine, acceptedAt := 0 }
def serving (r : ServeReq) (orphaned : Bool) : State :=
  { ready with serveOp := some { req := r, orphaned := orphaned }, storeOp := some .serve, reserve := 2 }
def noteItem : RpqItem := { frame := .note 2 5 1 0 .done, writeCaused := false, covered := false }
def recallItem : RpqItem := { frame := .recall 2 1#22 0x0020#16, writeCaused := true, covered := false }
def startItem : RpqItem := { frame := .start 2, writeCaused := false, covered := false }
def offerOf (source : OfferSource) (f : Frame) (cls : SpanClass) (gone : Bool) : Offer :=
  { source := source, frame := f, cls := cls, gone := gone }
def noErrors : WordErrors := { single := 0#8, multi := 0#8 }
def slotsOf (spoil accept refuse : Bool) : EndSlots := { spoil := spoil, accept := accept, refuse := refuse }

/-- What the outcome's next state shows. -/
def shows {α : Type} (o : Host.Outcome State Fault Refusal) (f : State → α) : Option α :=
  match o with
  | .next s => some (f s)
  | _ => none

/-! ### Well-formed commands -/

theorem test_wellFormed_refuses_empty_message : (Instr.hostRequestArrival []).wellFormed = false := by decide
theorem test_wellFormed_refuses_too_many_contenders :
    (Instr.contestDecision (List.replicate 16 ⟨.urgent, 3⟩)).wellFormed = false := by decide
theorem test_wellFormed_refuses_own_target :
    (Instr.askStands 3 3 0 0 false 0#22).wellFormed = false ∧ (Instr.putStands 3 3 none 0#22 1#64 someLine).wellFormed = false ∧
      (Instr.giveStands 3 3 0 0 false someLine).wellFormed = false ∧ (Instr.noteStands 3 3 0 0 .done).wellFormed = false := by
  decide
theorem test_wellFormed_refuses_empty_mask : (Instr.putStands 3 4 none 0#22 0#64 someLine).wellFormed = false := by decide
theorem test_wellFormed_refuses_sharer_sets :
    (Instr.recallStands 3 0#22 0#16).wellFormed = false ∧ (Instr.recallStands 3 0#22 0x0018#16).wellFormed = false := by decide
theorem test_wellFormed_refuses_two_errors_in_a_word :
    (Instr.localReadComplete ⟨4#8, 4#8⟩).wellFormed = false ∧ (Instr.drainComplete ⟨4#8, 4#8⟩).wellFormed = false ∧
      (Instr.serveReadComplete ⟨4#8, 4#8⟩).wellFormed = false ∧ (Instr.serveWriteComplete ⟨4#8, 4#8⟩).wellFormed = false := by
  decide
theorem test_wellFormed_takes_good_commands :
    (Instr.askStands 3 4 0 0 false 0#22).wellFormed = true ∧ (Instr.recallStands 3 0#22 0x0001#16).wellFormed = true ∧
      (Instr.contestDecision [⟨.urgent, 3⟩, ⟨.plain, 3⟩]).wellFormed = true := by decide

/-! ### Layouts -/

/-- A START of station 9: kind 6, source 9 (R184). -/
theorem test_start_bits : frameBody (.start 9) = [false, true, true, false, true, false, false, true] := by decide

/-- An ASK of station 1 to station 2: tag 3, epoch 5, keep set, line 6 (R184). -/
theorem test_ask_bits : frameBody (.ask 1 2 3 5 true 6#22) =
    [false, false, false, true, false, false, false, true, false, false, true, false, false, false, true, true, true, false, true,
      true] ++ List.replicate 19 false ++ [true, true, false] := by decide

/-- A frame with one bit turned is not received (R8). -/
theorem test_bad_check : receiveFrame ((frameBits (.start 9)).set 7 false) = none := by decide +kernel

/-- CONTROL WRITE with tag 2 of word 04 with value 3 (R185). -/
theorem test_control_write_bytes : requestBytes 2 (.controlWrite 0x04#8 3#64) =
    [0x52#8, 0x04#8, 0#8, 0#8, 0#8, 0#8, 0#8, 0#8, 0#8, 3#8] := by decide

/-! ### One event for each command -/

theorem test_pinResetAssert : shows (exec .pinResetAssert (withReq 1 .fence true ready)) (fun t => (t.pinHeld, t.hrq, t.station)) =
    some (true, [], .init) := by decide +kernel
theorem test_pinResetRelease : shows (exec (.pinResetRelease 7#4 12#4) { ready with pinHeld := true })
    (fun t => (t.number, t.sizeCode, t.station, t.storeOp)) = some (7, 8, .init, some .fill) := by decide +kernel
theorem test_hostRequestArrival_fence : shows (exec (.hostRequestArrival [0x35#8]) ready) (·.hostTx) =
    some [.done 5 false] := by decide +kernel
theorem test_remoteReadStart : shows (exec (.remoteReadStart 3) (withReq 3 remoteRead false ready)) (fun t => (t.orq, t.hrq)) =
    some ([0], [{ tag := 3, req := remoteRead, started := true }]) := by decide +kernel
theorem test_remoteWriteStart : shows (exec (.remoteWriteStart 4) (withReq 4 remoteWrite false ready)) (fun t =>
    t.tracker[(0 : Tag)].kind) = some (some .putConfirmed) := by decide +kernel
theorem test_localWriteTaken : shows (exec (.localWriteTaken 4) (withReq 4 (localWrite false) false { ready with llt := [lent] }))
    (fun t => (t.hostTx, t.llt, t.rpq.length, t.storeOp)) = some ([.done 4 false], [], 1, some .drain) := by decide +kernel
theorem test_fenceStart : shows (exec (.fenceStart 6) (withReq 6 .fence false (withEntry 0 putEntry ready))) (fun t =>
    (t.hostTx, t.tracker[(0 : Tag)].covered)) = some ([], true) := by decide +kernel
theorem test_fenceAnswer : shows (exec .fenceAnswer (withReq 6 .fence true { ready with lostWrite := true })) (fun t =>
    (t.hostTx, t.lostWrite)) = some ([.fault 6 .lostWrite], false) := by decide +kernel
theorem test_run : shows (exec (.run 1) (inState .setup)) (fun t => (t.station, t.hostTx, t.rpq)) =
    some (.starting, [.done 1 false], [startItem]) := by decide +kernel
theorem test_restart : shows (exec (.restart 1) (withReq 3 remoteRead true (withEntry 0 (askEntry .waiting) ready)))
    (fun t => (t.station, t.hostTx)) = some (.starting, [.fault 3 .restarted, .done 1 false]) := by decide +kernel
theorem test_dropCache : shows (exec (.dropCache 1) { ready with cache := [copy] }) (fun t => (t.cache, t.hostTx)) =
    some ([], [.done 1 false]) := by decide +kernel
theorem test_clearFaults : shows (exec (.clearFaults 1) { ready with flags := 1#12, irq := true, irqMask := 1#12 })
    (fun t => (t.flags, t.irq, t.irqMask)) = some (0#12, false, 1#12) := by decide +kernel
theorem test_setupWordWrite : shows (exec (.setupWordWrite 1 .replyWait 19#64) (inState .setup)) (fun t =>
    (t.setup.replyWait, t.hostTx)) = some (20, [.done 1 true]) := by decide +kernel
theorem test_interruptMaskWrite : shows (exec (.interruptMaskWrite 1 0x1801#64) { ready with flags := 1#12 }) (fun t =>
    (t.irqMask, t.irq, t.hostTx)) = some (0x801#12, true, [.done 1 true]) := by decide +kernel
theorem test_controlWrite : shows (exec (.controlWrite 1 0x02#8 0#64) ready) (·.hostTx) = some [.fault 1 .badRequest] := by
  decide +kernel
theorem test_contestOpening : shows (exec .contestOpening { ready with rpq := [noteItem] }) (·.span) =
    some (.contest true (some (offerOf .replyQueue noteItem.frame .urgent false))) := by decide +kernel
theorem test_contestDecision : shows (exec (.contestDecision [⟨.urgent, 3⟩])
    { ready with span := .contest true (some (offerOf .replyQueue noteItem.frame .urgent false)) })
    (fun t => (t.budget, t.span)) = some (3, .sending (offerOf .replyQueue noteItem.frame .urgent false)) := by decide +kernel
/-- A frame begun while the pin is held is one the station does not receive (R14). -/
theorem test_contestDecision_held : shows (exec (.contestDecision [⟨.plain, 3⟩]) { ready with pinHeld := true, span := .contest false none })
    (·.span) = some (.frame false) := by decide +kernel
theorem test_frameFalls : shows (exec (.frameFalls [true] (slotsOf false false false)) { ready with span := .frame true })
    (fun t => (t.slots, t.span)) = some (slotsOf true false false, .free) := by decide +kernel
theorem test_askStands : shows (exec (.askStands 5 2 1 0 true 1#22) { ready with span := .frame true }) (fun t =>
    (t.svq, t.slots)) = some ([askReq 1#22], slotsOf false true false) := by decide +kernel
theorem test_putStands : shows (exec (.putStands 6 5 none 1#22 1#64 someLine)
    (withEntry 0 (askEntry .waiting) { ready with cache := [copy] })) (fun t => (t.cache, t.tracker[(0 : Tag)].overtaken)) =
    some ([], true) := by decide +kernel
theorem test_giveStands : shows (exec (.giveStands 5 2 0 0 false someLine) (withEntry 0 (askEntry .waiting) ready)) (fun t =>
    (t.hostTx, t.cache, t.tracker[(0 : Tag)].epoch)) = some ([.data 3 someLine.toList false], [copy], 1) := by decide +kernel
theorem test_noteStands : shows (exec (.noteStands 5 2 0 0 .poison) (withEntry 0 (askEntry .waiting) ready)) (·.hostTx) =
    some [.fault 3 .poison] := by decide +kernel
theorem test_noteStands_stray : shows (exec (.noteStands 5 2 0 1 .done) ready) (fun t => (t.flags, t.firstFault)) =
    some (0x040#12, some { kind := .stray, peer := some 5, line := some 0#22, hostTag := none }) := by decide +kernel
theorem test_recallStands : shows (exec (.recallStands 5 1#22 0x0004#16) { ready with cache := [copy] }) (·.cache) =
    some [] := by decide +kernel
theorem test_startStands : shows (exec (.startStands 5) { ready with cache := [copy], llt := [lent], svq := [askReq 1#22] })
    (fun t => (t.cache, t.llt, t.svq)) = some ([], [], []) := by decide +kernel
theorem test_senderFrameEnd : shows (exec (.senderFrameEnd (slotsOf false true false))
    { withEntry 0 (askEntry .queued) ready with
      span := .sending (offerOf (.tracker 0) (.ask 2 5 0 0 true 1#22) .plain false) })
    (fun t => (t.tracker[(0 : Tag)].state, t.orq, t.span)) = some (.waiting, [], .free) := by decide +kernel
/-- A place comes free that the engine and a waiting local WRITE may both claim: the engine takes until a request passes its checks,
and the WRITE waits on (R109). -/
theorem test_senderFrameEnd_engine_first :
    let s := withReq 4 (localWrite false) false { ready with
      span := .sending (offerOf .replyQueue noteItem.frame .urgent false)
      rpq := List.replicate 11 noteItem, now := 1000, rights := Vector.replicate 16 .read, llt := [{ lent with sharers := 0x0040#16 }]
      svq := [askReq 1#22, { askReq 2#22 with acceptedAt := 1000 }] }
    shows (exec (.senderFrameEnd (slotsOf false true false)) s) (fun t =>
      (t.svq, t.serveOp.map (·.req.line), t.rpq.length, t.flags, t.hostTx)) = some ([], some 2#22, 10, 0x010#12, []) := by
  decide +kernel
theorem test_backoffExpiry : shows (exec (.backoffExpiry 0) (withEntry 0 (askEntry .backoff) ready)) (fun t =>
    (t.tracker[(0 : Tag)].state, t.orq)) = some (.queued, [0]) := by decide +kernel
theorem test_replyTimerExpiry : shows (exec (.replyTimerExpiry 0) (withEntry 0 (askEntry .waiting) ready)) (fun t =>
    (t.hostTx, t.flags)) = some ([.fault 3 .timeout], 0x080#12) := by decide +kernel
theorem test_serveTake : shows (exec .serveTake { ready with svq := [askReq 1#22] }) (fun t => (t.flags, t.rpq)) =
    some (0x004#12, [{ frame := .note 2 5 1 0 .denied, writeCaused := false, covered := false }]) := by decide +kernel
theorem test_storeGrant : shows (exec .storeGrant { ready with lwb := [posted] }) (fun t => (t.storeOp, t.turn)) =
    some (some .drain, .serveEngine) := by decide +kernel
theorem test_initFillLineComplete : shows (exec .initFillLineComplete { State.reset with fillProgress := 16383 }) (fun t =>
    (t.station, t.fillProgress, t.storeOp)) = some (.setup, 16384, none) := by decide +kernel
theorem test_localReadComplete : shows (exec (.localReadComplete ⟨1#8, 0#8⟩)
    (withReq 1 localRead true { ready with storeOp := some (.localRead 1 1#22 0 .word), mem := [(64, 7#8)] }))
    (fun t => (t.hostTx, t.flags, t.hrq)) =
    some ([.data 1 [7#8, 0#8, 0#8, 0#8, 0#8, 0#8, 0#8, 0#8] true], 0x001#12, []) := by decide +kernel
theorem test_drainComplete : shows (exec (.drainComplete noErrors)
    { ready with storeOp := some .drain, lwb := [{ posted with mask := 3#64, draining := true }] })
    (fun t => (t.mem, t.lwb)) = some ([(64, 0xAB#8), (65, 0xAB#8)], []) := by decide +kernel
theorem test_serveReadComplete : shows (exec (.serveReadComplete noErrors) (serving (askReq 1#22) false)) (fun t =>
    (t.llt, t.rpq.length, t.reserve)) = some ([lent], 1, 0) := by decide +kernel
theorem test_serveWriteComplete_withheld : shows (exec (.serveWriteComplete ⟨0#8, 1#8⟩) (serving (putReq 1#22) false)) (fun t =>
    (t.mem, t.poison, t.flags)) = some ([], [8], 0x002#12) := by decide +kernel

/-! ### The idle steps -/

theorem test_idle_tick : shows (step (withEntry 0 { askEntry .waiting with replyTimer := some 2 } ready)) (fun t =>
    (t.now, t.tracker[(0 : Tag)].replyTimer)) = some (1, some 1) := by decide +kernel

/-! ### Witnesses: states and operands that meet the hypotheses of the statements, clause by clause

`test_witness_<Name>` is for the statement of that name. The statements that share hypotheses share a witness: `PinReset`
(PinResetAssertion, PinResetRelease), `Invariants` (RegistersStayInRange, StoreStaysCanonical, QueuesNeverOverflow,
QuietOutsideRun, TrackerStaysWellFormed; `Held` is a second one for the last), `Admits` (RunCommand, the first part of
RestartCommand, DropCacheAndClearFaults, SetupWordWritten, InterruptMaskWritten, ControlRequestsAnswered), `Standing` (AskStands, PutStands, StartForgetsItsSource), `EntryFrame`
(EntryFrameStands, EntryFrameFalls), `ReplyHead` (ReplyHeadStands, ReplyHeadFalls). StepRunsFrontCommand, EveryStepAnswersNext,
ResetState, EligibleRequests, ControlRowsAreMessages, OrqCandidateRule and StandOrFallRule have no hypothesis. -/

theorem test_witness_EmptyQueueStep : ({ ready with pinHeld := true }.pending = [] ∧ { ready with pinHeld := true }.pinHeld = true) ∧
    (let s := withEntry 0 (askEntry .waiting) ready;
      s.pending = [] ∧ s.pinHeld = false ∧ dueTag s = some 0 ∧ s.tracker[(0 : Tag)].state = .waiting) ∧
    (let s := withEntry 15 (askEntry .backoff) ready;
      s.pending = [] ∧ s.pinHeld = false ∧ dueTag s = some 15 ∧ s.tracker[(15 : Tag)].state = .backoff) ∧
    (let s : State := { ready with svq := [askReq 1#22] };
      s.pending = [] ∧ s.pinHeld = false ∧ dueTag s = none ∧ canServe s = true) ∧
    ready.pending = [] ∧ ready.pinHeld = false ∧ dueTag ready = none ∧ canServe ready = false := by decide +kernel

theorem test_witness_SettlingRunsOutOfWork :
    (freePlaces ready ≤ freePlaces ready ∧ freePlaces { ready with rpq := [noteItem] } < freePlaces ready) ∧
    (let s := withReq 3 .fence false ready;
      engineFirst s s = s ∧ Claims.BlocksDo s (startFence 3 s)) ∧
    ready.pinHeld = false ∧ (∃ t, grant { ready with lwb := [posted] } = some t) ∧
    (∀ p ∈ [(remoteRead, Instr.remoteReadStart 3), (remoteWrite, .remoteWriteStart 3), (localWrite true, .localWriteTaken 3),
        (.fence, .fenceStart 3)],
      let s := withReq 3 p.1 false ready
      s.pinHeld = false ∧ (s.hrq.map (·.tag)).Nodup ∧ (⟨3, p.1, false⟩ : HrqItem) ∈ eligibleNow s ∧
        (tryStart s ⟨3, p.1, false⟩).isSome = true ∧ Claims.startCommand s ⟨3, p.1, false⟩ = some p.2) ∧
    Claims.Quiet ready ∧ Claims.Quiet (withReq 3 remoteRead true { ready with storeOp := some .drain, lwb := [posted] }) := by
  refine ⟨by decide, ⟨by decide +kernel, .inr (.inr (.inr ⟨by decide +kernel, by decide +kernel, by decide +kernel, [], _, [],
    rfl, fun _ h => (by cases h), rfl⟩))⟩, rfl, ⟨_, rfl⟩, by decide +kernel, ?_⟩
  constructor <;> (unfold Claims.Quiet; decide +kernel)

theorem test_witness_PinReset : { ready with pinHeld := true }.pinHeld = true ∧
    (Instr.serveTake ≠ .pinResetAssert ∧ (∀ a b, Instr.serveTake ≠ .pinResetRelease a b) ∧
      Claims.notedWhileHeld .serveTake (.frame false) = .frame false) ∧
    Claims.notedWhileHeld .contestOpening .free = .contest false none ∧
    Claims.notedWhileHeld (.contestDecision [⟨.plain, 3⟩]) (.contest false none) = .frame false ∧
    Claims.notedWhileHeld (.contestDecision []) (.contest false none) = .free ∧
    Claims.notedWhileHeld (.startStands 5) (.frame false) = .free ∧ ready.pinHeld = false :=
  ⟨rfl, ⟨by decide, fun _ _ h => (by cases h), rfl⟩, rfl, rfl, rfl, rfl, rfl⟩

/-- A state that has every part of Safety.lean, and the step of it. -/
def safeState : State := { pinReset ready with pinHeld := false, pending := [.storeGrant] }

theorem test_witness_Invariants : FaultRecordOk safeState ∧ SetupOk safeState ∧ StoreOk safeState ∧ QueuesOk safeState ∧
    ReplyOk safeState ∧ QuietOk safeState ∧ TrackerOk safeState ∧ LaunchOk safeState ∧ OwnOk safeState ∧ StoreWorkOk safeState ∧
    HeldOk safeState ∧ AsksOk safeState ∧ ∃ t, step safeState = .next t := by
  have a := pinReset_fault ready
  have b := pinRelease_setup 2#4 0#4 ready
  have d := pinReset_queues ready
  have e := pinReset_reply ready
  have f := pinReset_quiet ready
  have g := pinReset_tracker ready
  have h := pinReset_launch ready
  have i := pinReset_own ready
  have j := pinReset_work ready
  exact ⟨⟨a.line, a.counts_le, a.flag_iff, a.first_iff, a.first_flag⟩,
    ⟨b.replyWait, b.refuseLimit, b.refuseStep, b.urgentBudget, b.serveLimit, by decide, b.budget, b.round⟩, ⟨rfl, List.Pairwise.nil⟩,
    ⟨d.hrq, d.tags, d.lwb, d.svq, d.cache, d.copies, d.llt, d.lent, d.sharers, d.pass, d.spoils⟩, ⟨e.reserve, e.places⟩,
    ⟨f.tracker, f.orq, f.cache, f.svq, f.llt, f.serve, f.offer⟩, ⟨g.entries, g.orq_iff, g.orq_nodup, g.offered⟩,
    ⟨h.silent, h.starting, h.offer⟩, ⟨i.cache, i.sharers, i.requesters, i.serving⟩, ⟨j.drain, j.others, j.serve⟩,
    HeldOk_of (s := pinReset ready) rfl rfl rfl rfl (pinReset_held ready), AsksOk_of (s := pinReset ready) rfl rfl (pinReset_asks ready), ⟨_, rfl⟩⟩

theorem test_witness_CommonFrame :
    (∃ t, exec .serveTake ready = .next t) ∧ Memory.wf [(64, 7#8)] = true ∧
    (∃ t, exec .initFillLineComplete State.reset = .next t) ∧ 64 / 64 ≠ State.reset.fillProgress ∧
    (∃ t, exec (.drainComplete noErrors) { ready with storeOp := some .drain, lwb := [posted] } = .next t) ∧
    63 / 64 ≠ posted.line.toNat ∧ 128 / 64 ≠ posted.line.toNat ∧
    (∃ t, exec (.serveWriteComplete noErrors) (serving (putReq 1#22) false) = .next t) ∧
    63 / 64 ≠ (putReq 1#22).line.toNat ∧
    (ready.storeOp ≠ some .fill ∧ ready.storeOp ≠ some .drain ∧ { ready with storeOp := some .drain }.lwb = []) ∧
    (ready.storeOp ≠ some .serve ∧
      ∀ op, (serving (askReq 1#22) false).serveOp = some op → isServeAsk op.req = true) ∧ setupOpen ready = false :=
  ⟨⟨_, rfl⟩, by decide, ⟨_, rfl⟩, by decide, ⟨_, rfl⟩, by decide, by decide, ⟨_, rfl⟩, by decide, by decide,
    ⟨by decide, fun _ h => by cases h; rfl⟩, by decide⟩

theorem test_witness_FrameRoundTrip : frameConsistent (.ask 0 15 15 7 true 0x3FFFFF#22) = true ∧
    frameConsistent (.put 0 1 (some (0, 0)) 0#22 1#64 someLine) = true ∧ frameConsistent (.recall 15 0#22 0x7FFF#16) = true ∧
    receiveFrame (frameBits (.note 3 4 5 6 .poison)) = some (.note 3 4 5 6 .poison) := by
  decide +kernel

/-- Bits of a good check that are no frame: an unassigned kind code, a NOTE without an outcome, a target that is the source, a bit
too many (R8, R9). -/
theorem test_inconsistent_frames :
    ∀ body ∈ [bitsBE 4 7 ++ bitsBE 4 9, bitsBE 4 4 ++ bitsBE 4 1 ++ bitsBE 4 2 ++ bitsBE 7 0 ++ bitsBE 3 5,
        frameBody (.note 3 3 0 0 .done), frameBody (.recall 5 1#22 0x0020#16), frameBody (.start 9) ++ [false]],
      receiveFrame (body ++ bitsBE 32 (crc body).toNat) = none := by decide +kernel

theorem test_witness_RequestRoundTrip : requestWellFormed (.read 0xFFFFFFF8#32 .word true true) = true ∧
    requestWellFormed (.read 0xFFFFFFC0#32 .line false false) = true ∧
    requestWellFormed (.write 0xFFFFFFC0#32 0x8000000000000000#64 someLine true) = true ∧ requestWellFormed .fence = true ∧
    (∀ m ∈ [HostMsg.read 1 8#32 7#8 0#8, .read 1 8#32 0#8 0#8, .read 1 4#32 8#8 0#8, .read 1 8#32 64#8 0#8,
        .write 1 8#32 0#8 1#64 someLine, .write 1 64#32 0#8 0#64 someLine, .unknown 1], Claims.BadForm m) ∧
    (∀ m ∈ [HostMsg.read 1 8#32 8#8 0xFF#8, .read 1 64#32 64#8 0#8, .write 1 64#32 0xFE#8 1#64 someLine, .fence 1,
        .controlRead 1 0xFF#8, .controlWrite 1 0xFF#8 0#64], ¬ Claims.BadForm m) := by
  simp only [List.forall_mem_cons, List.not_mem_nil, false_implies, implies_true, and_true, Claims.BadForm]; decide +kernel

theorem test_witness_ArrivalExamined :
    (ready.pinHeld = false ∧ decodeMsg [] = none ∧ decodeMsg [0x10#8, 0#8] = none ∧
      decodeMsg [0x35#8, 0x36#8] = some (.fence 5, [0x36#8])) ∧
    (decodeMsg [0x75#8] = some (.unknown 5, []) ∧ Claims.BadForm (.unknown 5)) ∧
    (decodeMsg [0x35#8] = some (.fence 5, []) ∧ ¬ Claims.BadForm (.fence 5) ∧ Claims.named (.fence 5) = some .fence) ∧
    (let s := withReq 5 .fence true ready;
      s.pinHeld = false ∧ ∃ it ∈ s.hrq, it.tag = msgTag (.fence 5)) ∧
    (let s : State := { ready with hrq := List.replicate 8 ⟨1, .fence, true⟩ };
      s.pinHeld = false ∧ (∀ it ∈ s.hrq, it.tag ≠ msgTag (.fence 5)) ∧ 8 ≤ s.hrq.length) ∧
    (let s : State := { ready with hrq := List.replicate 7 ⟨1, .fence, true⟩ };
      s.pinHeld = false ∧ (∀ it ∈ s.hrq, it.tag ≠ msgTag (.fence 5)) ∧ s.hrq.length < 8) := by
  simp only [Claims.BadForm]; decide +kernel

theorem test_witness_RemoteReadStarts :
    (∀ s ∈ [inState .halted, { ready with cache := [copy] }, withEntry 15 (askEntry .waiting) ready, ready, fullTracker],
      Claims.Eligible 3 (.read remoteAddr .line true false) (withReq 3 remoteRead false s) ∧
        addrStation remoteAddr ≠ (withReq 3 remoteRead false s).number) ∧
    (withReq 3 remoteRead false (inState .halted)).station ≠ .run ∧
    (let s := withReq 3 remoteRead false { ready with cache := [copy] };
      s.station = .run ∧ (true && s.setup.cacheEnable) = true ∧
        cacheFind (addrStation remoteAddr) (addrLine remoteAddr) s = some copy) ∧
    (let s := withReq 3 remoteRead false (withEntry 15 (askEntry .waiting) ready);
      s.station = .run ∧ cacheFind (addrStation remoteAddr) (addrLine remoteAddr) s = none ∧
        attachTag (addrStation remoteAddr) (addrLine remoteAddr) s = some 15) ∧
    (let s := withReq 3 remoteRead false ready;
      s.station = .run ∧ cacheFind (addrStation remoteAddr) (addrLine remoteAddr) s = none ∧
        attachTag (addrStation remoteAddr) (addrLine remoteAddr) s = none ∧ freeTag s = some 0) ∧
    (let s := withReq 3 remoteRead false fullTracker;
      s.station = .run ∧ cacheFind (addrStation remoteAddr) (addrLine remoteAddr) s = none ∧
        attachTag (addrStation remoteAddr) (addrLine remoteAddr) s = none ∧ freeTag s = none) := by
  unfold Claims.Eligible; decide +kernel

theorem test_witness_RemoteWriteStarts :
    (∀ s ∈ [inState .starting, { ready with cache := [copy] }, withEntry 0 (askEntry .waiting) ready, fullTracker],
      Claims.Eligible 4 (.write remoteAddr 0xFF#64 someLine true) (withReq 4 remoteWrite false s) ∧
        addrStation remoteAddr ≠ (withReq 4 remoteWrite false s).number) ∧
    (withReq 4 remoteWrite false (inState .starting)).station ≠ .run ∧
    (let s := withReq 4 remoteWrite false fullTracker;
      s.station = .run ∧ freeTag s = none) ∧
    (let s := withReq 4 remoteWrite false { ready with cache := [copy] };
      s.station = .run ∧ freeTag s = some 0 ∧ cacheFind (addrStation remoteAddr) (addrLine remoteAddr) s = some copy) ∧
    (let s := withReq 4 remoteWrite false (withEntry 0 (askEntry .waiting) ready);
      s.station = .run ∧ freeTag s = some 1 ∧ cacheFind (addrStation remoteAddr) (addrLine remoteAddr) s = none) := by
  unfold Claims.Eligible; decide +kernel

theorem test_witness_LocalWriteTaking :
    let fullBuffer : State := { ready with lwb := List.replicate 4 { posted with line := 2#22 } }
    let place : SpanAddr := 0x200FFFC0#32
    let beyond : SpanAddr := 0x20100000#32
    (∀ s ∈ [inState .init, fullBuffer, { ready with llt := [lent], rpq := List.replicate 12 noteItem },
        { ready with llt := [lent], rpq := List.replicate 11 noteItem, lwb := [posted] }, ready],
      Claims.Eligible 4 (.write localAddr 0xFF#64 someLine false) (withReq 4 (localWrite false) false s) ∧
        addrStation localAddr = (withReq 4 (localWrite false) false s).number) ∧
    (inState .init).station = .init ∧
    (let s := withReq 4 (.write beyond 0xFF#64 someLine true) false ready;
      Claims.Eligible 4 (.write beyond 0xFF#64 someLine true) s ∧ addrStation beyond = s.number ∧ s.station ≠ .init ∧
        installedLines s.sizeCode ≤ (addrLine beyond).toNat) ∧
    (let s := withReq 4 (.write place 0xFF#64 someLine true) false ready;
      Claims.Eligible 4 (.write place 0xFF#64 someLine true) s ∧ addrStation place = s.number ∧ s.station ≠ .init ∧
        (addrLine place).toNat < installedLines s.sizeCode) ∧
    addrLine localAddr = 1#22 ∧ (∀ s ∈ [ready, fullBuffer], s.station ≠ .init ∧ 1 < installedLines s.sizeCode) ∧
    (canMerge fullBuffer 1#22 false = false ∧ 4 ≤ fullBuffer.lwb.length) ∧
    (lltFind 1#22 { ready with llt := [lent] } = some lent ∧ 12 ≤ (List.replicate 12 noteItem).length + ready.reserve) ∧
    ([posted, { posted with line := 2#22 }] = [] ++ posted :: [{ posted with line := 2#22 }] ∧
      canMerge { ready with lwb := [posted, { posted with line := 2#22 }] } 1#22 false = true ∧ (List.replicate 11 noteItem).length + ready.reserve < 12) ∧
    (canMerge ready 1#22 false = false ∧ ready.lwb.length < 4 ∧ lltFind 1#22 ready = none) ∧
    (canMerge { ready with lwb := [posted] } 1#22 true = false ∧ [posted].length < 4) := by
  unfold Claims.Eligible; decide +kernel

theorem test_witness_FenceStartsAndIsAnswered :
    (let s := withReq 6 .fence false { ready with rpq := [noteItem] };
      Claims.Eligible 6 .fence s ∧ (∀ t : Tag, s.tracker[t].kind ≠ some .putPosted) ∧ ∀ it ∈ s.rpq, it.writeCaused = false) ∧
    (let s := withReq 6 .fence false (withEntry 3 putEntry ready);
      Claims.Eligible 6 .fence s ∧ ∃ t : Tag, s.tracker[t].kind = some .putPosted) ∧
    (let s := withReq 6 .fence false { ready with rpq := [recallItem] };
      Claims.Eligible 6 .fence s ∧ ∃ it ∈ s.rpq, it.writeCaused = true) ∧
    (let s := withReq 6 .fence true { withEntry 3 putEntry ready with rpq := [recallItem] };
      s.pinHeld = false ∧ startedFence s = some 6 ∧ (∀ t : Tag, s.tracker[t].covered = false) ∧ ∀ it ∈ s.rpq, it.covered = false) ∧
    (let s := withReq 6 .fence true (withEntry 3 { putEntry with covered := true } ready);
      s.pinHeld = false ∧ startedFence s = some 6 ∧ ∃ t : Tag, s.tracker[t].covered = true) ∧
    (let s := withReq 6 .fence true { ready with rpq := [{ recallItem with covered := true }] };
      s.pinHeld = false ∧ startedFence s = some 6 ∧ ∃ it ∈ s.rpq, it.covered = true) ∧
    ready.pinHeld = false ∧ startedFence ready = none := by
  unfold Claims.Eligible; decide +kernel

/-- Each station state, with RUN asked for in INIT or not, and a full queue but one: a control request is taken and starts. -/
theorem test_witness_Admits :
    ∀ s ∈ [State.reset, { State.reset with runRequested := true }, inState .setup, inState .starting, ready, inState .halted,
        { ready with hrq := List.replicate 7 ⟨2, remoteRead, true⟩, storeOp := some .drain }],
      Claims.Admits 1 s := by
  unfold Claims.Admits Claims.Quiet; decide +kernel

theorem test_witness_RunCommand : (inState .setup).station = .setup ∧ State.reset.station = .init ∧ State.reset.runRequested = false ∧
    { State.reset with runRequested := true }.runRequested = true ∧ (inState .starting).station = .starting ∧
    ready.station = .run ∧ (inState .halted).station = .halted := by decide +kernel

theorem test_witness_SetupWordWritten : (inState .starting).station ≠ .setup ∧ (inState .setup).station = .setup ∧
    (State.reset.station = .init ∧ State.reset.runRequested = false) ∧
    ({ State.reset with runRequested := true }.station = .init → { State.reset with runRequested := true }.runRequested = true) := by
  decide +kernel

theorem test_witness_ControlRequestsAnswered :
    (∀ w ∈ [0x00#8, 0x07#8, 0x0D#8, 0x0F#8, 0x20#8, 0x28#8, 0x2A#8, 0xFF#8],
      w ≠ 0x04#8 ∧ w ≠ 0x29#8 ∧ ¬(0x08 ≤ w.toNat ∧ w.toNat ≤ 0x0C) ∧ ¬(0x10 ≤ w.toNat ∧ w.toNat ≤ 0x1F)) ∧
    ¬(1 ≤ (0#64).toNat ∧ (0#64).toNat ≤ 4) ∧ ¬(1 ≤ (5#64).toNat ∧ (5#64).toNat ≤ 4) ∧
    ¬(1 ≤ (0x100000001#64).toNat ∧ (0x100000001#64).toNat ≤ 4) :=
  ⟨by decide, by simp, by simp, by simp⟩

theorem test_witness_unlisted_words : ∀ w ∈ [0x04#8, 0x05#8, 0x07#8, 0x0D#8, 0x0F#8, 0x22#8, 0x27#8, 0x2B#8, 0x2F#8, 0x3C#8, 0xFF#8],
    w.toNat = 0x04 ∨ (0x05 ≤ w.toNat ∧ w.toNat ≤ 0x07) ∨ (0x0D ≤ w.toNat ∧ w.toNat ≤ 0x0F) ∨
      (0x22 ≤ w.toNat ∧ w.toNat ≤ 0x27) ∨ (0x2B ≤ w.toNat ∧ w.toNat ≤ 0x2F) ∨ 0x3C ≤ w.toNat := by decide

theorem test_witness_ControlWordValues : TrackerOk safeState ∧ QueuesOk safeState ∧ SetupOk safeState ∧ FaultRecordOk safeState ∧
    safeState.rpq.length ≤ 12 ∧ safeState.orq.length ≤ 16 ∧ safeState.fillProgress ≤ 4194304 ∧ safeState.firstFault = none ∧
    (takeReport (Claims.fault .link (some 15) (some 0x3FFFFF#22) (some 15)) safeState).firstFault =
      some (Claims.fault .link (some 15) (some 0x3FFFFF#22) (some 15)) :=
  ⟨test_witness_Invariants.2.2.2.2.2.2.1, test_witness_Invariants.2.2.2.1, test_witness_Invariants.2.1, test_witness_Invariants.1, by decide, by decide,
    by decide, rfl, rfl⟩

/-- A station with one QUEUED ASK. -/
def asking : State := withEntry 0 (askEntry .queued) ready

theorem asking_tracker_ok : TrackerOk asking where
  entries := fun t => by
    by_cases h : t = 0
    · subst h
      show EntryOk (askEntry .queued)
      exact ⟨by decide, by decide, by decide, by decide, by decide, by decide, by decide, by decide, by decide, by decide⟩
    · have hn : ((0 : Tag) : Nat) ≠ t.val := fun e => h (Fin.ext e.symm)
      have : asking.tracker[t] = State.resetEntry := by
        exact (Vector.getElem_set_ne (0 : Tag).isLt t.isLt hn).trans (resetTracker_get t)
      rw [this]; exact resetEntry_ok
  orq_iff := by decide +kernel
  orq_nodup := by decide
  offered := fun t h => by
    obtain ⟨_, ⟨_, ⟨_, h⟩ | h⟩, _⟩ := h <;> cases h

/-- A station with a READ started and held in a QUEUED ASK. -/
theorem test_witness_Held : let s := withReq 3 remoteRead true asking
    TrackerOk s ∧ QueuesOk s ∧ SetupOk s ∧ HeldOk s ∧ AsksOk s :=
  ⟨TrackerOk_of (s := asking) rfl rfl rfl asking_tracker_ok,
    ⟨by decide, by decide, by decide, by decide, by decide, by decide, by decide, by decide, by decide, by decide, by decide⟩,
    ⟨by decide, by decide, by decide, by decide, by decide, by decide, by decide, by decide⟩,
    ⟨by decide +kernel, by decide +kernel⟩, ⟨by decide +kernel, by decide +kernel, by decide +kernel⟩⟩

theorem test_witness_TeardownEffects :
    (∀ t : Tag, EntryOk (asking.tracker[t])) ∧ startedFence asking = none ∧
    (∀ t : Tag, EntryOk ((withReq 6 .fence true asking).tracker[t])) ∧
      startedFence (Claims.remoteTold .restarted (withReq 6 .fence true asking)) = some 6 :=
  ⟨asking_tracker_ok.entries, by decide +kernel, asking_tracker_ok.entries, by decide +kernel⟩

/-- A FENCE started that waits for a RECALL, and behind it a READ that waits for its line. -/
def fenced : State :=
  withReq 3 remoteRead true (withReq 6 .fence true { asking with rpq := [{ recallItem with covered := true }] })

/-- The same with a RESTART that may start and a remote READ behind it; and the RESTART's answers (R171). -/
def restarting : State := withReq 7 remoteRead false (withReq 9 (.controlWrite 0x04#8 2#64) false fenced)

theorem test_witness_RestartCommand :
    (∀ x ∈ [StationState.starting, .run, .halted, .init, .setup],
      Claims.Eligible 9 (.controlWrite 0x04#8 2#64) { restarting with station := x }) ∧
    (∀ t : Tag, EntryOk (restarting.tracker[t])) ∧
    (fenceDue restarting = false ∧ grant restarting = none ∧ engineFirst restarting restarting = restarting ∧
      ∃ u, tryStart restarting { tag := 9, req := .controlWrite 0x04#8 2#64, started := false } = some u) ∧
    fenced.pinHeld = false ∧ fenced.hrq.length < 8 ∧ (∀ it ∈ fenced.hrq, it.started = true ∧ it.tag ≠ 9) ∧
    fenceDue fenced = false ∧ grant fenced = none := by
  refine ⟨?_, asking_tracker_ok.entries, ⟨by decide +kernel, by decide +kernel, by decide +kernel, _, rfl⟩, ?_⟩
  · unfold Claims.Eligible; decide +kernel
  · decide +kernel

theorem test_restart_order : (Claims.restarted 9 restarting).hostTx =
    [.fault 3 .restarted, .fault 7 .restarted, .done 6 false, .done 9 false] := by decide +kernel

theorem test_witness_ContestOpens : (∀ o, ready.span ≠ .sending o) ∧
    { ready with span := .sending (offerOf .replyQueue noteItem.frame .urgent false) }.span =
      .sending (offerOf .replyQueue noteItem.frame .urgent false) ∧ listening (inState .halted) = false ∧ listening ready = true ∧
    frameUrgent noteItem.frame = true ∧ 0 < { ready with budget := 1 }.budget ∧ { ready with budget := 0 }.budget = 0 ∧
    { ready with waived := true }.waived = true ∧ asking.rpq = [] ∧ orqCandidate asking = some 0 ∧ asking.waived = false ∧
    TrackerOk asking ∧ asking.tracker[(0 : Tag)].kind = some .ask ∧
    (orqCandidate (withEntry 3 putEntry ready) = some 3 ∧ (withEntry 3 putEntry ready).tracker[(3 : Tag)].kind = some .putPosted) ∧
    ready.rpq = [] ∧ orqCandidate ready = none :=
  ⟨fun _ h => (by cases h), rfl, by decide, by decide, by decide, by decide, by decide, by decide, by decide, by decide +kernel,
    by decide, asking_tracker_ok, by decide +kernel, by decide +kernel, by decide, by decide +kernel⟩

theorem test_witness_ContestDecides :
    (∀ c ∈ [(⟨.urgent, 2⟩ : Contender), ⟨.plain, 0⟩],
      (SpanClass.urgent = .urgent ∧ c.cls = .plain) ∨ (SpanClass.urgent = c.cls ∧ ready.number ≤ c.number)) ∧
    ¬(∀ c ∈ [(⟨.urgent, 1⟩ : Contender)],
      (SpanClass.urgent = .urgent ∧ c.cls = .plain) ∨ (SpanClass.urgent = c.cls ∧ ready.number ≤ c.number)) ∧
    { ready with span := .contest true none }.span = .contest true none ∧ [(⟨.plain, 1⟩ : Contender)] ≠ [] ∧
    ready.span = .free ∧ { ready with span := .frame true }.span = .frame true := by decide +kernel

/-- A frame of station 5 is on the Span. -/
def receiving : State := { ready with span := .frame true }

theorem test_witness_FallenFrameIsNotTaken : receiving.pinHeld = false ∧ receives receiving = true ∧
    receiveFrame [true, false] = none ∧
    receiveFrame (frameBits (.ask 5 2 1 0 true 1#22)) = some (.ask 5 2 1 0 true 1#22) ∧
    frameTarget (.ask 5 2 1 0 true 1#22) = some receiving.number ∧ receiving.station = .run ∧
    isRequestFrame (.ask 5 2 1 0 true 1#22) = true ∧ 8 ≤ (List.replicate 8 (askReq 1#22)).length ∧
    (List.replicate 7 (askReq 1#22)).length < 8 ∧ (slotsOf true false false).spoil = true ∧
    receiveFrame (frameBits (.start 5)) = some (.start 5) ∧ frameTarget (.start 5) ≠ some receiving.number ∧
    classify (slotsOf true false false) (frameTarget (.start 5)).isSome ≠ .stood := by decide +kernel

theorem test_witness_UnreceivedFrameIsNotTaken : receives (inState .halted) = false ∧
    receives { ready with span := .frame false } = false ∧ (∃ src, Instr.startStands 5 = .startStands src) :=
  ⟨by decide, by decide, 5, rfl⟩

theorem test_witness_Standing : receives receiving = true ∧ (5 : Station) ≠ 2 ∧ (5 : Station) ≠ receiving.number ∧
    (2 : Station) = receiving.number ∧ receiving.station = .run ∧ (List.replicate 7 (askReq 1#22)).length < 8 ∧
    8 ≤ (List.replicate 8 (askReq 1#22)).length ∧ receives { receiving with station := .starting } = true ∧
    (1#64 : Mask) ≠ 0#64 ∧ (6 : Station) ≠ receiving.number := by decide +kernel

theorem test_witness_GiveAnswersWaiters : let s := withEntry 0 (askEntry .waiting) receiving
    receives s = true ∧ s.station = .run ∧ (2 : Station) = s.number ∧ s.tracker[(0 : Tag)].state = .waiting ∧
      s.tracker[(0 : Tag)].epoch = 0 ∧ s.tracker[(0 : Tag)].target = 5 ∧ s.tracker[(0 : Tag)].kind = some .ask ∧
      s.tracker[(0 : Tag)].keep = true ∧ s.setup.cacheEnable = true ∧ s.tracker[(0 : Tag)].overtaken = false := by
  decide +kernel

theorem test_witness_NoteAnswersWaiters : let s := withEntry 0 confirmedEntry receiving
    receives s = true ∧ s.tracker[(0 : Tag)].state = .waiting ∧ s.tracker[(0 : Tag)].epoch = 0 ∧
      s.tracker[(0 : Tag)].target = 5 ∧ s.tracker[(0 : Tag)].kind = some .putConfirmed := by decide +kernel

theorem test_witness_StrayReply : let s := withEntry 0 (askEntry .waiting) receiving
    receives s = true ∧
    (∃ m d, Instr.giveStands 5 2 0 7 false someLine = .giveStands 5 2 0 7 m d ∧
      ¬(s.tracker[(0 : Tag)].state = .waiting ∧ s.tracker[(0 : Tag)].epoch = 7 ∧ s.tracker[(0 : Tag)].target = 5 ∧
        s.tracker[(0 : Tag)].kind = some .ask)) ∧
    (∃ o, Instr.noteStands 5 2 0 0 .done = .noteStands 5 2 0 0 o ∧
      ¬(s.tracker[(0 : Tag)].state = .waiting ∧ s.tracker[(0 : Tag)].epoch = 0 ∧ s.tracker[(0 : Tag)].target = 5 ∧
        (s.tracker[(0 : Tag)].kind = some .putConfirmed ∨ s.tracker[(0 : Tag)].kind = some .ask ∧ o ≠ .done))) ∧
    (2 : Station) = s.number ∧ s.station = .run ∧
    ((∃ m d, Instr.giveStands 5 3 0 0 false someLine = .giveStands 5 3 0 0 m d) ∧ (3 : Station) ≠ s.number ∧
      s.tracker[(0 : Tag)].state = .waiting ∧ s.tracker[(0 : Tag)].epoch = 0 ∧ s.tracker[(0 : Tag)].target = 5) ∧
    receives { receiving with station := .starting } = true :=
  ⟨by decide +kernel, ⟨_, _, rfl, by decide +kernel⟩, ⟨_, rfl, by decide +kernel⟩, by decide +kernel, by decide +kernel,
    ⟨⟨_, _, rfl⟩, by decide +kernel⟩, by decide +kernel⟩

theorem test_witness_RecallDropsCopy : receives receiving = true ∧ (0x0004#16 : SharerSet) ≠ 0#16 ∧
    (0x0004#16 : SharerSet).getLsbD (5 : Station).val = false ∧ (0x0004#16 : SharerSet).getLsbD receiving.number.val = true ∧
    (0x0003#16 : SharerSet).getLsbD receiving.number.val = false := by decide +kernel

theorem test_witness_DuplicateHalts : receives receiving = true ∧ frameConsistent (.start 2) = true ∧
    frameSource (.start 2) = receiving.number ∧ (∃ src, Frame.start 2 = .start src ∧ Instr.startStands 2 = .startStands src) :=
  ⟨by decide, by decide, by decide, 2, rfl, rfl⟩

/-- The station sends the frame of entry 0. -/
def sendingEntry (e : Entry) : State :=
  { withEntry 0 e ready with span := .sending (offerOf (.tracker 0) (.ask 2 5 0 0 true 1#22) .plain false) }

theorem test_witness_EntryFrame : (sendingEntry (askEntry .queued)).tracker[(0 : Tag)].state = .queued ∧
    (frameTarget (.ask 2 5 0 0 true 1#22)).isSome = true ∧ classify (slotsOf false true false) true = .stood ∧
    (sendingEntry putEntry).tracker[(0 : Tag)].kind = some .putPosted ∧
    (sendingEntry (askEntry .queued)).tracker[(0 : Tag)].kind ≠ some .putPosted ∧
    classify (slotsOf true false false) true = .spoiled ∧
    (sendingEntry { askEntry .queued with spoils := 2 }).tracker[(0 : Tag)].spoils < 3 ∧
    (sendingEntry { askEntry .queued with spoils := 3 }).tracker[(0 : Tag)].spoils = 3 ∧
    classify (slotsOf false false true) true = .refused ∧
    (sendingEntry { askEntry .queued with refusals := 6 }).tracker[(0 : Tag)].refusals + 1 < ready.setup.refuseLimit ∧
    (sendingEntry { askEntry .queued with refusals := 7 }).tracker[(0 : Tag)].refusals + 1 = ready.setup.refuseLimit ∧
    classify (slotsOf false false false) true = .absent := by decide +kernel

theorem test_witness_ReplyHead : (offerOf .replyQueue (.note 2 5 1 0 .done) .urgent true).gone = true ∧
    frameUrgent (.note 2 5 1 0 .done) = true ∧
    classify (slotsOf false true false) (frameTarget (.note 2 5 1 0 .done)).isSome = .stood ∧
    classify (slotsOf false false false) (frameTarget (.start 2)).isSome = .stood ∧
    (slotsOf true true true).spoil = true ∧ { ready with spoilCount := 2 }.spoilCount < 3 ∧
    { ready with spoilCount := 3 }.spoilCount = 3 ∧ frameTarget (.note 2 5 1 0 .done) = some 5 ∧
    classify (slotsOf false false false) true = .absent ∧ classify (slotsOf false true true) true = .refused ∧
    frameTarget (.recall 2 1#22 0x0020#16) = none := by decide +kernel

theorem test_witness_TimersExpire :
    (withEntry 0 (askEntry .backoff) ready).tracker[(0 : Tag)].state = .backoff ∧
    (withEntry 0 (askEntry .backoff) ready).tracker[(0 : Tag)].backoffTimer = some 0 ∧
    (withEntry 0 confirmedEntry ready).tracker[(0 : Tag)].state = .waiting ∧
    (withEntry 0 confirmedEntry ready).tracker[(0 : Tag)].replyTimer = some 5 := by decide +kernel

theorem test_witness_ServeChoice :
    isServeAsk (putReq 1#22) = false ∧ (3 : Nat) < 4 ∧
    [putReq 1#22, askReq 1#22, askReq 2#22] = [putReq 1#22, askReq 1#22] ++ askReq 2#22 :: [] ∧
    (isServeAsk (askReq 2#22) = true ∧ ∀ q ∈ [putReq 1#22, askReq 1#22], q.line ≠ (askReq 2#22).line) ∧
    (∀ (p q : List ServeReq) (b : ServeReq), [putReq 1#22, askReq 1#22] = p ++ b :: q →
      ¬(isServeAsk b = true ∧ ∀ r ∈ p, r.line ≠ b.line)) ∧
    isServeAsk (askReq 1#22) = true := by
  refine ⟨by decide, by decide, by decide, by decide, fun p q b h => ?_, by decide⟩
  match p, h with
  | [], h => cases h; decide
  | [_], h => cases h; decide
  | _ :: _ :: [], h => cases h
  | _ :: _ :: _ :: _, h => cases h

theorem test_witness_ServeTaking :
    let s : State := { ready with svq := [askReq 0x3FFF#22], now := 250 }
    s.serveOp = none ∧ s.rpq.length ≤ 10 ∧ chooseServe s.passCount s.svq = some (askReq 0x3FFF#22, [], 0) ∧
    10 < (List.replicate 11 noteItem).length ∧ ready.svq = [] ∧
    s.serveLimit < 251 - (askReq 1#22).acceptedAt ∧ s.now - (askReq 1#22).acceptedAt ≤ s.serveLimit ∧
    ¬(s.rights[(5 : Station)] = .readWrite ∨ s.rights[(5 : Station)] = .read ∧ isServeAsk (askReq 1#22) = true) ∧
    { s with rights := Vector.replicate 16 .read }.rights[(5 : Station)] = .read ∧
    installedLines s.sizeCode ≤ (0x4000#22 : LineIndex).toNat ∧ (askReq 0x3FFF#22).line.toNat < installedLines s.sizeCode := by
  decide +kernel

theorem test_witness_StoreGranting :
    (offeredRead (withReq 1 localRead false ready) = some ⟨1, localRead, false⟩ ∧ State.reset.storeOp ≠ none) ∧
    (offeredRead (withReq 5 (.read 0x20000080#32 .word false true) false (withReq 1 localRead false ready)) =
      some ⟨5, .read 0x20000080#32 .word false true, false⟩) ∧
    ready.storeOp = none ∧ fillWaits { State.reset with storeOp := none } = true ∧ fillWaits ready = false ∧
    { ready with serveOp := some ⟨askReq 1#22, false⟩ }.serveOp ≠ none ∧ { ready with turn := .serveEngine }.turn = .serveEngine ∧
    ¬(waitingRead ready ≠ none ∨ drainWaits ready = true) ∧ ready.serveOp = none ∧ ready.turn = .localSide ∧
    waitingRead (withReq 1 localRead false ready) = some ⟨1, localRead, false⟩ ∧
    ¬(drainWaits (withReq 1 localRead false ready) = true ∧ (withReq 1 localRead false ready).lwb.length = 4) ∧
    drainWaits { ready with lwb := List.replicate 4 posted } = true ∧ (List.replicate 4 posted).length = 4 := by decide +kernel

theorem test_witness_FillLineCompletes : State.reset.storeOp = some .fill ∧ State.reset.station = .init ∧
    Memory.wf State.reset.mem = true ∧ ¬installedLines State.reset.sizeCode ≤ 16382 + 1 ∧
    installedLines State.reset.sizeCode ≤ 16383 + 1 := by decide +kernel

theorem test_witness_ReadSeesBuffer :
    (∀ b ∈ [posted], b.line = 1#22 → b.mask.getLsbD (8 : Fin 64).val = false) ∧
    ([posted] = [] ++ posted :: [] ∧ posted.line = 1#22 ∧ posted.mask.getLsbD (7 : Fin 64).val = true) := by decide +kernel

theorem test_witness_LineWriteRule :
    Memory.wf [(64, 7#8)] = true ∧
    (((∃ k : Fin 8, (0x0F#64 : Mask).getLsbD (8 * (0 : Fin 8).val + k.val) = true) ∧
        ∃ k : Fin 8, ¬(0x0F#64 : Mask).getLsbD (8 * (0 : Fin 8).val + k.val) = true) ∧ wordNumber 1#22 0 ∈ [8]) ∧
    ∀ x : Fin 8, ¬((∃ k : Fin 8, (0xFF#64 : Mask).getLsbD (8 * x.val + k.val) = true) ∧
      ∃ k : Fin 8, ¬(0xFF#64 : Mask).getLsbD (8 * x.val + k.val) = true) := by decide +kernel

theorem test_witness_LocalReadCompletes :
    let s : State := { ready with storeOp := some (.localRead 1 1#22 56 .word) }
    s.storeOp = some (.localRead 1 1#22 56 .word) ∧ readPoisoned s 1#22 noErrors [7] = false ∧
      readPoisoned s 1#22 ⟨0#8, 0x80#8⟩ [7] = true := by decide +kernel

theorem test_witness_DrainCompletes :
    let s : State := { ready with storeOp := some .drain, lwb := [posted] }
    s.storeOp = some .drain ∧ s.lwb = posted :: [] ∧ (lineWrite s 1#22 posted.mask someLine noErrors).performed = true ∧
      posted.confirm = none ∧ { posted with confirm := some 4 }.confirm = some 4 ∧
      (lineWrite s 1#22 0x0F#64 someLine ⟨0#8, 1#8⟩).performed = false := by decide +kernel

theorem test_witness_ServeReadCompletes :
    let s := serving (askReq 1#22) false
    s.storeOp = some .serve ∧ s.serveOp = some ⟨askReq 1#22, false⟩ ∧ (askReq 1#22).kind = .ask true 1 0 ∧
      readPoisoned s 1#22 ⟨0#8, 1#8⟩ (List.finRange 8) = true ∧ readPoisoned s 1#22 noErrors (List.finRange 8) = false ∧
      lltFind 1#22 { s with llt := [lent] } = some lent ∧ lltFind 1#22 s = none ∧
      (List.replicate 63 { lent with line := 2#22 }).length < 64 ∧
      List.replicate 64 { lent with line := 2#22 } =
        List.replicate 63 { lent with line := 2#22 } ++ [{ lent with line := 2#22 }] ∧
      lltFind 1#22 { s with llt := List.replicate 64 { lent with line := 2#22 } } = none := by decide +kernel

theorem test_witness_ServeWriteCompletes :
    let s := serving (putReq 1#22) false
    s.storeOp = some .serve ∧ s.serveOp = some ⟨putReq 1#22, false⟩ ∧
      (putReq 1#22).kind = .put (some (1, 0)) 0x0F#64 someLine ∧
      (lineWrite s 1#22 0x0F#64 someLine noErrors).performed = true ∧
      (lineWrite s 1#22 0x0F#64 someLine ⟨0#8, 1#8⟩).performed = false := by decide +kernel

theorem test_witness_FaultReportTaken : ready.firstFault = none ∧
    (takeReport (Claims.fault .link none none none) ready).firstFault ≠ none := by decide +kernel

end Sys2Proof.Tests
end

section
/-! SUPPORT. What the end of a frame does to a station, said once: the commands of the table that end a frame, the end slots a
receiving station asserts, the frames that stand with them, and the taking of a standing frame. -/

-- Theorems are elaborated one after another: many at once take more threads than the memory limit allows.
set_option Elab.async false

namespace Sys2Proof.Proofs

open Sys2Proof.Machine Sys2Proof.Safety Sys2Proof.Laws

/-! ### Events while the pin is released -/

theorem unlessHeld_released {s : State} (h : s.pinHeld = false) (t : State) : unlessHeld s t = .next t := by
  simp [unlessHeld, h]

theorem event_released {s : State} (h : s.pinHeld = false) (f : State → State) : event s f = .next (settle s (f s)) :=
  unlessHeld_released h _

theorem spanEvent_released {s : State} (h : s.pinHeld = false) (p : SpanPhase) (t : State) : spanEvent p s t = .next t := by
  simp [spanEvent, h]

theorem exec_frameFalls {s : State} (h : s.pinHeld = false) (bits : List Bool) (others : EndSlots) :
    exec (.frameFalls bits others) s = .next (receivedEnd bits others s) :=
  spanEvent_released h _ _

/-- The command of the table that says that a frame stands. -/
def standCommand : Frame → Instr
  | .ask src tgt tag ep keep line => .askStands src tgt tag ep keep line
  | .put src tgt confirm line mask data => .putStands src tgt confirm line mask data
  | .give src tgt tag ep mended data => .giveStands src tgt tag ep mended data
  | .note src tgt tag ep outcome => .noteStands src tgt tag ep outcome
  | .recall src line sharers => .recallStands src line sharers
  | .start src => .startStands src

theorem exec_standCommand {s : State} (h : s.pinHeld = false) (f : Frame) :
    exec (standCommand f) s = .next (settle s (standingEnd f s)) := by
  have e : exec (standCommand f) s = standingEvent f s := by cases f <;> rfl
  rw [e]
  exact spanEvent_released h _ _

/-- What a station has made of a frame at its end, with what follows within the event. -/
theorem exec_stands {s t : State} {f : Frame} (h : s.pinHeld = false) (e : standingEnd f s = t) :
    exec (standCommand f) s = .next (settle s t) := by
  rw [exec_standCommand h, e]

/-! ### The slots a receiving station asserts (R10 to R12) -/

/-- SPOIL alone, and REFUSE alone; ACCEPT alone is `Claims.acceptOnly`, and none is `noSlots`. -/
def spoilOnly : EndSlots := { spoil := true, accept := false, refuse := false }
def refuseOnly : EndSlots := { spoil := false, accept := false, refuse := true }

theorem assertSlots_bad (s : State) : assertSlots s none = spoilOnly := rfl

theorem assertSlots_refuse {s : State} {f : Frame} (ht : frameTarget f = some s.number) (hs : s.station = .run)
    (hf : isRequestFrame f = true) (hq : 8 ≤ s.svq.length) : assertSlots s (some f) = refuseOnly := by
  have hfull : Config.svqCapacity ≤ s.svq.length := hq
  simp [assertSlots, ht, hs, hf, hfull, refuseOnly, noSlots]

theorem assertSlots_accept {s : State} {f : Frame} (ht : frameTarget f = some s.number) (hs : s.station = .run)
    (hq : isRequestFrame f = true → s.svq.length < 8) : assertSlots s (some f) = Claims.acceptOnly := by
  have hroom : ¬(isRequestFrame f = true ∧ Config.svqCapacity ≤ s.svq.length) :=
    fun ⟨hf, hfull⟩ => absurd (hq hf) (Nat.not_lt.2 hfull)
  simp [assertSlots, ht, hs, hroom, Claims.acceptOnly, noSlots]

theorem assertSlots_silent {s : State} {f : Frame} (h : frameTarget f ≠ some s.number ∨ s.station ≠ .run) :
    assertSlots s (some f) = noSlots := by
  simp only [assertSlots, if_neg (not_and_or.2 h)]

/-! ### Which frames stand (R13) -/

theorem classify_refuseOnly (others : EndSlots) (addressed : Bool) :
    classify (wiredSlots refuseOnly others) addressed ≠ .stood := by
  obtain ⟨spoil, accept, refuse⟩ := others
  cases spoil <;> simp [classify, wiredSlots, refuseOnly]

/-- An accepted frame falls exactly when another station spoils or refuses it. -/
theorem classify_acceptOnly (others : EndSlots) (addressed : Bool) :
    classify (wiredSlots Claims.acceptOnly others) addressed = .stood ↔ others.spoil = false ∧ others.refuse = false := by
  obtain ⟨spoil, accept, refuse⟩ := others
  cases spoil <;> cases refuse <;> simp [classify, wiredSlots, Claims.acceptOnly]

theorem wiredSlots_none (others : EndSlots) : wiredSlots noSlots others = others := by
  simp [wiredSlots, noSlots]

theorem foundConsistent_of {f : Frame} (h : frameConsistent f = true) : foundConsistent f = some f := by
  simp [foundConsistent, h]

theorem letsStand_iff {s : State} {f : Frame} (hc : frameConsistent f = true) : letsStand s f = true ↔
    classify (wiredSlots (assertSlots s (some f)) { noSlots with accept := frameTarget f != some s.number })
      (frameTarget f).isSome = .stood := by
  simp [letsStand, foundConsistent_of hc]

theorem letsStand_accepted {s : State} {f : Frame} (hc : frameConsistent f = true)
    (ha : assertSlots s (some f) = Claims.acceptOnly) : letsStand s f = true := by
  rw [letsStand_iff hc, ha, classify_acceptOnly]
  exact ⟨rfl, rfl⟩

theorem letsStand_refused {s : State} {f : Frame} (hc : frameConsistent f = true)
    (ha : assertSlots s (some f) = refuseOnly) : letsStand s f = false := by
  rw [← Bool.not_eq_true, letsStand_iff hc, ha]
  exact classify_refuseOnly _ _

/-- A frame for another station, or for all, stands with a station that asserts nothing. -/
theorem letsStand_elsewhere {s : State} {f : Frame} (hc : frameConsistent f = true) (ht : frameTarget f ≠ some s.number) :
    letsStand s f = true := by
  rw [letsStand_iff hc, assertSlots_silent (.inl ht), wiredSlots_none]
  simp [classify, noSlots, ht]

/-- A frame for a station that is not in RUN falls absent (R11). -/
theorem letsStand_absent {s : State} {f : Frame} (hc : frameConsistent f = true) (ht : frameTarget f = some s.number)
    (hs : s.station ≠ .run) : letsStand s f = false := by
  rw [← Bool.not_eq_true, letsStand_iff hc, assertSlots_silent (.inr hs), wiredSlots_none]
  simp [classify, noSlots, ht]

/-! ### The end of another station's frame -/

theorem standingEnd_unreceived {s : State} (hr : receives s = false) (f : Frame) : standingEnd f s = frameEnds noSlots s := by
  simp [standingEnd, hr]

theorem standingEnd_fallen {s : State} {f : Frame} (hr : receives s = true) (hc : frameConsistent f = true)
    (hl : letsStand s f = false) : standingEnd f s = frameEnds (assertSlots s (some f)) s := by
  simp [standingEnd, hr, hl, foundConsistent_of hc]

theorem standingEnd_taken {s : State} {f : Frame} (hr : receives s = true) (hc : frameConsistent f = true)
    (hl : letsStand s f = true) (hn : frameSource f ≠ s.number) :
    standingEnd f s = takeFrame f (frameEnds (assertSlots s (some f)) s) := by
  simp [standingEnd, hr, hl, hn, foundConsistent_of hc]

theorem standingEnd_duplicate {s : State} {f : Frame} (hr : receives s = true) (hc : frameConsistent f = true)
    (hl : letsStand s f = true) (hn : frameSource f = s.number) :
    standingEnd f s = takeDuplicate (frameEnds (assertSlots s (some f)) s) := by
  simp [standingEnd, hr, hl, hn, foundConsistent_of hc]

/-- A frame that this station accepts is taken. -/
theorem standingEnd_accepted {s : State} {f : Frame} (hr : receives s = true) (hc : frameConsistent f = true)
    (hn : frameSource f ≠ s.number) (ht : frameTarget f = some s.number) (hs : s.station = .run)
    (hq : isRequestFrame f = true → s.svq.length < 8) :
    standingEnd f s = takeFrame f (frameEnds Claims.acceptOnly s) := by
  have ha := assertSlots_accept ht hs hq
  rw [standingEnd_taken hr hc (letsStand_accepted hc ha) hn, ha]

/-- A request for a station whose Serve Queue is full is refused and not taken. -/
theorem standingEnd_refused {s : State} {f : Frame} (hr : receives s = true) (hc : frameConsistent f = true)
    (ht : frameTarget f = some s.number) (hs : s.station = .run) (hf : isRequestFrame f = true) (hq : 8 ≤ s.svq.length) :
    standingEnd f s = frameEnds refuseOnly s := by
  have ha := assertSlots_refuse ht hs hf hq
  rw [standingEnd_fallen hr hc (letsStand_refused hc ha), ha]

/-- A frame that does not have this station as its target is taken, and nothing is asserted. -/
theorem standingEnd_elsewhere {s : State} {f : Frame} (hr : receives s = true) (hc : frameConsistent f = true)
    (hn : frameSource f ≠ s.number) (ht : frameTarget f ≠ some s.number) :
    standingEnd f s = takeFrame f (frameEnds noSlots s) := by
  rw [standingEnd_taken hr hc (letsStand_elsewhere hc ht) hn, assertSlots_silent (.inl ht)]

/-- A frame for this station before RUN is not accepted and not taken. -/
theorem standingEnd_absent {s : State} {f : Frame} (hr : receives s = true) (hc : frameConsistent f = true)
    (ht : frameTarget f = some s.number) (hs : s.station ≠ .run) : standingEnd f s = frameEnds noSlots s := by
  rw [standingEnd_fallen hr hc (letsStand_absent hc ht hs), assertSlots_silent (.inr hs)]

/-- A frame whose taking has no effect on a station that is not its target does nothing to a station that is not its target or
does not accept it. -/
theorem standingEnd_noEffect {s : State} {f : Frame} (hr : receives s = true) (hc : frameConsistent f = true)
    (hn : frameSource f ≠ s.number) (h : frameTarget f ≠ some s.number ∨ s.station ≠ .run)
    (hf : ∀ u : State, frameTarget f ≠ some u.number → takeFrame f u = u) : standingEnd f s = frameEnds noSlots s := by
  by_cases ht : frameTarget f = some s.number
  · exact standingEnd_absent hr hc ht (h.resolve_left fun n => n ht)
  · rw [standingEnd_elsewhere hr hc hn ht]
    exact hf _ ht

/-- A frame that this station receives and that falls leaves it the slots it asserted (R13). -/
theorem receivedEnd_fallen {s : State} {bits : List Bool} {others : EndSlots} {f : Frame} (hr : receives s = true)
    (hb : receiveFrame bits = some f)
    (hc : classify (wiredSlots (assertSlots s (some f)) others) (frameTarget f).isSome ≠ .stood) :
    receivedEnd bits others s = frameEnds (assertSlots s (some f)) s := by
  simp [receivedEnd, hr, hb, hc]

theorem receivedEnd_bad {s : State} {bits : List Bool} (others : EndSlots) (hr : receives s = true)
    (hb : receiveFrame bits = none) : receivedEnd bits others s = frameEnds spoilOnly s := by
  simp [receivedEnd, hr, hb, assertSlots_bad]

theorem receivedEnd_unreceived {s : State} (hr : receives s = false) (bits : List Bool) (others : EndSlots) :
    receivedEnd bits others s = frameEnds noSlots s := by
  simp [receivedEnd, hr]

/-! ### What is taken of a standing frame -/

theorem takesAsTarget_iff {s : State} {t : Station} : takesAsTarget s t = true ↔ t = s.number ∧ s.station = .run := by
  simp [takesAsTarget]

/-- A station in RUN takes what is addressed to it, at the end of the frame too. -/
theorem takesAsTarget_run_end {s : State} (slots : EndSlots) (h : s.station = .run) :
    takesAsTarget (frameEnds slots s) s.number = true :=
  takesAsTarget_iff.2 ⟨rfl, h⟩

theorem takesAsTarget_elsewhere {s : State} {t : Station} (h : t ≠ s.number) : takesAsTarget s t = false := by
  simp [takesAsTarget, h]

theorem takeAsk_target {s : State} {target : Station} (h : takesAsTarget s target = true) (source : Station) (tag : Tag)
    (epoch : Epoch) (keep : Bool) (line : LineIndex) :
    takeAsk source target tag epoch keep line s = svqAppend source line (.ask keep tag epoch) s := by
  simp [takeAsk, h]

theorem takeAsk_elsewhere {s : State} {target : Station} (h : target ≠ s.number) (source : Station) (tag : Tag)
    (epoch : Epoch) (keep : Bool) (line : LineIndex) : takeAsk source target tag epoch keep line s = s := by
  simp [takeAsk, takesAsTarget_elsewhere h]

theorem takePut_target {s : State} {target : Station} (h : takesAsTarget s target = true) (source : Station)
    (confirm : Option (Tag × Epoch)) (line : LineIndex) (mask : Mask) (data : Line) :
    takePut source target confirm line mask data s =
      lltPutStands line source (svqAppend source line (.put confirm mask data) s) := by
  simp [takePut, h]

theorem takePut_elsewhere {s : State} {target : Station} (h : target ≠ s.number) (source : Station)
    (confirm : Option (Tag × Epoch)) (line : LineIndex) (mask : Mask) (data : Line) :
    takePut source target confirm line mask data s = overtakeByPut target line (cacheDrop target line s) := by
  simp [takePut, takesAsTarget_elsewhere h, h]

theorem takeGive_elsewhere {s : State} {target : Station} (h : target ≠ s.number) (source : Station) (tag : Tag)
    (epoch : Epoch) (mended : Bool) (data : Line) : takeGive source target tag epoch mended data s = s := by
  simp [takeGive, takesAsTarget_elsewhere h]

theorem takeNote_elsewhere {s : State} {target : Station} (h : target ≠ s.number) (source : Station) (tag : Tag)
    (epoch : Epoch) (outcome : NoteOutcome) : takeNote source target tag epoch outcome s = s := by
  simp [takeNote, takesAsTarget_elsewhere h]

theorem replyNames_iff {source : Station} {epoch : Epoch} {e : Entry} :
    replyNames source epoch e = true ↔ e.state = .waiting ∧ e.epoch = epoch ∧ e.target = source := by
  simp [replyNames, and_assoc]

theorem noteFits_iff {outcome : NoteOutcome} {kind : Option ReqKind} :
    noteFits outcome kind = true ↔ kind = some .putConfirmed ∨ kind = some .ask ∧ outcome ≠ .done := by
  cases outcome <;> simp [noteFits, or_comm]

theorem takeGive_stray {s : State} {source target : Station} {tag : Tag} {epoch : Epoch}
    (ht : takesAsTarget s target = true)
    (h : ¬(replyNames source epoch s.tracker[tag] = true ∧ s.tracker[tag].kind = some .ask)) (mended : Bool) (data : Line) :
    takeGive source target tag epoch mended data s = strayReply source tag s := by
  simp only [takeGive, ht, if_true, Bool.and_eq_true, beq_iff_eq, if_neg h]

theorem takeNote_stray {s : State} {source target : Station} {tag : Tag} {epoch : Epoch} {outcome : NoteOutcome}
    (ht : takesAsTarget s target = true)
    (h : ¬(replyNames source epoch s.tracker[tag] = true ∧ noteFits outcome s.tracker[tag].kind = true)) :
    takeNote source target tag epoch outcome s = strayReply source tag s := by
  simp only [takeNote, ht, if_true, Bool.and_eq_true, if_neg h]

theorem takeRecall_named {s : State} {sharers : SharerSet} (h : sharers.getLsbD s.number.val = true) (source : Station)
    (line : LineIndex) : takeRecall source line sharers s = cacheDrop source line s := by
  simp [takeRecall, h]

theorem takeRecall_unnamed {s : State} {sharers : SharerSet} (h : sharers.getLsbD s.number.val = false) (source : Station)
    (line : LineIndex) : takeRecall source line sharers s = s := by
  simp only [takeRecall, h, Bool.false_eq_true, if_false]

/-! ### A standing PUT at the Lent-Line Table and in the tracker -/

theorem onlySharer_getLsbD (p q : Station) : (onlySharer p).getLsbD q.val = decide (q = p) := by
  revert p q; decide

/-- A sharer set cut down to one station holds that station or nobody. -/
theorem and_onlySharer (x : SharerSet) (p : Station) :
    x &&& onlySharer p = if x.getLsbD p.val then onlySharer p else 0#16 := by
  refine BitVec.eq_of_getLsbD_eq fun i hi => ?_
  have hbit := onlySharer_getLsbD p ⟨i, hi⟩
  by_cases hip : (⟨i, hi⟩ : Station) = p
  · subst hip
    cases hx : x.getLsbD i <;> simp_all
  · cases hx : x.getLsbD p.val <;> simp_all

/-- A standing PUT leaves its writer alone in the line's sharer set, or drops the line's entry (R129). -/
theorem lltPutStands_llt (line : LineIndex) (w : Station) (s : State) : (lltPutStands line w s).llt =
    s.llt.filterMap fun e =>
      if e.line ≠ line then some e
      else if e.sharers.getLsbD w.val then some { e with sharers := 1#16 <<< w.val } else none := by
  unfold lltPutStands
  dsimp only
  rw [← List.filterMap_eq_filter, List.filterMap_map]
  refine List.filterMap_congr fun e _ => ?_
  have hne := onlySharer_ne w
  by_cases hl : e.line = line
  · simp only [Function.comp_apply, hl, if_true, and_onlySharer, Option.guard_apply]
    cases e.sharers.getLsbD w.val with
    | false => simp
    | true => simp [hne]; rfl
  · simp [Option.guard, hl]

theorem lltPutStands_eq (line : LineIndex) (w : Station) (s : State) :
    lltPutStands line w s = { s with llt := (lltPutStands line w s).llt } := rfl

theorem isAskFor_waiting {owner : Station} {line : LineIndex} {e : Entry} :
    (isAskFor owner line e && e.state == .waiting) = true ↔
      e.state = .waiting ∧ e.kind = some .ask ∧ e.target = owner ∧ e.line = line := by
  simp only [isAskFor, Bool.and_eq_true, beq_iff_eq, bne_iff_ne]
  constructor
  · rintro ⟨⟨⟨⟨_, hk⟩, ht⟩, hl⟩, hs⟩
    exact ⟨hs, hk, ht, hl⟩
  · rintro ⟨hs, hk, ht, hl⟩
    exact ⟨⟨⟨⟨by simp [hs], hk⟩, ht⟩, hl⟩, hs⟩

/-- A PUT of another station marks the WAITING ASK entries for its line and no other (R73). -/
theorem overtakeByPut_eq (owner : Station) (line : LineIndex) (s : State) : overtakeByPut owner line s =
    { s with tracker := Vector.ofFn fun t : Tag =>
        if s.tracker[t].state = .waiting ∧ s.tracker[t].kind = some .ask ∧ s.tracker[t].target = owner ∧
          s.tracker[t].line = line then { s.tracker[t] with overtaken := true } else s.tracker[t] } := by
  simp only [overtakeByPut, mapTracker, isAskFor_waiting]

end Sys2Proof.Proofs
end

section
/-! SUPPORT. The statements on the frames of other stations: the stand-or-fall rule, frames that fall or are not received, and
what a station takes of a standing ASK, PUT, GIVE, NOTE or RECALL, or of a frame with its own number. -/

-- Theorems are elaborated one after another: many at once take more threads than the memory limit allows.
set_option Elab.async false

namespace Sys2Proof.Proofs

open Sys2Proof.Machine Sys2Proof.Safety Sys2Proof.Laws

/-- Settles O34: SPOIL decides first, then REFUSE; ACCEPT is asked of an addressed frame alone. -/
theorem standOrFallRule : Obligations.StandOrFallRule := by
  intro spoil accept refuse addressed
  cases spoil with
  | true => rfl
  | false =>
    cases refuse with
    | true => rfl
    | false => cases accept <;> cases addressed <;> rfl

/-- Settles O35: each clause fixes the slots this station asserts, and with them the frame falls. -/
theorem fallenFrameIsNotTaken : Obligations.FallenFrameIsNotTaken := by
  intro bits others s hp hr ends
  refine ⟨fun hb => ?_, fun f hb => ⟨fun ht hs hf hq => ?_, fun ht hs hq ho => ?_, fun h hc => ?_⟩⟩
  · rw [exec_frameFalls hp, receivedEnd_bad others hr hb]
    rfl
  · have ha := assertSlots_refuse ht hs hf hq
    rw [exec_frameFalls hp, receivedEnd_fallen hr hb (ha ▸ classify_refuseOnly _ _), ha]
    rfl
  · have ha := assertSlots_accept ht hs hq
    have hfalls : classify (wiredSlots Claims.acceptOnly others) (frameTarget f).isSome ≠ .stood := by
      rw [Ne, classify_acceptOnly]
      rintro ⟨hspoil, hrefuse⟩
      simp [hspoil, hrefuse] at ho
    rw [exec_frameFalls hp, receivedEnd_fallen hr hb (ha ▸ hfalls), ha]
    rfl
  · have ha : assertSlots s (some f) = noSlots := assertSlots_silent (h.imp_right fun e => by simp [e])
    have hfalls : classify (wiredSlots noSlots others) (frameTarget f).isSome ≠ .stood := wiredSlots_none others ▸ hc
    rw [exec_frameFalls hp, receivedEnd_fallen hr hb (ha ▸ hfalls), ha]
    rfl

/-- Settles O36: both ends of a frame, falling and standing, ask first whether it is received. -/
theorem unreceivedFrameIsNotTaken : Obligations.UnreceivedFrameIsNotTaken := by
  intro c s hp hr u
  have hstand (f : Frame) : exec (standCommand f) s = .next (settle s u) := by
    rw [exec_standCommand hp, standingEnd_unreceived hr]
    rfl
  refine ⟨fun bits others => ?_, ?_⟩
  · rw [exec_frameFalls hp, receivedEnd_unreceived hr]
    rfl
  · rintro (⟨src, tgt, tag, ep, keep, line, rfl⟩ | ⟨src, tgt, confirm, line, mask, data, rfl⟩ |
      ⟨src, tgt, tag, ep, mended, data, rfl⟩ | ⟨src, tgt, tag, ep, outcome, rfl⟩ | ⟨src, line, sharers, rfl⟩ | ⟨src, rfl⟩)
    · exact hstand (.ask src tgt tag ep keep line)
    · exact hstand (.put src tgt confirm line mask data)
    · exact hstand (.give src tgt tag ep mended data)
    · exact hstand (.note src tgt tag ep outcome)
    · exact hstand (.recall src line sharers)
    · exact hstand (.start src)

/-- A station with another number, or in STARTING, does not accept a frame for the target. -/
theorem notAccepted_of {s : State} {target : Station} (h : target ≠ s.number ∨ s.station = .starting) :
    some target ≠ some s.number ∨ s.station ≠ .run :=
  h.imp (mt Option.some.inj) fun e => by simp [e]

/-- A consistent frame does not have its source as its target (R9). -/
theorem frameTarget_ne_source {f : Frame} (hc : frameConsistent f = true) : frameTarget f ≠ some (frameSource f) := by
  match f with
  | .ask src tgt _ _ _ _ =>
    have hne : src ≠ tgt := by simpa [frameConsistent] using hc
    exact mt Option.some.inj hne.symm
  | .put src tgt _ _ mask _ =>
    have hne : src ≠ tgt ∧ mask ≠ 0#64 := by simpa [frameConsistent] using hc
    exact mt Option.some.inj hne.1.symm
  | .give src tgt _ _ _ _ =>
    have hne : src ≠ tgt := by simpa [frameConsistent] using hc
    exact mt Option.some.inj hne.symm
  | .note src tgt _ _ _ =>
    have hne : src ≠ tgt := by simpa [frameConsistent] using hc
    exact mt Option.some.inj hne.symm
  | .recall _ _ _ => nofun
  | .start _ => nofun

/-- Settles O37: the ASK is accepted and appended, refused, or without effect. -/
theorem askStands : Obligations.AskStands := by
  intro source target tag epoch keep line s hp hr hst hn ends
  have hc : frameConsistent (.ask source target tag epoch keep line) = true := by simpa [frameConsistent] using hst
  refine ⟨?_, ?_, fun h => ?_⟩
  · rintro rfl hs hq
    refine exec_stands (f := .ask ..) hp ((standingEnd_accepted hr hc hn rfl hs fun _ => hq).trans ?_)
    exact takeAsk_target (takesAsTarget_run_end _ hs) source tag epoch keep line
  · rintro rfl hs hq
    exact exec_stands (f := .ask ..) hp (standingEnd_refused hr hc rfl hs rfl hq)
  · refine exec_stands (f := .ask ..) hp (standingEnd_noEffect hr hc hn (notAccepted_of h) fun u hu => ?_)
    exact takeAsk_elsewhere (fun e => hu (congrArg some e)) ..

/-- Settles O38: at its target the PUT is accepted, refused or not accepted; elsewhere it drops and overtakes. -/
theorem putStands : Obligations.PutStands := by
  intro source target confirm line mask data s hp hr hst hm hn ends
  have hc : frameConsistent (.put source target confirm line mask data) = true := by simp [frameConsistent, hst, hm]
  refine ⟨?_, ?_, ?_, fun ht => ?_⟩
  · rintro rfl hs hq
    refine exec_stands (f := .put ..) hp ((standingEnd_accepted hr hc hn rfl hs fun _ => hq).trans ?_)
    refine (takePut_target (takesAsTarget_run_end _ hs) source confirm line mask data).trans ?_
    rw [lltPutStands_eq, lltPutStands_llt]
    rfl
  · rintro rfl hs hq
    exact exec_stands (f := .put ..) hp (standingEnd_refused hr hc rfl hs rfl hq)
  · rintro rfl hs
    exact exec_stands (f := .put ..) hp (standingEnd_absent hr hc rfl (by simp [hs]))
  · refine exec_stands (f := .put ..) hp
      ((standingEnd_elsewhere hr hc hn (mt Option.some.inj ht)).trans ?_)
    refine (takePut_elsewhere (s := frameEnds noSlots s) ht source confirm line mask data).trans ?_
    rw [overtakeByPut_eq]
    rfl

/-- Settles O41: an accepted reply that does not match is reported stray; any other reply has no effect. -/
theorem strayReply : Obligations.StrayReply := by
  intro c source target tag epoch s hp hr hst hn
  have hgive (mended : Bool) (data : Line) : frameConsistent (.give source target tag epoch mended data) = true := by
    simpa [frameConsistent] using hst
  have hnote (outcome : NoteOutcome) : frameConsistent (.note source target tag epoch outcome) = true := by
    simpa [frameConsistent] using hst
  refine ⟨?_, ?_⟩
  · rintro (⟨mended, data, rfl, hno⟩ | ⟨outcome, rfl, hno⟩) rfl hs
    · refine exec_stands (f := .give ..) hp ((standingEnd_accepted hr (hgive mended data) hn rfl hs nofun).trans ?_)
      refine takeGive_stray (takesAsTarget_run_end _ hs) ?_ mended data
      rwa [replyNames_iff, and_assoc, and_assoc]
    · refine exec_stands (f := .note ..) hp ((standingEnd_accepted hr (hnote outcome) hn rfl hs nofun).trans ?_)
      refine takeNote_stray (takesAsTarget_run_end _ hs) ?_
      rwa [replyNames_iff, noteFits_iff, and_assoc, and_assoc]
  · rintro (⟨mended, data, rfl⟩ | ⟨outcome, rfl⟩) h
    · refine exec_stands (f := .give ..) hp
        (standingEnd_noEffect hr (hgive mended data) hn (notAccepted_of h) fun u hu => ?_)
      exact takeGive_elsewhere (fun e => hu (congrArg some e)) ..
    · refine exec_stands (f := .note ..) hp
        (standingEnd_noEffect hr (hnote outcome) hn (notAccepted_of h) fun u hu => ?_)
      exact takeNote_elsewhere (fun e => hu (congrArg some e)) ..

/-- Settles O42: a RECALL is taken by every other station, which looks for itself in the sharer set. -/
theorem recallDropsCopy : Obligations.RecallDropsCopy := by
  intro source line sharers s hp hr hne hsrc hn u
  have hc : frameConsistent (.recall source line sharers) = true := by
    simp only [frameConsistent, hsrc, Bool.not_false, Bool.and_true, bne_iff_ne]
    exact hne
  have hend : standingEnd (.recall source line sharers) s = takeRecall source line sharers (frameEnds noSlots s) :=
    standingEnd_elsewhere hr hc hn nofun
  exact ⟨fun hm => exec_stands (f := .recall ..) hp (hend.trans (takeRecall_named (s := frameEnds noSlots s) hm source line)),
    fun hm => exec_stands (f := .recall ..) hp (hend.trans (takeRecall_unnamed (s := frameEnds noSlots s) hm source line))⟩

/-- A consistent frame with this station's number as source has another target, so it stands here and is a duplicate. -/
theorem standingEnd_ownNumber {s : State} {f : Frame} (hr : receives s = true) (hc : frameConsistent f = true)
    (hn : frameSource f = s.number) : standingEnd f s = takeDuplicate (frameEnds noSlots s) := by
  have ht : frameTarget f ≠ some s.number := hn ▸ frameTarget_ne_source hc
  rw [standingEnd_duplicate hr hc (letsStand_elsewhere hc ht) hn, assertSlots_silent (.inl ht)]

/-- Settles O44: the duplicate is reported and halts the station, whatever its kind. -/
theorem duplicateHalts : Obligations.DuplicateHalts := by
  intro c f s hp hr hc hn hcommand
  have e : c = standCommand f := by
    obtain ⟨_, _, _, _, _, _, rfl, rfl⟩ | ⟨_, _, _, _, _, _, rfl, rfl⟩ | ⟨_, _, _, _, _, _, rfl, rfl⟩ |
      ⟨_, _, _, _, _, rfl, rfl⟩ | ⟨_, _, _, rfl, rfl⟩ | ⟨_, rfl, rfl⟩ := hcommand <;> rfl
  rw [e, exec_standCommand hp, standingEnd_ownNumber hr hc hn]
  rfl

end Sys2Proof.Proofs
end

section
/-! SUPPORT. The statements on the reset pin: its assertion, the commands while it is held, and its release. -/

-- Theorems are elaborated one after another: many at once take more threads than the memory limit allows.
set_option Elab.async false

namespace Sys2Proof.Proofs

open Sys2Proof.Machine Sys2Proof.Safety Sys2Proof.Laws

/-! ### The Span at a pin reset -/

theorem spanPinReset_eq (p : SpanPhase) : spanPinReset p = Claims.notedAtReset p := by cases p <;> rfl

theorem notedAtReset_silent (p : SpanPhase) : Claims.Silent (Claims.notedAtReset p) := by
  cases p <;> exact ⟨nofun, nofun, nofun⟩

theorem pinReset_eq (s : State) : pinReset s = { State.reset with
    pinHeld := true, storeOp := none, span := Claims.notedAtReset s.span, number := s.number, sizeCode := s.sizeCode,
    mem := s.mem, poison := s.poison, hostTx := s.hostTx, now := s.now, freeCount := s.freeCount, pending := s.pending } := by
  rw [← spanPinReset_eq]
  rfl

/-! ### Commands while the pin is held -/

theorem unlessHeld_held {s : State} (h : s.pinHeld = true) (t : State) : unlessHeld s t = .next s := by
  simp [unlessHeld, h]

theorem spanEvent_held {s : State} (h : s.pinHeld = true) (p : SpanPhase) (t : State) :
    spanEvent p s t = .next { s with span := p } := by
  simp [spanEvent, h]

/-- The commands that move the reset pin. -/
def movesPin : Instr → Bool
  | .pinResetAssert => true
  | .pinResetRelease _ _ => true
  | _ => false

/-- The commands that tell a station of the phase of the Span: an opening, a decision, the end of another station's frame. -/
def tellsPhase : Instr → Bool
  | .contestOpening => true
  | .contestDecision _ => true
  | c => Claims.endsFrame c

/-- Every command that neither moves the pin nor tells of the Span has its effect while the pin is released alone. -/
theorem exec_unlessHeld {c : Instr} (hpin : movesPin c = false) (hspan : tellsPhase c = false) (s : State) :
    ∃ t, exec c s = unlessHeld s t := by
  cases c with
  | pinResetAssert | pinResetRelease => cases hpin
  | contestOpening | contestDecision | frameFalls | askStands | putStands | giveStands | noteStands | recallStands
    | startStands => cases hspan
  | _ => exact ⟨_, rfl⟩

theorem notedWhileHeld_other {c : Instr} (hspan : tellsPhase c = false) (p : SpanPhase) : Claims.notedWhileHeld c p = p := by
  cases c with
  | contestOpening | contestDecision | frameFalls | askStands | putStands | giveStands | noteStands | recallStands
    | startStands => cases hspan
  | _ => cases p <;> rfl

/-- The end of another station's frame leaves the Span free for a station whose pin is held. -/
theorem notedWhileHeld_endsFrame {c : Instr} (h : Claims.endsFrame c = true) (p : SpanPhase) :
    Claims.notedWhileHeld c p = spanAfterFrame p := by
  cases p with
  | sending o => cases c <;> rfl
  | frame whole =>
    cases c with
    | contestOpening | contestDecision => cases h
    | _ => simp [Claims.notedWhileHeld, h, spanAfterFrame]
  | free =>
    cases c with
    | contestOpening | contestDecision => cases h
    | _ => rfl
  | contest part offer =>
    cases c with
    | contestOpening | contestDecision => cases h
    | _ => rfl

theorem exec_endsFrame {c : Instr} (h : Claims.endsFrame c = true) (s : State) : ∃ t, exec c s = frameEvent s t := by
  cases c with
  | frameFalls | askStands | putStands | giveStands | noteStands | recallStands | startStands => exact ⟨_, rfl⟩
  | _ => cases h

theorem exec_held {c : Instr} {s : State} (hs : s.pinHeld = true) (hpin : movesPin c = false) :
    exec c s = .next { s with span := Claims.notedWhileHeld c s.span } := by
  by_cases hspan : tellsPhase c = true
  · by_cases hend : Claims.endsFrame c = true
    · obtain ⟨t, e⟩ := exec_endsFrame hend s
      rw [e, notedWhileHeld_endsFrame hend]
      exact spanEvent_held hs _ _
    · cases c with
      | contestOpening =>
        have hphase : spanOpened s.span = Claims.notedWhileHeld .contestOpening s.span := by cases s.span <;> rfl
        exact hphase ▸ spanEvent_held hs _ _
      | contestDecision others =>
        have hphase : spanDecided others s.span = Claims.notedWhileHeld (.contestDecision others) s.span := by
          cases s.span <;> simp [spanDecided, Claims.notedWhileHeld]
        exact hphase ▸ spanEvent_held hs _ _
      | _ => exact absurd hspan hend
  · rw [Bool.not_eq_true] at hspan
    obtain ⟨t, e⟩ := exec_unlessHeld hpin hspan s
    rw [e, unlessHeld_held hs, notedWhileHeld_other hspan]

/-- Settles O6: the assertion writes the reset values over whatever it finds; while the pin is held a command is noted. -/
theorem pinResetAssertion : Obligations.PinResetAssertion := by
  refine ⟨fun s => ⟨pinReset s, rfl, pinReset_eq s, ?_⟩, fun c s hs hassert hrelease => exec_held hs ?_⟩
  · rw [pinReset_eq]
    exact notedAtReset_silent s.span
  · cases c with
    | pinResetAssert => exact absurd rfl hassert
    | pinResetRelease a b => exact absurd rfl (hrelease a b)
    | _ => rfl

/-! ### The release of the pin -/

theorem pinRelease_hrq (snum ssize : BitVec 4) (s : State) : (pinRelease snum ssize s).hrq = [] := rfl

theorem installedLines_pos (code : Nat) : 0 < installedLines code :=
  Nat.mul_pos (by decide) (Nat.two_pow_pos code)

/-- The store is free at the release and the INIT fill is the only client that waits (R141, R142). -/
theorem grant_pinRelease (snum ssize : BitVec 4) (s : State) :
    grant (pinRelease snum ssize s) = some { pinRelease snum ssize s with storeOp := some .fill } := by
  have hstore : (pinRelease snum ssize s).storeOp = none := rfl
  have hfill : fillWaits (pinRelease snum ssize s) = true := by
    simpa [fillWaits] using ⟨rfl, installedLines_pos (strapSize ssize)⟩
  simp [grant, hstore, hfill]

/-- With no host request in the HRQ the first thing that the blocks do is the grant. -/
theorem settleOne_grant {s t : State} (hq : s.hrq = []) (hg : grant s = some t) : settleOne s = some t := by
  have hfence : fenceDue s = false := by simp [fenceDue, startedFence, hq]
  have hread : refuseOfferedRead s = none := by simp [refuseOfferedRead, offeredRead, eligibleNow, hq, eligibleItems]
  simp [settleOne, hfence, hread, hg]

/-- Settling after a release grants the fill of line 0 and does nothing else. -/
theorem settle_pinRelease (before : State) (snum ssize : BitVec 4) (s : State) :
    settle before (pinRelease snum ssize s) = { pinRelease snum ssize s with storeOp := some .fill } := by
  have hengine : engineFirst before (pinRelease snum ssize s) = pinRelease snum ssize s :=
    engineFirst_none (by simp [writeClaimsPlace, pinRelease_hrq])
  have hone : settleOne (engineFirst before (pinRelease snum ssize s)) =
      some { pinRelease snum ssize s with storeOp := some .fill } := by
    rw [hengine]
    exact settleOne_grant (pinRelease_hrq snum ssize s) (grant_pinRelease snum ssize s)
  refine (settle_step hone).trans (settle_idle ?_ (.inl ?_)) <;> rfl

/-- Settles O7: the straps are sampled into the reset values and the fill of line 0 is granted within the event. -/
theorem pinResetRelease : Obligations.PinResetRelease := by
  intro snum ssize s
  refine ⟨fun hs => ?_, fun hs => ?_⟩
  · have hexec : exec (.pinResetRelease snum ssize) s = .next (settle s (pinRelease snum ssize s)) :=
      congrArg Host.Outcome.next (if_pos hs)
    rw [settle_pinRelease, pinRelease, pinReset_eq] at hexec
    exact ⟨_, hexec, rfl, nibble_ofNat snum.isLt, notedAtReset_silent s.span⟩
  · exact congrArg Host.Outcome.next (if_neg (by simp [hs]))

end Sys2Proof.Proofs
end

section
/-! SUPPORT. The statements on the end of the station's own frame: what the outcome does to the tracker entry or the head of the
Reply Queue that the frame came from. -/

-- Theorems are elaborated one after another: many at once take more threads than the memory limit allows.
set_option Elab.async false

namespace Sys2Proof.Proofs

open Sys2Proof.Machine Sys2Proof.Safety Sys2Proof.Laws

/-! ### The outcome and the item it is handed to (R17, R23) -/

/-- The station after its own frame, before the outcome is handed on: the Span free, no slot asserted. -/
def ownFrameOver (s : State) : State := { s with span := .free, slots := noSlots }

theorem ownEnd_gone {s : State} {o : Offer} (hspan : s.span = .sending o) (hg : o.gone = true) (others : EndSlots) :
    ownEnd others s = ownFrameOver s := by
  simp [ownEnd, hspan, hg, ownFrameOver]

theorem ownEnd_sending {s : State} {o : Offer} (hspan : s.span = .sending o) (hg : o.gone = false) (others : EndSlots) :
    ownEnd others s = ownOutcome o (classify others (frameTarget o.frame).isSome) (ownFrameOver s) := by
  simp [ownEnd, hspan, hg, ownFrameOver]

/-- The end of the station's own frame with its outcome and what follows within the event. -/
theorem exec_ownOutcome {s t : State} {o : Offer} {others : EndSlots} (hp : s.pinHeld = false) (hspan : s.span = .sending o)
    (hg : o.gone = false) (h : ownOutcome o (classify others (frameTarget o.frame).isSome) (ownFrameOver s) = t) :
    exec (.senderFrameEnd others) s = .next (settle s t) := by
  rw [← h, ← ownEnd_sending hspan hg]
  exact event_released hp _

theorem ownOutcome_tracker {s : State} {o : Offer} {t : Tag} (hsrc : o.source = .tracker t)
    (hq : s.tracker[t].state = .queued) (outcome : FrameOutcome) :
    ownOutcome o outcome s = entryOutcome t o.frame outcome s := by
  simp only [ownOutcome, hsrc, if_pos hq]

theorem ownOutcome_reply {o : Offer} {target : Station} (hsrc : o.source = .replyQueue) (hu : frameUrgent o.frame = true)
    (ht : frameTarget o.frame = some target) (outcome : FrameOutcome) (s : State) :
    ownOutcome o outcome s = replyOutcome target outcome s := by
  unfold ownOutcome
  rw [hsrc]
  cases hf : o.frame <;> simp_all [frameUrgent, frameTarget]

/-- The line that a broadcast frame carries: a RECALL's, and none of a START. -/
def carriedLine : Frame → Option LineIndex
  | .recall _ line _ => some line
  | _ => none

/-- Unless it stands, a START is treated as a RECALL is (R21). -/
theorem ownOutcome_broadcast {o : Offer} (hsrc : o.source = .replyQueue) (ht : frameTarget o.frame = none)
    {outcome : FrameOutcome} (hfalls : outcome ≠ .stood) (s : State) :
    ownOutcome o outcome s = broadcastOutcome (carriedLine o.frame) outcome s := by
  unfold ownOutcome
  rw [hsrc]
  cases hf : o.frame <;> simp_all [frameTarget, carriedLine, ownStartStands]

/-! ### Classification of a fallen frame -/

theorem classify_spoiled {others : EndSlots} (h : others.spoil = true) (addressed : Bool) :
    classify others addressed = .spoiled := by
  simp [classify, h]

/-! ### The tracker entry (R62, R63) -/

theorem releaseEntry_eq (t : Tag) (s : State) : releaseEntry t s = Claims.freedAt t s := rfl

theorem entryStands_posted {s : State} {t : Tag} (h : s.tracker[t].kind = some .putPosted) (frame : Frame) :
    entryStands t frame s = Claims.freedAt t s := by
  simp only [entryStands, beq_iff_eq, if_pos h, releaseEntry_eq]

theorem entryStands_waits {s : State} {t : Tag} (h : s.tracker[t].kind ≠ some .putPosted) (frame : Frame) :
    entryStands t frame s = { s with
      tracker := s.tracker.set t.val { s.tracker[t] with
        state := .waiting, replyTimer := some s.setup.replyWait, keep := carriedKeep frame }
      orq := s.orq.filter (· != t) } := by
  simp only [entryStands, beq_iff_eq, if_neg h]

/-- Settles O45: the entry is QUEUED and takes the outcome of its frame, which an addressed frame's slots give. -/
theorem entryFrameStands : Obligations.EntryFrameStands := by
  intro t others o s hp hspan hg hsrc hq htgt hstood u
  have hout : ownOutcome o (classify others (frameTarget o.frame).isSome) (ownFrameOver s) =
      entryStands t o.frame (ownFrameOver s) := by
    rw [htgt, hstood]
    exact ownOutcome_tracker (s := ownFrameOver s) hsrc hq .stood
  refine ⟨fun hk => ?_, fun keep hk hkeep => ?_⟩
  · exact exec_ownOutcome hp hspan hg (hout.trans (entryStands_posted (s := ownFrameOver s) hk o.frame))
  · have hcarried : keep = carriedKeep o.frame := hkeep.trans (by cases o.frame <;> rfl)
    rw [hcarried]
    exact exec_ownOutcome hp hspan hg (hout.trans (entryStands_waits (s := ownFrameOver s) hk o.frame))

/-! ### The head of the Reply Queue (R18 to R21, R43) -/

/-- A frame spoiled fewer than four times stays at the head and counts (R19, R21). -/
theorem replyOutcome_counts {s : State} (h : s.spoilCount < 3) (target : Station) :
    replyOutcome target .spoiled s = { s with spoilCount := s.spoilCount + 1 } :=
  if_pos h

theorem broadcastOutcome_counts {s : State} (h : s.spoilCount < 3) (line : Option LineIndex) :
    broadcastOutcome line .spoiled s = { s with spoilCount := s.spoilCount + 1 } :=
  if_pos h

/-- The fourth spoil drops a reply and halts the station for a broadcast frame. -/
theorem replyOutcome_fourth {s : State} (h : s.spoilCount = 3) (target : Station) :
    replyOutcome target .spoiled s = rpqDropHead (takeReport (Claims.fault .link (some target) none none) s) :=
  if_neg (by simp [h, Config.lastSpoil])

theorem broadcastOutcome_fourth {s : State} (h : s.spoilCount = 3) (line : Option LineIndex) :
    broadcastOutcome line .spoiled s = enterHalted (takeReport (Claims.fault .link none line none) s) :=
  if_neg (by simp [h, Config.lastSpoil])

/-- A reply that falls refused is handled in the same way as one that falls absent (R20). -/
theorem replyOutcome_unheard {outcome : FrameOutcome} (h : outcome = .absent ∨ outcome = .refused) (target : Station)
    (s : State) :
    replyOutcome target outcome s = rpqDropHead (takeReport (Claims.fault .absentOut (some target) none none) s) := by
  obtain rfl | rfl := h <;> rfl

theorem ownStartStands_stood (s : State) :
    ownStartStands .stood s = { s with station := if s.station = .starting then .run else s.station } := by
  unfold ownStartStands
  by_cases h : s.station = .starting <;> simp [h]

/-- A frame of the Reply Queue that stands leaves it, and a START takes the station out of STARTING (R18, R43). -/
theorem ownOutcome_headStands {o : Offer} (hsrc : o.source = .replyQueue) (hu : frameUrgent o.frame = true) (s : State) :
    ownOutcome o .stood s = { rpqDropHead s with
      station := if s.station = .starting ∧ o.frame = .start (frameSource o.frame) then .run else s.station } := by
  unfold ownOutcome
  rw [hsrc]
  cases hf : o.frame with
  | start src =>
    refine (ownStartStands_stood (rpqDropHead s)).trans ?_
    simp [frameSource]
  | ask | put => simp [hf, frameUrgent] at hu
  | _ => simp [replyOutcome, broadcastOutcome, rpqDropHead]

/-- Settles O47: the outcome of a frame whose item is gone is discarded, and a head that stands leaves the queue. -/
theorem replyHeadStands : Obligations.ReplyHeadStands := by
  intro others o s hp hspan u
  refine ⟨fun hg => ?_, fun hg hsrc hu hstood => ?_⟩
  · refine (event_released hp (ownEnd others)).trans ?_
    rw [ownEnd_gone hspan hg]
    rfl
  · refine exec_ownOutcome hp hspan hg ?_
    rw [hstood]
    exact ownOutcome_headStands hsrc hu (ownFrameOver s)

/-- Settles O48: a spoiled head counts until the fourth spoil; a reply that is not heard is dropped. -/
theorem replyHeadFalls : Obligations.ReplyHeadFalls := by
  intro others o s hp hspan hg hsrc hu u
  have hfalls : FrameOutcome.spoiled ≠ .stood := by decide
  refine ⟨fun hspoil hcount => ?_, fun target ht => ⟨fun hspoil hcount => ?_, fun hunheard => ?_⟩,
    fun hspoil hcount ht => ?_⟩
  · refine exec_ownOutcome hp hspan hg ?_
    rw [classify_spoiled hspoil]
    cases ht : frameTarget o.frame with
    | some target =>
      exact (ownOutcome_reply hsrc hu ht ..).trans (replyOutcome_counts (s := ownFrameOver s) hcount target)
    | none =>
      exact (ownOutcome_broadcast hsrc ht hfalls _).trans (broadcastOutcome_counts (s := ownFrameOver s) hcount _)
  · refine exec_ownOutcome hp hspan hg ?_
    rw [classify_spoiled hspoil]
    exact (ownOutcome_reply hsrc hu ht ..).trans (replyOutcome_fourth (s := ownFrameOver s) hcount target)
  · refine exec_ownOutcome hp hspan hg ?_
    rw [ht]
    exact (ownOutcome_reply hsrc hu ht ..).trans (replyOutcome_unheard hunheard target _)
  · refine exec_ownOutcome hp hspan hg ?_
    rw [classify_spoiled hspoil]
    refine ((ownOutcome_broadcast hsrc ht hfalls _).trans (broadcastOutcome_fourth (s := ownFrameOver s) hcount _)).trans ?_
    cases o.frame <;> rfl

end Sys2Proof.Proofs
end

section
/-! SUPPORT. The standing of another station's START (R7, R76, R89, R110, R131): what each block forgets of its source, and the
statement that puts the blocks together. -/

-- Theorems are elaborated one after another: many at once take more threads than the memory limit allows.
set_option Elab.async false

namespace Sys2Proof.Proofs

open Sys2Proof.Machine Sys2Proof.Safety Sys2Proof.Laws

/-! ### Responses sent -/

theorem sent_nil (s : State) : Claims.sent [] s = s := by
  simp [Claims.sent]

/-- Responses sent in two parts are sent in order. -/
theorem sent_append (as bs : List Response) (s : State) : Claims.sent (as ++ bs) s = Claims.sent bs (Claims.sent as s) := by
  simp only [Claims.sent, List.map_append, List.contains_append, Bool.not_or, List.filter_filter, List.append_assoc,
    Bool.and_comm]

theorem respond_sent (r : Response) (s : State) : respond r s = Claims.sent [r] s := by
  simp only [Claims.sent, respond, List.map_cons, List.map_nil, List.contains_cons, List.contains_nil, Bool.or_false]
  rfl

/-- Waiters are answered in waiter-list order (R55). -/
theorem answerWaiters_sent (ws : List Waiter) (answer : Waiter → Response) (s : State) :
    answerWaiters ws answer s = Claims.sent (ws.map answer) s := by
  induction ws generalizing s with
  | nil => exact (sent_nil s).symm
  | cons w ws ih =>
    calc answerWaiters (w :: ws) answer s
      _ = Claims.sent (ws.map answer) (respond (answer w) s) := ih (respond (answer w) s)
      _ = Claims.sent ([answer w] ++ ws.map answer) s := by rw [respond_sent, sent_append]

/-! ### The tracker: entries abandoned in tag order (R76, R178) -/

/-- Whether an entry waits for a reply of station x. -/
def waitsFor (x : Station) (e : Entry) : Bool := e.state == .waiting && e.target == x

/-- The report made for an entry abandoned by the START of x. -/
def abandonReport (x : Station) (e : Entry) : FaultReport :=
  Claims.fault .abandoned (some x) (some e.line) (e.waiters.head?.map waiterTag)

/-- Entry t, as the state s holds it, abandoned in the state u. -/
def abandonIn (x : Station) (s u : State) (t : Tag) : State :=
  { Claims.sent (Claims.faults .abandoned s.tracker[t].waiters) (takeReport (abandonReport x s.tracker[t]) u) with
    tracker := u.tracker.set t.val (Claims.freed s.tracker[t])
    orq := u.orq.filter (· != t) }

theorem abandonEntry_waiting {x : Station} {s u : State} {t : Tag} (hu : u.tracker[t] = s.tracker[t])
    (h : waitsFor x s.tracker[t] = true) : abandonEntry x u t = abandonIn x s u t := by
  have htarget : s.tracker[t].target = x := by
    simp only [waitsFor, Bool.and_eq_true, beq_iff_eq] at h
    exact h.2
  unfold waitsFor at h
  simp only [abandonEntry, hu, h, if_true, answerWaiters_sent]
  simp only [releaseEntry, entryReport, htarget, takeReport_frame, Claims.sent, hu]
  rfl

theorem abandonEntry_other {x : Station} {s u : State} {t : Tag} (hu : u.tracker[t] = s.tracker[t])
    (h : waitsFor x s.tracker[t] = false) : abandonEntry x u t = u := by
  unfold waitsFor at h
  simp only [abandonEntry, hu, h, Bool.false_eq_true, if_false]

/-- Abandoning entry t leaves the other entries as they were. -/
theorem abandonIn_other {x : Station} (s u : State) {t y : Tag} (h : y ≠ t) :
    (abandonIn x s u t).tracker[y] = u.tracker[y] := by
  show (u.tracker.set t.val _)[y] = _
  rw [tracker_set, if_neg h]

/-- Going through a list of tags is going through those whose entries wait for x. -/
theorem abandonFold_filter (x : Station) (s : State) (l : List Tag) (hl : l.Nodup) (u : State)
    (hu : ∀ t ∈ l, u.tracker[t] = s.tracker[t]) :
    l.foldl (abandonEntry x) u = (l.filter fun t => waitsFor x s.tracker[t]).foldl (abandonIn x s) u := by
  induction l generalizing u with
  | nil => rfl
  | cons t l ih =>
    obtain ⟨hnot, hl⟩ := List.nodup_cons.1 hl
    have ht := hu t List.mem_cons_self
    have hrest : ∀ y ∈ l, u.tracker[y] = s.tracker[y] := fun y hy => hu y (List.mem_cons_of_mem t hy)
    cases h : waitsFor x s.tracker[t] with
    | false =>
      rw [List.foldl_cons, abandonEntry_other ht h, ih hl u hrest,
        List.filter_cons_of_neg (p := fun t => waitsFor x s.tracker[t]) (ne_true_of_eq_false h)]
    | true =>
      rw [List.foldl_cons, abandonEntry_waiting ht h, List.filter_cons_of_pos (p := fun t => waitsFor x s.tracker[t]) h,
        List.foldl_cons]
      refine ih hl _ fun y hy => ?_
      rw [abandonIn_other s u (ne_of_mem_of_not_mem hy hnot)]
      exact hrest y hy

/-- The reports of abandoned entries, one for each tag in order. -/
def reportAbandoned (x : Station) (s : State) (ts : List Tag) (u : State) : State :=
  ts.foldl (fun v t => takeReport (abandonReport x s.tracker[t]) v) u

/-- Reports change the Fault Record and the interrupt line alone. -/
theorem reportAbandoned_eq (x : Station) (s : State) (ts : List Tag) (u : State) : ∃ flags counts first irq,
    reportAbandoned x s ts u = { u with flags := flags, counts := counts, firstFault := first, irq := irq } := by
  induction ts generalizing u with
  | nil => exact ⟨u.flags, u.counts, u.firstFault, u.irq, rfl⟩
  | cons t ts ih =>
    obtain ⟨flags, counts, first, irq, e⟩ := ih (takeReport (abandonReport x s.tracker[t]) u)
    exact ⟨flags, counts, first, irq, e⟩

/-- The end of the frame and the reports of entries do not touch the same fields. -/
theorem reportAbandoned_frameEnds (x : Station) (s : State) (ts : List Tag) (slots : EndSlots) (u : State) :
    reportAbandoned x s ts (frameEnds slots u) = frameEnds slots (reportAbandoned x s ts u) :=
  List.foldl_hom (frameEnds slots) fun _ _ => rfl

/-- Entries of a tracker set one after another, none to two values. -/
theorem setFold_get (f : Tag → Entry) (ts : List Tag) (v : Vector Entry 16) (y : Tag) :
    (ts.foldl (fun v t => v.set t.val (f t)) v)[y] = if y ∈ ts then f y else v[y] := by
  induction ts using List.reverseRecOn with
  | nil => simp
  | append_singleton ts t ih =>
    rw [List.foldl_append, List.foldl_cons, List.foldl_nil, tracker_set, ih]
    by_cases hy : y = t
    · simp [hy]
    · simp [hy]

/-- What abandoning a list of entries, as the state s holds them, makes of s. -/
theorem abandonFold_eq (x : Station) (s : State) (ts : List Tag) : ts.foldl (abandonIn x s) s =
    { Claims.sent (ts.flatMap fun t => Claims.faults .abandoned s.tracker[t].waiters) (reportAbandoned x s ts s) with
      tracker := ts.foldl (fun v t => v.set t.val (Claims.freed s.tracker[t])) s.tracker
      orq := s.orq.filter fun t => !ts.contains t } := by
  induction ts using List.reverseRecOn with
  | nil => simp [reportAbandoned, sent_nil]
  | append_singleton ts t ih =>
    have horq : (s.orq.filter fun y => !ts.contains y).filter (· != t) = s.orq.filter fun y => !(ts ++ [t]).contains y := by
      rw [List.filter_filter]
      refine List.filter_congr fun y _ => ?_
      simp only [List.contains_append, List.contains_cons, List.contains_nil, Bool.or_false, Bool.not_or, Bool.and_comm]
      rfl
    rw [List.foldl_append, List.foldl_cons, List.foldl_nil, ih, List.flatMap_append, sent_append, ← horq,
      List.flatMap_singleton, List.foldl_append]
    simp only [reportAbandoned, List.foldl_append]
    rfl

/-- The tags whose entries wait for x, in tag order. -/
def waitingTags (x : Station) (s : State) : List Tag := (List.finRange 16).filter fun t => waitsFor x s.tracker[t]

/-- A START of x abandons the entries that wait for x and no other (R76). -/
theorem abandonAll_eq (x : Station) (s : State) : abandonAll x s =
    { Claims.sent ((waitingTags x s).flatMap fun t => Claims.faults .abandoned s.tracker[t].waiters)
        (reportAbandoned x s (waitingTags x s) s) with
      tracker := Vector.ofFn fun t : Tag => if waitsFor x s.tracker[t] then Claims.freed s.tracker[t] else s.tracker[t]
      orq := s.orq.filter fun t => !waitsFor x s.tracker[t] } := by
  have hmem (t : Tag) : t ∈ waitingTags x s ↔ waitsFor x s.tracker[t] = true := by simp [waitingTags]
  have htracker : (waitingTags x s).foldl (fun v t => v.set t.val (Claims.freed s.tracker[t])) s.tracker =
      Vector.ofFn fun t : Tag => if waitsFor x s.tracker[t] then Claims.freed s.tracker[t] else s.tracker[t] := by
    refine Vector.ext fun i hi => ?_
    have hget := setFold_get (fun t => Claims.freed s.tracker[t]) (waitingTags x s) s.tracker ⟨i, hi⟩
    simp only [hmem] at hget
    simpa using hget
  have horq : (s.orq.filter fun t => !(waitingTags x s).contains t) = s.orq.filter fun t => !waitsFor x s.tracker[t] := by
    refine List.filter_congr fun t _ => congrArg (!·) ?_
    rw [Bool.eq_iff_iff, List.contains_iff_mem, hmem]
  have hfold : abandonAll x s = (waitingTags x s).foldl (abandonIn x s) s :=
    abandonFold_filter x s _ (List.nodup_finRange 16) s fun _ _ => rfl
  rw [hfold, abandonFold_eq, htracker, horq]

/-! ### The serving side, the Lent-Line Table and the whole -/

/-- Whether the operation in flight is of a request of x. -/
def servesFor (x : Station) (s : State) : Bool :=
  match s.serveOp with
  | some op => op.req.requester == x
  | none => false

/-- The requests of x and the replies to it leave their queues, its operation in flight is orphaned and holds no reserve
(R110). -/
theorem servePurge_eq (x : Station) (s : State) : servePurge x s = { s with
    svq := s.svq.filter fun r => r.requester != x
    serveOp := s.serveOp.map fun op => if op.req.requester = x then { op with orphaned := true } else op
    reserve := if servesFor x s then 0 else s.reserve
    rpq := s.rpq.filter fun it => !isReplyTo x it
    spoilCount := if (s.rpq.head?.map (isReplyTo x)).getD false then 0 else s.spoilCount } := by
  unfold servePurge servesFor
  cases hop : s.serveOp with
  | none => simp
  | some op => by_cases hx : op.req.requester = x <;> simp [hx, orphanServe]

/-- X leaves every sharer set, and an entry with no other sharer leaves the table (R131). -/
theorem lltStartStands_eq (x : Station) (s : State) : lltStartStands x s = { s with
    llt := s.llt.filterMap fun e =>
      if e.sharers &&& ~~~(1#16 <<< x.val) = 0#16 then none
      else some { e with sharers := e.sharers &&& ~~~(1#16 <<< x.val) } } := by
  unfold lltStartStands
  dsimp only
  rw [← List.filterMap_eq_filter, List.filterMap_map]
  refine congrArg (fun l => { s with llt := l }) (List.filterMap_congr fun e _ => ?_)
  by_cases h : e.sharers &&& ~~~(1#16 <<< x.val) = 0#16 <;> simp [Option.guard, onlySharer, h]

/-- What a START of x makes of a station, block by block. -/
theorem takeStart_eq (x : Station) (s : State) : takeStart x s =
    { Claims.sent ((waitingTags x s).flatMap fun t => Claims.faults .abandoned s.tracker[t].waiters)
        (reportAbandoned x s (waitingTags x s) s) with
      tracker := Vector.ofFn fun t : Tag => if waitsFor x s.tracker[t] then Claims.freed s.tracker[t] else s.tracker[t]
      orq := s.orq.filter fun t => !waitsFor x s.tracker[t]
      svq := s.svq.filter fun r => r.requester != x
      serveOp := s.serveOp.map fun op => if op.req.requester = x then { op with orphaned := true } else op
      reserve := if servesFor x s then 0 else s.reserve
      rpq := s.rpq.filter fun it => !isReplyTo x it
      spoilCount := if (s.rpq.head?.map (isReplyTo x)).getD false then 0 else s.spoilCount
      llt := s.llt.filterMap fun e =>
        if e.sharers &&& ~~~(1#16 <<< x.val) = 0#16 then none
        else some { e with sharers := e.sharers &&& ~~~(1#16 <<< x.val) }
      cache := s.cache.filter fun c => c.owner != x } := by
  obtain ⟨flags, counts, first, irq, e⟩ := reportAbandoned_eq x s (waitingTags x s) s
  rw [takeStart, abandonAll_eq, servePurge_eq, lltStartStands_eq, e]
  rfl

/-- Settles O43: the START stands here, and each block forgets its source. -/
theorem startForgetsItsSource : Obligations.StartForgetsItsSource := by
  intro x s hp hr hn gone tags reported replyToX ownOp
  refine exec_stands (f := .start x) hp ((standingEnd_elsewhere (f := .start x) hr rfl hn nofun).trans ?_)
  refine (takeStart_eq x (frameEnds noSlots s)).trans ?_
  have hreported : reported = reportAbandoned x (frameEnds noSlots s) (waitingTags x (frameEnds noSlots s)) s := rfl
  obtain ⟨flags, counts, first, irq, e⟩ :=
    reportAbandoned_eq x (frameEnds noSlots s) (waitingTags x (frameEnds noSlots s)) s
  rw [reportAbandoned_frameEnds, hreported, e]
  rfl

end Sys2Proof.Proofs
end

section
/-! SUPPORT. The statements on the contests and on the registers: what a station offers at an opening, what a decision costs and
refreshes, and the ranges that every step keeps. -/

-- Theorems are elaborated one after another: many at once take more threads than the memory limit allows.
set_option Elab.async false

namespace Sys2Proof.Proofs

open Sys2Proof.Machine Sys2Proof.Safety Sys2Proof.Laws

/-! ### What every step keeps -/

/-- A property that every operation keeps, and that holds in each of the states a command may start from, is kept by every
step. -/
theorem step_keeps {P : State → Prop} (hpending : ∀ s q, P s → P { s with pending := q })
    (hevolves : ∀ s t, Evolves s t → P s → P t) (hreset : ∀ s, P s → P (pinReset s))
    (hrelease : ∀ snum ssize s, P s → P (pinRelease snum ssize s)) (hfilled : ∀ s, P s → P (filled s))
    (hwritten : ∀ s line mask data e, P s → P (lineWritten s line mask data e)) {s t : State} (h : step s = .next t)
    (hs : P s) : P t := by
  obtain ⟨q, hfrom⟩ := step_from h
  have hq := hpending s q hs
  cases hfrom with
  | evolves k => exact hevolves _ _ k hq
  | asserted k => exact k ▸ hreset _ hq
  | released snum ssize k => exact hevolves _ _ k (hrelease snum ssize _ hq)
  | filled k => exact hevolves _ _ k (hfilled _ hq)
  | written line mask data e k => exact hevolves _ _ k (hwritten _ line mask data e hq)

theorem step_keeps_fault {s t : State} (h : step s = .next t) : FaultRecordOk s → FaultRecordOk t :=
  step_keeps (P := FaultRecordOk) (hpending := fun _ _ => FaultRecordOk_of rfl rfl rfl rfl rfl) (hevolves := fun _ _ k => k.fault)
    (hreset := fun s _ => pinReset_fault s)
    (hrelease := fun _ _ s _ => FaultRecordOk_of (s := pinReset s) rfl rfl rfl rfl rfl (pinReset_fault s))
    (hfilled := fun _ => FaultRecordOk_of rfl rfl rfl rfl rfl)
    (hwritten := fun _ _ _ _ _ => FaultRecordOk_of rfl rfl rfl rfl rfl) h

theorem step_keeps_setup {s t : State} (h : step s = .next t) : SetupOk s → SetupOk t :=
  step_keeps (P := SetupOk) (hpending := fun _ _ => SetupOk_of rfl rfl rfl rfl rfl) (hevolves := fun _ _ k => k.setup)
    (hreset := fun _ => pinReset_setup) (hrelease := fun snum ssize s _ => pinRelease_setup snum ssize s)
    (hfilled := fun _ => SetupOk_of rfl rfl rfl rfl rfl)
    (hwritten := fun _ _ _ _ _ => SetupOk_of rfl rfl rfl rfl rfl) h

/-- Settles O8: every operation keeps both parts, a reset of the pin makes them hold, and the store is nothing to them. -/
theorem registersStayInRange : Obligations.RegistersStayInRange :=
  fun _ _ h => ⟨step_keeps_fault h, step_keeps_setup h⟩

/-! ### The opening of a contest (R25 to R29) -/

theorem exec_contestOpening {s : State} (hp : s.pinHeld = false) :
    exec .contestOpening s = .next (openContest s) :=
  spanEvent_released hp _ _

theorem openContest_sending {s : State} {o : Offer} (h : s.span = .sending o) : openContest s = s := by
  simp [openContest, h]

theorem openContest_silent {s : State} (hn : ∀ o, s.span ≠ .sending o) (hl : listening s = false) :
    openContest s = { s with span := .contest false none } := by
  unfold openContest
  split
  · next o h => exact absurd h (hn o)
  · simp [hl]

theorem openContest_listening {s : State} (hn : ∀ o, s.span ≠ .sending o) (hl : listening s = true) :
    openContest s = { s with span := .contest true (offerNow s) } := by
  unfold openContest
  split
  · next o h => exact absurd h (hn o)
  · simp [hl]

theorem classFor_urgent {s : State} {f : Frame} (hf : frameUrgent f = true) (hb : 0 < s.budget) :
    classFor s f = some .urgent := by
  simp [classFor, hf, hb]

/-- An urgent frame with the budget spent, and a frame that is not urgent, contend as plain, once in a round. -/
theorem classFor_plain {s : State} {f : Frame} (h : frameUrgent f = true → s.budget = 0) :
    classFor s f = if s.waived then none else some .plain := by
  have hurgent : ¬(frameUrgent f = true ∧ 0 < s.budget) := fun ⟨hf, hb⟩ => by simp [h hf] at hb
  simp [classFor, hurgent]

theorem offerNow_reply {s : State} {it : RpqItem} {rest : List RpqItem} (h : s.rpq = it :: rest) : offerNow s =
    (classFor s it.frame).map fun c => { source := .replyQueue, frame := it.frame, cls := c, gone := false } := by
  simp [offerNow, candidate, h]

theorem offerNow_tracker {s : State} {t : Tag} {f : Frame} (hq : s.rpq = []) (hc : orqCandidate s = some t)
    (hf : entryFrame s.number t s.tracker[t] = some f) : offerNow s =
    (classFor s f).map fun c => { source := .tracker t, frame := f, cls := c, gone := false } := by
  simp only [offerNow, candidate, hq, List.head?_nil, hc, hf, Option.map_some]

theorem offerNow_nothing {s : State} (hq : s.rpq = []) (hc : orqCandidate s = none) : offerNow s = none := by
  simp [offerNow, candidate, hq, hc]

theorem entryFrame_ask {e : Entry} (h : e.kind = some .ask) (number : Station) (t : Tag) :
    entryFrame number t e = some (.ask number e.target t e.epoch e.keep e.line) := by
  simp only [entryFrame, h]

theorem entryFrame_putPosted {e : Entry} {p : PutData} (h : e.kind = some .putPosted) (hput : e.put = some p)
    (number : Station) (t : Tag) : entryFrame number t e = some (.put number e.target none e.line p.mask p.data) := by
  simp only [entryFrame, h, hput]

theorem entryFrame_putConfirmed {e : Entry} {p : PutData} (h : e.kind = some .putConfirmed) (hput : e.put = some p)
    (number : Station) (t : Tag) :
    entryFrame number t e = some (.put number e.target (some (t, e.epoch)) e.line p.mask p.data) := by
  simp only [entryFrame, h, hput]

/-- The frame of an entry is an ASK or a PUT, which is never urgent (R29). -/
theorem entryFrame_not_urgent {number : Station} {t : Tag} {e : Entry} {f : Frame} (h : entryFrame number t e = some f) :
    frameUrgent f = false := by
  unfold entryFrame at h
  split at h <;> cases h <;> rfl

/-- An entry of the form of R53 that is not FREE has a frame. -/
theorem entryFrame_exists {e : Entry} (h : EntryOk e) (hs : e.state ≠ .free) (number : Station) (t : Tag) :
    ∃ f, entryFrame number t e = some f := by
  cases hk : e.kind with
  | none => exact absurd (h.kind.2 hk) hs
  | some k =>
    cases k with
    | ask => exact ⟨_, entryFrame_ask hk number t⟩
    | putPosted =>
      obtain ⟨p, hput⟩ := Option.isSome_iff_exists.1 (h.put.2 (.inl hk))
      exact ⟨_, entryFrame_putPosted hk hput number t⟩
    | putConfirmed =>
      obtain ⟨p, hput⟩ := Option.isSome_iff_exists.1 (h.put.2 (.inr hk))
      exact ⟨_, entryFrame_putConfirmed hk hput number t⟩

/-- The ORQ candidate has a frame, and contends with it as plain or, its flag waived, not at all. -/
theorem offerNow_candidate {s : State} {t : Tag} (hq : s.rpq = []) (hc : orqCandidate s = some t) (hok : TrackerOk s) :
    ∃ f, entryFrame s.number t s.tracker[t] = some f ∧ offerNow s =
      if s.waived then none else some { source := .tracker t, frame := f, cls := .plain, gone := false } := by
  have hstate : s.tracker[t].state = .queued := (orqPick_spec _ _ _ _ hc).1
  obtain ⟨f, hf⟩ := entryFrame_exists (hok.entries t) (fun h => by rw [hstate] at h; cases h) s.number t
  refine ⟨f, hf, ?_⟩
  rw [offerNow_tracker hq hc hf, classFor_plain (by simp [entryFrame_not_urgent hf])]
  split <;> rfl

/-- Settles O32: one case for each row of R29, over the candidate of R26. -/
theorem contestOpens : Obligations.ContestOpens := by
  refine ⟨fun s o hp hspan => ?_, ?_⟩
  · rw [exec_contestOpening hp, openContest_sending hspan]
  intro s hp hn offers
  refine ⟨fun hl => ?_, fun hl => ?_⟩
  · rw [exec_contestOpening hp, openContest_silent hn hl]
  · have opens {offer : Option Offer} (h : offerNow s = offer) : offers offer := by
      rw [← h]
      exact (exec_contestOpening hp).trans (congrArg _ (openContest_listening hn hl))
    refine ⟨fun it rest hq hu hb => opens ?_, fun it rest hq _ hb hw => opens ?_, fun it rest hq _ hb hw => opens ?_,
      fun t hq hc hw hok => ?_, fun t hq hc hw hok => ?_, fun hq hc => opens (offerNow_nothing hq hc)⟩
    · simp [offerNow_reply hq, classFor_urgent hu hb]
    · simp [offerNow_reply hq, classFor_plain fun _ => hb, hw]
    · simp [offerNow_reply hq, classFor_plain fun _ => hb, hw]
    · obtain ⟨f, _, hoffer⟩ := offerNow_candidate hq hc hok
      exact opens (by simp [hoffer, hw])
    · obtain ⟨f, hf, hoffer⟩ := offerNow_candidate hq hc hok
      have built {g : Frame} (h : entryFrame s.number t s.tracker[t] = some g) : f = g := Option.some.inj (hf.symm.trans h)
      exact ⟨f, opens (by simp [hoffer, hw]), fun hk => built (entryFrame_ask hk ..),
        fun p hk hput => built (entryFrame_putPosted hk hput ..), fun p hk hput => built (entryFrame_putConfirmed hk hput ..)⟩

/-! ### The decision of a contest (R30 to R32) -/

theorem exec_contestDecision {s : State} (hp : s.pinHeld = false) (others : List Contender) :
    exec (.contestDecision others) s = .next (takeDecision others s) :=
  spanEvent_released hp _ _

theorem takeDecision_contest {s : State} {part : Bool} {offer : Option Offer} (h : s.span = .contest part offer)
    (others : List Contender) : takeDecision others s = decideContest part offer others s := by
  simp [takeDecision, h]

/-- With no contest noted the station took no part in the one decided. -/
theorem takeDecision_unopened {s : State} (h : s.span = .free ∨ ∃ whole, s.span = .frame whole) (others : List Contender) :
    takeDecision others s = decideContest false none others s := by
  obtain h | ⟨whole, h⟩ := h <;> simp [takeDecision, h]

theorem takeDecision_sending {s : State} {o : Offer} (h : s.span = .sending o) (others : List Contender) :
    takeDecision others s = s := by
  simp [takeDecision, h]

theorem goesBefore_iff {a b : Contender} : goesBefore a b = true ↔
    (a.cls = .urgent ∧ b.cls = .plain) ∨ (a.cls = b.cls ∧ a.number ≤ b.number) := by
  obtain ⟨ca, na⟩ := a
  obtain ⟨cb, nb⟩ := b
  cases ca <;> cases cb <;> simp [goesBefore]

/-- Whether the station's offer goes before every other contender (R30). -/
theorem wins_iff {o : Offer} {others : List Contender} {number : Station} :
    others.all (goesBefore { cls := o.cls, number := number }) = true ↔
      ∀ c ∈ others, (o.cls = .urgent ∧ c.cls = .plain) ∨ (o.cls = c.cls ∧ number ≤ c.number) := by
  simp only [List.all_eq_true, goesBefore_iff]

theorem decideContest_won {s : State} {o : Offer} {others : List Contender}
    (h : others.all (goesBefore { cls := o.cls, number := s.number }) = true) (part : Bool) :
    decideContest part (some o) others s = winContest o s := by
  simp [decideContest, h]

theorem decideContest_lost {s : State} {o : Offer} {others : List Contender}
    (h : ¬others.all (goesBefore { cls := o.cls, number := s.number }) = true) (part : Bool) :
    decideContest part (some o) others s = { s with span := .frame (listening s) } := by
  simp only [decideContest, if_neg h]

theorem winContest_urgent {o : Offer} (h : o.cls = .urgent) (s : State) :
    winContest o s = { s with span := .sending o, budget := s.budget - 1 } := by
  simp [winContest, h]

theorem winContest_plain {o : Offer} (h : o.cls = .plain) (s : State) :
    winContest o s = { s with span := .sending o, waived := true } := by
  simp [winContest, h]

/-- An idle contest ends the round at a station that took part in it (R32), and no other station's (R25). -/
theorem decideContest_idle_part (s : State) : decideContest true none [] s =
    { s with span := .free, waived := false, budget := s.setup.urgentBudget } := rfl

theorem decideContest_idle_apart (s : State) : decideContest false none [] s = { s with span := .free } := rfl

/-- A station that offers nothing sees the winner's frame follow. -/
theorem decideContest_others {others : List Contender} (h : others ≠ []) (part : Bool) (s : State) :
    decideContest part none others s = { s with span := .frame (listening s) } := by
  simp [decideContest, h]

/-- Settles O33: the phase of the Span that the station notes selects the decision it takes. -/
theorem contestDecides : Obligations.ContestDecides := by
  intro others s hp
  have decides {u : State} (h : takeDecision others s = u) : exec (.contestDecision others) s = .next u :=
    h ▸ exec_contestDecision hp others
  refine ⟨?_, fun part hspan => ?_, fun hspan => ?_, fun o hspan =>
    decides (takeDecision_sending hspan others)⟩
  · intro part o hspan wins
    have hdecision := takeDecision_contest hspan others
    refine ⟨fun hwins hcls => decides ?_, fun hwins hcls => decides ?_, fun hwins => decides ?_⟩
    · rw [hdecision, decideContest_won (wins_iff.2 hwins), winContest_urgent hcls]
    · rw [hdecision, decideContest_won (wins_iff.2 hwins), winContest_plain hcls]
    · rw [hdecision, decideContest_lost fun h => hwins (wins_iff.1 h)]
  · have hdecision := takeDecision_contest hspan others
    refine ⟨fun hnil hpart => decides ?_, fun hnil hpart => decides ?_, fun hothers => decides ?_⟩
    · rw [hdecision, hnil, hpart, decideContest_idle_part]
    · rw [hdecision, hnil, hpart, decideContest_idle_apart]
    · rw [hdecision, decideContest_others hothers]
  · have hdecision := takeDecision_unopened hspan others
    refine ⟨fun hnil => decides ?_, fun hothers => decides ?_⟩
    · rw [hdecision, hnil, decideContest_idle_apart]
    · rw [hdecision, decideContest_others hothers]

end Sys2Proof.Proofs
end

section
/-! SUPPORT. The statements on the life of a station as a whole: what every step keeps of its quiet outside RUN, what every
command leaves as it is, and the station right after a reset. -/

-- Theorems are elaborated one after another: many at once take more threads than the memory limit allows.
set_option Elab.async false

namespace Sys2Proof.Proofs

open Sys2Proof.Machine Sys2Proof.Safety Sys2Proof.Laws

/-! ### The quiet of a station outside RUN (R42, R56, R81, R95, R108, R119) -/

theorem step_keeps_quiet {s t : State} (h : step s = .next t) : QuietOk s → QuietOk t :=
  step_keeps (P := QuietOk) (hpending := fun _ _ => QuietOk_of rfl rfl rfl rfl rfl rfl rfl rfl) (hevolves := fun _ _ k => k.quiet)
    (hreset := fun s _ => pinReset_quiet s)
    (hrelease := fun _ _ s _ => QuietOk_of (s := pinReset s) rfl rfl rfl rfl rfl rfl rfl rfl (pinReset_quiet s))
    (hfilled := fun _ => QuietOk_of rfl rfl rfl rfl rfl rfl rfl rfl)
    (hwritten := fun _ _ _ _ _ => QuietOk_of rfl rfl rfl rfl rfl rfl rfl rfl) h

/-- A station that is outside RUN and empty: both parts together, since what an operation leaves of the Reply Queue rests on the
rest of the Span side. -/
def Launched (s : State) : Prop := QuietOk s ∧ LaunchOk s

theorem Launched_of {s t : State} (hquiet : QuietOk s → QuietOk t) (hlaunch : LaunchOk s → LaunchOk t) (h : Launched s) :
    Launched t :=
  h.imp hquiet hlaunch

theorem pinReset_launched (s : State) : Launched (pinReset s) := ⟨pinReset_quiet s, pinReset_launch s⟩

theorem step_keeps_launched {s t : State} (h : step s = .next t) : Launched s → Launched t :=
  step_keeps (P := Launched)
    (hpending := fun _ _ => Launched_of (QuietOk_of rfl rfl rfl rfl rfl rfl rfl rfl) (LaunchOk_of rfl rfl rfl rfl))
    (hevolves := fun _ _ k hs => ⟨k.quiet hs.1, k.launch hs.1 hs.2⟩)
    (hreset := fun s _ => pinReset_launched s)
    (hrelease := fun _ _ s _ => ⟨QuietOk_of (s := pinReset s) rfl rfl rfl rfl rfl rfl rfl rfl (pinReset_quiet s),
      { silent := fun _ => rfl, starting := nofun, offer := fun _ o ho => absurd ho (spanPinReset_offer s.span o) }⟩)
    (hfilled := fun _ => Launched_of (QuietOk_of rfl rfl rfl rfl rfl rfl rfl rfl) (LaunchOk_of rfl rfl rfl rfl))
    (hwritten := fun _ _ _ _ _ => Launched_of (QuietOk_of rfl rfl rfl rfl rfl rfl rfl rfl) (LaunchOk_of rfl rfl rfl rfl)) h

/-- Settles O11: every operation keeps the Span side quiet, and the Reply Queue as it is outside RUN with it. -/
theorem quietOutsideRun : Obligations.QuietOutsideRun :=
  fun _ _ hquiet h => ⟨step_keeps_quiet h hquiet, fun hlaunch => (step_keeps_launched h ⟨hquiet, hlaunch⟩).2⟩

/-! ### What every command leaves as it is -/

/-- A command that does not move the pin evolves the state from one in which the store alone has changed. -/
theorem exec_evolves_store {c : Instr} {s t : State} (hc : movesPin c = false) (h : exec c s = .next t) :
    ∃ (m : Memory) (p : List Nat), Evolves { s with mem := m, poison := p } t := by
  have plain (k : Evolves s t) : ∃ (m : Memory) (p : List Nat), Evolves { s with mem := m, poison := p } t := ⟨s.mem, s.poison, k⟩
  by_cases ho : ordinary c = true
  · exact plain (exec_evolves ho h)
  · cases c with
    | pinResetAssert | pinResetRelease => cases hc
    | initFillLineComplete => exact (fillComplete_from h).elim plain fun k => ⟨_, _, k⟩
    | drainComplete e => exact (drainComplete_from h).elim plain fun ⟨_, _, _, k⟩ => ⟨_, _, k⟩
    | serveWriteComplete e => exact (serveWriteComplete_from h).elim plain fun ⟨_, _, _, _, k⟩ => ⟨_, _, k⟩
    | _ => exact absurd rfl ho

/-- The commands that write the store. -/
def writesStore : Instr → Bool
  | .initFillLineComplete => true
  | .drainComplete _ => true
  | .serveWriteComplete _ => true
  | _ => false

/-- What the release of the pin takes over from the state it finds. -/
theorem release_kept {snum ssize : BitVec 4} {s t : State} (h : exec (.pinResetRelease snum ssize) s = .next t) :
    t.mem = s.mem ∧ s.hostTx <+: t.hostTx ∧ s.now ≤ t.now :=
  (pinRelease_from h).elim (fun k => ⟨k.mem, k.sent, k.clock⟩) fun k => ⟨k.mem, k.sent, k.clock⟩

theorem exec_mem_of_not_writesStore {c : Instr} {s t : State} (hc : writesStore c = false) (h : exec c s = .next t) :
    t.mem = s.mem := by
  by_cases ho : ordinary c = true
  · exact (exec_evolves ho h).mem
  · cases c with
    | pinResetAssert => exact (Host.Outcome.next.inj h).symm ▸ rfl
    | pinResetRelease snum ssize => exact (release_kept h).1
    | initFillLineComplete | drainComplete | serveWriteComplete => cases hc
    | _ => exact absurd rfl ho

/-- The responses sent stay sent, and the timebase does not run back (log entries 16 and 22). -/
theorem exec_sent_clock {c : Instr} {s t : State} (h : exec c s = .next t) : s.hostTx <+: t.hostTx ∧ s.now ≤ t.now := by
  by_cases hc : movesPin c = false
  · obtain ⟨_, _, k⟩ := exec_evolves_store hc h
    exact ⟨k.sent, k.clock⟩
  · cases c with
    | pinResetAssert => exact (Host.Outcome.next.inj h).symm ▸ ⟨List.prefix_rfl, Nat.le_refl _⟩
    | pinResetRelease snum ssize => exact (release_kept h).2
    | _ => exact absurd rfl hc

/-- What the straps gave changes at the release of the pin alone (R37). -/
theorem exec_straps {c : Instr} {s t : State} (hc : ∀ snum ssize, c ≠ .pinResetRelease snum ssize) (h : exec c s = .next t) :
    t.number = s.number ∧ t.sizeCode = s.sizeCode := by
  by_cases hpin : movesPin c = false
  · obtain ⟨_, _, k⟩ := exec_evolves_store hpin h
    exact ⟨k.number, k.sizeCode⟩
  · cases c with
    | pinResetAssert => exact (Host.Outcome.next.inj h).symm ▸ ⟨rfl, rfl⟩
    | pinResetRelease snum ssize => exact absurd rfl (hc snum ssize)
    | _ => exact absurd rfl hpin

theorem movesPin_of_ne {c : Instr} (hassert : c ≠ .pinResetAssert) (hrelease : ∀ snum ssize, c ≠ .pinResetRelease snum ssize) :
    movesPin c = false := by
  cases c with
  | pinResetAssert => exact absurd rfl hassert
  | pinResetRelease snum ssize => exact absurd rfl (hrelease snum ssize)
  | _ => rfl

/-- Setup once closed stays closed, and what it holds as it is, but at a pin reset (R41). -/
theorem exec_closed {c : Instr} {s t : State} (hc : movesPin c = false) (h : exec c s = .next t) (hclosed : setupOpen s = false) :
    setupOpen t = false ∧ t.setup = s.setup ∧ t.rights = s.rights ∧ t.serveLimit = s.serveLimit := by
  obtain ⟨_, _, k⟩ := exec_evolves_store hc h
  exact k.closed hclosed

theorem writesStore_of_ne {c : Instr} (hfill : c ≠ .initFillLineComplete) (hdrain : ∀ e, c ≠ .drainComplete e)
    (hserve : ∀ e, c ≠ .serveWriteComplete e) : writesStore c = false := by
  cases c with
  | initFillLineComplete => exact absurd rfl hfill
  | drainComplete e => exact absurd rfl (hdrain e)
  | serveWriteComplete e => exact absurd rfl (hserve e)
  | _ => rfl

/-! ### The three commands that write the store -/

/-- A line write leaves the bytes of other lines as they were. -/
theorem memRead_lineWrite_other {s : State} {line : LineIndex} {a : Nat} (hm : Memory.wf s.mem = true) (ha : a / 64 ≠ line.toNat)
    (mask : Mask) (data : Line) (e : WordErrors) : memRead (lineWrite s line mask data e).mem a = memRead s.mem a := by
  unfold lineWrite
  dsimp only
  split
  · rfl
  · rw [memRead_writeLine _ _ _ _ _ hm, if_neg fun h => ha h.1]

theorem fill_other {s t : State} {a : Nat} (ha : a / 64 ≠ s.fillProgress) (h : exec .initFillLineComplete s = .next t) :
    memRead t.mem a = memRead s.mem a := by
  obtain k | k := fillComplete_from h
  · rw [k.mem]
  · have hmem : t.mem = fillLine s.mem s.fillProgress := k.mem
    rw [hmem, memRead_fillLine, if_neg ha]

theorem drain_other {e : WordErrors} {b : LwbEntry} {rest : List LwbEntry} {s t : State} {a : Nat} (hm : Memory.wf s.mem = true)
    (hl : s.lwb = b :: rest) (ha : a / 64 ≠ b.line.toNat) (h : exec (.drainComplete e) s = .next t) :
    memRead t.mem a = memRead s.mem a := by
  obtain k | ⟨b', rest', hl', k⟩ := drainComplete_from h
  · rw [k.mem]
  · obtain ⟨rfl, -⟩ := List.cons.inj (hl.symm.trans hl')
    have hmem : t.mem = (lineWrite s b.line b.mask b.data e).mem := k.mem
    rw [hmem, memRead_lineWrite_other hm ha]

theorem serveWrite_other {e : WordErrors} {op : ServeOp} {s t : State} {a : Nat} (hm : Memory.wf s.mem = true)
    (hop : s.serveOp = some op) (ha : a / 64 ≠ op.req.line.toNat) (h : exec (.serveWriteComplete e) s = .next t) :
    memRead t.mem a = memRead s.mem a := by
  obtain k | ⟨op', mask, data, hop', k⟩ := serveWriteComplete_from h
  · rw [k.mem]
  · obtain rfl := Option.some.inj (hop.symm.trans hop')
    have hmem : t.mem = (lineWrite s op.req.line mask data e).mem := k.mem
    rw [hmem, memRead_lineWrite_other hm ha]

/-- A completion of nothing in flight writes nothing (log entry 1). -/
theorem fill_absent {s t : State} (hno : s.storeOp ≠ some .fill) (h : exec .initFillLineComplete s = .next t) : t.mem = s.mem := by
  obtain rfl | k := event_from (f := fun s => if s.storeOp = some .fill then fillLineEnds s else s) h
  · rfl
  · exact (k s (by rw [if_neg hno]; exact .refl s)).mem

theorem drain_absent {e : WordErrors} {s t : State} (hno : s.storeOp ≠ some .drain ∨ s.lwb = [])
    (h : exec (.drainComplete e) s = .next t) : t.mem = s.mem := by
  have h' : execDrainComplete e s = .next t := h
  unfold execDrainComplete at h'
  obtain rfl | k := event_from h'
  · rfl
  · clear h h'
    split at k
    · next hstore hlwb =>
      obtain hno | hno := hno
      · exact absurd hstore hno
      · rw [hno] at hlwb
        cases hlwb
    · exact (k s (.refl s)).mem

theorem serveWrite_absent {e : WordErrors} {s t : State}
    (hno : s.storeOp ≠ some .serve ∨ ∀ op, s.serveOp = some op → isServeAsk op.req = true)
    (h : exec (.serveWriteComplete e) s = .next t) : t.mem = s.mem := by
  have h' : execServeWriteComplete e s = .next t := h
  unfold execServeWriteComplete at h'
  obtain rfl | k := event_from h'
  · rfl
  · clear h h'
    split at k
    · next op hstore hop =>
      split at k
      · next hkind =>
        obtain hno | hno := hno
        · exact absurd hstore hno
        · have hask := hno op hop
          simp [isServeAsk, hkind] at hask
      · exact (k s (.refl s)).mem
    · exact (k s (.refl s)).mem

/-- Settles O13: the store is written at three commands, each in its own line; the pin's commands take over what they keep. -/
theorem commonFrame : Obligations.CommonFrame := by
  intro c s t h
  refine ⟨fun ⟨hfill, hdrain, hserve⟩ => exec_mem_of_not_writesStore (writesStore_of_ne hfill hdrain hserve) h,
    fun hm a => ⟨?_, ?_, ?_⟩, ?_, ?_, ?_, fun hc => exec_straps hc h,
    fun hassert hrelease hclosed => exec_closed (movesPin_of_ne hassert hrelease) h hclosed, ?_, (exec_sent_clock h).2⟩
  · rintro rfl ha
    exact fill_other ha h
  · rintro e b rest rfl hl ha
    exact drain_other hm hl ha h
  · rintro e op rfl hop ha
    exact serveWrite_other hm hop ha h
  · rintro rfl hno
    exact fill_absent hno h
  · rintro e rfl hno
    exact drain_absent hno h
  · rintro e rfl hno
    exact serveWrite_absent hno h
  · obtain ⟨sent, hsent⟩ := (exec_sent_clock h).1
    exact ⟨sent, hsent.symm⟩

/-! ### The station right after a reset -/

theorem reset_work : StoreWorkOk State.reset where
  drain := ⟨nofun, fun ⟨_, _, hlwb, _⟩ => nomatch hlwb⟩
  others := nofun
  serve := nofun

/-- The fill holds no host tag. -/
theorem reset_held : HeldOk State.reset :=
  let h := pinReset_held State.reset
  ⟨h.once, h.held⟩

/-- Settles O5: the fields are read off; the invariants are those of a pin reset, but for what the granted fill is part of. -/
theorem resetState : Obligations.ResetState := by
  refine ⟨rfl, rfl, rfl, rfl, fun p => ?_, rfl, rfl, rfl, rfl, rfl, rfl, rfl, rfl, rfl, rfl, resetTracker_get, rfl, rfl, rfl, rfl,
    rfl, rfl, rfl, rfl, rfl, rfl, rfl, rfl, rfl, rfl, rfl, fun k => ?_, rfl, rfl, rfl, rfl, rfl, rfl, reset_fault, reset_setup,
    ⟨rfl, List.Pairwise.nil⟩, QueuesOk_of (s := pinReset State.reset) rfl rfl rfl rfl rfl rfl rfl (pinReset_queues _),
    ReplyOk_of (s := pinReset State.reset) rfl rfl rfl (pinReset_reply _),
    QuietOk_of (s := pinReset State.reset) rfl rfl rfl rfl rfl rfl rfl rfl (pinReset_quiet _),
    TrackerOk_of (s := pinReset State.reset) rfl rfl rfl (pinReset_tracker _),
    LaunchOk_of (s := pinReset State.reset) rfl rfl rfl rfl (pinReset_launch _),
    OwnOk_of (s := pinReset State.reset) rfl rfl rfl rfl rfl (pinReset_own _), reset_work, reset_held,
    AsksOk_of (s := pinReset State.reset) rfl rfl (pinReset_asks _)⟩
  · simp [State.reset]
  · simp [State.reset]

end Sys2Proof.Proofs
end

section
/-! SUPPORT. The statements on INIT, SETUP and the entry to STARTING: the fill of a line, and a control request that starts at its
arrival, with the setup words and the RUN command. -/

-- Theorems are elaborated one after another: many at once take more threads than the memory limit allows.
set_option Elab.async false

namespace Sys2Proof.Proofs

open Sys2Proof.Machine Sys2Proof.Safety Sys2Proof.Laws

/-! ### The fill of a line and the end of INIT (R39, R148) -/

/-- The state in which a line of the store has been filled, before Station Control acts on the progress. -/
def lineFilled (s : State) : State := { filled s with fillProgress := s.fillProgress + 1, storeOp := none }

theorem fillLineEnds_further {s : State} (h : ¬installedLines s.sizeCode ≤ s.fillProgress + 1) :
    fillLineEnds s = lineFilled s :=
  if_neg fun ⟨_, hlast⟩ => h hlast

theorem fillLineEnds_last {s : State} (hs : s.station = .init) (h : installedLines s.sizeCode ≤ s.fillProgress + 1) :
    fillLineEnds s = fillEnds (lineFilled s) :=
  if_pos ⟨hs, h⟩

theorem fillEnds_setup {s : State} (h : s.runRequested = false) : fillEnds s = { s with station := .setup } :=
  if_neg (by simp [h])

theorem fillEnds_starting {s : State} (h : s.runRequested = true) : fillEnds s = enterStarting s := if_pos h

/-- Station Control leaves the store's bytes and poisoned words as the fill has left them. -/
theorem fillLineEnds_store (s : State) : (fillLineEnds s).mem = (filled s).mem ∧ (fillLineEnds s).poison = (filled s).poison := by
  unfold fillLineEnds fillEnds
  dsimp only
  repeat' split
  all_goals exact ⟨rfl, rfl⟩

theorem mem_filled_poison {s : State} {n : Nat} : n ∈ (filled s).poison ↔ n ∈ s.poison ∧ n / 8 ≠ s.fillProgress := by
  simp [filled]

/-- Settles O53: the line's bytes and words are filled, and the last line ends INIT by the run-requested flag. -/
theorem fillLineCompletes : Obligations.FillLineCompletes := by
  intro s hp hop hs hm
  obtain ⟨hmem, hpoison⟩ := fillLineEnds_store s
  have hexec : exec .initFillLineComplete s = .next (settle s (if s.storeOp = some .fill then fillLineEnds s else s)) :=
    event_released hp _
  rw [if_pos hop] at hexec
  refine ⟨fillLineEnds s, hexec, fun a => ?_, fun n => ?_, fun hmore => ?_, fun hlast hrun => ?_, fun hlast hrun => ?_⟩
  · rw [hmem]
    exact memRead_fillLine s.mem s.fillProgress a
  · rw [hpoison]
    exact mem_filled_poison
  · rw [hmem, hpoison, fillLineEnds_further hmore]
    rfl
  · rw [hmem, hpoison, fillLineEnds_last hs hlast, fillEnds_setup (s := lineFilled s) hrun]
    rfl
  · rw [hmem, hpoison, fillLineEnds_last hs hlast, fillEnds_starting (s := lineFilled s) hrun]
    rfl

/-! ### Eligibility around a request that is neither READ nor WRITE (R157) -/

theorem eligibleItems_append (l m : List HrqItem) (earlier : List HrqItem) :
    eligibleItems earlier (l ++ m) = eligibleItems earlier l ++ eligibleItems (earlier ++ l) m := by
  induction l generalizing earlier with
  | nil => simp [eligibleItems]
  | cons it l ih =>
    have hrest := ih (earlier ++ [it])
    rw [List.append_assoc, List.singleton_append] at hrest
    rw [List.cons_append, eligibleItems, eligibleItems, hrest]
    split <;> rfl

theorem eligibleItems_started {l : List HrqItem} (h : ∀ it ∈ l, it.started = true) (earlier : List HrqItem) :
    eligibleItems earlier l = [] :=
  List.eq_nil_iff_forall_not_mem.2 fun it hit => by
    have hunstarted := (eligibleItems_mem hit).2
    rw [h it (eligibleItems_mem hit).1] at hunstarted
    cases hunstarted

theorem isRead_of_not_access {r : Request} (h : isAccess r = false) : isRead r = false := by
  cases r with
  | read | write => cases h
  | _ => rfl

/-- A request that is neither READ nor WRITE waits for every earlier request to start, and holds back every later one. -/
theorem not_eligible_of_held {e : HrqItem} {earlier : List HrqItem} {r : Request} (he : e ∈ earlier) (hu : e.started = false)
    (h : isAccess e.req = false ∨ isAccess r = false) : eligible earlier r = false := by
  have hheld : holdsBack e.req r = true := by
    obtain h | h := h
    · simp [holdsBack, h]
    · simp [holdsBack, isRead_of_not_access h]
  have hany : (earlier.any fun it => !it.started && holdsBack it.req r) = true :=
    List.any_eq_true.2 ⟨e, he, by simp [hu, hheld]⟩
  simp [eligible, hany]

/-- When such a request may start, no other request may. -/
theorem eligibleNow_alone {s : State} {it : HrqItem} (hm : it ∈ eligibleNow s) (hc : isAccess it.req = false) :
    eligibleNow s = [it] := by
  obtain ⟨earlier, later, hq, hu, he⟩ := (mem_eligibleItems it s.hrq []).1 hm
  rw [List.nil_append] at he
  have hbefore : eligibleItems [] earlier = [] := eligibleItems_started (fun e hmem => by
    by_contra hn
    rw [not_eligible_of_held hmem (Bool.eq_false_iff.2 hn) (.inr hc)] at he
    cases he) []
  have hbehind : eligibleItems (earlier ++ [it]) later = [] := List.eq_nil_iff_forall_not_mem.2 fun x hx => by
    obtain ⟨a, _, _, _, hx⟩ := (mem_eligibleItems x later _).1 hx
    rw [not_eligible_of_held (e := it) (by simp) hu (.inl hc)] at hx
    cases hx
  calc eligibleNow s
    _ = eligibleItems [] earlier ++ eligibleItems ([] ++ earlier) (it :: later) := by
      rw [eligibleNow, hq, eligibleItems_append]
    _ = it :: eligibleItems (earlier ++ [it]) later := by simp [hbefore, eligibleItems, hu, he]
    _ = [it] := by rw [hbehind]

theorem offeredRead_alone {s : State} {it : HrqItem} (hm : it ∈ eligibleNow s) (hc : isAccess it.req = false) :
    offeredRead s = none := by
  simp [offeredRead, eligibleNow_alone hm hc, isLocalRead, isRead_of_not_access hc]

/-- Where nothing of R165 and R142 comes first, the blocks start the request. -/
theorem settleOne_alone {s u : State} {it : HrqItem} (hm : it ∈ eligibleNow s) (hc : isAccess it.req = false)
    (hfence : fenceDue s = false) (hgrant : grant s = none) (htry : tryStart s it = some u) : settleOne s = some u := by
  have hread : refuseOfferedRead s = none := by simp [refuseOfferedRead, offeredRead_alone hm hc]
  have hstart : startFirst s = some u := by simp [startFirst, eligibleNow_alone hm hc, htry]
  simp [settleOne, hfence, hread, hgrant, hstart]

/-! ### Where nothing waits -/

theorem engineFirst_places {before s : State} (h : freePlaces s ≤ freePlaces before) : engineFirst before s = s :=
  if_neg (Nat.not_lt.2 h)

/-- With no READ offered a free store is granted to the fill, to the Serve Engine or to a drain. -/
theorem grant_eq_none_iff {s : State} (h : offeredRead s = none) : grant s = none ↔
    s.storeOp.isSome = true ∨ (drainWaits s = false ∧ s.serveOp = none ∧ fillWaits s = false) := by
  have hread : waitingRead s = none := by simp [waitingRead, h]
  have hlocal : grantLocal s = if drainWaits s then some (grantDrain s) else none := by simp [grantLocal, hread]
  unfold grant
  rw [hlocal]
  by_cases hstore : s.storeOp.isSome = true
  · simp [hstore]
  by_cases hfill : fillWaits s = true
  · simp [hstore, hfill]
  by_cases hdrain : drainWaits s = true
  · by_cases hturn : (serveWaits s && s.turn == .serveEngine) = true <;> simp [hstore, hfill, hdrain, hturn]
  · cases hserve : s.serveOp with
    | none => simp [serveWaits, hserve, hdrain, hfill]
    | some op => simp [serveWaits, hserve, hstore, hdrain, hfill]

theorem offeredRead_started {s : State} (h : ∀ it ∈ s.hrq, it.started = true) : offeredRead s = none := by
  simp [offeredRead, eligibleNow, eligibleItems_started h]

theorem quiet_fenceDue {s : State} (h : Claims.Quiet s) : fenceDue s = false := by
  have hfence : startedFence s = none := by
    rw [startedFence, Option.map_eq_none_iff, List.find?_eq_none]
    intro it hit
    simp [(h.1 it hit).2]
  simp [fenceDue, hfence]

theorem quiet_grant {s : State} (h : Claims.Quiet s) : grant s = none := by
  rw [grant_eq_none_iff (offeredRead_started fun it hit => (h.1 it hit).1)]
  exact h.2.imp_right fun ⟨hlwb, hrest⟩ => ⟨by simp [drainWaits, hlwb], hrest⟩

/-- Where nothing of the host waits to start and nothing waits for a free store, settling changes nothing. -/
theorem settle_quiet {s : State} (h : Claims.Quiet s) (before : State) : settle before s = s := by
  have hstarted (it : HrqItem) (hit : it ∈ s.hrq) : it.started = true := (h.1 it hit).1
  have hengine : engineFirst before s = s := by
    refine engineFirst_none (List.any_eq_false.2 fun it hit => ?_)
    cases it.req <;> simp [hstarted it hit]
  have hread : refuseOfferedRead s = none := by simp [refuseOfferedRead, offeredRead_started hstarted]
  have hstart : startFirst s = none := by simp [startFirst, eligibleNow, eligibleItems_started hstarted]
  have hone : settleOne (engineFirst before s) = none := by
    rw [hengine]
    simp [settleOne, quiet_fenceDue h, hread, quiet_grant h, hstart]
  rw [settle_none hone, hengine]

/-- A station stays quiet when its requests are among those it had and nothing new waits for the store. -/
theorem Quiet_of {s u : State} (hhrq : ∀ it ∈ u.hrq, it ∈ s.hrq) (hstore : u.storeOp = s.storeOp) (hlwb : u.lwb = s.lwb)
    (hserve : s.serveOp = none → u.serveOp = none) (hfill : fillWaits s = false → fillWaits u = false)
    (h : Claims.Quiet s) : Claims.Quiet u := by
  refine ⟨fun it hit => h.1 it (hhrq it hit), ?_⟩
  rw [hstore, hlwb]
  exact h.2.imp_right fun ⟨hnone, hop, hno⟩ => ⟨hnone, hserve hop, hfill hno⟩

/-! ### A CONTROL WRITE that starts at its arrival (R155, R157, R167) -/

/-- A CONTROL WRITE as the HRQ holds it before its start. -/
def controlItem (tag : HostTag) (word : Byte) (value : CtrlValue) : HrqItem :=
  { tag := tag, req := .controlWrite word value, started := false }

/-- The station with a CONTROL WRITE joined to its HRQ. -/
def controlJoined (tag : HostTag) (word : Byte) (value : CtrlValue) (s : State) : State :=
  { s with hrq := s.hrq ++ [controlItem tag word value] }

/-- The station without the requests of a tag. -/
def withdrawn (tag : HostTag) (s : State) : State := { s with hrq := s.hrq.filter fun it => it.tag != tag }

theorem withdrawn_controlJoined {tag : HostTag} {s : State} (h : ∀ it ∈ s.hrq, it.tag ≠ tag) (word : Byte) (value : CtrlValue) :
    withdrawn tag (controlJoined tag word value s) = s := by
  have hkept : (s.hrq.filter fun it => it.tag != tag) = s.hrq := List.filter_eq_self.2 fun it hit => by simp [h it hit]
  simp [withdrawn, controlJoined, controlItem, hkept]

/-- An answer withdraws the request it answers (R154). -/
theorem respond_withdrawn {tag : HostTag} {r : Response} {s u : State} (hr : responseTag r = tag) (h : withdrawn tag s = u) :
    respond r s = send r u := by
  rw [← h, ← hr]
  rfl

/-- An operation that is nothing to the HRQ, and then the answer of the request that joined it. -/
theorem respond_joined {tag : HostTag} {r : Response} {j s : State} (f : State → State) (hr : responseTag r = tag)
    (hf : withdrawn tag (f j) = f (withdrawn tag j)) (hj : withdrawn tag j = s) : respond r (f j) = send r (f s) :=
  respond_withdrawn hr (hf.trans (congrArg f hj))

/-- A message with a tag that is free, at a station with room for it, joins the HRQ (R155). -/
theorem arrive_control {tag : HostTag} {s : State} (hlen : s.hrq.length < 8) (htag : ∀ it ∈ s.hrq, it.tag ≠ tag) (word : Byte)
    (value : CtrlValue) : arrive (.controlWrite tag word value) s = controlJoined tag word value s := by
  have hfree : (s.hrq.any fun it => it.tag == tag) = false := List.any_eq_false.2 fun it hit => by simp [htag it hit]
  have hroom : ¬Config.hrqCapacity ≤ s.hrq.length := Nat.not_le.2 hlen
  simp [arrive, formCheck, msgTag, hfree, hroom, controlJoined, controlItem]

theorem mem_eligibleNow_joined {tag : HostTag} {word : Byte} {value : CtrlValue} {s : State}
    (h : ∀ it ∈ s.hrq, it.started = true) : controlItem tag word value ∈ eligibleNow (controlJoined tag word value s) := by
  refine (mem_eligibleItems _ _ []).2 ⟨s.hrq, [], rfl, rfl, ?_⟩
  have hfree : (s.hrq.any fun it => !it.started && holdsBack it.req (.controlWrite word value)) = false :=
    List.any_eq_false.2 fun it hit => by simp [h it hit]
  simp [eligible, controlItem, hfree]

theorem fenceDue_joined (tag : HostTag) (word : Byte) (value : CtrlValue) (s : State) :
    fenceDue (controlJoined tag word value s) = fenceDue s := by
  have hfence : startedFence (controlJoined tag word value s) = startedFence s := by
    simp [startedFence, controlJoined, controlItem]
  unfold fenceDue
  rw [hfence]
  rfl

/-- A CONTROL WRITE that joins an HRQ of started requests starts within the event of its arrival, where nothing of R165 and R142
comes first. -/
theorem exec_control {tag : HostTag} {word : Byte} {value : CtrlValue} {s : State} (hp : s.pinHeld = false)
    (hlen : s.hrq.length < 8) (hq : ∀ it ∈ s.hrq, it.started = true ∧ it.tag ≠ tag) (hfence : fenceDue s = false)
    (hgrant : grant s = none) {u : State} (hu : controlWriteStarts tag word value (controlJoined tag word value s) = u) :
    exec (.controlWrite tag word value) s = .next (settle u u) := by
  have hmem := mem_eligibleNow_joined (tag := tag) (word := word) (value := value) fun it hit => (hq it hit).1
  have hgrant' : grant (controlJoined tag word value s) = none := by
    rw [grant_eq_none_iff (offeredRead_alone hmem rfl)]
    exact (grant_eq_none_iff (offeredRead_started fun it hit => (hq it hit).1)).1 hgrant
  have hone : settleOne (engineFirst s (controlJoined tag word value s)) = some u := by
    rw [engineFirst_places (s := controlJoined tag word value s) (Nat.le_refl (freePlaces s))]
    exact settleOne_alone hmem rfl ((fenceDue_joined ..).trans hfence) hgrant' (congrArg some hu)
  have hexec : exec (.controlWrite tag word value) s = .next (settle s (arrive (.controlWrite tag word value) s)) :=
    event_released hp _
  rw [hexec, arrive_control hlen (fun it hit => (hq it hit).2), settle_step hone]

/-- On a station on which it is alone, a CONTROL WRITE does what its start does and nothing more. -/
theorem exec_admitted {tag : HostTag} {word : Byte} {value : CtrlValue} {s u : State} (h : Claims.Admits tag s)
    (hu : controlWriteStarts tag word value (controlJoined tag word value s) = u) (hquiet : Claims.Quiet u) :
    exec (.controlWrite tag word value) s = .next u := by
  obtain ⟨hp, hidle, hlen, htag⟩ := h
  rw [exec_control hp hlen (fun it hit => ⟨(hidle.1 it hit).1, htag it hit⟩) (quiet_fenceDue hidle) (quiet_grant hidle) hu,
    settle_quiet hquiet]

/-- A response leaves a quiet station quiet. -/
theorem quiet_send {s : State} (h : Claims.Quiet s) (r : Response) : Claims.Quiet (send r s) :=
  Quiet_of (fun _ => id) rfl rfl id id h

/-- An admitted CONTROL WRITE that is only answered changes nothing else. -/
theorem exec_admitted_answered {tag : HostTag} {word : Byte} {value : CtrlValue} {s : State} {r : Response}
    (h : Claims.Admits tag s) (hr : responseTag r = tag)
    (hu : controlWriteStarts tag word value (controlJoined tag word value s) = respond r (controlJoined tag word value s)) :
    exec (.controlWrite tag word value) s = .next (send r s) :=
  exec_admitted h (hu.trans (respond_joined id hr rfl (withdrawn_controlJoined h.2.2.2 word value))) (quiet_send h.2.1 _)

/-! ### Setup words (R49) -/

theorem clamp_eq {low high : Nat} (h : low ≤ high) (v : Nat) : clamp low high v = max low (min high v) := by
  unfold clamp
  split
  · omega
  · split <;> omega

theorem setupStored_eq (w : SetupWord) (v : Nat) : setupStored w v = max (setupRange w).1 (min (setupRange w).2 v) :=
  clamp_eq (setupRange_le w) v

theorem setupWordNumber_ne (w : SetupWord) : setupWordNumber w ≠ 0x04#8 ∧ setupWordNumber w ≠ 0x29#8 := by
  cases w with
  | rights p => revert p; decide
  | _ => decide

theorem setupWordOf_number (w : SetupWord) : setupWordOf (setupWordNumber w) = some w := by
  cases w with
  | rights p => revert p; decide
  | _ => rfl

theorem controlWriteStarts_setup (tag : HostTag) (w : SetupWord) (value : CtrlValue) (s : State) :
    controlWriteStarts tag (setupWordNumber w) value s = setupWrite tag w value s := by
  unfold controlWriteStarts
  rw [if_neg (setupWordNumber_ne w).1, if_neg (setupWordNumber_ne w).2, setupWordOf_number]

theorem setupOpen_iff {s : State} :
    setupOpen s = true ↔ s.station = .setup ∨ (s.station = .init ∧ s.runRequested = false) := by
  simp [setupOpen]

/-- A setup word stored is nothing to the HRQ, to the responses sent and to the store. -/
theorem withdrawn_storeSetup (tag : HostTag) (w : SetupWord) (n : Nat) (s : State) :
    withdrawn tag (storeSetup w n s) = storeSetup w n (withdrawn tag s) := by
  cases w <;> rfl

theorem quiet_storeSetup {s : State} (h : Claims.Quiet s) (w : SetupWord) (n : Nat) : Claims.Quiet (storeSetup w n s) := by
  cases w <;> exact Quiet_of (s := s) (fun _ => id) rfl rfl id id h

/-- A setup word written while setup is open is stored, and the adjusted flag tells of a value held to its range. -/
theorem exec_setupWordWrite_open {tag : HostTag} {s : State} (h : Claims.Admits tag s) (ho : setupOpen s = true) (w : SetupWord)
    (value : CtrlValue) {stored : Nat} (hstored : max (setupRange w).1 (min (setupRange w).2 value.toNat) = stored) :
    exec (.setupWordWrite tag w value) s = .next (send (.done tag (stored != value.toNat)) (storeSetup w stored s)) := by
  subst hstored
  refine exec_admitted h ?_ (quiet_send (quiet_storeSetup h.2.1 w _) _)
  rw [controlWriteStarts_setup, ← setupStored_eq]
  exact (if_pos ho).trans (respond_joined (storeSetup w (setupStored w value.toNat)) rfl (withdrawn_storeSetup tag w _ _)
    (withdrawn_controlJoined h.2.2.2 _ value))

theorem exec_setupWordWrite_closed {tag : HostTag} {s : State} (h : Claims.Admits tag s) (hc : setupOpen s = false) (w : SetupWord)
    (value : CtrlValue) : exec (.setupWordWrite tag w value) s = .next (send (.fault tag .setupClosed) s) := by
  refine exec_admitted_answered h rfl ?_
  rw [controlWriteStarts_setup]
  exact if_neg (ne_true_of_eq_false hc)

/-- The value that CACHE_ENABLE stores tells whether 0 was written. -/
theorem clamped_flag (v : CtrlValue) : (max 0 (min 1 v.toNat) != 0) = (v != 0#64) := by
  by_cases hv : v = 0#64
  · simp [hv]
  · have hn : v.toNat ≠ 0 := fun h => hv (BitVec.eq_of_toNat_eq h)
    have hmin : max 0 (min 1 v.toNat) ≠ 0 := by omega
    rw [bne_iff_ne.2 hv, bne_iff_ne.2 hmin]

/-- The right that a rights-table entry stores for a value written. -/
theorem clamped_right (v : CtrlValue) : rightOfCode (max 0 (min 2 v.toNat)) =
    if v = 0#64 then .none else if v = 1#64 then .read else .readWrite := by
  have hzero : v = 0#64 ↔ max 0 (min 2 v.toNat) = 0 := by
    rw [← BitVec.toNat_inj, BitVec.toNat_ofNat]
    omega
  have hone : v = 1#64 ↔ max 0 (min 2 v.toNat) = 1 := by
    rw [← BitVec.toNat_inj, BitVec.toNat_ofNat]
    omega
  simp only [rightOfCode, hzero, hone]

/-- Settles O27: each word is written under its range while setup is open; closed setup refuses every word. -/
theorem setupWordWritten : Obligations.SetupWordWritten := by
  intro tag v s h clamped done
  refine ⟨fun hsetup hinit w => ?_, fun hopen => ?_⟩
  · have hclosed : setupOpen s = false := by
      rw [← Bool.not_eq_true, setupOpen_iff]
      rintro (hs | ⟨hs, hrun⟩)
      · exact hsetup hs
      · rw [hinit hs] at hrun
        cases hrun
    exact exec_setupWordWrite_closed h hclosed w v
  · have written := exec_setupWordWrite_open h (setupOpen_iff.2 hopen)
    refine ⟨written .replyWait v rfl, written .refuseLimit v rfl, written .refuseStep v rfl, written .urgentBudget v rfl, ?_,
      fun p => ?_⟩
    · rw [← clamped_flag]
      exact written .cacheEnable v rfl
    · rw [← clamped_right]
      exact written (.rights p) v rfl

/-! ### The RUN command (R40, R42, R51) -/

theorem controlWriteStarts_run (tag : HostTag) (s : State) : controlWriteStarts tag 0x04#8 1#64 s = commandRun tag s := rfl

theorem commandRun_setup {s : State} (h : s.station = .setup) (tag : HostTag) :
    commandRun tag s = respond (.done tag false) (enterStarting (closeSetup s)) := by
  simp only [commandRun, h]

theorem commandRun_init {s : State} (h : s.station = .init) (hrun : s.runRequested = false) (tag : HostTag) :
    commandRun tag s = respond (.done tag false) { closeSetup s with runRequested := true } := by
  simp [commandRun, h, hrun]

theorem commandRun_again {s : State} (h : s.station = .init) (hrun : s.runRequested = true) (tag : HostTag) :
    commandRun tag s = respond (.done tag false) s := by
  simp [commandRun, h, hrun]

theorem commandRun_late {s : State} (h : s.station = .starting ∨ s.station = .run ∨ s.station = .halted) (tag : HostTag) :
    commandRun tag s = respond (.fault tag .wrongState) s := by
  obtain h | h | h := h <;> simp only [commandRun, h]

/-- The message of RUN joined to the HRQ. -/
def runJoined (tag : HostTag) (s : State) : State := controlJoined tag 0x04#8 1#64 s

/-- Settles O23: the station state selects what RUN does, and the station stays quiet in every one. -/
theorem runCommand : Obligations.RunCommand := by
  intro tag s h
  have hs : withdrawn tag (runJoined tag s) = s := withdrawn_controlJoined h.2.2.2 0x04#8 1#64
  have start {u : State} (hu : commandRun tag (runJoined tag s) = u) :
      controlWriteStarts tag 0x04#8 1#64 (runJoined tag s) = u :=
    (controlWriteStarts_run tag _).trans hu
  refine ⟨fun hstation => ?_, fun hstation hrun => ?_, fun hstation hrun => ?_, fun hstation => ?_⟩
  · refine exec_admitted h (start ?_) (Quiet_of (s := s) (fun _ => id) rfl rfl id (fun _ => rfl) h.2.1)
    exact (commandRun_setup (s := runJoined tag s) hstation tag).trans
      (respond_joined (fun u => enterStarting (closeSetup u)) rfl rfl hs)
  · refine exec_admitted h (start ?_) (Quiet_of (s := s) (fun _ => id) rfl rfl id id h.2.1)
    exact (commandRun_init (s := runJoined tag s) hstation hrun tag).trans
      (respond_joined (fun u => { closeSetup u with runRequested := true }) rfl rfl hs)
  · exact exec_admitted_answered h rfl (start (commandRun_again (s := runJoined tag s) hstation hrun tag))
  · exact exec_admitted_answered h rfl (start (commandRun_late (s := runJoined tag s) hstation tag))

end Sys2Proof.Proofs
end

section
/-! SUPPORT. The statement on the station teardown (R46, R75, R112, R133, R171): its answers in their order, and what the Span side
holds after it. -/

-- Theorems are elaborated one after another: many at once take more threads than the memory limit allows.
set_option Elab.async false

namespace Sys2Proof.Proofs

open Sys2Proof.Machine Sys2Proof.Safety Sys2Proof.Laws

/-! ### The tracker's part: entries released in tag order (R75) -/

/-- The answers that the release of entry t gives. -/
def releaseAnswers (code : HostCode) (s : State) (t : Tag) : List Response :=
  if s.tracker[t].state = .free then [] else Claims.faults code s.tracker[t].waiters

/-- An entry after a teardown but for its epoch: one that is FREE is left as it is. -/
def tornEntry (e : Entry) : Entry := if e.state = .free then e else Claims.freed e

theorem teardownEntry_free {s : State} {t : Tag} (h : s.tracker[t].state = .free) (code : HostCode) :
    teardownEntry code s t = s := by
  simp only [teardownEntry, h, beq_self_eq_true, if_true]

theorem teardownEntry_taken {s : State} {t : Tag} (h : s.tracker[t].state ≠ .free) (code : HostCode) :
    teardownEntry code s t = Claims.freedAt t (Claims.sent (Claims.faults code s.tracker[t].waiters) s) := by
  simp only [teardownEntry, beq_iff_eq, if_neg h, answerWaiters_sent, releaseEntry_eq]
  rfl

/-- What the release of some entries, none of them twice, makes of a station. -/
theorem teardownFold_told (code : HostCode) (s : State) (ts : List Tag) (hts : ts.Nodup) : ∃ v orq,
    ts.foldl (teardownEntry code) s =
      { Claims.sent (ts.flatMap (releaseAnswers code s)) s with tracker := v, orq := orq } ∧
    ∀ y : Tag, v[y] = if y ∈ ts then tornEntry s.tracker[y] else s.tracker[y] := by
  induction ts using List.reverseRecOn with
  | nil => exact ⟨s.tracker, s.orq, (sent_nil s).symm, fun _ => rfl⟩
  | append_singleton ts t ih =>
    obtain ⟨hnodup, -, hnot⟩ := List.nodup_append.1 hts
    obtain ⟨v, orq, e, hv⟩ := ih hnodup
    have hlast : v[t] = s.tracker[t] := (hv t).trans (if_neg fun hmem => hnot t hmem t List.mem_cons_self rfl)
    rw [List.foldl_append, List.foldl_cons, List.foldl_nil, List.flatMap_append, List.flatMap_singleton, sent_append, e]
    by_cases hfree : s.tracker[t].state = .free
    · refine ⟨v, orq, ?_, fun y => ?_⟩
      · rw [teardownEntry_free (by exact hlast ▸ hfree), releaseAnswers, if_pos hfree, sent_nil]
      · by_cases hy : y = t
        · subst hy
          rw [if_pos (by simp), hlast]
          exact (if_pos hfree).symm
        · simp [hv, hy]
    · refine ⟨v.set t.val (Claims.freed v[t]), orq.filter (· != t), ?_, fun y => ?_⟩
      · rw [teardownEntry_taken (by exact hlast ▸ hfree), releaseAnswers, if_neg hfree, ← hlast]
        rfl
      · rw [tracker_set]
        by_cases hy : y = t
        · subst hy
          rw [if_pos rfl, if_pos (by simp), hlast]
          exact (if_neg hfree).symm
        · simp [hv, hy]

/-- What the Span side of a station holds after a teardown, in a state that has given the teardown's answers. -/
def emptied (s told : State) : State :=
  { told with
    tracker := Vector.ofFn fun t : Tag => { tornEntry s.tracker[t] with epoch := 0 }
    orq := [], cache := [], svq := [], passCount := 0, rpq := [], spoilCount := 0, llt := [], reserve := 0
    serveOp := s.serveOp.map fun op => { op with orphaned := true }
    span := spanTeardown s.span }

theorem waitersAnswered_eq (code : HostCode) (s : State) :
    Claims.waitersAnswered code s = (List.finRange 16).flatMap (releaseAnswers code s) := rfl

/-- The tracker's part of a teardown after the other blocks are empty: the waiters are told. -/
theorem trackerTeardown_told (code : HostCode) (s : State) :
    trackerTeardown code (emptySpanSide s) = emptied s (Claims.waitersTold code s) := by
  obtain ⟨v, orq, e, hv⟩ := teardownFold_told code (emptySpanSide s) (List.finRange 16) (List.nodup_finRange 16)
  have htracker : (Vector.ofFn fun t : Tag => { v[t] with epoch := (0 : Epoch) }) =
      Vector.ofFn fun t : Tag => { tornEntry s.tracker[t] with epoch := 0 } := by
    refine congrArg Vector.ofFn (funext fun t => ?_)
    rw [hv, if_pos (List.mem_finRange t)]
    rfl
  unfold trackerTeardown
  rw [e]
  dsimp only [mapTracker]
  rw [htracker]
  rfl

/-! ### The unstarted remote requests and the started FENCE (R171) -/

theorem respondAll_sent (rs : List Response) (s : State) : rs.foldl (fun s r => respond r s) s = Claims.sent rs s := by
  induction rs generalizing s with
  | nil => exact (sent_nil s).symm
  | cons r rs ih =>
    calc (r :: rs).foldl (fun s r => respond r s) s
      _ = Claims.sent rs (respond r s) := ih (respond r s)
      _ = Claims.sent ([r] ++ rs) s := by rw [respond_sent, sent_append]

theorem unstartedRemote_eq (s : State) :
    (s.hrq.filter fun it => !it.started && isRemote s it.req) = Claims.unstartedRemote s := by
  refine List.filter_congr fun it _ => congrArg (!it.started && ·) ?_
  cases it.req <;> rfl

theorem answerUnstartedRemote_sent (code : HostCode) (s : State) : answerUnstartedRemote code s =
    Claims.sent ((Claims.unstartedRemote s).map fun it => .fault it.tag code) s := by
  unfold answerUnstartedRemote
  rw [unstartedRemote_eq, ← respondAll_sent, List.foldl_map]

/-- A teardown is its answers, the Span side emptied, and the FENCE's answer if it is due then. -/
theorem teardown_told (code : HostCode) (s : State) :
    teardown code s = answerFence (emptied s (Claims.remoteTold code s)) := by
  unfold teardown
  rw [trackerTeardown_told, answerUnstartedRemote_sent]
  rfl

/-- The started FENCE, if there is one, answered without regard to its covered set. -/
def fenceTold (s : State) : State :=
  match startedFence s with
  | some tag => respondFence tag s
  | none => s

theorem fenceTold_none {s : State} (h : startedFence s = none) : fenceTold s = s := by
  simp only [fenceTold, h]

theorem fenceTold_some {s : State} {tag : HostTag} (h : startedFence s = some tag) : fenceTold s =
    { respond (if s.lostWrite then .fault tag .lostWrite else .done tag false) s with lostWrite := false } := by
  simp only [fenceTold, h, respondFence]
  cases hl : s.lostWrite with
  | true => rfl
  | false => exact congrArg (fun lost => ({ respond (.done tag false) s with lostWrite := lost } : State)) hl

/-- No FREE entry is in a covered set (R164). -/
theorem tornEntry_covered {e : Entry} (h : EntryOk e) : (tornEntry e).covered = false := by
  unfold tornEntry
  split
  · next hfree =>
    refine Bool.eq_false_iff.2 fun hcovered => ?_
    have hposted := h.covered hcovered
    rw [h.kind.1 hfree] at hposted
    cases hposted
  · rfl

theorem coveredEmpty_emptied {s : State} (h : ∀ t : Tag, EntryOk s.tracker[t]) (told : State) :
    coveredEmpty (emptied s told) = true := by
  have hentry (t : Tag) : (emptied s told).tracker[t] = { tornEntry s.tracker[t] with epoch := 0 } := tracker_ofFn _ t
  have htracker : ((List.finRange 16).all fun t => !(emptied s told).tracker[t].covered) = true :=
    List.all_eq_true.2 fun t _ => by
      rw [hentry, tornEntry_covered (h t)]
      rfl
  exact Bool.and_eq_true_iff.2 ⟨htracker, rfl⟩

theorem respondFence_emptied (tag : HostTag) (s told : State) :
    respondFence tag (emptied s told) = emptied s (respondFence tag told) := by
  unfold respondFence
  by_cases hl : told.lostWrite = true
  · rw [if_pos (by exact hl), if_pos hl]
    rfl
  · rw [if_neg (by exact hl), if_neg hl]
    rfl

/-- The FENCE's answer and the emptying touch different fields. -/
theorem answerFence_emptied {s : State} (h : ∀ t : Tag, EntryOk s.tracker[t]) (told : State) :
    answerFence (emptied s told) = emptied s (fenceTold told) := by
  have hsame : startedFence (emptied s told) = startedFence told := rfl
  unfold answerFence fenceTold
  rw [hsame]
  cases startedFence told with
  | none => rfl
  | some tag => exact (if_pos (coveredEmpty_emptied h told)).trans (respondFence_emptied tag s told)

theorem teardown_emptied {s : State} (h : ∀ t : Tag, EntryOk s.tracker[t]) (code : HostCode) :
    teardown code s = emptied s (fenceTold (Claims.remoteTold code s)) := by
  rw [teardown_told, answerFence_emptied h]

theorem spanTeardown_eq (p : SpanPhase) : spanTeardown p = (match p with
    | .contest part (some o) => .contest part (some { o with gone := true })
    | .sending o => .sending { o with gone := true }
    | p => p) := by
  cases p with
  | contest part offer => cases offer <;> rfl
  | _ => rfl

theorem tornEntry_eq (e : Entry) : { tornEntry e with epoch := 0 } =
    if e.state = .free then { e with epoch := 0 } else { Claims.freed e with epoch := 0 } := by
  unfold tornEntry
  split <;> rfl

/-- Settles O25: the answers are those of R171, and the emptying is read off. -/
theorem teardownEffects : Obligations.TeardownEffects := by
  intro code s h
  refine ⟨_, _, fenceTold (Claims.remoteTold code s), rfl, rfl, fenceTold_none, fun tag => fenceTold_some, ?_, ?_⟩
  · rw [teardown_emptied h]
    simp only [emptied, tornEntry_eq]
  · exact (congrArg State.span (teardown_emptied h code)).trans (spanTeardown_eq s.span)

end Sys2Proof.Proofs
end

section
/-! SUPPORT. The statement on the RESTART command (R45): the teardown's answers before its own, and a teardown beside a RESTART that
still stands in the HRQ. -/

-- Theorems are elaborated one after another: many at once take more threads than the memory limit allows.
set_option Elab.async false

namespace Sys2Proof.Proofs

open Sys2Proof.Machine Sys2Proof.Safety Sys2Proof.Laws

/-! ### What the command does in each station state -/

theorem teardown_kept (code : HostCode) (s : State) :
    (teardown code s).number = s.number ∧ (teardown code s).setup = s.setup := by
  obtain ⟨_, _, _, _, h, -⟩ := teardown_eq code s
  rw [h]
  exact ⟨rfl, rfl⟩

/-- The entry to STARTING after a teardown, the START's number and the round's budget as they stood before it. -/
theorem enterStarting_teardown (code : HostCode) (s : State) : enterStarting (teardown code s) = { teardown code s with
    station := .starting, runRequested := false, spoilCount := 0, waived := false, budget := s.setup.urgentBudget
    rpq := [{ frame := .start s.number, writeCaused := false, covered := false }] } := by
  obtain ⟨hnumber, hsetup⟩ := teardown_kept code s
  rw [← hnumber, ← hsetup]
  rfl

theorem restarted_eq (tag : HostTag) (s : State) :
    respond (.done tag false) (enterStarting (teardown .restarted s)) = Claims.restarted tag s := by
  rw [respond_sent, enterStarting_teardown]
  rfl

theorem commandRestart_late {s : State} (h : s.station = .starting ∨ s.station = .run ∨ s.station = .halted) (tag : HostTag) :
    commandRestart tag s = Claims.restarted tag s := by
  rw [← restarted_eq]
  obtain h | h | h := h <;> simp only [commandRestart, h]

theorem commandRestart_early {s : State} (h : s.station = .init ∨ s.station = .setup) (tag : HostTag) :
    commandRestart tag s = respond (.fault tag .wrongState) s := by
  obtain h | h := h <;> simp only [commandRestart, h]

/-! ### The answers in the order of R171 -/

theorem fenceTold_hostTx (s : State) : (fenceTold s).hostTx = s.hostTx ++ Claims.fenceAnswered s := by
  cases h : startedFence s with
  | none => simp [fenceTold_none h, Claims.fenceAnswered, h]
  | some tag =>
    rw [fenceTold_some h]
    simp only [Claims.fenceAnswered, h]
    rfl

theorem restarted_hostTx {s : State} (h : ∀ t : Tag, EntryOk s.tracker[t]) (tag : HostTag) : (Claims.restarted tag s).hostTx =
    s.hostTx ++ Claims.waitersAnswered .restarted s ++ Claims.remoteAnswered .restarted s ++
      Claims.fenceAnswered (Claims.remoteTold .restarted s) ++ [.done tag false] := by
  have htold : (teardown .restarted s).hostTx = (fenceTold (Claims.remoteTold .restarted s)).hostTx := by
    rw [teardown_emptied h]
    rfl
  calc (Claims.restarted tag s).hostTx
    _ = (teardown .restarted s).hostTx ++ [.done tag false] := by simp only [Claims.restarted, Claims.sent]
    _ = (Claims.remoteTold .restarted s).hostTx ++ Claims.fenceAnswered (Claims.remoteTold .restarted s) ++ [.done tag false] := by
      rw [htold, fenceTold_hostTx]

/-! ### A teardown that has the waiters alone to answer -/

/-- Nothing of the HRQ gets its answer from a teardown: no FENCE is started, and no READ or WRITE stands unstarted. -/
def Unanswered (s : State) : Prop :=
  ∀ it ∈ s.hrq, (it.started = true → it.req ≠ .fence) ∧ (it.started = false → isAccess it.req = false)

theorem Unanswered.startedFence {s : State} (h : Unanswered s) : startedFence s = none := by
  rw [Machine.startedFence, Option.map_eq_none_iff, List.find?_eq_none]
  intro it hit hfence
  rw [Bool.and_eq_true, beq_iff_eq] at hfence
  exact (h it hit).1 hfence.2 hfence.1

theorem Unanswered.unstartedRemote {s : State} (h : Unanswered s) : Claims.unstartedRemote s = [] := by
  refine List.filter_eq_nil_iff.2 fun it hit hremote => ?_
  obtain ⟨hu, hremote⟩ := Bool.and_eq_true_iff.1 hremote
  have haccess := (h it hit).2 (by simpa using hu)
  cases hreq : it.req with
  | read | write => simp [hreq, isAccess] at haccess
  | _ => simp [hreq] at hremote

theorem waitersTold_unanswered {s : State} (h : Unanswered s) (code : HostCode) : Unanswered (Claims.waitersTold code s) :=
  fun it hit => h it (List.mem_filter.1 hit).1

theorem teardown_unanswered {s : State} (h : Unanswered s) (code : HostCode) :
    teardown code s = emptied s (Claims.waitersTold code s) := by
  have hwaiters := waitersTold_unanswered h code
  have hremote : Claims.remoteTold code s = Claims.waitersTold code s := by
    rw [Claims.remoteTold, Claims.remoteAnswered, hwaiters.unstartedRemote, List.map_nil, sent_nil]
  have hfence : startedFence (emptied s (Claims.waitersTold code s)) = none := hwaiters.startedFence
  rw [teardown_told, hremote, answerFence, hfence]

theorem withdrawn_sent (tag : HostTag) (rs : List Response) (s : State) :
    withdrawn tag (Claims.sent rs s) = Claims.sent rs (withdrawn tag s) := by
  simp only [withdrawn, Claims.sent, List.filter_filter, Bool.and_comm]

theorem withdrawn_enterStarting (tag : HostTag) (s : State) :
    withdrawn tag (enterStarting s) = enterStarting (withdrawn tag s) := rfl

/-- A request that a teardown does not answer is nothing to it. -/
theorem withdrawn_teardown {tag : HostTag} {s : State} (h : Unanswered s) (code : HostCode) :
    withdrawn tag (teardown code s) = teardown code (withdrawn tag s) := by
  have hrest : Unanswered (withdrawn tag s) := fun it hit => h it (List.mem_filter.1 hit).1
  rw [teardown_unanswered h, teardown_unanswered hrest]
  exact congrArg (emptied s) (withdrawn_sent tag (Claims.waitersAnswered code s) _)

theorem Quiet.unanswered {s : State} (h : Claims.Quiet s) : Unanswered s := fun it hit =>
  ⟨fun _ => (h.1 it hit).2, fun hu => absurd (h.1 it hit).1 (ne_true_of_eq_false hu)⟩

theorem controlJoined_unanswered {s : State} (h : Unanswered s) (tag : HostTag) (word : Byte) (value : CtrlValue) :
    Unanswered (controlJoined tag word value s) := by
  intro it hit
  obtain hit | hit := List.mem_append.1 hit
  · exact h it hit
  · rw [List.mem_singleton.1 hit]
    exact ⟨nofun, fun _ => rfl⟩

/-- A station on which nothing waits is quiet after a teardown and the entry to STARTING. -/
theorem quiet_enterStarting_teardown {s : State} (h : Claims.Quiet s) (code : HostCode) :
    Claims.Quiet (enterStarting (teardown code s)) := by
  rw [teardown_unanswered (Quiet.unanswered h)]
  exact Quiet_of (s := s) (fun it hit => (List.mem_filter.1 hit).1) rfl rfl (fun hnone => by
    show s.serveOp.map _ = none
    rw [hnone]
    rfl) (fun _ => rfl) h

/-! ### The three places at which a RESTART starts -/

/-- The message of RESTART joined to the HRQ. -/
def restartJoined (tag : HostTag) (s : State) : State := controlJoined tag 0x04#8 2#64 s

/-- On a station on which it is alone, RESTART tears the station down as if it did not stand in the HRQ. -/
theorem exec_restart_admitted {tag : HostTag} {s : State} (h : Claims.Admits tag s)
    (hs : s.station = .starting ∨ s.station = .run ∨ s.station = .halted) :
    exec (.restart tag) s = .next (send (.done tag false) (enterStarting (teardown .restarted s))) := by
  obtain ⟨-, hquiet, -, htag⟩ := id h
  have hjoined : Unanswered (restartJoined tag s) := controlJoined_unanswered (Quiet.unanswered hquiet) tag _ _
  have hstart : commandRestart tag (restartJoined tag s) = send (.done tag false) (enterStarting (teardown .restarted s)) := by
    rw [commandRestart_late (s := restartJoined tag s) hs, ← restarted_eq]
    exact respond_joined (fun u => enterStarting (teardown .restarted u)) rfl
      (by rw [withdrawn_enterStarting, withdrawn_teardown hjoined]) (withdrawn_controlJoined htag _ _)
  exact exec_admitted h hstart (quiet_send (quiet_enterStarting_teardown hquiet .restarted) _)

/-- Settles O24: alone, the station is torn down without the request that is being answered; elsewhere the try and the arrival are
the command itself. -/
theorem restartCommand : Obligations.RestartCommand := by
  refine ⟨fun tag s h => ⟨fun hs => ?_, fun hs => ?_⟩, fun tag s h => ⟨fun hs => ⟨?_, fun hentries => ?_⟩, fun hs => ?_, ?_⟩,
    fun tag s hp hlen hq hfence hgrant => ⟨fun hs => ?_, fun hs => ?_⟩⟩
  · rw [exec_restart_admitted h hs, enterStarting_teardown, send]
  · exact exec_admitted_answered h rfl (commandRestart_early (s := restartJoined tag s) hs tag)
  · exact congrArg some (commandRestart_late hs tag)
  · exact restarted_hostTx hentries tag
  · exact congrArg some ((commandRestart_early hs tag).trans (respond_sent _ s))
  · intro hfence hgrant before x u hengine htry
    refine settle_step ?_
    rw [hengine]
    exact settleOne_alone h.2.2 rfl hfence hgrant htry
  · exact exec_control hp hlen hq hfence hgrant (commandRestart_late (s := restartJoined tag s) hs tag)
  · exact exec_control hp hlen hq hfence hgrant
      ((commandRestart_early (s := restartJoined tag s) hs tag).trans (respond_sent _ _))

end Sys2Proof.Proofs
end

section
/-! SUPPORT. The statements on the Request Tracker as a whole: what every step keeps of its entries and of the requests they hold,
and the candidate of the ORQ. -/

-- Theorems are elaborated one after another: many at once take more threads than the memory limit allows.
set_option Elab.async false

namespace Sys2Proof.Proofs

open Sys2Proof.Machine Sys2Proof.Safety Sys2Proof.Laws

/-! ### What every step keeps (R53, R54, R57, R60) -/

theorem step_keeps_tracker {s t : State} (h : step s = .next t) : TrackerOk s → TrackerOk t :=
  step_keeps (P := TrackerOk) (hpending := fun _ _ => TrackerOk_of rfl rfl rfl) (hevolves := fun _ _ k => k.tracker)
    (hreset := fun s _ => pinReset_tracker s)
    (hrelease := fun _ _ s _ => TrackerOk_of (s := pinReset s) rfl rfl rfl (pinReset_tracker s))
    (hfilled := fun _ => TrackerOk_of rfl rfl rfl) (hwritten := fun _ _ _ _ _ => TrackerOk_of rfl rfl rfl) h

/-- Settles O12: every operation keeps the tracker with the ORQ, and with both the requests held and the open ASKs. -/
theorem trackerStaysWellFormed : Obligations.TrackerStaysWellFormed :=
  fun _ _ h htracker => ⟨step_keeps_tracker h htracker, fun hqueues hsetup hheld =>
    step_requests h { queues := hqueues, setup := hsetup, tracker := htracker, held := hheld }⟩

/-! ### The candidate of the ORQ (R58) -/

/-- Entry t may be the candidate after the ORQ entries `before` and others whose targets are `seen`. -/
def OrqReady (v : Vector Entry 16) (seen : List Station) (before : List Tag) (t : Tag) : Prop :=
  v[t].state = .queued ∧ v[t].target ∉ seen ∧ ∀ x ∈ before, v[x].target ≠ v[t].target

/-- Entry t is the first of a list that may be the candidate, after others whose targets are `seen`. -/
def OrqFirst (v : Vector Entry 16) (seen : List Station) (l : List Tag) (t : Tag) : Prop :=
  ∃ earlier later, l = earlier ++ t :: later ∧ OrqReady v seen earlier t ∧
    ∀ before after x, earlier = before ++ x :: after → ¬OrqReady v seen before x

/-- It is the same whether an earlier entry is in the list or its target is among those seen. -/
theorem orqReady_cons {v : Vector Entry 16} {seen : List Station} {a t : Tag} {before : List Tag} :
    OrqReady v seen (a :: before) t ↔ OrqReady v (v[a].target :: seen) before t := by
  rw [OrqReady, OrqReady, List.forall_mem_cons, List.mem_cons, not_or, ne_comm, and_assoc,
    and_left_comm (a := v[t].target ∉ seen)]

theorem orqFirst_ready {v : Vector Entry 16} {seen : List Station} {a t : Tag} {l : List Tag} (h : OrqReady v seen [] a) :
    OrqFirst v seen (a :: l) t ↔ a = t := by
  constructor
  · rintro ⟨earlier, later, hl, -, hnone⟩
    cases earlier with
    | nil => exact (List.cons.inj hl).1
    | cons b earlier =>
      obtain ⟨rfl, -⟩ := List.cons.inj hl
      exact absurd h (hnone [] earlier a rfl)
  · rintro rfl
    exact ⟨[], l, rfl, h, fun before after x e => by simp at e⟩

theorem orqFirst_skip {v : Vector Entry 16} {seen : List Station} {a t : Tag} {l : List Tag} (h : ¬OrqReady v seen [] a) :
    OrqFirst v seen (a :: l) t ↔ OrqFirst v (v[a].target :: seen) l t := by
  constructor
  · rintro ⟨earlier, later, hl, hready, hnone⟩
    cases earlier with
    | nil =>
      obtain ⟨rfl, -⟩ := List.cons.inj hl
      exact absurd hready h
    | cons b earlier =>
      obtain ⟨rfl, htail⟩ := List.cons.inj hl
      exact ⟨earlier, later, htail, orqReady_cons.1 hready, fun before after x e hx =>
        hnone (a :: before) after x (congrArg (a :: ·) e) (orqReady_cons.2 hx)⟩
  · rintro ⟨earlier, later, rfl, hready, hnone⟩
    refine ⟨a :: earlier, later, rfl, orqReady_cons.2 hready, fun before after x e hx => ?_⟩
    cases before with
    | nil =>
      obtain ⟨rfl, -⟩ := List.cons.inj e
      exact h hx
    | cons b before =>
      obtain ⟨rfl, htail⟩ := List.cons.inj e
      exact hnone before after x htail (orqReady_cons.1 hx)

theorem orqPick_iff (v : Vector Entry 16) (l : List Tag) (seen : List Station) (t : Tag) :
    orqPick v seen l = some t ↔ OrqFirst v seen l t := by
  induction l generalizing seen with
  | nil => simp [orqPick, OrqFirst]
  | cons a l ih =>
    have hready : (v[a].state == .queued && !seen.contains v[a].target) = true ↔ OrqReady v seen [] a := by
      simp [OrqReady]
    rw [orqPick]
    by_cases h : OrqReady v seen [] a
    · rw [if_pos (hready.2 h), orqFirst_ready h, Option.some.injEq]
    · rw [if_neg (mt hready.1 h), orqFirst_skip h, ih]

/-- Settles O31: the search of the ORQ starts with no target seen. -/
theorem orqCandidateRule : Obligations.OrqCandidateRule := by
  intro s t
  have hnone (before : List Tag) (x : Tag) : OrqReady s.tracker [] before x ↔
      s.tracker[x].state = .queued ∧ ∀ y ∈ before, s.tracker[y].target ≠ s.tracker[x].target := by
    simp [OrqReady]
  rw [orqCandidate, orqPick_iff]
  simp only [OrqFirst, hnone]

end Sys2Proof.Proofs
end

section
/-! SUPPORT. The statements on the life of a tracker entry after it was created: the replies that answer its waiters, the falls of
its frame, and the expiry of its timers. -/

-- Theorems are elaborated one after another: many at once take more threads than the memory limit allows.
set_option Elab.async false

namespace Sys2Proof.Proofs

open Sys2Proof.Machine Sys2Proof.Safety Sys2Proof.Laws

/-! ### Replies that match (R69 to R71, R86) -/

theorem giveAnswer_eq (data : Line) (mended : Bool) : giveAnswer data mended = Claims.dataFor data mended := by
  funext w
  cases w with
  | read tag offset size => cases size <;> rfl
  | write tag => rfl

theorem installs_iff {s : State} {e : Entry} :
    installs s e = true ↔ e.keep = true ∧ s.setup.cacheEnable = true ∧ e.overtaken = false := by
  simp [installs, and_assoc]

/-- An entry released once each waiter has its answer (R55). -/
theorem releaseEntry_answered (t : Tag) (ws : List Waiter) (answer : Waiter → Response) (s : State) :
    releaseEntry t (answerWaiters ws answer s) = Claims.freedAt t (Claims.sent (ws.map answer) s) := by
  rw [answerWaiters_sent, releaseEntry_eq]

theorem takeGive_matched {s : State} {source target : Station} {tag : Tag} {epoch : Epoch} (ht : takesAsTarget s target = true)
    (hnames : replyNames source epoch s.tracker[tag] = true) (hk : s.tracker[tag].kind = some .ask) (mended : Bool)
    (data : Line) : takeGive source target tag epoch mended data s =
      let u := Claims.freedAt tag (Claims.sent (s.tracker[tag].waiters.map (Claims.dataFor data mended)) s)
      if installs s s.tracker[tag] then cacheInstall s.tracker[tag].target s.tracker[tag].line data u else u := by
  simp only [takeGive, ht, hnames, hk, if_true, beq_self_eq_true, Bool.and_self, ← giveAnswer_eq, ← releaseEntry_answered]
  split <;> rfl

theorem takeNote_matched {s : State} {source target : Station} {tag : Tag} {epoch : Epoch} {outcome : NoteOutcome}
    (ht : takesAsTarget s target = true) (hnames : replyNames source epoch s.tracker[tag] = true)
    (hfits : noteFits outcome s.tracker[tag].kind = true) : takeNote source target tag epoch outcome s =
      Claims.freedAt tag (Claims.sent (s.tracker[tag].waiters.map (noteAnswer outcome)) s) := by
  simp only [takeNote, ht, hnames, hfits, if_true, Bool.and_self, releaseEntry_answered]

/-- Settles O39: the GIVE is accepted, and the entry its tag names is an ASK that waits for it. -/
theorem giveAnswersWaiters : Obligations.GiveAnswersWaiters := by
  intro source target tag epoch mended data s hp hr hs hst hn ht hstate hepoch htarget hk u
  have hc : frameConsistent (.give source target tag epoch mended data) = true := by simpa [frameConsistent] using hst
  have hnames := replyNames_iff.2 ⟨hstate, hepoch, htarget⟩
  subst ht
  refine exec_stands (f := .give ..) hp ((standingEnd_accepted hr hc hn rfl hs nofun).trans ?_)
  refine (takeGive_matched (takesAsTarget_run_end _ hs) hnames hk mended data).trans ?_
  simp only [installs_iff, frameEnds_frame]
  rw [htarget]
  rfl

/-- Settles O40: the NOTE is accepted, and its outcome can answer the entry its tag names. -/
theorem noteAnswersWaiters : Obligations.NoteAnswersWaiters := by
  intro source target tag epoch outcome s hp hr hs hst hn ht hstate hepoch htarget hk
  have hc : frameConsistent (.note source target tag epoch outcome) = true := by simpa [frameConsistent] using hst
  have hnames := replyNames_iff.2 ⟨hstate, hepoch, htarget⟩
  subst ht
  refine exec_stands (f := .note ..) hp ((standingEnd_accepted hr hc hn rfl hs nofun).trans ?_)
  refine (takeNote_matched (takesAsTarget_run_end _ hs) hnames (noteFits_iff.2 hk)).trans ?_
  cases outcome <;> rfl

/-! ### The frame of an entry falls (R64, R65, R67, R68) -/

/-- A failure answers the waiters, is reported and releases the entry; a posted write is lost. -/
theorem failEntry_eq (t : Tag) (code : HostCode) (s : State) :
    failEntry t code s = Claims.failed t code (failFault code) s := by
  simp only [failEntry, answerWaiters_sent]
  rfl

theorem entrySpoiled_counts {s : State} {t : Tag} (h : s.tracker[t].spoils < 3) : entrySpoiled t s =
    { s with tracker := s.tracker.set t.val { s.tracker[t] with spoils := s.tracker[t].spoils + 1 } } :=
  if_pos h

theorem entrySpoiled_fourth {s : State} {t : Tag} (h : s.tracker[t].spoils = 3) :
    entrySpoiled t s = Claims.failed t .link .link s :=
  (if_neg (Nat.not_lt.2 h.ge)).trans (failEntry_eq t .link s)

theorem entryRefused_backsOff {s : State} {t : Tag} (h : s.tracker[t].refusals + 1 < s.setup.refuseLimit) :
    entryRefused t s = { s with tracker := s.tracker.set t.val { s.tracker[t] with
      refusals := s.tracker[t].refusals + 1, spoils := 0, state := .backoff
      backoffTimer := some (s.setup.refuseStep * (s.tracker[t].refusals + 1)) } } :=
  if_pos h

theorem entryRefused_limit {s : State} {t : Tag} (h : s.tracker[t].refusals + 1 = s.setup.refuseLimit) :
    entryRefused t s = Claims.failed t .busy .busyOut s :=
  (if_neg (Nat.not_lt.2 h.ge)).trans (failEntry_eq t .busy s)

/-- Settles O46: the entry is QUEUED and takes the outcome of its frame, which decides by the counts it holds. -/
theorem entryFrameFalls : Obligations.EntryFrameFalls := by
  intro t others o s hp hspan hg hsrc hq htgt u
  have falls {outcome : FrameOutcome} {v : State} (hout : classify others true = outcome)
      (h : entryOutcome t o.frame outcome (ownFrameOver s) = v) : exec (.senderFrameEnd others) s = .next (settle s v) := by
    refine exec_ownOutcome hp hspan hg ?_
    rw [htgt, hout]
    exact (ownOutcome_tracker (s := ownFrameOver s) hsrc hq outcome).trans h
  exact ⟨fun hout hcount => falls hout (entrySpoiled_counts (s := ownFrameOver s) hcount),
    fun hout hcount => falls hout (entrySpoiled_fourth (s := ownFrameOver s) hcount),
    fun hout hcount => falls hout (entryRefused_backsOff (s := ownFrameOver s) hcount),
    fun hout hcount => falls hout (entryRefused_limit (s := ownFrameOver s) hcount),
    fun hout => falls hout (failEntry_eq t .absent (ownFrameOver s))⟩

/-! ### The timers of an entry expire (R66, R72) -/

theorem backoffExpiryEvent_runs {s : State} {t : Tag} {n : Nat} (hs : s.tracker[t].state = .backoff)
    (ht : s.tracker[t].backoffTimer = some n) : backoffExpiryEvent t s = backoffExpires t (elapse n s) := by
  simp only [backoffExpiryEvent, hs, ht, if_true, Option.getD_some]

theorem replyExpiryEvent_runs {s : State} {t : Tag} {n : Nat} (hs : s.tracker[t].state = .waiting)
    (ht : s.tracker[t].replyTimer = some n) : replyExpiryEvent t s = replyTimerExpires t (elapse n s) := by
  simp only [replyExpiryEvent, hs, ht, if_true, Option.getD_some]

/-- The waiters are answered, the timeout is reported and the entry is released. -/
theorem replyTimerExpires_eq (t : Tag) (s : State) : replyTimerExpires t s =
    Claims.freedAt t (takeReport (Claims.fault .timeout (some s.tracker[t].target) (some s.tracker[t].line)
      (s.tracker[t].waiters.head?.map waiterTag)) (Claims.sent (Claims.faults .timeout s.tracker[t].waiters) s)) := by
  simp only [replyTimerExpires, answerWaiters_sent, releaseEntry_eq]
  rfl

/-- Settles O49: the time that the timer had left passes first, and changes nothing of an entry but its timers. -/
theorem timersExpire : Obligations.TimersExpire := by
  intro t n s hp later
  refine ⟨fun hs ht => ?_, fun hs ht => ?_⟩
  · refine (unlessHeld_released hp _).trans (congrArg Host.Outcome.next ?_)
    rw [backoffExpiryEvent_runs hs ht]
    rfl
  · refine (event_released hp _).trans (congrArg (fun u => Host.Outcome.next (settle s u)) ?_)
    rw [replyExpiryEvent_runs hs ht, replyTimerExpires_eq, elapse_get]
    rfl

end Sys2Proof.Proofs
end

section
/-! SUPPORT. The statements on the starts of remote requests: a READ that hits, attaches or asks, and a WRITE that makes a PUT
entry; at the command that names the start and at a try alike. -/

-- Theorems are elaborated one after another: many at once take more threads than the memory limit allows.
set_option Elab.async false

namespace Sys2Proof.Proofs

open Sys2Proof.Machine Sys2Proof.Safety Sys2Proof.Laws

/-! ### The command that names a start (R157, R158) -/

/-- A host tag names one request of the HRQ, so the command finds the eligible one. -/
theorem startNamed_eligible {sort : State → Request → Bool} {tag : HostTag} {req : Request} {s : State}
    (h : Claims.Eligible tag req s) (hsort : sort s req = true) :
    startNamed sort tag s = (tryStart s { tag := tag, req := req, started := false }).getD s := by
  obtain ⟨-, htags, hmem⟩ := h
  have hnodup : ((eligibleNow s).map (·.tag)).Nodup := ((eligibleItems_sublist s.hrq []).map _).nodup htags
  have hfind := find_tag_unique hnodup hmem (fun it => sort s it.req) hsort
  simp only [startNamed, hfind]

theorem starts_named {c : Instr} {sort : State → Request → Bool} {tag : HostTag} {req : Request} {s X : State}
    (hc : exec c s = event s (startNamed sort tag)) (h : Claims.Eligible tag req s) (hsort : sort s req = true)
    (htry : tryStart s { tag := tag, req := req, started := false } = some X) : Claims.Starts c tag req s X := by
  refine ⟨htry, ?_⟩
  rw [hc, event_released h.1, startNamed_eligible h hsort, htry, Option.getD_some]

theorem waits_named {c : Instr} {sort : State → Request → Bool} {tag : HostTag} {req : Request} {s : State}
    (hc : exec c s = event s (startNamed sort tag)) (h : Claims.Eligible tag req s) (hsort : sort s req = true)
    (htry : tryStart s { tag := tag, req := req, started := false } = none) : Claims.Waits c tag req s := by
  refine ⟨htry, ?_⟩
  rw [hc, event_released h.1, startNamed_eligible h hsort, htry, Option.getD_none]

theorem isRemote_read {addr : SpanAddr} {s : State} (h : addrStation addr ≠ s.number) (size : ReadSize)
    (cacheable high : Bool) : isRemote s (.read addr size cacheable high) = true := bne_iff_ne.2 h

theorem isRemote_write {addr : SpanAddr} {s : State} (h : addrStation addr ≠ s.number) (mask : Mask) (data : Line)
    (confirm : Bool) : isRemote s (.write addr mask data confirm) = true := bne_iff_ne.2 h

theorem tryStart_remoteRead {addr : SpanAddr} {s : State} (h : addrStation addr ≠ s.number) (tag : HostTag) (size : ReadSize)
    (cacheable high : Bool) : tryStart s { tag := tag, req := .read addr size cacheable high, started := false } =
      startRemoteRead tag addr size cacheable s :=
  if_pos (isRemote_read h size cacheable high)

theorem tryStart_remoteWrite {addr : SpanAddr} {s : State} (h : addrStation addr ≠ s.number) (tag : HostTag) (mask : Mask)
    (data : Line) (confirm : Bool) : tryStart s { tag := tag, req := .write addr mask data confirm, started := false } =
      startRemoteWrite tag addr mask data confirm s :=
  if_pos (isRemote_write h mask data confirm)

/-! ### The tags found (R59, R60) -/

theorem freeTag_iff {s : State} {t : Tag} : freeTag s = some t ↔
    s.tracker[t].state = .free ∧ ∀ u : Tag, u < t → s.tracker[u].state ≠ .free := by
  simp only [freeTag, find_tag_iff, beq_iff_eq, beq_eq_false_iff_ne]

theorem isAskFor_iff {owner : Station} {line : LineIndex} {e : Entry} : isAskFor owner line e = true ↔
    e.state ≠ .free ∧ e.kind = some .ask ∧ e.target = owner ∧ e.line = line := by
  simp [isAskFor, and_assoc]

theorem attachable_iff {owner : Station} {line : LineIndex} {e : Entry} : attachable owner line e = true ↔
    e.state ≠ .free ∧ e.kind = some .ask ∧ e.target = owner ∧ e.line = line ∧ e.overtaken = false ∧
      e.waiters.length < 8 := by
  simp only [attachable, isAskFor_iff, Bool.and_eq_true, Bool.not_eq_true', decide_eq_true_eq, and_assoc]
  rfl

theorem attachTag_iff {owner : Station} {line : LineIndex} {s : State} {t : Tag} : attachTag owner line s = some t ↔
    attachable owner line s.tracker[t] = true ∧ ∀ u : Tag, u < t → ¬attachable owner line s.tracker[u] = true := by
  simp only [attachTag, find_tag_iff, Bool.not_eq_true]

/-! ### A remote READ (R82 to R84, R160) -/

theorem startRemoteRead_notRunning {s : State} (h : s.station ≠ .run) (tag : HostTag) (addr : SpanAddr) (size : ReadSize)
    (cacheable : Bool) : startRemoteRead tag addr size cacheable s = some (respond (.fault tag .notRunning) s) :=
  if_pos h

theorem startRemoteRead_hit {s : State} {addr : SpanAddr} {cacheable : Bool} {c : CacheLine} (h : s.station = .run)
    (hkeep : (cacheable && s.setup.cacheEnable) = true) (hfind : cacheFind (addrStation addr) (addrLine addr) s = some c)
    (tag : HostTag) (size : ReadSize) : startRemoteRead tag addr size cacheable s =
      some (respond (.data tag (readBytes c.data (addrOffset addr) size) false) (cacheFront c s)) := by
  simp only [startRemoteRead, h, hkeep, hfind, ne_eq, not_true_eq_false, if_false, if_true]

theorem startRemoteRead_miss {s : State} {addr : SpanAddr} {cacheable : Bool} (h : s.station = .run)
    (hmiss : (cacheable && s.setup.cacheEnable) = true → cacheFind (addrStation addr) (addrLine addr) s = none)
    (tag : HostTag) (size : ReadSize) : startRemoteRead tag addr size cacheable s =
      readToTracker tag (addrStation addr) (addrLine addr) (addrOffset addr) size (cacheable && s.setup.cacheEnable) s := by
  have hnone : (if (cacheable && s.setup.cacheEnable) = true then cacheFind (addrStation addr) (addrLine addr) s else none) =
      none := ite_eq_right_iff.2 hmiss
  simp only [startRemoteRead, h, hnone, ne_eq, not_true_eq_false, if_false]

/-- The entry that a hit makes most recent is taken out of its place by the line that was looked for. -/
theorem cacheFront_found {owner : Station} {line : LineIndex} {c : CacheLine} {s : State} (h : cacheFind owner line s = some c) :
    cacheFront c s = { s with cache := c :: s.cache.filter fun d => !(d.owner == owner && d.line == line) } := by
  obtain ⟨-, rfl, rfl⟩ := cacheFind_spec h
  rfl

theorem readToTracker_attaches {owner : Station} {line : LineIndex} {s : State} {t : Tag} (h : attachTag owner line s = some t)
    (tag : HostTag) (offset : Nat) (size : ReadSize) (keep : Bool) : readToTracker tag owner line offset size keep s =
      some (markStarted tag (attachRead t (.read tag offset size) keep s)) := by
  simp only [readToTracker, h]

theorem readToTracker_creates {owner : Station} {line : LineIndex} {s : State} {t : Tag} (h : attachTag owner line s = none)
    (hfree : freeTag s = some t) (tag : HostTag) (offset : Nat) (size : ReadSize) (keep : Bool) :
    readToTracker tag owner line offset size keep s =
      some (markStarted tag (createEntry t .ask owner line keep none [.read tag offset size] s)) := by
  simp only [readToTracker, h, hfree]

theorem readToTracker_waits {owner : Station} {line : LineIndex} {s : State} (h : attachTag owner line s = none)
    (hfree : freeTag s = none) (tag : HostTag) (offset : Nat) (size : ReadSize) (keep : Bool) :
    readToTracker tag owner line offset size keep s = none := by
  simp only [readToTracker, h, hfree]

/-- Settles O18: the station state, the cache and the tags found select what the start does. -/
theorem remoteReadStarts : Obligations.RemoteReadStarts := by
  refine ⟨fun s t => freeTag_iff, fun owner line s t => ?_, ?_⟩
  · simp only [attachTag_iff, attachable_iff]
  intro tag addr size cacheable high s h hremote starts
  have htry := tryStart_remoteRead hremote tag size cacheable high
  have hsort : isRemoteRead s (.read addr size cacheable high) = true := isRemote_read hremote size cacheable high
  have start {X : State} (hX : startRemoteRead tag addr size cacheable s = some X) : starts X :=
    starts_named (sort := isRemoteRead) rfl h hsort (htry.trans hX)
  refine ⟨fun hs => start (startRemoteRead_notRunning hs ..), fun c hs hkeep hfind => start ?_, fun hs hmiss => ?_⟩
  · rw [startRemoteRead_hit hs hkeep hfind, cacheFront_found hfind]
    rfl
  · have hmiss := startRemoteRead_miss hs hmiss tag size
    exact ⟨fun t hattach => start (hmiss.trans (readToTracker_attaches hattach ..)),
      fun t hattach hfree => start (hmiss.trans (readToTracker_creates hattach hfree ..)),
      fun hattach hfree => waits_named (sort := isRemoteRead) rfl h hsort
        (htry.trans (hmiss.trans (readToTracker_waits hattach hfree ..)))⟩

/-! ### A remote WRITE (R74, R85, R161) -/

theorem startRemoteWrite_notRunning {s : State} (h : s.station ≠ .run) (tag : HostTag) (addr : SpanAddr) (mask : Mask)
    (data : Line) (confirm : Bool) :
    startRemoteWrite tag addr mask data confirm s = some (respond (.fault tag .notRunning) s) :=
  if_pos h

theorem startRemoteWrite_waits {s : State} (h : s.station = .run) (hfree : freeTag s = none) (tag : HostTag) (addr : SpanAddr)
    (mask : Mask) (data : Line) (confirm : Bool) : startRemoteWrite tag addr mask data confirm s = none := by
  simp only [startRemoteWrite, h, hfree, ne_eq, not_true_eq_false, if_false]

/-- The station once a WRITE of a line is seen: the copy updated, the ASK entries for the line overtaken. -/
def writeSeen (owner : Station) (line : LineIndex) (mask : Mask) (data : Line) (s : State) : State :=
  overtakeByWrite owner line (cacheWrite owner line mask data s)

/-- The PUT entry that a remote WRITE creates in a tag whose epoch is known: a confirmed WRITE waits on it (R161). -/
def putEntry (epoch : Epoch) (tag : HostTag) (owner : Station) (line : LineIndex) (mask : Mask) (data : Line) (confirm : Bool) :
    Entry :=
  { epoch := epoch, state := .queued, kind := some (if confirm then .putConfirmed else .putPosted), target := owner, line := line,
    keep := false, overtaken := false, refusals := 0, spoils := 0, backoffTimer := none, replyTimer := none,
    put := some { mask := mask, data := data }, waiters := if confirm then [.write tag] else [], covered := false }

/-- A PUT entry created, and its WRITE marked started or answered. -/
def putCreated (t : Tag) (tag : HostTag) (owner : Station) (line : LineIndex) (mask : Mask) (data : Line) (confirm : Bool)
    (s : State) : State :=
  { (if confirm then markStarted tag s else respond (.done tag false) s) with
    tracker := s.tracker.set t.val (putEntry s.tracker[t].epoch tag owner line mask data confirm), orq := s.orq ++ [t] }

theorem startRemoteWrite_starts {s : State} {t : Tag} (h : s.station = .run) (hfree : freeTag s = some t) (tag : HostTag)
    (addr : SpanAddr) (mask : Mask) (data : Line) (confirm : Bool) : startRemoteWrite tag addr mask data confirm s =
      some (putCreated t tag (addrStation addr) (addrLine addr) mask data confirm
        (writeSeen (addrStation addr) (addrLine addr) mask data s)) := by
  simp only [startRemoteWrite, h, hfree, ne_eq, not_true_eq_false, if_false]
  cases confirm <;> rfl

theorem cacheWrite_hit {owner : Station} {line : LineIndex} {c : CacheLine} {s : State} (h : cacheFind owner line s = some c)
    (mask : Mask) (data : Line) : (cacheWrite owner line mask data s).cache = { c with data := overlay mask data c.data } ::
      s.cache.filter fun d => !(d.owner == owner && d.line == line) := by
  obtain ⟨-, rfl, rfl⟩ := cacheFind_spec h
  simp only [cacheWrite, h]
  rfl

theorem cacheWrite_miss {owner : Station} {line : LineIndex} {s : State} (h : cacheFind owner line s = none) (mask : Mask)
    (data : Line) : (cacheWrite owner line mask data s).cache = s.cache := by
  simp only [cacheWrite, h]

/-- The tracker after a WRITE of a line is seen: the ASK entries for the line are overtaken (R74). -/
theorem writeSeen_get (owner : Station) (line : LineIndex) (mask : Mask) (data : Line) (s : State) (x : Tag) :
    (writeSeen owner line mask data s).tracker[x] =
      if s.tracker[x].state ≠ .free ∧ s.tracker[x].kind = some .ask ∧ s.tracker[x].target = owner ∧
          s.tracker[x].line = line then
        { s.tracker[x] with overtaken := true } else s.tracker[x] := by
  obtain ⟨cache, e⟩ := cacheWrite_eq owner line mask data s
  simp only [writeSeen, e, overtakeByWrite, mapTracker_get, isAskFor_iff]

theorem writeSeen_epoch (owner : Station) (line : LineIndex) (mask : Mask) (data : Line) (s : State) (x : Tag) :
    (writeSeen owner line mask data s).tracker[x].epoch = s.tracker[x].epoch := by
  rw [writeSeen_get]
  split <;> rfl

/-- Nothing beside the cache and the tracker changes when a WRITE is seen. -/
theorem writeSeen_eq (owner : Station) (line : LineIndex) (mask : Mask) (data : Line) (s : State) : ∃ tracker,
    writeSeen owner line mask data s =
      { s with cache := (cacheWrite owner line mask data s).cache, tracker := tracker } := by
  obtain ⟨cache, e⟩ := cacheWrite_eq owner line mask data s
  rw [writeSeen, e]
  exact ⟨_, rfl⟩

/-- What the start of a remote WRITE changes: the cache, the tracker, the ORQ, and what the host sees of it. -/
theorem putCreated_eq (t : Tag) (tag : HostTag) (owner : Station) (line : LineIndex) (mask : Mask) (data : Line) (confirm : Bool)
    (s : State) : ∃ tracker, putCreated t tag owner line mask data confirm (writeSeen owner line mask data s) =
      { (if confirm then markStarted tag s else respond (.done tag false) s) with
        cache := (cacheWrite owner line mask data s).cache, tracker := tracker, orq := s.orq ++ [t] } := by
  obtain ⟨tracker, e⟩ := writeSeen_eq owner line mask data s
  rw [putCreated, e]
  cases confirm <;> exact ⟨_, rfl⟩

theorem putCreated_get (t x : Tag) (tag : HostTag) (owner : Station) (line : LineIndex) (mask : Mask) (data : Line)
    (confirm : Bool) (s : State) : (putCreated t tag owner line mask data confirm s).tracker[x] =
      if x = t then putEntry s.tracker[t].epoch tag owner line mask data confirm else s.tracker[x] :=
  tracker_set ..

/-- Settles O19: the PUT entry takes the tag found, and every other entry and the copy are as the WRITE seen leaves them. -/
theorem remoteWriteStarts : Obligations.RemoteWriteStarts := by
  intro tag addr mask data confirm s h hremote starts
  have htry := tryStart_remoteWrite hremote tag mask data confirm
  have hsort : isRemoteWrite s (.write addr mask data confirm) = true := isRemote_write hremote mask data confirm
  have start {X : State} (hX : startRemoteWrite tag addr mask data confirm s = some X) : starts X :=
    starts_named (sort := isRemoteWrite) rfl h hsort (htry.trans hX)
  refine ⟨fun hs => start (startRemoteWrite_notRunning hs ..), fun hs hfree =>
    waits_named (sort := isRemoteWrite) rfl h hsort (htry.trans (startRemoteWrite_waits hs hfree ..)), fun t hs hfree => ?_⟩
  obtain ⟨tracker, e⟩ := putCreated_eq t tag (addrStation addr) (addrLine addr) mask data confirm s
  have hcache := congrArg State.cache e
  refine ⟨_, start (startRemoteWrite_starts hs hfree ..), ?_, fun c hfind => ?_, fun hmiss => ?_, fun x hx => ?_, ?_⟩
  · rw [e]
  · exact hcache.trans (cacheWrite_hit hfind mask data)
  · exact hcache.trans (cacheWrite_miss hmiss mask data)
  · rw [putCreated_get, if_neg hx, writeSeen_get]
  · rw [putCreated_get, if_pos rfl, writeSeen_epoch]
    rfl

end Sys2Proof.Proofs
end

section
/-! SUPPORT. The statements on the Remote Line Cache: what every step keeps of it and of the other queues and tables, and the
command that empties it, with the one that clears the Fault Record. -/

-- Theorems are elaborated one after another: many at once take more threads than the memory limit allows.
set_option Elab.async false

namespace Sys2Proof.Proofs

open Sys2Proof.Machine Sys2Proof.Safety Sys2Proof.Laws

/-! ### The queues, the Reply Queue, the station's own number and the store's work (R79, R95, R97, R109, R117, R140, R143) -/

/-- The release samples the station number afresh, and every collection that the number is kept out of is empty. -/
theorem pinRelease_own (snum ssize : BitVec 4) (s : State) : OwnOk (pinRelease snum ssize s) where
  cache := nofun
  sharers := nofun
  requesters := nofun
  serving := nofun

theorem step_keeps_queues {s t : State} (h : step s = .next t) : QueuesOk s → QueuesOk t :=
  step_keeps (P := QueuesOk) (hpending := fun _ _ => QueuesOk_of rfl rfl rfl rfl rfl rfl rfl) (hevolves := fun _ _ k => k.queues)
    (hreset := fun s _ => pinReset_queues s)
    (hrelease := fun _ _ s _ => QueuesOk_of (s := pinReset s) rfl rfl rfl rfl rfl rfl rfl (pinReset_queues s))
    (hfilled := fun _ => QueuesOk_of rfl rfl rfl rfl rfl rfl rfl)
    (hwritten := fun _ _ _ _ _ => QueuesOk_of rfl rfl rfl rfl rfl rfl rfl) h

theorem step_keeps_reply {s t : State} (h : step s = .next t) : ReplyOk s → ReplyOk t :=
  step_keeps (P := ReplyOk) (hpending := fun _ _ => ReplyOk_of rfl rfl rfl) (hevolves := fun _ _ k => k.reply)
    (hreset := fun s _ => pinReset_reply s)
    (hrelease := fun _ _ s _ => ReplyOk_of (s := pinReset s) rfl rfl rfl (pinReset_reply s))
    (hfilled := fun _ => ReplyOk_of rfl rfl rfl) (hwritten := fun _ _ _ _ _ => ReplyOk_of rfl rfl rfl) h

theorem step_keeps_own {s t : State} (h : step s = .next t) : OwnOk s → OwnOk t :=
  step_keeps (P := OwnOk) (hpending := fun _ _ => OwnOk_of rfl rfl rfl rfl rfl) (hevolves := fun _ _ k => k.own)
    (hreset := fun s _ => pinReset_own s) (hrelease := fun snum ssize s _ => pinRelease_own snum ssize s)
    (hfilled := fun _ => OwnOk_of rfl rfl rfl rfl rfl) (hwritten := fun _ _ _ _ _ => OwnOk_of rfl rfl rfl rfl rfl) h

theorem step_keeps_work {s t : State} (h : step s = .next t) : StoreWorkOk s → StoreWorkOk t :=
  step_keeps (P := StoreWorkOk) (hpending := fun _ _ => StoreWorkOk_of rfl rfl rfl) (hevolves := fun _ _ k => k.work)
    (hreset := fun s _ => pinReset_work s)
    (hrelease := fun _ _ s _ => StoreWorkOk_of (s := pinReset s) rfl rfl rfl (pinReset_work s))
    (hfilled := fun _ => StoreWorkOk_of rfl rfl rfl) (hwritten := fun _ _ _ _ _ => StoreWorkOk_of rfl rfl rfl) h

/-- Settles O10: every operation keeps each of the four parts, and a reset of the pin empties what they speak of. -/
theorem queuesNeverOverflow : Obligations.QueuesNeverOverflow :=
  fun _ _ h => ⟨step_keeps_queues h, step_keeps_reply h, step_keeps_own h, step_keeps_work h⟩

/-! ### The DROP_CACHE and CLEAR_FAULTS commands (R90, R181) -/

theorem controlWriteStarts_dropCache (tag : HostTag) (s : State) :
    controlWriteStarts tag 0x04#8 3#64 s = respond (.done tag false) (cacheEmpty s) := rfl

theorem controlWriteStarts_clearFaults (tag : HostTag) (s : State) :
    controlWriteStarts tag 0x04#8 4#64 s = respond (.done tag false) (clearFaultRecord s) := rfl

theorem quiet_cacheEmpty {s : State} (h : Claims.Quiet s) : Claims.Quiet (cacheEmpty s) :=
  Quiet_of (s := s) (fun _ => id) rfl rfl id id h

theorem quiet_clearFaultRecord {s : State} (h : Claims.Quiet s) : Claims.Quiet (clearFaultRecord s) :=
  Quiet_of (s := s) (fun _ => id) rfl rfl id id h

/-- An admitted CONTROL WRITE that is an operation of no matter to the HRQ, answered DONE after it, does that operation and
nothing more. -/
theorem exec_admitted_done {tag : HostTag} {word : Byte} {value : CtrlValue} {s : State} (f : State → State)
    (h : Claims.Admits tag s) (hstart : ∀ u, controlWriteStarts tag word value u = respond (.done tag false) (f u))
    (hwithdrawn : ∀ u, withdrawn tag (f u) = f (withdrawn tag u)) (hquiet : Claims.Quiet (f s)) :
    exec (.controlWrite tag word value) s = .next (send (.done tag false) (f s)) :=
  exec_admitted h ((hstart _).trans (respond_joined f rfl (hwithdrawn _) (withdrawn_controlJoined h.2.2.2 word value)))
    (quiet_send hquiet _)

/-- Settles O26: each command is the CONTROL WRITE of its code, whose start is one operation whatever the station state is. -/
theorem dropCacheAndClearFaults : Obligations.DropCacheAndClearFaults := by
  intro tag s h
  have hidle : Claims.Quiet s := h.2.1
  exact ⟨exec_admitted_done cacheEmpty h (controlWriteStarts_dropCache tag) (fun _ => rfl) (quiet_cacheEmpty hidle),
    exec_admitted_done clearFaultRecord h (controlWriteStarts_clearFaults tag) (fun _ => rfl) (quiet_clearFaultRecord hidle)⟩

end Sys2Proof.Proofs
end

section
/-! SUPPORT. The statements on what the station does of itself: what its blocks do within an event, run to its end, and its step
when no command waits. -/

-- Theorems are elaborated one after another: many at once take more threads than the memory limit allows.
set_option Elab.async false

namespace Sys2Proof.Proofs

open Sys2Proof.Machine Sys2Proof.Safety Sys2Proof.Laws

/-! ### One thing that the blocks do (R142, R158, R159, R165) -/

/-- The read that is offered to the store is a READ of a local line. -/
theorem offeredRead_isRead {s : State} {it : HrqItem} (h : offeredRead s = some it) :
    ∃ addr size cacheable high, it.req = .read addr size cacheable high := by
  have hlocal : isLocalRead s it.req = true := by
    obtain hhigh | ⟨-, hfirst⟩ := Option.or_eq_some_iff.1 h
    · exact (List.mem_filter.1 (List.mem_of_find?_eq_some hhigh)).2
    · exact (List.mem_filter.1 (List.mem_of_mem_head? hfirst)).2
  obtain ⟨tag, req, started⟩ := it
  cases req with
  | read addr size cacheable high => exact ⟨addr, size, cacheable, high, rfl⟩
  | _ => cases hlocal

theorem localRefusal_eq_some_iff {s : State} {line : LineIndex} {code : HostCode} : localRefusal s line = some code ↔
    s.station = .init ∧ code = .notReady ∨
      s.station ≠ .init ∧ installedLines s.sizeCode ≤ line.toNat ∧ code = .range := by
  unfold localRefusal
  by_cases hinit : s.station = .init
  · simp [hinit, eq_comm]
  · by_cases hin : line.toNat < installedLines s.sizeCode
    · simp [hinit, lineInstalled, hin]
    · simp [hinit, lineInstalled, hin, Nat.not_lt.1 hin, eq_comm]

/-- An offered READ is refused with NOT-READY in INIT, and with RANGE when its line is not installed. -/
theorem refuseOfferedRead_eq_some_iff {s t : State} : refuseOfferedRead s = some t ↔
    ∃ it addr size cacheable high, offeredRead s = some it ∧ it.req = .read addr size cacheable high ∧
      (s.station = .init ∧ t = respond (.fault it.tag .notReady) s ∨
        s.station ≠ .init ∧ installedLines s.sizeCode ≤ (addrLine addr).toNat ∧ t = respond (.fault it.tag .range) s) := by
  cases hoffer : offeredRead s with
  | none => simp [refuseOfferedRead, hoffer]
  | some it =>
    obtain ⟨addr, size, cacheable, high, hreq⟩ := offeredRead_isRead hoffer
    have hindex : requestIndex it.req = addrLine addr := by rw [hreq]; rfl
    have hrefuse : refuseOfferedRead s = some t ↔
        ∃ code, localRefusal s (addrLine addr) = some code ∧ respond (.fault it.tag code) s = t := by
      simp [refuseOfferedRead, hoffer, hindex]
    rw [hrefuse]
    constructor
    · rintro ⟨code, hcode, rfl⟩
      refine ⟨it, addr, size, cacheable, high, rfl, hreq, ?_⟩
      obtain ⟨hinit, rfl⟩ | ⟨hinit, hout, rfl⟩ := localRefusal_eq_some_iff.1 hcode
      · exact .inl ⟨hinit, rfl⟩
      · exact .inr ⟨hinit, hout, rfl⟩
    · rintro ⟨_, addr', _, _, _, hsame, hreq', hcase⟩
      obtain rfl := Option.some.inj hsame
      obtain ⟨rfl, -⟩ := Request.read.inj (hreq.symm.trans hreq')
      obtain ⟨hinit, rfl⟩ | ⟨hinit, hout, rfl⟩ := hcase
      · exact ⟨.notReady, localRefusal_eq_some_iff.2 (.inl ⟨hinit, rfl⟩), rfl⟩
      · exact ⟨.range, localRefusal_eq_some_iff.2 (.inr ⟨hinit, hout, rfl⟩), rfl⟩

theorem startFirst_eq_some_iff {s t : State} : startFirst s = some t ↔
    ∃ earlier it later, eligibleNow s = earlier ++ it :: later ∧ (∀ x ∈ earlier, tryStart s x = none) ∧
      tryStart s it = some t := by
  rw [startFirst, List.findSome?_eq_some_iff]
  exact ⟨fun ⟨a, it, b, hq, hstart, hnone⟩ => ⟨a, it, b, hq, hnone, hstart⟩,
    fun ⟨a, it, b, hq, hnone, hstart⟩ => ⟨a, it, b, hq, hstart, hnone⟩⟩

/-- The first of the blocks' things that is there to do is done, in the model's order (log entry 19). -/
theorem settleOne_eq_some_iff {s t : State} : settleOne s = some t ↔ Claims.BlocksDo s t := by
  unfold settleOne Claims.BlocksDo
  rw [← startFirst_eq_some_iff, ← refuseOfferedRead_eq_some_iff]
  by_cases hfence : fenceDue s = true
  · simp [hfence, eq_comm]
  · simp [hfence, Option.or_eq_some_iff, and_or_left]

/-- The blocks have nothing to do when no one of them has. -/
theorem settleOne_eq_none_iff {s : State} : settleOne s = none ↔
    fenceDue s = false ∧ refuseOfferedRead s = none ∧ grant s = none ∧ ∀ it ∈ eligibleNow s, tryStart s it = none := by
  have hstart : startFirst s = none ↔ ∀ it ∈ eligibleNow s, tryStart s it = none := List.findSome?_eq_none_iff
  unfold settleOne
  rw [← hstart]
  by_cases hfence : fenceDue s = true
  · simp [hfence]
  · simp [hfence, Option.or_eq_none_iff]

/-! ### The loops of settling -/

theorem settleLoop_chain (n : Nat) (s : State) : Relation.ReflTransGen Claims.BlocksDo s (settleLoop n s) := by
  induction n generalizing s with
  | zero => exact .refl
  | succ n ih =>
    unfold settleLoop
    cases hone : settleOne s with
    | none => exact .refl
    | some t => exact .head (settleOne_eq_some_iff.1 hone) (ih t)

/-- Settling leaves nothing to do: its loop runs at least as often as the state weighs. -/
theorem settleOne_settle (before s : State) : settleOne (settle before s) = none := by
  have hweight := weight_le (engineFirst before s)
  exact settleLoop_done _ _ (by omega)

/-- A taking of the Serve Engine ahead of a waiting local WRITE (R109). -/
def EngineClaims (a b : State) : Prop := writeClaimsPlace a = true ∧ canServe a = true ∧ b = serveTakeNow a

theorem engineTakes_chain (n : Nat) (s : State) : Relation.ReflTransGen EngineClaims s (engineTakes n s) := by
  induction n generalizing s with
  | zero => exact .refl
  | succ n ih =>
    unfold engineTakes
    split
    · next h =>
      obtain ⟨hwrite, hserve⟩ := Bool.and_eq_true_iff.1 h
      exact .head ⟨hwrite, hserve, rfl⟩ (ih _)
    · exact .refl

/-- As many takings as the Serve Queue is long leave the engine or the waiting WRITE without a claim. -/
theorem engineTakes_done (n : Nat) (s : State) (h : s.svq.length ≤ n) :
    ¬(writeClaimsPlace (engineTakes n s) = true ∧ canServe (engineTakes n s) = true) := by
  induction n generalizing s with
  | zero =>
    have hempty : s.svq = [] := List.length_eq_zero_iff.1 (Nat.le_zero.1 h)
    simp [engineTakes, canServe, hempty]
  | succ n ih =>
    unfold engineTakes
    split
    · next hclaims =>
      have hshorter := serveTakeNow_shortens (Bool.and_eq_true_iff.1 hclaims).2
      exact ih _ (by omega)
    · next hclaims => exact fun h => hclaims (Bool.and_eq_true_iff.2 h)

theorem engineFirst_freed {before s : State} (h : freePlaces before < freePlaces s) :
    engineFirst before s = engineTakes s.svq.length s := if_pos h

/-! ### The commands that name what settling does -/

/-- The command that names a start tries the request it names (R158). -/
theorem exec_startCommand {s t : State} {it : HrqItem} {c : Instr} (hp : s.pinHeld = false) (htags : (s.hrq.map (·.tag)).Nodup)
    (hm : it ∈ eligibleNow s) (htry : tryStart s it = some t) (hc : Claims.startCommand s it = some c) :
    exec c s = .next (settle s t) := by
  obtain ⟨tag, req, started⟩ := it
  obtain rfl : started = false := (eligibleItems_mem hm).2
  have named {sort : State → Request → Bool} (hsort : sort s req = true) :
      event s (startNamed sort tag) = .next (settle s t) := by
    rw [event_released hp, startNamed_eligible ⟨hp, htags, hm⟩ hsort, htry, Option.getD_some]
  cases req with
  | read addr size cacheable high =>
    by_cases hlocal : addrStation addr = s.number
    · simp [Claims.startCommand, hlocal] at hc
    · obtain rfl : .remoteReadStart tag = c := by simpa [Claims.startCommand, hlocal] using hc
      exact named (sort := isRemoteRead) (isRemote_read hlocal size cacheable high)
  | write addr mask data confirm =>
    by_cases hlocal : addrStation addr = s.number
    · obtain rfl : .localWriteTaken tag = c := by simpa [Claims.startCommand, hlocal] using hc
      exact named (sort := isLocalWrite) (by simp [isLocalWrite, isAccess, isRead, isRemote, requestLine, hlocal])
    · obtain rfl : .remoteWriteStart tag = c := by simpa [Claims.startCommand, hlocal] using hc
      exact named (sort := isRemoteWrite) (isRemote_write hlocal mask data confirm)
  | fence =>
    obtain rfl : .fenceStart tag = c := by simpa [Claims.startCommand] using hc
    exact named (sort := fun _ req => req == .fence) rfl
  | controlRead word => cases hc
  | controlWrite word value => cases hc

theorem exec_serveTake {s : State} (hp : s.pinHeld = false) : exec .serveTake s = .next (settle s (serveTakeNow s)) :=
  event_released hp _

theorem exec_storeGrant {s : State} (hp : s.pinHeld = false) : exec .storeGrant s = .next (settle s ((grant s).getD s)) :=
  event_released hp _

/-- Settles O4: settling is the engine's loop and then the blocks' loop, and each runs as often as there is something to do. -/
theorem settlingRunsOutOfWork : Obligations.SettlingRunsOutOfWork := by
  refine ⟨fun before s => settleOne_eq_none_iff.1 (settleOne_settle before s), fun before s => ⟨engineFirst_places, fun h => ?_,
    settleLoop_chain _ _, fun t h => settle_step (settleOne_eq_some_iff.2 h)⟩,
    fun s hp => ⟨exec_serveTake hp, event_released hp _, fun t h => ?_, fun htags it hm t c => exec_startCommand hp htags hm⟩,
    fun before s h => settle_quiet h before⟩
  · rw [engineFirst_freed h]
    exact ⟨engineTakes_chain _ s, engineTakes_done _ s (Nat.le_refl _)⟩
  · rw [exec_storeGrant hp, h, Option.getD_some]

/-! ### The step with no command waiting (R54, R98) -/

theorem step_idle {s : State} (h : s.pending = []) : step s = .next (idle s) := by
  simp only [step, h]

theorem idle_held {s : State} (h : s.pinHeld = true) : idle s = { s with now := s.now + 1 } := if_pos h

/-- A timer that has run out expires as its entry's state says. -/
theorem idle_due {s : State} {t : Tag} (hp : s.pinHeld = false) (hdue : dueTag s = some t) : idle s =
    if s.tracker[t].state = .waiting then settle s (replyExpiryEvent t s) else backoffExpiryEvent t s := by
  simp only [idle, hp, hdue, Bool.false_eq_true, if_false]

theorem idle_serves {s : State} (hp : s.pinHeld = false) (hdue : dueTag s = none) (h : canServe s = true) :
    idle s = settle s (serveTakeNow s) := by
  simp [idle, hp, hdue, h]

theorem idle_elapses {s : State} (hp : s.pinHeld = false) (hdue : dueTag s = none) (h : canServe s = false) :
    idle s = elapse 1 s := by
  simp [idle, hp, hdue, h]

/-- Settles O2: the idle station does what the command of the due timer or of the taking does, or lets a microsecond pass. -/
theorem emptyQueueStep : Obligations.EmptyQueueStep := by
  intro s hempty
  rw [step_idle hempty]
  refine ⟨fun hp => congrArg _ (idle_held hp), fun hp => ⟨fun t hdue h => ?_, fun t hdue h => ?_, fun hdue h => ?_,
    fun hdue h => ⟨elapse 1 s, congrArg _ (idle_elapses hp hdue h), rfl, elapse_get 1 s⟩⟩⟩
  · rw [idle_due hp hdue, if_pos h]
    exact (event_released hp (replyExpiryEvent t)).symm
  · rw [idle_due hp hdue, if_neg (by rw [h]; nofun)]
    exact (unlessHeld_released hp (backoffExpiryEvent t s)).symm
  · rw [idle_serves hp hdue h, exec_serveTake hp]

end Sys2Proof.Proofs
end

section
/-! SUPPORT. The statements on the Serve Engine: which request it takes, the checks on it, and the completions of the serve read
and the serve write. -/

-- Theorems are elaborated one after another: many at once take more threads than the memory limit allows.
set_option Elab.async false

namespace Sys2Proof.Proofs

open Sys2Proof.Machine Sys2Proof.Safety Sys2Proof.Laws

/-! ### The choice of a request (R99) -/

/-- An ASK that no request before it shares its line with. -/
def ClearAsk (before : List ServeReq) (r : ServeReq) : Prop := isServeAsk r = true ∧ ∀ q ∈ before, q.line ≠ r.line

theorem clearAsk_iff {before : List ServeReq} {r : ServeReq} :
    (isServeAsk r && !before.any fun q => q.line == r.line) = true ↔ ClearAsk before r := by
  simp [ClearAsk]

theorem takeClearAsk_clear {seen : List ServeReq} {a : ServeReq} (h : ClearAsk seen a) (after : List ServeReq) :
    takeClearAsk seen (a :: after) = some (a, seen ++ after) :=
  if_pos (clearAsk_iff.2 h)

theorem takeClearAsk_passes {seen : List ServeReq} {b : ServeReq} (h : ¬ClearAsk seen b) (rest : List ServeReq) :
    takeClearAsk seen (b :: rest) = takeClearAsk (seen ++ [b]) rest :=
  if_neg fun hclear => h (clearAsk_iff.1 hclear)

/-- The requests that are no clear ASK are passed over, and count against the later ones. -/
theorem takeClearAsk_append {seen before : List ServeReq}
    (h : ∀ (p q : List ServeReq) (b : ServeReq), before = p ++ b :: q → ¬ClearAsk (seen ++ p) b) (rest : List ServeReq) :
    takeClearAsk seen (before ++ rest) = takeClearAsk (seen ++ before) rest := by
  induction before generalizing seen with
  | nil => simp
  | cons b before ih =>
    have hb : ¬ClearAsk seen b := by simpa using h [] before b rfl
    rw [List.cons_append, takeClearAsk_passes hb, ih fun p q c hq => ?_, List.append_assoc, List.singleton_append]
    rw [List.append_assoc, List.singleton_append]
    exact h (b :: p) q c (by rw [hq]; rfl)

/-- The oldest clear ASK is found. -/
theorem takeClearAsk_first {before : List ServeReq} {a : ServeReq} (ha : ClearAsk before a)
    (h : ∀ (p q : List ServeReq) (b : ServeReq), before = p ++ b :: q → ¬ClearAsk p b) (after : List ServeReq) :
    takeClearAsk [] (before ++ a :: after) = some (a, before ++ after) := by
  rw [takeClearAsk_append h]
  exact takeClearAsk_clear ha after

theorem takeClearAsk_none {queue : List ServeReq}
    (h : ∀ (p q : List ServeReq) (b : ServeReq), queue = p ++ b :: q → ¬ClearAsk p b) : takeClearAsk [] queue = none := by
  have hpassed := takeClearAsk_append (seen := []) h []
  rwa [List.append_nil] at hpassed

/-- The pass of a clear ASK ahead of an oldest PUT. -/
theorem chooseServe_passes {pass : Nat} {oldest a : ServeReq} {rest others : List ServeReq} (hput : isServeAsk oldest = false)
    (hpass : pass < 4) (ha : takeClearAsk [] (oldest :: rest) = some (a, others)) :
    chooseServe pass (oldest :: rest) = some (a, others, pass + 1) := by
  simp [chooseServe, hput, Config.passLimit, hpass, ha]

theorem chooseServe_oldest {pass : Nat} {oldest : ServeReq} {rest : List ServeReq}
    (h : isServeAsk oldest = true ∨ 4 ≤ pass ∨ takeClearAsk [] (oldest :: rest) = none) :
    chooseServe pass (oldest :: rest) = some (oldest, rest, 0) := by
  have hpassed : (if !isServeAsk oldest && decide (pass < Config.passLimit) then takeClearAsk [] (oldest :: rest) else none) =
      none := by
    obtain hask | hpass | hnone := h
    · simp [hask]
    · simp [Config.passLimit, Nat.not_lt.2 hpass]
    · simp [hnone]
  simp only [chooseServe, hpassed]

/-- Settles O50: the search passes over what is no clear ASK, and the engine takes what it finds, else the oldest. -/
theorem serveChoice : Obligations.ServeChoice := by
  intro pass oldest rest queue clear
  refine ⟨fun hput hpass before after a hqueue ha hfirst => chooseServe_passes hput hpass ?_, fun h => chooseServe_oldest ?_⟩
  · exact (congrArg (takeClearAsk []) hqueue).trans (takeClearAsk_first ha hfirst after)
  · exact h.imp_right (Or.imp_right fun hnone => takeClearAsk_none fun p q b => hnone p q b)

/-! ### The taking and its checks (R98, R100 to R103) -/

theorem canServe_iff {s : State} : canServe s = true ↔ s.serveOp = none ∧ s.rpq.length ≤ 10 ∧ s.svq ≠ [] := by
  simp [canServe, Config.serveReserve, Config.rpqPlaces, and_assoc]

theorem chooseServe_nonempty {pass : Nat} {queue rest : List ServeReq} {r : ServeReq} {n : Nat}
    (h : chooseServe pass queue = some (r, rest, n)) : queue ≠ [] := by
  rintro rfl
  cases h

theorem rightsAllow_iff {right : Right} {r : ServeReq} :
    rightsAllow right r.kind = true ↔ right = .readWrite ∨ right = .read ∧ isServeAsk r = true := by
  unfold isServeAsk
  cases right with
  | none => simp [rightsAllow]
  | readWrite => simp [rightsAllow]
  | read => cases r.kind <;> simp [rightsAllow]

theorem lineInstalled_iff {s : State} {line : LineIndex} :
    lineInstalled s line = true ↔ line.toNat < installedLines s.sizeCode := decide_eq_true_iff

theorem serveCheck_expired {r : ServeReq} {s : State} (h : s.serveLimit < s.now - r.acceptedAt) :
    serveCheck r s = takeReport (serveReport .expired r) s := if_pos h

theorem serveCheck_denied {r : ServeReq} {s : State} (hage : s.now - r.acceptedAt ≤ s.serveLimit)
    (h : rightsAllow s.rights[r.requester] r.kind = false) :
    serveCheck r s = appendNote r .denied (takeReport (serveReport .deniedIn r) s) := by
  rw [serveCheck, if_neg (Nat.not_lt.2 hage), if_pos (by rw [h]; rfl)]

/-- A request that is neither too old nor denied is checked for its line. -/
theorem serveCheck_allowed {r : ServeReq} {s : State} (hage : s.now - r.acceptedAt ≤ s.serveLimit)
    (h : rightsAllow s.rights[r.requester] r.kind = true) : serveCheck r s =
      if lineInstalled s r.line then { s with serveOp := some { req := r, orphaned := false }, reserve := Config.serveReserve }
      else appendNote r .range (takeReport (serveReport .rangeIn r) s) := by
  rw [serveCheck, if_neg (Nat.not_lt.2 hage), if_neg (by rw [h]; nofun)]
  cases lineInstalled s r.line <;> rfl

theorem serveTakeNow_chosen {s : State} {r : ServeReq} {rest : List ServeReq} {n : Nat} (h : canServe s = true)
    (hc : chooseServe s.passCount s.svq = some (r, rest, n)) :
    serveTakeNow s = serveCheck r { s with svq := rest, passCount := n } := by
  simp only [serveTakeNow, h, hc, if_true]

theorem serveTakeNow_idle {s : State} (h : canServe s = false) : serveTakeNow s = s := if_neg (ne_true_of_eq_false h)

/-- Settles O51: the request chosen goes through the three checks in their order. -/
theorem serveTaking : Obligations.ServeTaking := by
  intro s hp takes
  refine ⟨fun hnot => ?_, ?_⟩
  · have hidle : canServe s = false := by
      rw [← Bool.not_eq_true, canServe_iff]
      rintro ⟨hop, hroom, hqueue⟩
      obtain h | h | h := hnot
      · exact h hop
      · exact absurd hroom (Nat.not_le.2 h)
      · exact hqueue h
    exact ⟨hidle, by rw [exec_serveTake hp, serveTakeNow_idle hidle]⟩
  · intro r rest n hop hroom hchosen taken allowed note
    have hcan : canServe s = true := canServe_iff.2 ⟨hop, hroom, chooseServe_nonempty hchosen⟩
    have takesOf {X : State} (h : serveCheck r taken = X) : takes X := by
      have hnow : serveTakeNow s = X := (serveTakeNow_chosen hcan hchosen).trans h
      exact ⟨hcan, hnow, by rw [exec_serveTake hp, hnow]⟩
    have hnote (outcome : NoteOutcome) (kind : FaultKind) :
        appendNote r outcome (takeReport (serveReport kind r) taken) = note outcome kind := rfl
    have hallowed : rightsAllow taken.rights[r.requester] r.kind = true ↔ allowed := rightsAllow_iff
    have hline : lineInstalled taken r.line = true ↔ r.line.toNat < installedLines s.sizeCode := lineInstalled_iff
    refine ⟨fun hold => takesOf (serveCheck_expired hold), fun hage hno => takesOf ?_, fun hage hyes hout => takesOf ?_,
      fun hage hyes hin => takesOf ?_⟩
    · rw [serveCheck_denied (s := taken) hage (Bool.eq_false_iff.2 (mt hallowed.1 hno)), hnote]
    · rw [serveCheck_allowed (s := taken) hage (hallowed.2 hyes), if_neg (mt hline.1 (Nat.not_lt.2 hout)), hnote]
    · rw [serveCheck_allowed (s := taken) hage (hallowed.2 hyes), if_pos (hline.2 hin)]
      rfl

/-! ### What a completion reports and what it lends (R107, R120, R121, R137) -/

@[simp] theorem reportMended_number (m : Bool) (p : Option Station) (line : LineIndex) (tag : Option HostTag) (s : State) :
    (reportMended m p line tag s).number = s.number := by
  cases m <;> rfl

@[simp] theorem reportMended_llt (m : Bool) (p : Option Station) (line : LineIndex) (tag : Option HostTag) (s : State) :
    (reportMended m p line tag s).llt = s.llt := by
  cases m <;> rfl

theorem lltFind_congr {s u : State} (h : u.llt = s.llt) (line : LineIndex) : lltFind line u = lltFind line s := by
  rw [lltFind, h, lltFind]

/-- A line lent before is made most recent, with the peer added to its sharers. -/
theorem lltLend_again {line : LineIndex} {s : State} {entry : LentLine} (h : lltFind line s = some entry) (p : Station) :
    lltLend line p s = { s with
      llt := { entry with sharers := entry.sharers ||| onlySharer p } :: s.llt.filter fun d => d.line != line } := by
  simp only [lltLend, h]

/-- A line lent that the table does not hold, at a table with room for it. -/
def lentFirst (line : LineIndex) (p : Station) (s : State) : State :=
  { s with llt := { line := line, sharers := onlySharer p } :: s.llt }

theorem lltLend_first {line : LineIndex} {s : State} (h : lltFind line s = none) (p : Station) :
    lltLend line p s = lentFirst line p (if s.llt.length < Config.lltCapacity then s else lltEvict s) := by
  simp only [lltLend, h, lentFirst]

theorem lltLend_room {line : LineIndex} {s : State} (h : lltFind line s = none) (hroom : s.llt.length < Config.lltCapacity)
    (p : Station) : lltLend line p s = lentFirst line p s := by
  rw [lltLend_first h, if_pos hroom]

theorem lltEvict_last {s : State} {older : List LentLine} {v : LentLine} (h : s.llt = older ++ [v]) :
    lltEvict s = { rpqAppend (recallOf s v) false s with llt := older } := by
  simp [lltEvict, h]

/-- A full table evicts its least recent line first. -/
theorem lltLend_full {line : LineIndex} {s : State} {older : List LentLine} {v : LentLine} (h : lltFind line s = none)
    (hlast : s.llt = older ++ [v]) (hfull : Config.lltCapacity ≤ s.llt.length) (p : Station) :
    lltLend line p s = lentFirst line p { rpqAppend (recallOf s v) false s with llt := older } := by
  rw [lltLend_first h, if_neg (Nat.not_lt.2 hfull), lltEvict_last hlast]

/-- The NOTE that answers a request with a tag. -/
theorem appendNote_tagged {r : ServeReq} {tag : Tag} {epoch : Epoch} (h : serveTag r.kind = some (tag, epoch))
    (outcome : NoteOutcome) (s : State) :
    appendNote r outcome s = rpqAppend (.note s.number r.requester tag epoch outcome) false s := by
  simp only [appendNote, h]

/-- A posted PUT is not answered. -/
theorem appendNote_untagged {r : ServeReq} (h : serveTag r.kind = none) (outcome : NoteOutcome) (s : State) :
    appendNote r outcome s = s := by
  simp only [appendNote, h]

/-! ### The completion of a serve read (R104, R105, R107) -/

/-- The station at the end of a serve read, before anything is answered: the store and the engine free, the words found poisoned
listed, and a mended word reported. -/
def serveReadDone (r : ServeReq) (e : WordErrors) (s : State) : State :=
  reportMended (readMends s r.line e allWords) (some r.requester) r.line none
    (serveEnd { s with poison := poisonAfterRead s r.line e allWords, storeOp := none })

theorem serveReadDone_number (r : ServeReq) (e : WordErrors) (s : State) : (serveReadDone r e s).number = s.number := by
  simp [serveReadDone]

theorem serveReadDone_llt (r : ServeReq) (e : WordErrors) (s : State) : (serveReadDone r e s).llt = s.llt := by
  simp [serveReadDone]

/-- The GIVE that answers an ASK with the line as the read found it. -/
def serveGive (r : ServeReq) (tag : Tag) (epoch : Epoch) (e : WordErrors) (s : State) : Frame :=
  .give s.number r.requester tag epoch (readMends s r.line e allWords) (lineSeen s r.line)

section
variable {op : ServeOp} {keep : Bool} {tag : Tag} {epoch : Epoch} {e : WordErrors} {s : State}

theorem exec_serveReadComplete (hp : s.pinHeld = false) (hstore : s.storeOp = some .serve) (hop : s.serveOp = some op)
    (hkind : op.req.kind = .ask keep tag epoch) :
    exec (.serveReadComplete e) s = .next (settle s (serveReadEnds op keep tag epoch e s)) := by
  change execServeReadComplete e s = _
  rw [execServeReadComplete, event_released hp]
  simp only [hstore, hop, hkind]

theorem serveReadEnds_orphaned (h : op.orphaned = true) :
    serveReadEnds op keep tag epoch e s = serveReadDone op.req e s := if_pos h

theorem serveReadEnds_poisoned (h : op.orphaned = false) (hpoison : readPoisoned s op.req.line e allWords = true) :
    serveReadEnds op keep tag epoch e s = appendNote op.req .poison
      (reportPoison (some op.req.requester) op.req.line none (serveReadDone op.req e s)) :=
  (if_neg (ne_true_of_eq_false h)).trans (if_pos hpoison)

/-- A good read lends the line, if it is to be kept, and answers with the GIVE. -/
theorem serveReadEnds_good (h : op.orphaned = false) (hpoison : readPoisoned s op.req.line e allWords = false) {u : State}
    (hu : (if keep then lltLend op.req.line op.req.requester (serveReadDone op.req e s) else serveReadDone op.req e s) = u)
    (hnumber : u.number = s.number) :
    serveReadEnds op keep tag epoch e s = rpqAppend (serveGive op.req tag epoch e s) false u := by
  rw [serveGive, ← hnumber, ← hu]
  exact (if_neg (ne_true_of_eq_false h)).trans (if_neg (ne_true_of_eq_false hpoison))

end

/-- Settles O58: what is appended is decided by the orphaning, the poison and the keep flag, and what is lent by the table. -/
theorem serveReadCompletes : Obligations.ServeReadCompletes := by
  intro e op keep tag epoch s hp hstore hop hkind line p words mended ended u give
  have hu : serveReadDone op.req e s = u := rfl
  have hnumber : u.number = s.number := serveReadDone_number op.req e s
  have hllt : u.llt = s.llt := serveReadDone_llt op.req e s
  have ends {t : State} (h : serveReadEnds op keep tag epoch e s = t) : exec (.serveReadComplete e) s = .next (settle s t) := by
    rw [exec_serveReadComplete hp hstore hop hkind, h]
  refine ⟨fun horphan => ends (serveReadEnds_orphaned horphan), fun horphan hpoison => ends ?_, fun horphan hgood => ?_⟩
  · have htag : serveTag op.req.kind = some (tag, epoch) := by rw [hkind]; rfl
    rw [serveReadEnds_poisoned horphan hpoison, appendNote_tagged htag, hu, ← hnumber]
    rfl
  · have lends {t : State} (hkeep : keep = true) (ht : lltLend line p u = t) (hn : t.number = s.number) :
        exec (.serveReadComplete e) s = .next (settle s (rpqAppend give false t)) :=
      ends (serveReadEnds_good horphan hgood ((if_pos hkeep).trans ht) hn)
    refine ⟨fun hkeep => ends (serveReadEnds_good horphan hgood (if_neg (ne_true_of_eq_false hkeep)) hnumber),
      fun entry hkeep hfind => lends hkeep ?_ hnumber, fun hkeep hfind hroom => lends hkeep ?_ hnumber,
      fun older v hkeep hfind hlast hfull => lends hkeep ?_ hnumber⟩
    · rw [lltLend_again ((lltFind_congr hllt line).trans hfind), hllt]
      rfl
    · rw [lltLend_room ((lltFind_congr hllt line).trans hfind) (hllt ▸ hroom), lentFirst, hllt]
      rfl
    · rw [lltLend_full ((lltFind_congr hllt line).trans hfind) (hllt.trans hlast) (hllt ▸ hfull), ← hnumber]
      rfl

/-! ### The completion of a serve write (R106, R107, R137, R146) -/

/-- A write that is performed is laid over the buffer, and a withheld one is nothing to it. -/
theorem lwbTakePut_performed (performed : Bool) (line : LineIndex) (mask : Mask) (data : Line) (s : State) :
    (if performed then lwbTakePut line mask data s else s) = { s with
      lwb := if performed then
          s.lwb.map fun b => if b.line = line then { b with data := overlay (b.mask &&& mask) data b.data } else b
        else s.lwb } := by
  cases performed <;> rfl

/-- The station at the end of a serve write, before anything is answered: the bytes written if they were not withheld, the store
and the engine free, and a mended word reported. -/
def serveWriteDone (r : ServeReq) (mask : Mask) (data : Line) (e : WordErrors) (s : State) : State :=
  let w := lineWrite s r.line mask data e
  let t := serveEnd { s with mem := w.mem, poison := w.poison, storeOp := none }
  reportMended w.mended (some r.requester) r.line none (if w.performed then lwbTakePut r.line mask data t else t)

section
variable {op : ServeOp} {confirm : Option (Tag × Epoch)} {mask : Mask} {data : Line} {e : WordErrors} {s : State}

theorem exec_serveWriteComplete (hp : s.pinHeld = false) (hstore : s.storeOp = some .serve) (hop : s.serveOp = some op)
    (hkind : op.req.kind = .put confirm mask data) :
    exec (.serveWriteComplete e) s = .next (settle s (serveWriteEnds op mask data e s)) := by
  change execServeWriteComplete e s = _
  rw [execServeWriteComplete, event_released hp]
  simp only [hstore, hop, hkind]

theorem serveWriteEnds_orphaned (h : op.orphaned = true) :
    serveWriteEnds op mask data e s = serveWriteDone op.req mask data e s := if_pos h

theorem serveWriteEnds_performed (h : op.orphaned = false) (hw : (lineWrite s op.req.line mask data e).performed = true) :
    serveWriteEnds op mask data e s = appendNote op.req .done (serveWriteDone op.req mask data e s) :=
  (if_neg (ne_true_of_eq_false h)).trans (if_pos hw)

theorem serveWriteEnds_withheld (h : op.orphaned = false) (hw : (lineWrite s op.req.line mask data e).performed = false) :
    serveWriteEnds op mask data e s = appendNote op.req .poison
      (reportPoison (some op.req.requester) op.req.line none (serveWriteDone op.req mask data e s)) :=
  (if_neg (ne_true_of_eq_false h)).trans (if_neg (ne_true_of_eq_false hw))

theorem serveWriteDone_number (r : ServeReq) : (serveWriteDone r mask data e s).number = s.number := by
  rw [serveWriteDone, reportMended_number]
  split <;> rfl

end

/-- Settles O59: the write is performed or withheld, and a PUT with a tag is told which, unless it is orphaned. -/
theorem serveWriteCompletes : Obligations.ServeWriteCompletes := by
  intro e op confirm mask data s hp hstore hop hkind line p w ended u poisoned
  have hu : serveWriteDone op.req mask data e s = u := by
    rw [serveWriteDone, lwbTakePut_performed]
    rfl
  have hnumber : u.number = s.number := hu ▸ serveWriteDone_number op.req
  have htag : serveTag op.req.kind = confirm := by rw [hkind]; rfl
  have ends {t : State} (h : serveWriteEnds op mask data e s = t) : exec (.serveWriteComplete e) s = .next (settle s t) := by
    rw [exec_serveWriteComplete hp hstore hop hkind, h]
  refine ⟨fun horphan => ends ((serveWriteEnds_orphaned horphan).trans hu), fun horphan hw => ?_, fun horphan hw => ?_⟩
  · have hdone := serveWriteEnds_performed horphan hw
    rw [hu] at hdone
    refine ⟨fun hno => ends ?_, fun tag epoch hyes => ends ?_⟩
    · rw [hdone, appendNote_untagged (htag.trans hno)]
    · rw [hdone, appendNote_tagged (htag.trans hyes), hnumber]
  · have hpoison := serveWriteEnds_withheld horphan hw
    rw [hu] at hpoison
    refine ⟨fun hno => ends ?_, fun tag epoch hyes => ends ?_⟩
    · rw [hpoison, appendNote_untagged (htag.trans hno)]
      rfl
    · rw [hpoison, appendNote_tagged (htag.trans hyes), ← hnumber]
      rfl

end Sys2Proof.Proofs
end

section
/-! SUPPORT. The statement on what a reader sees of a line: the store's bytes under those of the Local Write Buffer, and the
judgement of the words read. -/

-- Theorems are elaborated one after another: many at once take more threads than the memory limit allows.
set_option Elab.async false

namespace Sys2Proof.Proofs

open Sys2Proof.Machine Sys2Proof.Safety Sys2Proof.Laws

/-! ### The bytes of a line through the buffer (R103, R146) -/

theorem overlay_get (mask : Mask) (new old : Line) (i : Fin 64) :
    (overlay mask new old)[i] = if mask.getLsbD i.val then new[i] else old[i] := by
  simp [overlay]

theorem readLine_get (m : Memory) (line : LineIndex) (i : Fin 64) : (readLine m line)[i] = memRead m (lineAddr line i.val) := by
  simp [readLine]

/-- The entries for a line among entries of the Local Write Buffer, oldest first. -/
def entriesFor (line : LineIndex) (l : List LwbEntry) : List LwbEntry := l.filter fun b => b.line == line

theorem mem_entriesFor {l : List LwbEntry} {line : LineIndex} {b : LwbEntry} : b ∈ entriesFor line l ↔ b ∈ l ∧ b.line = line := by
  simp [entriesFor]

theorem entriesFor_split {older newer : List LwbEntry} {b : LwbEntry} {line : LineIndex} (h : b.line = line) :
    entriesFor line (older ++ b :: newer) = entriesFor line older ++ b :: entriesFor line newer := by
  simp [entriesFor, h]

/-- Entries laid over a line, one after another. -/
def overlays (l : List LwbEntry) (d : Line) : Line := l.foldl (fun d b => overlay b.mask b.data d) d

theorem overlays_cons (b : LwbEntry) (l : List LwbEntry) (d : Line) :
    overlays (b :: l) d = overlays l (overlay b.mask b.data d) := by
  simp only [overlays, List.foldl_cons]

theorem overlays_append (l m : List LwbEntry) (d : Line) : overlays (l ++ m) d = overlays m (overlays l d) := by
  simp only [overlays, List.foldl_append]

theorem lineSeen_eq (s : State) (line : LineIndex) :
    lineSeen s line = overlays (entriesFor line s.lwb) (readLine s.mem line) := rfl

/-- A byte that no entry masks stays. -/
theorem overlays_unmasked {l : List LwbEntry} {i : Fin 64} (h : ∀ b ∈ l, b.mask.getLsbD i.val = false) (d : Line) :
    (overlays l d)[i] = d[i] := by
  induction l generalizing d with
  | nil => rfl
  | cons b l ih =>
    obtain ⟨hb, hl⟩ := List.forall_mem_cons.1 h
    rw [overlays_cons, ih hl, overlay_get, if_neg (ne_true_of_eq_false hb)]

/-- A byte is as the last entry that masks it holds it. -/
theorem overlays_newest {older newer : List LwbEntry} {b : LwbEntry} {i : Fin 64} (hb : b.mask.getLsbD i.val = true)
    (h : ∀ c ∈ newer, c.mask.getLsbD i.val = false) (d : Line) : (overlays (older ++ b :: newer) d)[i] = b.data[i] := by
  rw [overlays_append, overlays_cons, overlays_unmasked h, overlay_get, if_pos hb]

theorem lineSeen_store {s : State} {line : LineIndex} {i : Fin 64}
    (h : ∀ b ∈ s.lwb, b.line = line → b.mask.getLsbD i.val = false) :
    (lineSeen s line)[i] = memRead s.mem (lineAddr line i.val) := by
  rw [lineSeen_eq, overlays_unmasked, readLine_get]
  intro b hb
  obtain ⟨hmem, hline⟩ := mem_entriesFor.1 hb
  exact h b hmem hline

theorem lineSeen_buffer {s : State} {line : LineIndex} {i : Fin 64} {older newer : List LwbEntry} {b : LwbEntry}
    (hlwb : s.lwb = older ++ b :: newer) (hline : b.line = line) (hb : b.mask.getLsbD i.val = true)
    (h : ∀ c ∈ newer, c.line = line → c.mask.getLsbD i.val = false) : (lineSeen s line)[i] = b.data[i] := by
  rw [lineSeen_eq, hlwb, entriesFor_split hline, overlays_newest hb]
  intro c hc
  obtain ⟨hmem, hline⟩ := mem_entriesFor.1 hc
  exact h c hmem hline

/-! ### The words that the buffer covers (R146) -/

theorem unionMask_getLsbD (l : List LwbEntry) (m : Mask) (i : Nat) :
    (l.foldl (fun m b => m ||| b.mask) m).getLsbD i = true ↔ m.getLsbD i = true ∨ ∃ b ∈ l, b.mask.getLsbD i = true := by
  induction l generalizing m with
  | nil => simp
  | cons b l ih => rw [List.foldl_cons, ih, BitVec.getLsbD_or, Bool.or_eq_true, List.exists_mem_cons_iff, or_assoc]

/-- The buffer masks a byte of a line when one of its entries for the line does. -/
theorem bufferMask_getLsbD {s : State} {line : LineIndex} {i : Nat} :
    (bufferMask s line).getLsbD i = true ↔ ∃ b ∈ s.lwb, b.line = line ∧ b.mask.getLsbD i = true := by
  rw [bufferMask, unionMask_getLsbD]
  simp [and_assoc]

theorem wordMask_getLsbD (mask : Mask) (w k : Fin 8) : (wordMask mask w).getLsbD k.val = mask.getLsbD (8 * w.val + k.val) := by
  simp [wordMask, k.isLt]

/-- A mask covers a word when it names each of its bytes. -/
theorem coversWord_iff {mask : Mask} {w : Fin 8} :
    coversWord mask w = true ↔ ∀ k : Fin 8, mask.getLsbD (8 * w.val + k.val) = true := by
  have hfull : ∀ k : Fin 8, (0xFF#8).getLsbD k.val = true := by decide
  rw [coversWord, beq_iff_eq]
  constructor
  · intro h k
    rw [← wordMask_getLsbD, h, hfull]
  · intro h
    refine BitVec.eq_of_getLsbD_eq fun i hi => ?_
    exact (wordMask_getLsbD mask w ⟨i, hi⟩).trans ((h ⟨i, hi⟩).trans (hfull ⟨i, hi⟩).symm)

/-- A word is left open when some byte of it is masked by no entry for its line. -/
theorem not_coversWord_bufferMask {s : State} {line : LineIndex} {w : Fin 8} : coversWord (bufferMask s line) w = false ↔
    ∃ k : Fin 8, ∀ b ∈ s.lwb, b.line = line → b.mask.getLsbD (8 * w.val + k.val) = false := by
  rw [← Bool.not_eq_true, coversWord_iff]
  simp [← Bool.not_eq_true, bufferMask_getLsbD]

/-! ### The judgement of a word (R136, R137) -/

section
variable {s : State} {line : LineIndex} {e : WordErrors} {w : Fin 8}

theorem judgeWord_bad (h : wordNumber line w ∈ s.poison ∨ e.multi.getLsbD w.val = true) : judgeWord s line e w = .poisoned :=
  if_pos (by simpa using h)

/-- A word that is not beyond correction is judged by its single-bit error. -/
theorem judgeWord_sound (h : ¬(wordNumber line w ∈ s.poison ∨ e.multi.getLsbD w.val = true)) :
    judgeWord s line e w = if e.single.getLsbD w.val then .mended else .good :=
  if_neg (by simpa using h)

theorem judgeWord_poisoned :
    judgeWord s line e w = .poisoned ↔ wordNumber line w ∈ s.poison ∨ e.multi.getLsbD w.val = true := by
  by_cases hbad : wordNumber line w ∈ s.poison ∨ e.multi.getLsbD w.val = true
  · exact iff_of_true (judgeWord_bad hbad) hbad
  · rw [judgeWord_sound hbad]
    split <;> exact iff_of_false nofun hbad

theorem judgeWord_mended : judgeWord s line e w = .mended ↔
    wordNumber line w ∉ s.poison ∧ e.multi.getLsbD w.val = false ∧ e.single.getLsbD w.val = true := by
  rw [← Bool.not_eq_true (e.multi.getLsbD w.val), ← and_assoc, ← not_or]
  by_cases hbad : wordNumber line w ∈ s.poison ∨ e.multi.getLsbD w.val = true
  · rw [judgeWord_bad hbad]
    exact iff_of_false nofun fun ⟨hsound, _⟩ => hsound hbad
  · rw [judgeWord_sound hbad]
    split
    · next hsingle => exact iff_of_true rfl ⟨hbad, hsingle⟩
    · next hsingle => exact iff_of_false nofun fun ⟨_, h⟩ => hsingle h

end

theorem readMends_iff {s : State} {line : LineIndex} {e : WordErrors} {ws : List (Fin 8)} : readMends s line e ws = true ↔
    ∃ w ∈ ws, wordNumber line w ∉ s.poison ∧ e.multi.getLsbD w.val = false ∧ e.single.getLsbD w.val = true := by
  simp only [readMends, List.any_eq_true, beq_iff_eq, judgeWord_mended]

theorem readPoisoned_iff {s : State} {line : LineIndex} {e : WordErrors} {ws : List (Fin 8)} :
    readPoisoned s line e ws = true ↔ ∃ w ∈ ws, (wordNumber line w ∈ s.poison ∨ e.multi.getLsbD w.val = true) ∧
      ∃ k : Fin 8, ∀ b ∈ s.lwb, b.line = line → b.mask.getLsbD (8 * w.val + k.val) = false := by
  simp only [readPoisoned, List.any_eq_true, Bool.and_eq_true, beq_iff_eq, Bool.not_eq_true', judgeWord_poisoned,
    not_coversWord_bufferMask]

/-! ### The list of poisoned words (R136) -/

theorem mem_insertNumber {n x : Nat} {l : List Nat} : x ∈ insertNumber n l ↔ x = n ∨ x ∈ l := by
  induction l with
  | nil => simp [insertNumber]
  | cons k l ih =>
    unfold insertNumber
    split
    · exact List.mem_cons
    · split
      · next hk => simp [hk]
      · rw [List.mem_cons, ih, List.mem_cons (l := l), or_left_comm]

theorem mem_insertNumbers {line : LineIndex} {ws : List (Fin 8)} {p : List Nat} {n : Nat} :
    n ∈ ws.foldl (fun p w => insertNumber (wordNumber line w) p) p ↔ n ∈ p ∨ ∃ w ∈ ws, n = wordNumber line w := by
  induction ws generalizing p with
  | nil => simp
  | cons w ws ih => rw [List.foldl_cons, ih, mem_insertNumber, List.exists_mem_cons_iff, or_comm (a := n = _), or_assoc]

/-- The words that a read finds beyond correction join those that were poisoned before. -/
theorem mem_poisonAfterRead {s : State} {line : LineIndex} {e : WordErrors} {ws : List (Fin 8)} {n : Nat} :
    n ∈ poisonAfterRead s line e ws ↔ n ∈ s.poison ∨ ∃ w ∈ ws, e.multi.getLsbD w.val = true ∧ n = wordNumber line w := by
  rw [poisonAfterRead, mem_insertNumbers]
  constructor
  · rintro (hold | ⟨w, hw, rfl⟩)
    · exact .inl hold
    · obtain ⟨hmem, hbad⟩ := List.mem_filter.1 hw
      exact (judgeWord_poisoned.1 (beq_iff_eq.1 hbad)).imp_right fun hmulti => ⟨w, hmem, hmulti, rfl⟩
  · rintro (hold | ⟨w, hw, hmulti, rfl⟩)
    · exact .inl hold
    · exact .inr ⟨w, List.mem_filter.2 ⟨hw, beq_iff_eq.2 (judgeWord_poisoned.2 (.inr hmulti))⟩, rfl⟩

/-- Settles O54: the newest entry that masks a byte is the last laid over it, and each word read is judged by itself. -/
theorem readSeesBuffer : Obligations.ReadSeesBuffer :=
  fun _ _ _ => ⟨lineSeen_store, fun _ _ _ => lineSeen_buffer, fun _ _ => readPoisoned_iff, fun _ _ => readMends_iff,
    fun _ _ _ => mem_poisonAfterRead⟩

end Sys2Proof.Proofs
end

section
/-! SUPPORT. The statement on local WRITEs: the refusals of the routing, what the Local Write Buffer receives, and the RECALL of a
lent line; at LOCAL_WRITE_TAKEN and at a try alike. -/

-- Theorems are elaborated one after another: many at once take more threads than the memory limit allows.
set_option Elab.async false

namespace Sys2Proof.Proofs

open Sys2Proof.Machine Sys2Proof.Laws

/-! ### The Local Write Buffer receives a write (R144) -/

theorem canMerge_iff {s : State} {line : LineIndex} {confirm : Bool} : canMerge s line confirm = true ↔
    confirm = false ∧ ∃ older b newer, s.lwb = older ++ b :: newer ∧ b.line = line ∧ (∀ c ∈ newer, c.line ≠ line) ∧
      b.confirm = none ∧ b.draining = false := by
  have hnewest : canMerge s line confirm = true ↔ ∃ b, (s.lwb.filter fun b => b.line == line).getLast? = some b ∧
      confirm = false ∧ b.confirm = none ∧ b.draining = false := by
    unfold canMerge
    split
    · next b hlast => simp [hlast, and_assoc]
    · next hlast => simp [hlast]
  rw [hnewest]
  simp only [newest_iff]
  constructor
  · rintro ⟨b, ⟨older, newer, hlwb, hline, hnewer⟩, hposted, hconfirm, hdraining⟩
    exact ⟨hposted, older, b, newer, hlwb, hline, hnewer, hconfirm, hdraining⟩
  · rintro ⟨hposted, older, b, newer, hlwb, hline, hnewer, hconfirm, hdraining⟩
    exact ⟨b, ⟨older, newer, hlwb, hline, hnewer⟩, hposted, hconfirm, hdraining⟩

theorem lwbReceives_iff {s : State} {line : LineIndex} {confirm : Bool} :
    lwbReceives s line confirm = true ↔ canMerge s line confirm = true ∨ s.lwb.length < 4 := by
  rw [lwbReceives, Bool.or_eq_true, decide_eq_true_iff, Config.lwbCapacity]

/-- A posted write joins the newest entry for its line. -/
theorem lwbTake_merges {s : State} {line : LineIndex} {older newer : List LwbEntry} {b : LwbEntry}
    (hmerge : canMerge s line false = true) (hlwb : s.lwb = older ++ b :: newer) (hline : b.line = line)
    (hnewer : ∀ c ∈ newer, c.line ≠ line) (mask : Mask) (data : Line) :
    lwbTake line mask data none s = { s with lwb := older ++ mergeInto mask data b :: newer } := by
  rw [lwbTake, Option.isSome_none, if_pos hmerge, hlwb, updateNewest_eq line _ b newer hline hnewer]

/-- A write that cannot merge becomes the newest entry. -/
theorem lwbTake_appends {s : State} {line : LineIndex} {confirm : Option HostTag}
    (hmerge : canMerge s line confirm.isSome = false) (mask : Mask) (data : Line) : lwbTake line mask data confirm s =
      { s with
        lwb := s.lwb ++ [{ line := line, mask := mask, data := data, confirm := confirm, draining := false }] } :=
  if_neg (ne_true_of_eq_false hmerge)

/-- What a buffer entry holds of the request's tag: a confirmed write is answered at its drain (R163). -/
def confirmTag (tag : HostTag) (confirm : Bool) : Option HostTag := if confirm then some tag else none

theorem confirmTag_isSome (tag : HostTag) (confirm : Bool) : (confirmTag tag confirm).isSome = confirm := by
  cases confirm <;> rfl

/-! ### A lent line is recalled (R123, R124) -/

theorem lltRecallForWrite_unlent {s : State} {line : LineIndex} (h : lltFind line s = none) : lltRecallForWrite line s = s := by
  simp only [lltRecallForWrite, h]

theorem lltRecallForWrite_lent {s : State} {line : LineIndex} {e : LentLine} (h : lltFind line s = some e) :
    lltRecallForWrite line s = lltRemove line (rpqAppend (recallOf s e) true s) := by
  simp only [lltRecallForWrite, h]

theorem freePlaces_pos_iff {s : State} : 0 < freePlaces s ↔ s.rpq.length + s.reserve < 12 := by
  rw [freePlaces, Config.rpqPlaces, Nat.sub_sub, Nat.sub_pos_iff_lt]

theorem canTakeWrite_iff {s : State} {line : LineIndex} {confirm : Bool} : canTakeWrite s line confirm = true ↔
    lwbReceives s line confirm = true ∧ ∀ e, lltFind line s = some e → s.rpq.length + s.reserve < 12 := by
  rw [canTakeWrite, Bool.and_eq_true, Bool.or_eq_true, decide_eq_true_iff, freePlaces_pos_iff]
  cases lltFind line s <;> simp

/-! ### A local WRITE taken (R123, R163) -/

/-- What the host sees of a WRITE taken: a confirmed one is started, a posted one answered. -/
def writeSignalled (tag : HostTag) (confirm : Bool) (s : State) : State :=
  if confirm then markStarted tag s else respond (.done tag false) s

section
variable {s : State} {line : LineIndex} {mask : Mask} {data : Line} {confirm : Bool} {tag : HostTag} {lwb : List LwbEntry}
  (hbuf : lwbTake line mask data (confirmTag tag confirm) s = { s with lwb := lwb })
include hbuf

/-- Once the buffer holds the write, what remains is the RECALL and the answer. -/
theorem takeLocalWrite_buffered :
    takeLocalWrite tag line mask data confirm s = writeSignalled tag confirm (lltRecallForWrite line { s with lwb := lwb }) := by
  rw [← hbuf]
  rfl

theorem takeLocalWrite_unlent (h : lltFind line s = none) :
    takeLocalWrite tag line mask data confirm s = { writeSignalled tag confirm s with lwb := lwb } := by
  rw [takeLocalWrite_buffered hbuf, lltRecallForWrite_unlent (s := { s with lwb := lwb }) h]
  cases confirm <;> rfl

theorem takeLocalWrite_lent {e : LentLine} (h : lltFind line s = some e) : takeLocalWrite tag line mask data confirm s =
    { writeSignalled tag confirm s with
      lwb := lwb
      rpq := s.rpq ++ [{ frame := .recall s.number e.line e.sharers, writeCaused := true, covered := false }]
      spoilCount := if s.rpq.isEmpty then 0 else s.spoilCount
      llt := s.llt.filter fun d => d.line != line } := by
  rw [takeLocalWrite_buffered hbuf, lltRecallForWrite_lent (s := { s with lwb := lwb }) h]
  cases confirm <;> rfl

end

/-! ### The start of a local WRITE (R158, R159, R163) -/

theorem isRemote_localWrite {addr : SpanAddr} {s : State} (h : addrStation addr = s.number) (mask : Mask) (data : Line)
    (confirm : Bool) : isRemote s (.write addr mask data confirm) = false := bne_eq_false_iff_eq.2 h

theorem isLocalWrite_write {addr : SpanAddr} {s : State} (h : addrStation addr = s.number) (mask : Mask) (data : Line)
    (confirm : Bool) : isLocalWrite s (.write addr mask data confirm) = true :=
  congrArg not (isRemote_localWrite h mask data confirm)

theorem tryStart_localWrite {addr : SpanAddr} {s : State} (h : addrStation addr = s.number) (tag : HostTag) (mask : Mask)
    (data : Line) (confirm : Bool) : tryStart s { tag := tag, req := .write addr mask data confirm, started := false } =
      startLocalWrite tag addr mask data confirm s :=
  if_neg (ne_true_of_eq_false (isRemote_localWrite h mask data confirm))

theorem localRefusal_eq_none {s : State} {line : LineIndex} (hinit : s.station ≠ .init)
    (hin : line.toNat < installedLines s.sizeCode) : localRefusal s line = none := by
  rw [localRefusal, if_neg hinit, if_pos (lineInstalled_iff.2 hin)]

section
variable {s : State} {addr : SpanAddr} {confirm : Bool} (tag : HostTag) (mask : Mask) (data : Line)

theorem startLocalWrite_refused {code : HostCode} (h : localRefusal s (addrLine addr) = some code) :
    startLocalWrite tag addr mask data confirm s = some (respond (.fault tag code) s) := by
  simp only [startLocalWrite, h]

theorem startLocalWrite_taken (hroute : localRefusal s (addrLine addr) = none)
    (h : canTakeWrite s (addrLine addr) confirm = true) :
    startLocalWrite tag addr mask data confirm s = some (takeLocalWrite tag (addrLine addr) mask data confirm s) := by
  simp only [startLocalWrite, hroute, h, if_true]

theorem startLocalWrite_waits (hroute : localRefusal s (addrLine addr) = none)
    (h : ¬canTakeWrite s (addrLine addr) confirm = true) : startLocalWrite tag addr mask data confirm s = none := by
  simp only [startLocalWrite, hroute, if_neg h]

end

/-- Settles O20: the routing refuses, the buffer or the Reply Queue has it wait, and a write taken leaves the buffer as the merge
or the append does, with the RECALL of its line when that is lent. -/
theorem localWriteTaking : Obligations.LocalWriteTaking := by
  refine ⟨fun s line confirm => canMerge_iff, ?_⟩
  intro tag addr mask data confirm s h hlocal starts waits
  have htry := tryStart_localWrite hlocal tag mask data confirm
  have hsort := isLocalWrite_write hlocal mask data confirm
  have start {X : State} (hX : startLocalWrite tag addr mask data confirm s = some X) : starts X :=
    starts_named (sort := isLocalWrite) rfl h hsort (htry.trans hX)
  refine ⟨fun hinit => start (startLocalWrite_refused tag mask data (localRefusal_eq_some_iff.2 (.inl ⟨hinit, rfl⟩))),
    fun hinit hout =>
      start (startLocalWrite_refused tag mask data (localRefusal_eq_some_iff.2 (.inr ⟨hinit, hout, rfl⟩))),
    fun hinit hin => ?_⟩
  have hroute := localRefusal_eq_none hinit hin
  have wait (hno : ¬canTakeWrite s (addrLine addr) confirm = true) : waits :=
    waits_named (sort := isLocalWrite) rfl h hsort (htry.trans (startLocalWrite_waits tag mask data hroute hno))
  refine ⟨fun hmerge hfull => wait fun htake => ?_, fun e hlent hplaces => wait fun htake => ?_, fun lwb hcase => ?_⟩
  · obtain ⟨hreceives, -⟩ := canTakeWrite_iff.1 htake
    rcases lwbReceives_iff.1 hreceives with hyes | hroom
    · exact ne_true_of_eq_false hmerge hyes
    · exact Nat.not_lt.2 hfull hroom
  · obtain ⟨-, hfree⟩ := canTakeWrite_iff.1 htake
    exact Nat.not_lt.2 hplaces (hfree e hlent)
  have hbuf : lwbReceives s (addrLine addr) confirm = true ∧
      lwbTake (addrLine addr) mask data (confirmTag tag confirm) s = { s with lwb := lwb } := by
    rcases hcase with ⟨older, b, newer, hlwb, hline, hnewer, rfl, hconfirm, hdraining, rfl⟩ | ⟨hmerge, hroom, rfl⟩
    · have hmerge := canMerge_iff.2 ⟨rfl, older, b, newer, hlwb, hline, hnewer, hconfirm, hdraining⟩
      exact ⟨lwbReceives_iff.2 (.inl hmerge), lwbTake_merges hmerge hlwb hline hnewer mask data⟩
    · exact ⟨lwbReceives_iff.2 (.inr hroom), lwbTake_appends ((confirmTag_isSome tag confirm).symm ▸ hmerge) mask data⟩
  obtain ⟨hreceives, htaken⟩ := hbuf
  have take (hfree : ∀ e, lltFind (addrLine addr) s = some e → s.rpq.length + s.reserve < 12) :=
    startLocalWrite_taken tag mask data hroute (canTakeWrite_iff.2 ⟨hreceives, hfree⟩)
  constructor
  · intro hunlent
    have hfree (e) (hlent : lltFind (addrLine addr) s = some e) : s.rpq.length + s.reserve < 12 :=
      nomatch hunlent.symm.trans hlent
    exact start ((take hfree).trans (congrArg some (takeLocalWrite_unlent htaken hunlent)))
  · intro e hlent hroom
    exact start ((take fun _ _ => hroom).trans (congrArg some (takeLocalWrite_lent htaken hlent)))

end Sys2Proof.Proofs
end

section
/-! SUPPORT. The statements on the store: the canonical form that every step keeps, the rule of a line write, and the completions of
a local READ and of a drain. -/

-- Theorems are elaborated one after another: many at once take more threads than the memory limit allows.
set_option Elab.async false

namespace Sys2Proof.Proofs

open Sys2Proof.Machine Sys2Proof.Safety Sys2Proof.Laws

/-! ### The canonical form of the store -/

/-- Settles O9: a fill and a line write keep the canonical form, a pin reset leaves the store as it is, and nothing else changes
more than the list of poisoned words. -/
theorem storeStaysCanonical : Obligations.StoreStaysCanonical :=
  fun _ _ hstore h => step_keeps (P := StoreOk) (hpending := fun _ _ => StoreOk_of rfl rfl) (hevolves := fun _ _ k => k.store)
    (hreset := fun _ => pinReset_store) (hrelease := fun _ _ _ => StoreOk_of rfl rfl) (hfilled := fun _ => StoreOk_filled)
    (hwritten := fun _ line mask data e hs => StoreOk_lineWrite hs line mask data e) h hstore

/-! ### The rule of a line write (R136, R138, R139) -/

/-- A mask names no byte of a word when the word's part of it is zero. -/
theorem wordMask_eq_zero_iff {mask : Mask} {w : Fin 8} :
    wordMask mask w = 0#8 ↔ ∀ k : Fin 8, ¬mask.getLsbD (8 * w.val + k.val) = true := by
  constructor
  · intro h k
    simp [← wordMask_getLsbD, h]
  · intro h
    refine BitVec.eq_of_getLsbD_eq fun i hi => ?_
    exact (wordMask_getLsbD mask w ⟨i, hi⟩).trans ((Bool.eq_false_iff.2 (h ⟨i, hi⟩)).trans BitVec.getLsbD_zero.symm)

/-- A mask covers a word in part when it names some byte of it and leaves some out. -/
theorem partWord_iff {mask : Mask} {w : Fin 8} : partWord mask w = true ↔
    (∃ k : Fin 8, mask.getLsbD (8 * w.val + k.val) = true) ∧ ∃ k : Fin 8, ¬mask.getLsbD (8 * w.val + k.val) = true := by
  rw [partWord, Bool.and_eq_true, bne_iff_ne, Ne, wordMask_eq_zero_iff, Bool.not_eq_true', ← Bool.not_eq_true, coversWord_iff,
    not_forall_not, not_forall]

/-- The words that a line write reads: those that its mask covers in part. -/
def partWords (mask : Mask) : List (Fin 8) := allWords.filter (partWord mask)

theorem mem_partWords {mask : Mask} {w : Fin 8} : w ∈ partWords mask ↔
    (∃ k : Fin 8, mask.getLsbD (8 * w.val + k.val) = true) ∧ ∃ k : Fin 8, ¬mask.getLsbD (8 * w.val + k.val) = true := by
  simp [partWords, allWords, partWord_iff]

/-- The numbers of the words that a mask covers whole. -/
def repairedWords (line : LineIndex) (mask : Mask) : List Nat := (allWords.filter (coversWord mask)).map (wordNumber line)

theorem not_mem_repairedWords {line : LineIndex} {mask : Mask} {n : Nat} : n ∉ repairedWords line mask ↔
    ∀ x : Fin 8, (∀ k : Fin 8, mask.getLsbD (8 * x.val + k.val) = true) → n ≠ wordNumber line x := by
  simp [repairedWords, allWords, coversWord_iff, eq_comm (a := n)]

/-- A word that reads as poisoned: poisoned before, or beyond correction now. -/
def BadWord (s : State) (line : LineIndex) (e : WordErrors) (w : Fin 8) : Prop :=
  wordNumber line w ∈ s.poison ∨ e.multi.getLsbD w.val = true

section
variable {s : State} {line : LineIndex} {mask : Mask} {e : WordErrors}

theorem any_poisoned_iff {ws : List (Fin 8)} :
    (ws.any fun w => judgeWord s line e w == .poisoned) = true ↔ ∃ x ∈ ws, BadWord s line e x := by
  simp only [List.any_eq_true, beq_iff_eq, judgeWord_poisoned, BadWord]

/-- A line write is withheld when a word that it covers in part is poisoned. -/
theorem lineWrite_withheld {x : Fin 8} (hpart : x ∈ partWords mask) (hbad : BadWord s line e x) (data : Line) :
    lineWrite s line mask data e =
      { mem := s.mem, poison := poisonAfterRead s line e (partWords mask), performed := false,
        mended := readMends s line e (partWords mask) } :=
  if_pos (any_poisoned_iff.2 ⟨x, hpart, hbad⟩)

theorem lineWrite_performed (h : ∀ x ∈ partWords mask, ¬BadWord s line e x) (data : Line) :
    lineWrite s line mask data e =
      { mem := writeLine s.mem line mask data
        poison := (poisonAfterRead s line e (partWords mask)).filter fun n => !(repairedWords line mask).contains n
        performed := true, mended := readMends s line e (partWords mask) } :=
  if_neg fun hany =>
    let ⟨x, hpart, hbad⟩ := any_poisoned_iff.1 hany
    h x hpart hbad

/-- Performed or withheld, the write mends what it reads. -/
theorem lineWrite_mended (data : Line) : (lineWrite s line mask data e).mended = readMends s line e (partWords mask) := by
  unfold lineWrite
  dsimp only
  split <;> rfl

/-- The words found poisoned by a read are poisoned after it, and no others are but those that were. -/
theorem mem_poisonAfterRead_bad {ws : List (Fin 8)} {n : Nat} : n ∈ poisonAfterRead s line e ws ↔
    n ∈ s.poison ∨ ∃ x ∈ ws, BadWord s line e x ∧ n = wordNumber line x := by
  rw [mem_poisonAfterRead]
  constructor
  · exact Or.imp_right fun ⟨x, hx, hmulti, hn⟩ => ⟨x, hx, .inr hmulti, hn⟩
  · rintro (hold | ⟨x, hx, hpoisoned | hmulti, rfl⟩)
    · exact .inl hold
    · exact .inl hpoisoned
    · exact .inr ⟨x, hx, hmulti, rfl⟩

/-- A read that finds no poisoned word leaves the list as it was. -/
theorem mem_poisonAfterRead_sound {ws : List (Fin 8)} {n : Nat} (h : ∀ x ∈ ws, ¬BadWord s line e x) :
    n ∈ poisonAfterRead s line e ws ↔ n ∈ s.poison := by
  rw [mem_poisonAfterRead_bad, or_iff_left]
  rintro ⟨x, hx, hbad, -⟩
  exact h x hx hbad

theorem readMends_iff_sound {ws : List (Fin 8)} : readMends s line e ws = true ↔
    ∃ x ∈ ws, ¬BadWord s line e x ∧ e.single.getLsbD x.val = true := by
  simp only [readMends_iff, BadWord, not_or, Bool.not_eq_true, and_assoc]

end

/-- A byte that the mask names is stored. -/
theorem memRead_writeLine_masked {m : Memory} (hm : Memory.wf m = true) {mask : Mask} {i : Fin 64}
    (hi : mask.getLsbD i.val = true) (line : LineIndex) (data : Line) :
    memRead (writeLine m line mask data) (lineAddr line i.val) = data[i] := by
  have hline : lineAddr line i.val / 64 = line.toNat := by unfold lineAddr; omega
  have hbyte : lineAddr line i.val % 64 = i.val := by unfold lineAddr; omega
  simp [memRead_writeLine _ _ _ _ _ hm, hline, hbyte, hi]

/-- A byte at no address that the mask names stays. -/
theorem memRead_writeLine_unmasked {m : Memory} (hm : Memory.wf m = true) {line : LineIndex} {mask : Mask} {a : Nat}
    (ha : ∀ i : Fin 64, mask.getLsbD i.val = true → a ≠ lineAddr line i.val) (data : Line) :
    memRead (writeLine m line mask data) a = memRead m a := by
  rw [memRead_writeLine _ _ _ _ _ hm, if_neg]
  rintro ⟨hline, hnamed⟩
  exact ha ⟨a % 64, Nat.mod_lt _ (by omega)⟩ hnamed (by unfold lineAddr; dsimp only; omega)

/-- Settles O55: a poisoned word covered in part decides between the write's two cases, and each is read off its bytes and words. -/
theorem lineWriteRule : Obligations.LineWriteRule := by
  intro s line mask data e hm named part bad w
  have hbad : bad = BadWord s line e := rfl
  have hpart (x : Fin 8) : x ∈ partWords mask ↔ part x := mem_partWords
  refine ⟨fun ⟨x, hx, hxbad⟩ => ?_, fun hsound => ?_, ?_⟩
  · have hw : w = _ := lineWrite_withheld ((hpart x).2 hx) hxbad data
    rw [hw]
    refine ⟨rfl, rfl, fun n => ?_⟩
    simp only [mem_poisonAfterRead_bad, hpart, hbad]
  · have hsound' (x : Fin 8) (hx : x ∈ partWords mask) : ¬BadWord s line e x := hsound x ((hpart x).1 hx)
    have hw : w = _ := lineWrite_performed hsound' data
    rw [hw]
    refine ⟨rfl, fun i hi => memRead_writeLine_masked hm hi line data, fun a ha => memRead_writeLine_unmasked hm ha data,
      fun n => ?_⟩
    rw [List.mem_filter, mem_poisonAfterRead_sound hsound', Bool.not_eq_true', ← Bool.not_eq_true, List.contains_iff_mem,
      not_mem_repairedWords]
  · rw [lineWrite_mended, readMends_iff_sound]
    simp only [hpart, hbad]

/-! ### The completion of a local READ (R137, R147) -/

section
variable {tag : HostTag} {line : LineIndex} {offset : Nat} {size : ReadSize} {e : WordErrors} {s : State}

theorem exec_localReadComplete (hp : s.pinHeld = false) (hstore : s.storeOp = some (.localRead tag line offset size)) :
    exec (.localReadComplete e) s = .next (settle s (localReadEnds tag line offset size e s)) := by
  change execLocalReadComplete e s = _
  rw [execLocalReadComplete, event_released hp]
  simp only [hstore]

/-- What a local READ has done at its completion before it is answered: the words found poisoned stay so, the store is free, and a
word corrected is reported. -/
def localReadDone (tag : HostTag) (line : LineIndex) (ws : List (Fin 8)) (e : WordErrors) (s : State) : State :=
  reportMended (readMends s line e ws) none line (some tag) { s with poison := poisonAfterRead s line e ws, storeOp := none }

theorem localReadEnds_good (h : readPoisoned s line e (readWords offset size) = false) :
    localReadEnds tag line offset size e s =
      respond (.data tag (readBytes (lineSeen s line) offset size) (readMends s line e (readWords offset size)))
        (localReadDone tag line (readWords offset size) e s) :=
  if_neg (ne_true_of_eq_false h)

theorem localReadEnds_poisoned (h : readPoisoned s line e (readWords offset size) = true) :
    localReadEnds tag line offset size e s =
      respond (.fault tag .poison)
        (reportPoison none line (some tag) (localReadDone tag line (readWords offset size) e s)) :=
  if_pos h

end

/-- Settles O56: the words that the size asks for are judged, and the buffer's bytes are sent or the poison reported. -/
theorem localReadCompletes : Obligations.LocalReadCompletes := by
  intro e tag line offset size s hp hstore ws mended freed u
  have hws : readWords offset size = ws := by cases size <;> rfl
  have hdone : localReadDone tag line (readWords offset size) e s = u := by rw [hws]; rfl
  rw [exec_localReadComplete hp hstore]
  refine ⟨fun hgood => ?_, fun hpoisoned => ?_⟩
  · rw [localReadEnds_good (hws ▸ hgood), hdone, hws]
    cases size <;> rfl
  · rw [localReadEnds_poisoned (hws ▸ hpoisoned), hdone]
    rfl

/-! ### The completion of a drain (R137, R145) -/

/-- What a drain has done at its completion before the host is told: the line written or not, the entry gone, the store free, and a
word corrected reported. -/
def drainDone (b : LwbEntry) (rest : List LwbEntry) (e : WordErrors) (s : State) : State :=
  let w := lineWrite s b.line b.mask b.data e
  reportMended w.mended none b.line none { s with mem := w.mem, poison := w.poison, storeOp := none, lwb := rest }

theorem exec_drainComplete {e : WordErrors} {b : LwbEntry} {rest : List LwbEntry} {s : State} (hp : s.pinHeld = false)
    (hstore : s.storeOp = some .drain) (hlwb : s.lwb = b :: rest) : exec (.drainComplete e) s =
      .next (settle s (drainAnswer b (lineWrite s b.line b.mask b.data e).performed (drainDone b rest e s))) := by
  change execDrainComplete e s = _
  rw [execDrainComplete, event_released hp]
  simp only [hstore, hlwb]
  rfl

section
variable {b : LwbEntry} {tag : HostTag} (s : State)

theorem drainAnswer_posted (h : b.confirm = none) : drainAnswer b true s = s := by
  simp only [drainAnswer, h]

theorem drainAnswer_confirmed (h : b.confirm = some tag) : drainAnswer b true s = respond (.done tag false) s := by
  simp only [drainAnswer, h]

theorem drainAnswer_confirmed_withheld (h : b.confirm = some tag) :
    drainAnswer b false s = respond (.fault tag .poison) (reportPoison none b.line (some tag) s) := by
  simp only [drainAnswer, h]

theorem drainAnswer_posted_withheld (h : b.confirm = none) :
    drainAnswer b false s = { reportPoison none b.line none s with lostWrite := true } := by
  simp only [drainAnswer, h]

end

/-- Settles O57: the write is performed or withheld, and the host hears of it as the entry is confirmed or posted. -/
theorem drainCompletes : Obligations.DrainCompletes := by
  intro e b rest s hp hstore hlwb w left u
  have ends {performed : Bool} {t : State} (hw : w.performed = performed) (h : drainAnswer b performed u = t) :
      exec (.drainComplete e) s = .next (settle s t) := by
    rw [exec_drainComplete hp hstore hlwb, hw, ← h]
    rfl
  exact ⟨fun hw hposted => ends hw (drainAnswer_posted u hposted),
    fun _ hw hconfirmed => ends hw (drainAnswer_confirmed u hconfirmed),
    fun _ hw hconfirmed => ends hw (drainAnswer_confirmed_withheld u hconfirmed),
    fun hw hposted => ends hw (drainAnswer_posted_withheld u hposted)⟩

end Sys2Proof.Proofs
end

section
/-! SUPPORT. The statement on the store arbiter: which READ the Host Link Unit offers, which client of a free store is granted it, and
the turn record that the grant leaves; at STORE_GRANT and within another event alike. -/

-- Theorems are elaborated one after another: many at once take more threads than the memory limit allows.
set_option Elab.async false

namespace Sys2Proof.Proofs

open Sys2Proof.Machine Sys2Proof.Safety Sys2Proof.Laws

/-! ### The READ offered to the store (R158, R159) -/

section
variable {α : Type} {q p : α → Bool} {l : List α} {a : α}

theorem not_both_iff {x : α} : ¬(q x && p x) = true ↔ (q x = true → ¬p x = true) := by
  rw [Bool.and_eq_true, not_and]

/-- A search that prefers the items with p among those with q finds an item with p as the first with both. -/
theorem find_or_find_preferred (hp : p a = true) : (l.find? fun x => q x && p x).or (l.find? q) = some a ↔
    ∃ earlier later, l = earlier ++ a :: later ∧ q a = true ∧ ∀ x ∈ earlier, q x = true → ¬p x = true := by
  have hfirst : (l.find? fun x => q x && p x).or (l.find? q) = some a ↔ (l.find? fun x => q x && p x) = some a := by
    rw [Option.or_eq_some_iff, or_iff_left]
    rintro ⟨hnone, hfound⟩
    have hq := List.find?_some hfound
    exact not_both_iff.1 (List.find?_eq_none.1 hnone a (List.mem_of_find?_eq_some hfound)) hq hp
  simp only [hfirst, List.find?_eq_some_iff_append, Bool.not_eq_true', ← Bool.not_eq_true, not_both_iff, hp, Bool.and_true]
  exact ⟨fun ⟨hq, earlier, later, hl, h⟩ => ⟨earlier, later, hl, hq, h⟩,
    fun ⟨earlier, later, hl, hq, h⟩ => ⟨hq, earlier, later, hl, h⟩⟩

/-- It finds an item without p as the first with q, where no item has both. -/
theorem find_or_find_other (hp : ¬p a = true) : (l.find? fun x => q x && p x).or (l.find? q) = some a ↔
    ∃ earlier later, l = earlier ++ a :: later ∧ q a = true ∧
      (∀ x ∈ earlier, ¬q x = true) ∧ ∀ x ∈ later, q x = true → ¬p x = true := by
  have hsecond : (l.find? fun x => q x && p x).or (l.find? q) = some a ↔
      (∀ x ∈ l, q x = true → ¬p x = true) ∧ l.find? q = some a := by
    have hboth : (l.find? fun x => q x && p x) ≠ some a := fun h => by
      have hfound := List.find?_some h
      exact hp (Bool.and_eq_true_iff.1 hfound).2
    rw [Option.or_eq_some_iff, or_iff_right hboth, List.find?_eq_none]
    simp only [not_both_iff]
  rw [hsecond, List.find?_eq_some_iff_append]
  simp only [Bool.not_eq_true', ← Bool.not_eq_true]
  constructor
  · rintro ⟨hnone, hq, earlier, later, rfl, hfirst⟩
    exact ⟨earlier, later, rfl, hq, hfirst, fun x hx => hnone x (by simp [hx])⟩
  · rintro ⟨earlier, later, rfl, hq, hfirst, hlater⟩
    refine ⟨List.forall_mem_append.2 ⟨fun x hx hqx => absurd hqx (hfirst x hx), List.forall_mem_cons.2 ⟨fun _ => hp, hlater⟩⟩,
      hq, earlier, later, rfl, hfirst⟩

/-- What the search finds, in both cases. -/
theorem find_or_find_iff : (l.find? fun x => q x && p x).or (l.find? q) = some a ↔
    ∃ earlier later, l = earlier ++ a :: later ∧ q a = true ∧
      (p a = true → ∀ x ∈ earlier, q x = true → ¬p x = true) ∧
      (¬p a = true → (∀ x ∈ earlier, ¬q x = true) ∧ ∀ x ∈ later, q x = true → ¬p x = true) := by
  by_cases hp : p a = true
  · rw [find_or_find_preferred hp]
    simp only [hp, forall_true_left, not_true, false_imp_iff, and_true]
  · rw [find_or_find_other hp]
    simp only [hp, Bool.false_eq_true, not_false_iff, forall_true_left, false_imp_iff, true_and]

end

theorem offeredRead_eq (s : State) : offeredRead s =
    ((eligibleNow s).find? fun it => isLocalRead s it.req && isHigh it.req).or
      ((eligibleNow s).find? fun it => isLocalRead s it.req) := by
  simp only [offeredRead, List.find?_filter, List.head?_filter, Bool.decide_and, Bool.decide_eq_true]

theorem isLocalRead_iff {s : State} {req : Request} : isLocalRead s req = true ↔
    ∃ addr size cacheable high, req = .read addr size cacheable high ∧ addrStation addr = s.number := by
  cases req <;> simp [isLocalRead, isRead, isRemote, requestLine]

theorem isHigh_iff {req : Request} : isHigh req = true ↔ ∃ addr size cacheable, req = .read addr size cacheable true := by
  cases req <;> simp [isHigh]

theorem localRefusal_eq_none_iff {s : State} {line : LineIndex} :
    localRefusal s line = none ↔ s.station ≠ .init ∧ line.toNat < installedLines s.sizeCode := by
  refine ⟨fun h => ?_, fun ⟨hinit, hin⟩ => localRefusal_eq_none hinit hin⟩
  have hinit : s.station ≠ .init := fun hinit => nomatch h.symm.trans (localRefusal_eq_some_iff.2 (.inl ⟨hinit, rfl⟩))
  refine ⟨hinit, Nat.lt_of_not_le fun hout => ?_⟩
  exact nomatch h.symm.trans (localRefusal_eq_some_iff.2 (.inr ⟨hinit, hout, rfl⟩))

/-- The READ that waits for the store is the offered one, when its routing serves it. -/
theorem waitingRead_eq_some_iff {s : State} {it : HrqItem} :
    waitingRead s = some it ↔ offeredRead s = some it ∧ localRefusal s (requestIndex it.req) = none := by
  unfold waitingRead
  cases hoffer : offeredRead s with
  | none => simp
  | some x =>
    by_cases hserved : localRefusal s (requestIndex x.req) = none
    · simp only [hserved, Option.isNone_none, if_true, Option.some.injEq]
      exact ⟨fun h => ⟨h, h ▸ hserved⟩, And.left⟩
    · simp only [Option.isNone_iff_eq_none, hserved, if_false, Option.some.injEq]
      exact iff_of_false nofun fun ⟨h, hnone⟩ => hserved (h ▸ hnone)

/-! ### The local side's client (R141, R145, R162) -/

section
variable {s : State}

/-- The local side has no client when neither a READ nor a drain waits. -/
theorem grantLocal_eq_none (h : ¬(waitingRead s ≠ none ∨ drainWaits s = true)) : grantLocal s = none := by
  obtain ⟨hread, hdrain⟩ := not_or.1 h
  simp only [grantLocal, not_ne_iff.1 hread, if_neg hdrain]

/-- A READ goes ahead of a drain unless the buffer is full. -/
theorem grantLocal_read {it : HrqItem} (hread : waitingRead s = some it) (h : ¬(drainWaits s = true ∧ s.lwb.length = 4)) :
    grantLocal s = some (grantRead it s) := by
  simp only [grantLocal, hread]
  exact if_neg fun hfull => h (by simpa [Config.lwbCapacity] using hfull)

theorem grantLocal_drain (hdrain : drainWaits s = true) (h : waitingRead s = none ∨ s.lwb.length = 4) :
    grantLocal s = some (grantDrain s) := by
  cases hread : waitingRead s with
  | none => simp only [grantLocal, hread, hdrain, if_true]
  | some it =>
    have hfull : s.lwb.length = 4 := h.resolve_left (by rw [hread]; nofun)
    simp [grantLocal, hread, hdrain, hfull, Config.lwbCapacity]

/-- The grant of a local READ is its start. -/
theorem grantRead_read {it : HrqItem} {addr : SpanAddr} {size : ReadSize} {cacheable high : Bool}
    (h : it.req = .read addr size cacheable high) : grantRead it s = { markStarted it.tag s with
      storeOp := some (.localRead it.tag (addrLine addr) (addrOffset addr) size), turn := .serveEngine } := by
  simp only [grantRead, h]
  rfl

/-- The grant of a drain marks the oldest entry. -/
theorem grantDrain_cons {b : LwbEntry} {rest : List LwbEntry} (h : s.lwb = b :: rest) : grantDrain s =
    { s with storeOp := some .drain, turn := .serveEngine, lwb := { b with draining := true } :: rest } := by
  simp only [grantDrain, h]

theorem drainWaits_nonempty (h : drainWaits s = true) : ∃ b rest, s.lwb = b :: rest := by
  refine List.exists_cons_of_ne_nil fun hempty => ?_
  simp [drainWaits, hempty] at h

/-! ### The grant of a free store (R141, R142) -/

theorem grant_busy (h : s.storeOp ≠ none) : grant s = none :=
  if_pos (Option.isSome_iff_ne_none.2 h)

section
variable (hfree : s.storeOp = none)
include hfree

theorem grant_fill (hfill : fillWaits s = true) : grant s = some { s with storeOp := some .fill } := by
  simp only [grant, hfree, hfill, Option.isSome_none, Bool.false_eq_true, if_false, if_true]

/-- Without a fill the turn record decides between the sides. -/
theorem grant_sides (hfill : fillWaits s = false) : grant s =
    if (serveWaits s && s.turn == .serveEngine) = true then some (grantServe s)
    else (grantLocal s).or (if serveWaits s then some (grantServe s) else none) := by
  simp only [grant, hfree, hfill, Option.isSome_none, Bool.false_eq_true, if_false]
  cases grantLocal s <;> rfl

/-- The Serve Engine is granted the store at its turn, and when nothing of the local side waits. -/
theorem grant_serve (hfill : fillWaits s = false) (hserve : s.serveOp ≠ none)
    (h : s.turn = .serveEngine ∨ grantLocal s = none) : grant s = some (grantServe s) := by
  have hwaits : serveWaits s = true := Option.isSome_iff_ne_none.2 hserve
  rw [grant_sides hfree hfill]
  rcases h with hturn | hnone
  · simp [hwaits, hturn]
  · simp [hwaits, hnone]

/-- The local side is granted the store at its turn, and when the Serve Engine does not wait. -/
theorem grant_local {t : State} (hfill : fillWaits s = false) (h : s.serveOp = none ∨ s.turn = .localSide)
    (hlocal : grantLocal s = some t) : grant s = some t := by
  rw [grant_sides hfree hfill, hlocal]
  rcases h with hserve | hturn
  · simp [serveWaits, hserve]
  · simp [hturn]

theorem grant_nothing (hfill : fillWaits s = false) (hserve : s.serveOp = none) (hlocal : grantLocal s = none) :
    grant s = none := by
  simp [grant_sides hfree hfill, serveWaits, hserve, hlocal]

end

/-! ### The command STORE_GRANT (R142) -/

theorem exec_storeGrant_some {t : State} (hp : s.pinHeld = false) (h : grant s = some t) :
    grant s = some t ∧ exec .storeGrant s = .next (settle s t) :=
  ⟨h, by rw [exec_storeGrant hp, h, Option.getD_some]⟩

theorem exec_storeGrant_none (hp : s.pinHeld = false) (h : grant s = none) :
    grant s = none ∧ exec .storeGrant s = .next (settle s s) :=
  ⟨h, by rw [exec_storeGrant hp, h, Option.getD_none]⟩

end

/-- Settles O52: the offer is a search of the eligible requests, and the grant goes to the fill, else to the side that the turn
record names or that waits alone. -/
theorem storeGranting : Obligations.StoreGranting := by
  refine ⟨fun s it => ⟨?_, fun addr size cacheable high hreq => ?_⟩,
    fun s hp hbusy => exec_storeGrant_none hp (grant_busy hbusy), ?_⟩
  · rw [offeredRead_eq, find_or_find_iff]
    simp only [isLocalRead_iff, isHigh_iff]
  · rw [waitingRead_eq_some_iff, localRefusal_eq_none_iff, hreq]
    rfl
  · intro s hp hfree grants localWaits drained
    refine ⟨fun hfill => exec_storeGrant_some hp (grant_fill hfree hfill),
      fun hfill hserve h => exec_storeGrant_some hp (grant_serve hfree hfill hserve (h.imp_right grantLocal_eq_none)),
      fun hfill hside it addr size c high hread hreq hroom => ?_, fun hfill hside hdrain h => ?_,
      fun hfill hserve hno => exec_storeGrant_none hp (grant_nothing hfree hfill hserve (grantLocal_eq_none hno))⟩
    · have hgrant := grant_local hfree hfill hside (grantLocal_read hread hroom)
      rw [grantRead_read hreq] at hgrant
      exact exec_storeGrant_some hp hgrant
    · obtain ⟨b, rest, hlwb⟩ := drainWaits_nonempty hdrain
      have hgrant := grant_local hfree hfill hside (grantLocal_drain hdrain h)
      rw [grantDrain_cons hlwb] at hgrant
      exact ⟨_, ⟨b, rest, hlwb, rfl⟩, exec_storeGrant_some hp hgrant⟩

end Sys2Proof.Proofs
end

section
/-! SUPPORT. The statements on the messages of the host link: the bytes of a message are read as that message, the form check, and
what the arrival of a string of bytes does; the rows that name what a CONTROL WRITE writes are its arrival. -/

-- Theorems are elaborated one after another: many at once take more threads than the memory limit allows.
set_option Elab.async false

namespace Sys2Proof.Proofs

open Sys2Proof.Machine Sys2Proof.Safety Sys2Proof.Laws

/-! ### The first byte and the multi-byte numbers of a message (R185) -/

theorem firstByte_eq (kind : Nat) (tag : HostTag) : BitVec.ofNat 8 (16 * kind + tag.val) = firstByte kind tag := by
  rw [firstByte, Nat.mul_comm]

theorem firstByte_toNat {kind : Nat} (h : kind < 16) (tag : HostTag) : (firstByte kind tag).toNat = kind * 16 + tag.val := by
  rw [firstByte, BitVec.toNat_ofNat]
  omega

theorem firstByte_kind {kind : Nat} (h : kind < 16) (tag : HostTag) : (firstByte kind tag).toNat / 16 = kind := by
  rw [firstByte_toNat h]
  omega

theorem firstByte_tag {kind : Nat} (h : kind < 16) (tag : HostTag) : nibble (firstByte kind tag).toNat = tag := by
  refine Fin.ext ?_
  rw [nibble, Fin.val_ofNat, firstByte_toNat h]
  omega

theorem beBytes_get (n v i : Nat) (h : i < (beBytes n v).length) : (beBytes n v)[i] = BitVec.ofNat 8 (v / 256 ^ (n - 1 - i)) := by
  induction n generalizing i with
  | zero => cases h
  | succ n ih =>
    cases i with
    | zero => rfl
    | succ i =>
      have hplace : n + 1 - 1 - (i + 1) = n - 1 - i := by omega
      rw [hplace]
      exact ih i (Nat.lt_of_succ_lt_succ h)

/-- The bytes of a number, cut out of it or computed from it. -/
theorem bytesOf_eq (n : Nat) (v : BitVec (8 * n)) : Claims.bytesOf n v = beBytes n v.toNat := by
  have hlen : (Claims.bytesOf n v).length = (beBytes n v.toNat).length := by simp [Claims.bytesOf, beBytes_length]
  refine List.ext_getElem hlen fun i h h' => ?_
  simp only [Claims.bytesOf, List.getElem_ofFn, beBytes_get, BitVec.extractLsb', Nat.shiftRight_eq_div_pow, Nat.pow_mul]

theorem bytesOf_length (n : Nat) (v : BitVec (8 * n)) : (Claims.bytesOf n v).length = n := by
  rw [bytesOf_eq, beBytes_length]

theorem beNat_bytesOf (n : Nat) (v : BitVec (8 * n)) : beNat (Claims.bytesOf n v) = v.toNat := by
  have hlt : v.toNat < 256 ^ n := by
    rw [show 256 = 2 ^ 8 from rfl, ← Nat.pow_mul]
    exact v.isLt
  rw [bytesOf_eq, beNat_beBytes, Nat.mod_eq_of_lt hlt]

/-! ### A message is read from its bytes (R185) -/

/-- The number of bytes that follow the first byte in a message of a kind code. -/
def tailLength : Nat → Nat
  | 1 => 6
  | 2 => 77
  | 4 => 1
  | 5 => 9
  | _ => 0

theorem decodeMsg_eq_none_iff {b : Byte} {tail : List Byte} :
    decodeMsg (b :: tail) = none ↔ tail.length < tailLength (b.toNat / 16) := by
  simp only [decodeMsg]
  generalize b.toNat / 16 = kind
  split <;> simp [tailLength]

/-- A message takes its own bytes and leaves those that follow. -/
theorem decodeMsg_rest {b : Byte} {tail rest : List Byte} {m : HostMsg} (h : decodeMsg (b :: tail) = some (m, rest)) :
    rest = tail.drop (tailLength (b.toNat / 16)) := by
  simp only [decodeMsg] at h
  generalize b.toNat / 16 = kind at h ⊢
  split at h <;> simp_all [tailLength]

theorem decodeMsg_shortens {bytes rest : List Byte} {m : HostMsg} (h : decodeMsg bytes = some (m, rest)) :
    rest.length < bytes.length := by
  cases bytes with
  | nil => cases h
  | cons b tail =>
    rw [decodeMsg_rest h, List.length_drop, List.length_cons]
    omega

theorem decodeMsg_unknown {kind : Nat} (hkind : kind < 16) (h : kind = 0 ∨ 5 < kind) (tag : HostTag) (rest : List Byte) :
    decodeMsg (firstByte kind tag :: rest) = some (.unknown tag, rest) := by
  simp only [decodeMsg, firstByte_kind hkind, firstByte_tag hkind]
  split
  case h_6 => rfl
  all_goals omega

section
variable {l r : List Byte} {n : Nat}

theorem getD_append_at (h : l.length = n) (k : Nat) : (l ++ r).getD (n + k) 0#8 = r.getD k 0#8 := by
  rw [← h, List.getD_append_right _ _ _ _ (Nat.le_add_right _ _), Nat.add_sub_cancel_left]

theorem drop_append_at (h : l.length = n) (k : Nat) : (l ++ r).drop (n + k) = r.drop k := by
  rw [← h, List.drop_length_add_append]

end

theorem ofNat_bytesOf {n : Nat} (v : BitVec (8 * n)) : BitVec.ofNat (8 * n) (beNat (Claims.bytesOf n v)) = v := by
  rw [beNat_bytesOf, BitVec.ofNat_toNat, BitVec.setWidth_eq]

theorem decodeMsg_read (tag : HostTag) (addr : SpanAddr) (size flags : Byte) (rest : List Byte) :
    decodeMsg (firstByte 1 tag :: (Claims.bytesOf 4 addr ++ size :: flags :: rest)) = some (.read tag addr size flags, rest) := by
  have hlen : (Claims.bytesOf 4 addr).length = 4 := bytesOf_length 4 addr
  have haddr : BitVec.ofNat 32 (beNat (Claims.bytesOf 4 addr)) = addr := ofNat_bytesOf (n := 4) addr
  generalize htail : Claims.bytesOf 4 addr ++ size :: flags :: rest = tail
  have hwhole : ¬tail.length < 6 := by simp only [← htail, List.length_append, List.length_cons, hlen]; omega
  have htake : tail.take 4 = Claims.bytesOf 4 addr := htail ▸ List.take_left' hlen
  have hsize : tail.getD 4 0#8 = size := htail ▸ getD_append_at hlen 0
  have hflags : tail.getD 5 0#8 = flags := htail ▸ getD_append_at hlen 1
  have hrest : tail.drop 6 = rest := htail ▸ drop_append_at hlen 2
  simp only [decodeMsg, firstByte_kind, firstByte_tag, Nat.reduceLT, hwhole, htake, haddr, hsize, hflags, hrest, if_false]

theorem decodeMsg_write (tag : HostTag) (addr : SpanAddr) (flags : Byte) (mask : Mask) (data : Line) (rest : List Byte) :
    decodeMsg (firstByte 2 tag :: (Claims.bytesOf 4 addr ++ flags :: (Claims.bytesOf 8 mask ++ (data.toList ++ rest)))) =
      some (.write tag addr flags mask data, rest) := by
  have hlen : (Claims.bytesOf 4 addr).length = 4 := bytesOf_length 4 addr
  have hlen' : (Claims.bytesOf 8 mask).length = 8 := bytesOf_length 8 mask
  have haddr : BitVec.ofNat 32 (beNat (Claims.bytesOf 4 addr)) = addr := ofNat_bytesOf (n := 4) addr
  have hmask : BitVec.ofNat 64 (beNat (Claims.bytesOf 8 mask)) = mask := ofNat_bytesOf (n := 8) mask
  generalize htail : Claims.bytesOf 4 addr ++ flags :: (Claims.bytesOf 8 mask ++ (data.toList ++ rest)) = tail
  have hwhole : ¬tail.length < 77 := by
    simp only [← htail, List.length_append, List.length_cons, Vector.length_toList, hlen, hlen']
    omega
  have htake : tail.take 4 = Claims.bytesOf 4 addr := htail ▸ List.take_left' hlen
  have hflags : tail.getD 4 0#8 = flags := htail ▸ getD_append_at hlen 0
  have hdrop : tail.drop 5 = Claims.bytesOf 8 mask ++ (data.toList ++ rest) := htail ▸ drop_append_at hlen 1
  have hdrop' : tail.drop 13 = data.toList ++ rest := by
    rw [← List.drop_drop (i := 8) (j := 5), hdrop, List.drop_left' hlen']
  have hrest : tail.drop 77 = rest := by
    rw [← List.drop_drop (i := 64) (j := 13), hdrop', List.drop_left' Vector.length_toList]
  have htake' : (data.toList ++ rest).take 64 = data.toList := List.take_left' Vector.length_toList
  simp only [decodeMsg, firstByte_kind, firstByte_tag, Nat.reduceLT, hwhole, htake, haddr, hflags, hdrop, hdrop', hrest,
    List.take_left' hlen', htake', hmask, lineOfBytes_toList, if_false]

theorem decodeMsg_fence (tag : HostTag) (rest : List Byte) : decodeMsg (firstByte 3 tag :: rest) = some (.fence tag, rest) := by
  simp only [decodeMsg, firstByte_kind, firstByte_tag, Nat.reduceLT]

theorem decodeMsg_controlRead (tag : HostTag) (word : Byte) (rest : List Byte) :
    decodeMsg (firstByte 4 tag :: word :: rest) = some (.controlRead tag word, rest) := by
  simp [decodeMsg, firstByte_kind, firstByte_tag]

theorem decodeMsg_controlWrite (tag : HostTag) (word : Byte) (value : CtrlValue) (rest : List Byte) :
    decodeMsg (firstByte 5 tag :: word :: (Claims.bytesOf 8 value ++ rest)) = some (.controlWrite tag word value, rest) := by
  have hlen : (Claims.bytesOf 8 value).length = 8 := bytesOf_length 8 value
  have hvalue : BitVec.ofNat 64 (beNat (Claims.bytesOf 8 value)) = value := ofNat_bytesOf (n := 8) value
  have hwhole : ¬(word :: (Claims.bytesOf 8 value ++ rest)).length < 9 := by
    simp only [List.length_append, List.length_cons, hlen]
    omega
  simp only [decodeMsg, firstByte_kind, firstByte_tag, Nat.reduceLT, hwhole, List.drop_succ_cons, List.drop_zero,
    List.take_left' hlen, List.drop_left' hlen, hvalue, List.getD_cons_zero, if_false]

/-! ### The message of a request (R153, R185) -/

/-- The message by which the host makes a request. -/
def requestMsg (tag : HostTag) : Request → HostMsg
  | .read addr size cacheable high => .read tag addr (sizeByte size) (flagsByte cacheable high)
  | .write addr mask data confirm => .write tag addr (flagsByte confirm false) mask data
  | .fence => .fence tag
  | .controlRead word => .controlRead tag word
  | .controlWrite word value => .controlWrite tag word value

theorem decodeMsg_requestBytes (tag : HostTag) (req : Request) (rest : List Byte) :
    decodeMsg (requestBytes tag req ++ rest) = some (requestMsg tag req, rest) := by
  have haddr (addr : SpanAddr) : beBytes 4 addr.toNat = Claims.bytesOf 4 addr := (bytesOf_eq 4 addr).symm
  have hvalue (v : BitVec 64) : beBytes 8 v.toNat = Claims.bytesOf 8 v := (bytesOf_eq 8 v).symm
  cases req with
  | read addr size cacheable high =>
    simp only [requestBytes, haddr, List.cons_append, List.append_assoc, List.nil_append, decodeMsg_read, requestMsg]
  | write addr mask data confirm =>
    simp only [requestBytes, haddr, hvalue, List.cons_append, List.append_assoc, decodeMsg_write, requestMsg]
  | fence => exact decodeMsg_fence tag rest
  | controlRead word => exact decodeMsg_controlRead tag word rest
  | controlWrite word value =>
    simp only [requestBytes, hvalue, List.cons_append, decodeMsg_controlWrite, requestMsg]

theorem msgTag_requestMsg (tag : HostTag) (req : Request) : msgTag (requestMsg tag req) = tag := by
  cases req <;> rfl

theorem flagsByte_bits (b0 b1 : Bool) : (flagsByte b0 b1).getLsbD 0 = b0 ∧ (flagsByte b0 b1).getLsbD 1 = b1 := by
  revert b0 b1
  decide

theorem named_requestMsg (tag : HostTag) (req : Request) : Claims.named (requestMsg tag req) = some req := by
  cases req with
  | read addr size cacheable high =>
    obtain ⟨hcacheable, hhigh⟩ := flagsByte_bits cacheable high
    have hsize : (if sizeByte size = 8#8 then ReadSize.word else ReadSize.line) = size := by cases size <;> rfl
    simp only [requestMsg, Claims.named, hcacheable, hhigh, hsize]
  | write addr mask data confirm => simp only [requestMsg, Claims.named, (flagsByte_bits confirm false).1]
  | _ => rfl

/-! ### The form check (R155) -/

/-- A mask is 0 when it names no byte. -/
theorem mask_eq_zero_iff {mask : Mask} : mask = 0#64 ↔ ∀ i : Fin 64, mask.getLsbD i.val = false := by
  refine ⟨fun h i => by rw [h, BitVec.getLsbD_zero], fun h => BitVec.eq_of_getLsbD_eq fun i hi => ?_⟩
  rw [h ⟨i, hi⟩, BitVec.getLsbD_zero]

/-- A READ of good form has the size 8 or 64 and an address that is a multiple of it. -/
theorem badForm_read {tag : HostTag} {addr : SpanAddr} {size flags : Byte} : Claims.BadForm (.read tag addr size flags) ↔
    ¬(size = 8#8 ∧ addr.toNat % 8 = 0) ∧ ¬(size = 64#8 ∧ addr.toNat % 64 = 0) := by
  have hword : size = 8#8 ↔ size.toNat = 8 := BitVec.toNat_inj.symm
  have hline : size = 64#8 ↔ size.toNat = 64 := BitVec.toNat_inj.symm
  rw [Claims.BadForm, Nat.dvd_iff_mod_eq_zero, hword, hline]
  by_cases h8 : size.toNat = 8
  · simp [h8]
  · by_cases h64 : size.toNat = 64 <;> simp [h8, h64]

theorem badForm_write {tag : HostTag} {addr : SpanAddr} {flags : Byte} {mask : Mask} {data : Line} :
    Claims.BadForm (.write tag addr flags mask data) ↔ ¬(addr.toNat % 64 = 0 ∧ mask ≠ 0#64) := by
  rw [Claims.BadForm, ← mask_eq_zero_iff, Nat.dvd_iff_mod_eq_zero, not_and_or, not_ne_iff]

/-- The host makes a request of good form by a message of good form. -/
theorem not_badForm_requestMsg {req : Request} (h : requestWellFormed req = true) (tag : HostTag) :
    ¬Claims.BadForm (requestMsg tag req) := by
  cases req with
  | read addr size cacheable high =>
    rw [requestMsg, badForm_read, not_and_or, not_not, not_not]
    cases size with
    | word => exact .inl ⟨rfl, beq_iff_eq.1 h⟩
    | line => exact .inr ⟨rfl, beq_iff_eq.1 h⟩
  | write addr mask data confirm =>
    rw [requestMsg, badForm_write, not_not]
    exact (Bool.and_eq_true_iff.1 h).imp beq_iff_eq.1 bne_iff_ne.1
  | _ => exact not_false

theorem formCheck_bad {m : HostMsg} (h : Claims.BadForm m) : formCheck m = none := by
  cases m with
  | read tag addr size flags =>
    obtain ⟨hword, hline⟩ := badForm_read.1 h
    exact (if_neg hword).trans (if_neg hline)
  | write tag addr flags mask data => exact if_neg (badForm_write.1 h)
  | unknown tag => rfl
  | _ => exact h.elim

theorem formCheck_good {m : HostMsg} (h : ¬Claims.BadForm m) : formCheck m = Claims.named m := by
  cases m with
  | read tag addr size flags =>
    rw [badForm_read, not_and_or, not_not, not_not] at h
    obtain ⟨rfl, haddr⟩ | ⟨rfl, haddr⟩ := h
    · exact if_pos ⟨rfl, haddr⟩
    · simp [formCheck, Claims.named, haddr]
  | write tag addr flags mask data => exact if_pos (not_not.1 (mt badForm_write.2 h))
  | unknown tag => exact (h trivial).elim
  | _ => rfl

/-- A message of good form names a request. -/
theorem exists_named {m : HostMsg} (h : ¬Claims.BadForm m) : ∃ req, Claims.named m = some req := by
  cases m with
  | unknown tag => exact (h trivial).elim
  | _ => exact ⟨_, rfl⟩

/-! ### The bytes of a response (R185) -/

theorem flagByte_bit (b : Bool) : (if b then 1#8 else 0#8).getLsbD 0 = b := by
  cases b <;> rfl

theorem tailLength_eq (kind : Fin 16) : tailLength kind.val =
    if kind = 1 then 6 else if kind = 2 then 77 else if kind = 4 then 1 else if kind = 5 then 9 else 0 := by
  revert kind
  decide

/-- Settles O15: a message is read field after field from its bytes, and those of a request are the bytes of its message. -/
theorem requestRoundTrip : Obligations.RequestRoundTrip := by
  refine ⟨fun tag req rest hform =>
      ⟨requestMsg tag req, decodeMsg_requestBytes tag req rest, msgTag_requestMsg tag req, ?_⟩,
    fun m => ⟨formCheck_bad, formCheck_good⟩, rfl, ?_⟩
  · rw [formCheck_good (not_badForm_requestMsg hform tag), named_requestMsg]
  intro tag rest first
  have hfirst (kind : Nat) : first kind = firstByte kind tag := firstByte_eq kind tag
  simp only [hfirst, List.cons_append, List.append_assoc]
  refine ⟨fun addr size flags => decodeMsg_read tag addr size flags rest,
    fun addr flags mask data => decodeMsg_write tag addr flags mask data rest, decodeMsg_fence tag rest,
    fun word => decodeMsg_controlRead tag word rest, fun word value => decodeMsg_controlWrite tag word value rest,
    fun kind => ⟨fun h => decodeMsg_unknown kind.isLt h tag rest, ?_⟩,
    fun bytes mended => ⟨_, rfl, flagByte_bit mended⟩, fun adjusted => ⟨_, rfl, flagByte_bit adjusted⟩,
    fun code => ?_, rfl, rfl, rfl⟩
  · rw [decodeMsg_eq_none_iff, firstByte_kind kind.isLt, tailLength_eq]
  · cases code <;> rfl

/-! ### The arrival of a string of bytes (R155, log entry 15) -/

theorem arriveAll_unread {bytes : List Byte} (h : decodeMsg bytes = none) (n : Nat) (s : State) : arriveAll n bytes s = s := by
  cases n with
  | zero => rfl
  | succ n => simp only [arriveAll, h]

theorem arriveAll_read {bytes rest : List Byte} {m : HostMsg} (h : decodeMsg bytes = some (m, rest)) (n : Nat) (s : State) :
    arriveAll (n + 1) bytes s = arriveAll n rest (settle s (arrive m s)) := by
  simp only [arriveAll, h]

/-- Any bound on the number of messages that is at least the number of bytes has every message examined. -/
theorem arriveAll_enough (n : Nat) : ∀ (k : Nat) (bytes : List Byte) (s : State), bytes.length ≤ n → bytes.length ≤ k →
    arriveAll n bytes s = arriveAll k bytes s := by
  induction n with
  | zero =>
    intro k bytes s hn _
    have hnone : decodeMsg bytes = none := by rw [List.length_eq_zero_iff.1 (Nat.le_zero.1 hn)]; rfl
    rw [arriveAll_unread hnone, arriveAll_unread hnone]
  | succ n ih =>
    intro k bytes s hn hk
    cases hread : decodeMsg bytes with
    | none => rw [arriveAll_unread hread, arriveAll_unread hread]
    | some read =>
      obtain ⟨m, rest⟩ := read
      have hrest := decodeMsg_shortens hread
      obtain ⟨k, rfl⟩ := Nat.exists_eq_succ_of_ne_zero (Nat.ne_zero_of_lt (Nat.lt_of_lt_of_le hrest hk))
      rw [arriveAll_read hread, Nat.succ_eq_add_one, arriveAll_read hread]
      exact ih k rest _ (by omega) (by omega)

section
variable {s : State} (hp : s.pinHeld = false)
include hp

theorem released_examined (m : HostMsg) : (settle s (arrive m s)).pinHeld = false :=
  ((arrive_evolves m s).trans (settle_evolves s _)).pinHeld.trans hp

theorem exec_hostRequestArrival (bytes : List Byte) :
    exec (.hostRequestArrival bytes) s = .next (arriveAll bytes.length bytes s) :=
  unlessHeld_released hp _

theorem exec_arrival_unread {bytes : List Byte} (h : decodeMsg bytes = none) : exec (.hostRequestArrival bytes) s = .next s := by
  rw [exec_hostRequestArrival hp, arriveAll_unread h]

/-- The first message is examined, with what follows from it, and then the bytes that follow it. -/
theorem exec_arrival_read {bytes rest : List Byte} {m : HostMsg} (h : decodeMsg bytes = some (m, rest)) :
    exec (.hostRequestArrival bytes) s = exec (.hostRequestArrival rest) (settle s (arrive m s)) := by
  have hshort := decodeMsg_shortens h
  obtain ⟨n, hn⟩ := Nat.exists_eq_add_one_of_ne_zero (Nat.ne_zero_of_lt hshort)
  have hrest : rest.length ≤ n := by omega
  calc exec (.hostRequestArrival bytes) s
    _ = .next (arriveAll (n + 1) bytes s) := by rw [exec_hostRequestArrival hp, hn]
    _ = .next (arriveAll n rest (settle s (arrive m s))) := by rw [arriveAll_read h]
    _ = .next (arriveAll rest.length rest (settle s (arrive m s))) := by rw [arriveAll_enough n _ rest _ hrest le_rfl]
    _ = exec (.hostRequestArrival rest) (settle s (arrive m s)) := (exec_hostRequestArrival (released_examined hp m) rest).symm

/-- The arrival of one message and nothing more. -/
theorem exec_arrival_one {bytes : List Byte} {m : HostMsg} (h : decodeMsg bytes = some (m, [])) {u : State}
    (hu : arrive m s = u) : exec (.hostRequestArrival bytes) s = .next (settle s u) := by
  rw [exec_arrival_read hp h, exec_arrival_unread (released_examined hp m) rfl, hu]

end

/-! ### The examination of a message (R155) -/

theorem arrive_bad {m : HostMsg} (h : Claims.BadForm m) (s : State) : arrive m s = send (.reject (msgTag m) .badRequest) s := by
  simp only [arrive, formCheck_bad h]

theorem arrive_tagBusy {m : HostMsg} {s : State} (h : ¬Claims.BadForm m) (hbusy : ∃ it ∈ s.hrq, it.tag = msgTag m) :
    arrive m s = send (.reject (msgTag m) .tagBusy) s := by
  obtain ⟨req, hreq⟩ := exists_named h
  have hany : (s.hrq.any fun it => it.tag == msgTag m) = true := by simpa using hbusy
  simp only [arrive, formCheck_good h, hreq, hany, if_true]

section
variable {m : HostMsg} {s : State} {req : Request} (hform : ¬Claims.BadForm m) (hfree : ∀ it ∈ s.hrq, it.tag ≠ msgTag m)
include hform hfree

theorem arrive_full (h : 8 ≤ s.hrq.length) : arrive m s = send (.retry (msgTag m)) s := by
  obtain ⟨req, hreq⟩ := exists_named hform
  have hnone : (s.hrq.any fun it => it.tag == msgTag m) = false := by simpa using hfree
  have hfull : Config.hrqCapacity ≤ s.hrq.length := h
  simp only [arrive, formCheck_good hform, hreq, hnone, hfull, if_true, Bool.false_eq_true, if_false]

theorem arrive_joins (hreq : Claims.named m = some req) (h : s.hrq.length < 8) :
    arrive m s = { s with hrq := s.hrq ++ [{ tag := msgTag m, req := req, started := false }] } := by
  have hnone : (s.hrq.any fun it => it.tag == msgTag m) = false := by simpa using hfree
  have hroom : ¬Config.hrqCapacity ≤ s.hrq.length := Nat.not_le.2 h
  simp only [arrive, formCheck_good hform, hreq, hnone, hroom, Bool.false_eq_true, if_false]

end

/-- Settles O16: messages are read off the bytes one after another, and the examination asks for form, tag and room in turn. -/
theorem arrivalExamined : Obligations.ArrivalExamined := by
  intro bytes m s hp
  refine ⟨exec_arrival_unread hp, fun rest => exec_arrival_read hp, fun hone => ⟨fun hbad => ?_, fun hgood hbusy => ?_,
    fun hgood hfree hfull => ?_, fun req hgood hreq hfree hroom => ?_⟩⟩
  · exact exec_arrival_one hp hone (arrive_bad hbad s)
  · exact exec_arrival_one hp hone (arrive_tagBusy hgood hbusy)
  · exact exec_arrival_one hp hone (arrive_full hgood hfree hfull)
  · exact exec_arrival_one hp hone (arrive_joins hgood hfree hreq hroom)

/-! ### The rows that name what a CONTROL WRITE writes (R167, R185, log entry 14) -/

/-- The bytes that the host sends for a request arrive as its message, whether the pin is held or not. -/
theorem exec_arrival_requestBytes (tag : HostTag) (req : Request) (s : State) :
    exec (.hostRequestArrival (requestBytes tag req)) s = event s (arrive (requestMsg tag req)) := by
  have hread : decodeMsg (requestBytes tag req) = some (requestMsg tag req, []) := by
    have h := decodeMsg_requestBytes tag req []
    rwa [List.append_nil] at h
  cases hp : s.pinHeld with
  | true => exact (unlessHeld_held hp _).trans (unlessHeld_held hp _).symm
  | false => rw [exec_arrival_one hp hread rfl, event_released hp]

/-- Settles O22: each row's event is the arrival of the CONTROL WRITE with its word and value. -/
theorem controlRowsAreMessages : Obligations.ControlRowsAreMessages :=
  fun tag s => ⟨rfl, rfl, rfl, rfl, fun _ _ => rfl, fun _ => rfl,
    fun word value => (exec_arrival_requestBytes tag (.controlWrite word value) s).symm⟩

end Sys2Proof.Proofs
end

section
/-! SUPPORT. The statements on what may start and on FENCE: which requests of the HRQ are eligible, the covered set that a FENCE
records at its start, and its answer. -/

-- Theorems are elaborated one after another: many at once take more threads than the memory limit allows.
set_option Elab.async false

namespace Sys2Proof.Proofs

open Sys2Proof.Machine Sys2Proof.Safety Sys2Proof.Laws

/-! ### Which requests are eligible (R157) -/

theorem isAccess_iff {r : Request} : isAccess r = true ↔
    r ≠ .fence ∧ (∀ w, r ≠ .controlRead w) ∧ ∀ w v, r ≠ .controlWrite w v := by
  cases r <;> simp [isAccess]

theorem requestLine_isSome (r : Request) : (requestLine r).isSome = isAccess r := by
  cases r <;> rfl

/-- An earlier READ holds a READ back unless the later one alone has high priority; a WRITE holds a READ of its line back. -/
theorem not_holdsBack_iff {e r : Request} : holdsBack e r = false ↔ isAccess e = true ∧ requestLine e ≠ requestLine r ∧
    isRead r = true ∧ (isRead e = true → isHigh r = true ∧ isHigh e = false) := by
  cases haccess : isAccess e with
  | false => simp [holdsBack, haccess]
  | true => simp [holdsBack, haccess, requestLine_isSome, and_assoc]

/-- The priorities under which a READ may go ahead of an earlier READ or WRITE. -/
theorem read_passes_iff {e r : Request} : (isRead r = true ∧ (isRead e = true → isHigh r = true ∧ isHigh e = false)) ↔
    ∃ a size c high, r = .read a size c high ∧
      ∀ a' size' c' high', e = .read a' size' c' high' → high = true ∧ high' = false := by
  have hearlier (high : Bool) : (isRead e = true → high = true ∧ isHigh e = false) ↔
      ∀ a' size' c' high', e = .read a' size' c' high' → high = true ∧ high' = false := by
    cases e with
    | read a size c high' => exact ⟨fun h _ _ _ _ he => by cases he; exact h rfl, fun h _ => h a size c high' rfl⟩
    | _ => exact ⟨nofun, nofun⟩
  cases r with
  | read a size c high =>
    refine ⟨fun h => ⟨a, size, c, high, rfl, (hearlier high).1 h.2⟩, ?_⟩
    rintro ⟨_, _, _, _, he, h⟩
    cases he
    exact ⟨rfl, (hearlier high).2 h⟩
  | _ => exact ⟨nofun, nofun⟩

theorem eligible_iff {earlier : List HrqItem} {r : Request} : eligible earlier r = true ↔
    (∀ e ∈ earlier, e.started = false → holdsBack e.req r = false) ∧ (r = .fence → earlier = []) := by
  simp [eligible, imp_iff_not_or]

/-- Settles O17: an unstarted request stands behind the requests before it in the HRQ, each of which must let it pass. -/
theorem eligibleRequests : Obligations.EligibleRequests := by
  refine ⟨fun s => ⟨eligibleItems_sublist s.hrq [], fun it => mem_eligibleItems it s.hrq []⟩, fun earlier r => ?_⟩
  simp only [eligible_iff, not_holdsBack_iff, isAccess_iff, read_passes_iff, and_assoc]

/-- An eligible FENCE stands first in the HRQ. -/
theorem fence_first {tag : HostTag} {s : State} (h : Claims.Eligible tag .fence s) :
    ∃ later, s.hrq = { tag := tag, req := .fence, started := false } :: later := by
  obtain ⟨-, -, hmem⟩ := h
  obtain ⟨earlier, later, hq, -, heligible⟩ := (mem_eligibleItems _ s.hrq []).1 hmem
  have hfirst : earlier = [] := (eligible_iff.1 heligible).2 rfl
  exact ⟨later, by rw [hq, hfirst, List.nil_append]⟩

/-! ### The covered set and the answer of a FENCE (R164, R165) -/

theorem coveredEmpty_iff {s : State} : coveredEmpty s = true ↔
    (∀ t : Tag, s.tracker[t].covered = false) ∧ ∀ it ∈ s.rpq, it.covered = false := by
  simp [coveredEmpty]

theorem coveredEmpty_eq_false_iff {s : State} : coveredEmpty s = false ↔
    (∃ t : Tag, s.tracker[t].covered = true) ∨ ∃ it ∈ s.rpq, it.covered = true := by
  rw [← Bool.not_eq_true, coveredEmpty_iff, not_and_or]
  simp only [not_forall, Bool.not_eq_false, exists_prop]

theorem answerFence_due {s : State} (h : coveredEmpty s = true) : answerFence s = fenceTold s := by
  unfold answerFence fenceTold
  cases startedFence s with
  | none => rfl
  | some tag => exact if_pos h

theorem answerFence_waits {s : State} (h : coveredEmpty s = false) : answerFence s = s := by
  unfold answerFence
  split
  · exact if_neg (ne_true_of_eq_false h)
  · rfl

theorem fenceDue_started {tag : HostTag} {s : State} (h : startedFence s = some tag) : fenceDue s = coveredEmpty s := by
  simp [fenceDue, h]

theorem exec_fenceAnswer {s t : State} (hp : s.pinHeld = false) (h : answerFence s = t) :
    answerFence s = t ∧ exec .fenceAnswer s = .next (settle s t) :=
  ⟨h, by rw [← h]; exact event_released hp answerFence⟩

/-! ### The start of a FENCE (R158, R164) -/

/-- The station with the covered set of a FENCE recorded and the FENCE started, before it is answered. -/
def fenceStarted (tag : HostTag) (s : State) : State := markStarted tag (recordCovered s)

theorem fenceStarted_eq (tag : HostTag) (s : State) : fenceStarted tag s = { markStarted tag s with
    tracker := Vector.ofFn fun t : Tag => { s.tracker[t] with covered := s.tracker[t].kind == some .putPosted }
    rpq := s.rpq.map fun it => { it with covered := it.writeCaused } } := by
  simp only [fenceStarted, markStarted, recordCovered, mapTracker]

theorem startedFence_fenceStarted {tag : HostTag} {s : State} (h : Claims.Eligible tag .fence s) :
    startedFence (fenceStarted tag s) = some tag := by
  obtain ⟨later, hq⟩ := fence_first h
  simp [startedFence, fenceStarted_eq, hq]

theorem coveredEmpty_fenceStarted {tag : HostTag} {s : State} : coveredEmpty (fenceStarted tag s) = true ↔
    (∀ t : Tag, s.tracker[t].kind ≠ some .putPosted) ∧ ∀ it ∈ s.rpq, it.writeCaused = false := by
  simp [coveredEmpty_iff, fenceStarted_eq]

/-- The mark of a request goes with the request that is answered. -/
theorem markStarted_answered (tag : HostTag) (s : State) :
    (markStarted tag s).hrq.filter (fun it => it.tag != tag) = s.hrq.filter fun it => it.tag != tag := by
  rw [markStarted_hrq]
  induction s.hrq with
  | nil => rfl
  | cons it rest ih =>
    by_cases htag : it.tag = tag
    · simpa [htag] using ih
    · simpa [htag] using ih

/-- A FENCE with nothing to cover is answered at its start. -/
theorem startFence_answers {tag : HostTag} {s : State} (h : Claims.Eligible tag .fence s)
    (hposted : ∀ t : Tag, s.tracker[t].kind ≠ some .putPosted) (hcaused : ∀ it ∈ s.rpq, it.writeCaused = false) :
    startFence tag s = { respond (if s.lostWrite then .fault tag .lostWrite else .done tag false) s with
      lostWrite := false
      tracker := Vector.ofFn fun t : Tag => { s.tracker[t] with covered := false }
      rpq := s.rpq.map fun it => { it with covered := false } } := by
  have hempty : coveredEmpty (fenceStarted tag s) = true := coveredEmpty_fenceStarted.2 ⟨hposted, hcaused⟩
  have htracker : (Vector.ofFn fun t : Tag => { s.tracker[t] with covered := s.tracker[t].kind == some .putPosted }) =
      Vector.ofFn fun t : Tag => { s.tracker[t] with covered := false } :=
    congrArg Vector.ofFn (funext fun t => by rw [beq_false_of_ne (hposted t)])
  have hrpq : (s.rpq.map fun it => { it with covered := it.writeCaused }) = s.rpq.map fun it => { it with covered := false } :=
    List.map_congr_left fun it hit => by rw [hcaused it hit]
  have htag : responseTag (if s.lostWrite then .fault tag .lostWrite else .done tag false) = tag := by split <;> rfl
  calc startFence tag s
    _ = fenceTold (fenceStarted tag s) := answerFence_due hempty
    _ = _ := by
      rw [fenceTold_some (startedFence_fenceStarted h), fenceStarted_eq, htracker, hrpq]
      simp only [respond, htag, markStarted_answered, markStarted_frame]

theorem startFence_waits {tag : HostTag} {s : State}
    (h : (∃ t : Tag, s.tracker[t].kind = some .putPosted) ∨ ∃ it ∈ s.rpq, it.writeCaused = true) :
    startFence tag s = fenceStarted tag s := by
  refine answerFence_waits (Bool.eq_false_iff.2 fun hempty => ?_)
  obtain ⟨hposted, hcaused⟩ := coveredEmpty_fenceStarted.1 hempty
  obtain ⟨t, ht⟩ | ⟨it, hit, hmark⟩ := h
  · exact hposted t ht
  · exact Bool.eq_false_iff.1 (hcaused it hit) hmark

/-- The command and the try start a FENCE alike, without a condition. -/
theorem starts_fence {tag : HostTag} {s X : State} (h : Claims.Eligible tag .fence s) (hX : startFence tag s = X) :
    Claims.Starts (.fenceStart tag) tag .fence s X :=
  starts_named (sort := fun _ req => req == .fence) rfl h rfl (congrArg some hX)

/-- Settles O21: what the start records decides whether the FENCE is answered within it; so does what is left of it later. -/
theorem fenceStartsAndIsAnswered : Obligations.FenceStartsAndIsAnswered := by
  refine ⟨fun tag s h => ⟨fun hposted hcaused => starts_fence h (startFence_answers h hposted hcaused), fun hcovers => ?_⟩,
    ?_, fun s hp hnone => ⟨?_, ?_⟩⟩
  · rw [← fenceStarted_eq]
    exact starts_fence h (startFence_waits hcovers)
  · intro tag s hp hstarted answers
    refine ⟨fun htracker hrpq => ?_, fun hcovered => ?_⟩
    · have hempty : coveredEmpty s = true := coveredEmpty_iff.2 ⟨htracker, hrpq⟩
      exact ⟨(fenceDue_started hstarted).trans hempty,
        exec_fenceAnswer hp ((answerFence_due hempty).trans (fenceTold_some hstarted))⟩
    · have hleft : coveredEmpty s = false := coveredEmpty_eq_false_iff.2 hcovered
      exact ⟨(fenceDue_started hstarted).trans hleft, exec_fenceAnswer hp (answerFence_waits hleft)⟩
  · simp [fenceDue, hnone]
  · exact (exec_fenceAnswer hp (by simp only [answerFence, hnone])).2

end Sys2Proof.Proofs
end

section
/-! SUPPORT. The statement on the control requests that change nothing: the CONTROL WRITEs that are refused, and the CONTROL READ
with its answer. -/

-- Theorems are elaborated one after another: many at once take more threads than the memory limit allows.
set_option Elab.async false

namespace Sys2Proof.Proofs

open Sys2Proof.Machine Sys2Proof.Safety Sys2Proof.Laws

/-! ### CONTROL WRITEs that are refused (R167, R169) -/

theorem setupWordOf_eq_none {w : Byte} (hsetup : ¬(0x08 ≤ w.toNat ∧ w.toNat ≤ 0x0C))
    (hrights : ¬(0x10 ≤ w.toNat ∧ w.toNat ≤ 0x1F)) : setupWordOf w = none := by
  have hne (k : Byte) (hk : 0x08 ≤ k.toNat ∧ k.toNat ≤ 0x0C) : w ≠ k := fun e => hsetup (e ▸ hk)
  rw [setupWordOf, if_neg (hne 0x08#8 (by decide)), if_neg (hne 0x09#8 (by decide)), if_neg (hne 0x0A#8 (by decide)),
    if_neg (hne 0x0B#8 (by decide)), if_neg (hne 0x0C#8 (by decide)), if_neg (by omega)]

theorem commandWrite_noCommand {v : CtrlValue} (h : ¬(1 ≤ v.toNat ∧ v.toNat ≤ 4)) (tag : HostTag) (s : State) :
    commandWrite tag v s = respond (.fault tag .badRequest) s := by
  unfold commandWrite
  split
  case h_5 => rfl
  all_goals omega

/-- The words and values that a CONTROL WRITE refuses: a word that is not written, and a value of COMMAND that is no command. -/
def RefusedWrite (w : Byte) (v : CtrlValue) : Prop :=
  (w ≠ 0x04#8 ∧ w ≠ 0x29#8 ∧ ¬(0x08 ≤ w.toNat ∧ w.toNat ≤ 0x0C) ∧ ¬(0x10 ≤ w.toNat ∧ w.toNat ≤ 0x1F)) ∨
    (w = 0x04#8 ∧ ¬(1 ≤ v.toNat ∧ v.toNat ≤ 4))

theorem controlWriteStarts_refused {w : Byte} {v : CtrlValue} (h : RefusedWrite w v) (tag : HostTag) (s : State) :
    controlWriteStarts tag w v s = respond (.fault tag .badRequest) s := by
  obtain ⟨hcommand, hmask, hsetup, hrights⟩ | ⟨rfl, hvalue⟩ := h
  · simp only [controlWriteStarts, hcommand, hmask, setupWordOf_eq_none hsetup hrights, if_false]
  · exact commandWrite_noCommand hvalue tag s

/-! ### A request that is neither READ nor WRITE, at a station on which it is alone (R155, R157) -/

/-- The station with an unstarted request joined to its HRQ; for a CONTROL WRITE it is `controlJoined`. -/
def requestJoined (tag : HostTag) (req : Request) (s : State) : State :=
  { s with hrq := s.hrq ++ [{ tag := tag, req := req, started := false }] }

section
variable {tag : HostTag} {req : Request} {s : State}

theorem withdrawn_requestJoined (h : ∀ it ∈ s.hrq, it.tag ≠ tag) : withdrawn tag (requestJoined tag req s) = s := by
  have hkept : (s.hrq.filter fun it => it.tag != tag) = s.hrq := List.filter_eq_self.2 fun it hit => by simp [h it hit]
  simp [withdrawn, requestJoined, hkept]

theorem mem_eligibleNow_requestJoined (hreq : req ≠ .fence) (h : ∀ it ∈ s.hrq, it.started = true) :
    { tag := tag, req := req, started := false } ∈ eligibleNow (requestJoined tag req s) := by
  refine (mem_eligibleItems _ _ []).2 ⟨s.hrq, [], rfl, rfl, ?_⟩
  have hfree : (s.hrq.any fun it => !it.started && holdsBack it.req req) = false :=
    List.any_eq_false.2 fun it hit => by simp [h it hit]
  simp [eligible, hreq, hfree]

theorem fenceDue_requestJoined : fenceDue (requestJoined tag req s) = fenceDue s := by
  have hfence : startedFence (requestJoined tag req s) = startedFence s := by simp [startedFence, requestJoined]
  unfold fenceDue
  rw [hfence]
  rfl

/-- It starts within the event of its arrival, and the event goes on from what its start does. -/
theorem settle_requestJoined {u : State} (h : Claims.Quiet s) (haccess : isAccess req = false) (hreq : req ≠ .fence)
    (htry : tryStart (requestJoined tag req s) { tag := tag, req := req, started := false } = some u) :
    settle s (requestJoined tag req s) = settle u u := by
  have hstarted (it : HrqItem) (hit : it ∈ s.hrq) : it.started = true := (h.1 it hit).1
  have hmem := mem_eligibleNow_requestJoined (tag := tag) hreq hstarted
  have hgrant : grant (requestJoined tag req s) = none := by
    rw [grant_eq_none_iff (offeredRead_alone hmem haccess)]
    exact (grant_eq_none_iff (offeredRead_started hstarted)).1 (quiet_grant h)
  refine settle_step ?_
  rw [engineFirst_places (s := requestJoined tag req s) (Nat.le_refl (freePlaces s))]
  exact settleOne_alone hmem haccess (fenceDue_requestJoined.trans (quiet_fenceDue h)) hgrant htry

end

/-! ### CONTROL READ (R167, R177, R186) -/

/-- What a CONTROL READ is answered. -/
def controlAnswer (tag : HostTag) (w : Byte) (s : State) : Response :=
  match controlValue w s with
  | some v => .data tag (beBytes 8 v.toNat) false
  | none => .fault tag .badRequest

theorem responseTag_controlAnswer (tag : HostTag) (w : Byte) (s : State) : responseTag (controlAnswer tag w s) = tag := by
  unfold controlAnswer
  split <;> rfl

theorem useFree_eq (w : Byte) (s : State) : useFree w s =
    { s with freeCount := if w = 0x2A#8 then s.freeCount + 1 else s.freeCount } := by
  unfold useFree
  split <;> rfl

/-- The first-fault record can be read, so a word without a value uses no free value. -/
theorem useFree_none {w : Byte} {s : State} (h : controlValue w s = none) : useFree w s = s := by
  refine if_neg fun hw => ?_
  subst hw
  cases h

theorem controlReadStarts_eq (tag : HostTag) (w : Byte) (s : State) :
    controlReadStarts tag w s = respond (controlAnswer tag w s) (useFree w s) := by
  unfold controlReadStarts controlAnswer
  cases hvalue : controlValue w s with
  | none => rw [useFree_none hvalue]
  | some v => rfl

/-- No control word tells of the HRQ. -/
theorem controlAnswer_requestJoined (tag : HostTag) (w : Byte) (req : Request) (s : State) :
    controlAnswer tag w (requestJoined tag req s) = controlAnswer tag w s := rfl

theorem withdrawn_useFree (tag : HostTag) (w : Byte) (s : State) : withdrawn tag (useFree w s) = useFree w (withdrawn tag s) := by
  rw [useFree_eq, useFree_eq]
  rfl

theorem quiet_useFree {s : State} (h : Claims.Quiet s) (w : Byte) : Claims.Quiet (useFree w s) := by
  rw [useFree_eq]
  exact Quiet_of (s := s) (fun _ => id) rfl rfl id id h

/-- An admitted CONTROL READ is answered and changes nothing else but the count of free values. -/
theorem exec_controlRead_admitted {tag : HostTag} {s : State} (h : Claims.Admits tag s) (w : Byte) :
    exec (.hostRequestArrival (requestBytes tag (.controlRead w))) s = .next (send (controlAnswer tag w s) (useFree w s)) := by
  obtain ⟨hp, hquiet, hlen, htag⟩ := h
  have hjoins : arrive (.controlRead tag w) s = requestJoined tag (.controlRead w) s :=
    arrive_joins (m := .controlRead tag w) not_false htag rfl hlen
  have hstart : controlReadStarts tag w (requestJoined tag (.controlRead w) s) = send (controlAnswer tag w s) (useFree w s) := by
    rw [controlReadStarts_eq, controlAnswer_requestJoined]
    exact respond_joined (useFree w) (responseTag_controlAnswer tag w s) (withdrawn_useFree tag w _)
      (withdrawn_requestJoined htag)
  have hsettle := settle_requestJoined (req := .controlRead w) hquiet rfl nofun (congrArg some hstart)
  rw [exec_arrival_requestBytes, requestMsg, event_released hp, hjoins, hsettle,
    settle_quiet (quiet_send (quiet_useFree hquiet w) _)]

/-- Settles O29: a refused CONTROL WRITE and a CONTROL READ each start at their arrival, and the start is the answer. -/
theorem controlRequestsAnswered : Obligations.ControlRequestsAnswered := by
  intro tag w s h
  refine ⟨fun v hrefused => exec_admitted_answered h rfl (controlWriteStarts_refused hrefused tag _), ?_⟩
  rw [exec_controlRead_admitted h w, useFree_eq]
  rfl

end Sys2Proof.Proofs
end

section
/-! SUPPORT. The statements on the Fault Record: the taking of a fault report and a CONTROL WRITE to the interrupt mask, and the
line's level as both set it. -/

-- Theorems are elaborated one after another: many at once take more threads than the memory limit allows.
set_option Elab.async false

namespace Sys2Proof.Proofs

open Sys2Proof.Machine Sys2Proof.Laws

/-! ### The level of the interrupt line (R180) -/

theorem irqLevel_iff {flags mask : BitVec 12} :
    irqLevel flags mask = true ↔ ∃ k : Fin 12, flags.getLsbD k.val = true ∧ mask.getLsbD k.val = true := by
  rw [irqLevel, bne_iff_ne]
  constructor
  · intro hne
    by_contra hnone
    refine hne (BitVec.eq_of_getLsbD_eq fun i hi => ?_)
    rw [BitVec.getLsbD_and, BitVec.getLsbD_zero, ← Bool.not_eq_true, Bool.and_eq_true]
    exact fun hboth => hnone ⟨⟨i, hi⟩, hboth⟩
  · rintro ⟨k, hflag, hmask⟩ hzero
    have hbit : (flags &&& mask).getLsbD k.val = true := by rw [BitVec.getLsbD_and, hflag, hmask, Bool.and_self]
    rw [hzero, BitVec.getLsbD_zero] at hbit
    cases hbit

/-! ### The taking of a fault report (R175 to R177) -/

theorem takeReport_flag (r : FaultReport) (s : State) (k : Fin 12) : (takeReport r s).flags.getLsbD k.val =
    (s.flags.getLsbD k.val || decide (k = faultPosition r.kind)) := by
  rw [takeReport_flags, BitVec.getLsbD_or, flagAt_bit]

theorem takeReport_count (r : FaultReport) (s : State) (k : Fin 12) : (takeReport r s).counts[k] =
    if k = faultPosition r.kind ∧ s.counts[k] < 65535 then s.counts[k] + 1 else s.counts[k] := by
  rw [takeReport_counts, Fin.getElem_fin, Vector.getElem_set]
  by_cases hk : k = faultPosition r.kind
  · subst hk
    rw [if_pos rfl]
    by_cases hlow : s.counts[faultPosition r.kind] < 65535
    · exact (if_pos hlow).trans (if_pos ⟨rfl, hlow⟩).symm
    · exact (if_neg hlow).trans (if_neg fun h => hlow h.2).symm
  · rw [if_neg fun h => hk (Fin.ext h.symm), if_neg fun h => hk h.1, Fin.getElem_fin]

/-- Settles O60: each part of the Fault Record is read off, and the line's level is that of the flags the report leaves. -/
theorem faultReportTaken : Obligations.FaultReportTaken := by
  intro r s
  refine ⟨takeReport r s, rfl, rfl, takeReport_flag r s, takeReport_count r s, fun hempty => ?_, fun hfilled => ?_, ?_⟩
  · rw [takeReport_firstFault, hempty, Option.none_or]
  · rw [takeReport_firstFault, Option.or_of_isSome (Option.isSome_iff_ne_none.2 hfilled)]
  · exact irqLevel_iff

/-! ### A CONTROL WRITE to the interrupt mask (R179) -/

/-- A position above the twelve kinds weighs 4,096 or more. -/
theorem maskAdjusted_eq (v : CtrlValue) : maskAdjusted v = decide (4096 ≤ v.toNat) := by
  have hzero : v.extractLsb' 12 52 = 0#52 ↔ v.toNat < 4096 := by
    rw [← BitVec.toNat_inj, BitVec.extractLsb'_toNat, BitVec.toNat_ofNat, Nat.shiftRight_eq_div_pow]
    omega
  rw [maskAdjusted, Bool.eq_iff_iff, bne_iff_ne, ne_eq, hzero, decide_eq_true_iff, Nat.not_lt]

theorem irqLevel_written (flags : BitVec 12) (v : CtrlValue) : irqLevel flags (v.setWidth 12) =
    decide (∃ k : Fin 12, flags.getLsbD k.val = true ∧ v.getLsbD k.val = true) := by
  rw [Bool.eq_iff_iff, irqLevel_iff, decide_eq_true_iff]
  simp only [BitVec.getLsbD_setWidth, Fin.is_lt, decide_true, Bool.true_and]

theorem setIrqMask_eq (v : CtrlValue) (s : State) : setIrqMask v s = { s with
    irqMask := v.setWidth 12
    irq := decide (∃ k : Fin 12, s.flags.getLsbD k.val = true ∧ v.getLsbD k.val = true) } := by
  rw [← irqLevel_written, BitVec.setWidth_eq_extractLsb' (by decide)]
  rfl

theorem quiet_setIrqMask {s : State} (h : Claims.Quiet s) (v : CtrlValue) : Claims.Quiet (setIrqMask v s) :=
  Quiet_of (s := s) (fun _ => id) rfl rfl id id h

theorem controlWriteStarts_mask (tag : HostTag) (v : CtrlValue) (s : State) :
    controlWriteStarts tag 0x29#8 v s = respond (.done tag (maskAdjusted v)) (setIrqMask v s) := rfl

/-- An admitted CONTROL WRITE to the mask replaces it, in whatever station state, and is answered with the adjusted flag. -/
theorem exec_controlWrite_mask {tag : HostTag} {s : State} (h : Claims.Admits tag s) (v : CtrlValue) :
    exec (.controlWrite tag 0x29#8 v) s = .next (send (.done tag (maskAdjusted v)) (setIrqMask v s)) :=
  exec_admitted h ((controlWriteStarts_mask tag v _).trans
    (respond_joined (setIrqMask v) rfl rfl (withdrawn_controlJoined h.2.2.2 0x29#8 v))) (quiet_send (quiet_setIrqMask h.2.1 v) _)

theorem exec_interruptMaskWrite (tag : HostTag) (v : CtrlValue) (s : State) :
    exec (.interruptMaskWrite tag v) s = exec (.controlWrite tag 0x29#8 v) s := by
  obtain ⟨-, -, -, -, -, hmask, -⟩ := controlRowsAreMessages tag s
  exact hmask v

/-- Settles O28: the row that names the mask is the CONTROL WRITE of its word number, whose start replaces the mask. -/
theorem interruptMaskWritten : Obligations.InterruptMaskWritten := by
  intro tag v s h written
  have hwrite : exec (.controlWrite tag 0x29#8 v) s = .next written := by
    rw [exec_controlWrite_mask h, maskAdjusted_eq, setIrqMask_eq]
    rfl
  exact ⟨(exec_interruptMaskWrite tag v s).trans hwrite, hwrite⟩

end Sys2Proof.Proofs
end

section
/-! SUPPORT. The statement on the frame layouts: the frames a receiver takes are exactly the consistent ones, each as its own bits,
and the lengths and the check of those bits (R184, R8, R9). -/

-- Theorems are elaborated one after another: many at once take more threads than the memory limit allows.
set_option Elab.async false

namespace Sys2Proof.Proofs

open Sys2Proof.Machine Sys2Proof.Laws

/-! ### The check (R184) -/

theorem crc_append_bit (bits : List Bool) (b : Bool) : crc (bits ++ [b]) =
    if (crc bits).msb = b then crc bits <<< 1 else (crc bits <<< 1) ^^^ 0x1EDC6F41#32 := by
  have hstep : crc (bits ++ [b]) = crcStep (crc bits) b := List.foldl_concat crcStep Config.crcStart b bits
  rw [hstep, crcStep]
  by_cases hb : (crc bits).msb = b
  · rw [if_pos hb, if_neg (by simp only [hb, bne_self_eq_false, Bool.false_eq_true, not_false_iff])]
  · rw [if_neg hb, if_pos (bne_iff_ne.2 hb), Config.crcPolynomial]

/-- Bit i of a number in w bits, counted from the most significant end. -/
theorem bitsBE_getElem? {w i : Nat} (n : Nat) (hi : i < w) : (bitsBE w n)[i]? = some (n.testBit (w - 1 - i)) := by
  induction w generalizing i with
  | zero => omega
  | succ w ih =>
    cases i with
    | zero => rfl
    | succ i =>
      rw [bitsBE, List.getElem?_cons_succ, ih (by omega)]
      congr 2
      omega

theorem bitsBE_getMsbD {w : Nat} (x : BitVec w) (i : Fin w) : (bitsBE w x.toNat)[i.val]? = some (x.getMsbD i.val) := by
  rw [bitsBE_getElem? _ i.isLt, BitVec.getMsbD, decide_eq_true i.isLt, Bool.true_and]
  rfl

/-! ### The lengths of the rows (R184) -/

theorem dataBits_length (d : Line) : (dataBits d).length = 512 := by
  simp only [dataBits, List.length_flatMap, bitsBE_length, List.map_const', List.sum_replicate, Vector.length_toList, smul_eq_mul]

theorem frameBody_length (f : Frame) : (frameBody f).length = match f with
    | .ask _ _ _ _ _ _ => 42
    | .put _ _ none _ _ _ => 611
    | .put _ _ (some _) _ _ _ => 618
    | .give _ _ _ _ _ _ => 532
    | .note _ _ _ _ _ => 22
    | .recall _ _ _ => 46
    | .start _ => 8 := by
  rcases f with _ | ⟨_, _, _ | _, _, _, _⟩ | _ | _ | _ | _ <;>
    simp only [frameBody, flagBits, List.length_append, List.length_cons, List.length_nil, bitsBE_length, dataBits_length]

/-! ### What is received (R8, R9) -/

theorem receiveFrame_eq_some_iff_fields {bits : List Bool} {f : Frame} : receiveFrame bits = some f ↔ ∃ n : Nat,
    takeBE 32 (bits.drop (bits.length - 32)) = some (n, []) ∧
    BitVec.ofNat 32 n = crc (bits.take (bits.length - 32)) ∧
    parseBody (bits.take (bits.length - 32)) = some (f, []) ∧ frameConsistent f = true := by
  unfold receiveFrame
  generalize takeBE 32 _ = check
  generalize bits.take _ = body
  dsimp only
  constructor
  · intro h
    split at h
    case h_1 n =>
      obtain ⟨hcheck, h⟩ := Option.ite_none_right_eq_some.1 h
      split at h
      case h_1 g hparse =>
        obtain ⟨hg, hfound⟩ := Option.ite_none_right_eq_some.1 h
        obtain rfl := Option.some.inj hfound
        exact ⟨n, rfl, hcheck, hparse, hg⟩
      case h_2 => cases h
    case h_2 => cases h
  · rintro ⟨n, rfl, hcheck, hparse, hf⟩
    simp only [hcheck, hparse, hf, if_true]

theorem receiveFrame_frameBits {f : Frame} (hf : frameConsistent f = true) : receiveFrame (frameBits f) = some f := by
  have hlen : (frameBits f).length - 32 = (frameBody f).length := by
    rw [frameBits, List.length_append, bitsBE_length, Nat.add_sub_cancel]
  have hbody : (frameBits f).take (frameBody f).length = frameBody f := List.take_left
  have hcheck : (frameBits f).drop (frameBody f).length = bitsBE 32 (crc (frameBody f)).toNat := List.drop_left
  have htake : takeBE 32 (bitsBE 32 (crc (frameBody f)).toNat) = some ((crc (frameBody f)).toNat, []) := by
    simpa only [List.append_nil] using takeBE_bitVec (crc (frameBody f)) []
  rw [receiveFrame_eq_some_iff_fields, hlen, hbody, hcheck]
  exact ⟨_, htake, (BitVec.ofNat_toNat 32 _).trans (BitVec.setWidth_eq _), parseBody_frameBody f, hf⟩

theorem frameBits_of_receiveFrame {bits : List Bool} {f : Frame} (h : receiveFrame bits = some f) :
    bits = frameBits f ∧ frameConsistent f = true := by
  obtain ⟨n, htake, hcheck, hparse, hf⟩ := receiveFrame_eq_some_iff_fields.1 h
  obtain ⟨hend, hlt⟩ := takeBE_eq htake
  have hbody : bits.take (bits.length - 32) = frameBody f := by simpa only [List.append_nil] using parseBody_eq hparse
  have hn : n = (crc (frameBody f)).toNat := by rw [← hbody, ← hcheck, toNat_ofNat_lt hlt]
  refine ⟨?_, hf⟩
  rw [frameBits, ← hn, ← hbody, ← List.append_nil (bitsBE 32 n), ← hend, List.take_append_drop]

/-! ### What is consistent (R9) -/

theorem mask_ne_zero_iff {mask : Mask} : mask ≠ 0#64 ↔ ∃ i : Fin 64, mask.getLsbD i.val = true := by
  simp only [ne_eq, mask_eq_zero_iff, not_forall, Bool.not_eq_false]

theorem sharers_ne_zero_iff {sharers : SharerSet} : sharers ≠ 0#16 ↔ ∃ p : Station, sharers.getLsbD p.val = true := by
  constructor
  · intro hne
    by_contra hnone
    refine hne (BitVec.eq_of_getLsbD_eq fun i hi => ?_)
    rw [BitVec.getLsbD_zero]
    exact Bool.eq_false_iff.2 fun hbit => hnone ⟨⟨i, hi⟩, hbit⟩
  · rintro ⟨p, hp⟩ rfl
    simp only [BitVec.getLsbD_zero, Bool.false_eq_true] at hp

theorem frameConsistent_iff (f : Frame) : frameConsistent f = true ↔ match f with
    | .ask source target _ _ _ _ => target ≠ source
    | .put source target _ _ mask _ => target ≠ source ∧ ∃ i : Fin 64, mask.getLsbD i.val = true
    | .give source target _ _ _ _ => target ≠ source
    | .note source target _ _ _ => target ≠ source
    | .recall source _ sharers => (∃ p : Station, sharers.getLsbD p.val = true) ∧ sharers.getLsbD source.val = false
    | .start _ => True := by
  have hother (source target : Station) : (source != target) = true ↔ target ≠ source := bne_iff_ne.trans ne_comm
  match f with
  | .ask source target _ _ _ _ => exact hother source target
  | .put source target _ _ mask _ =>
    exact Bool.and_eq_true_iff.trans (and_congr (hother source target) (bne_iff_ne.trans mask_ne_zero_iff))
  | .give source target _ _ _ _ => exact hother source target
  | .note source target _ _ _ => exact hother source target
  | .recall source _ sharers =>
    exact Bool.and_eq_true_iff.trans (and_congr (bne_iff_ne.trans sharers_ne_zero_iff) (Bool.not_eq_true' _).to_iff)
  | .start _ => exact iff_true_intro rfl

/-- Settles O14: reception is the inverse of sending on the consistent frames, and the check is 32 bits after the row's own. -/
theorem frameRoundTrip : Obligations.FrameRoundTrip := by
  refine ⟨fun f => receiveFrame_frameBits, fun bits f => frameBits_of_receiveFrame, frameConsistent_iff, rfl,
    crc_append_bit, fun f => ?_⟩
  exact ⟨frameBody f, bitsBE 32 (crc (frameBody f)).toNat, rfl, bitsBE_length 32 _, bitsBE_getMsbD _, frameBody_length f⟩

end Sys2Proof.Proofs
end

section
/-! SUPPORT. The statement on the control words: what a CONTROL READ of each number of the map reads, and that the other numbers read
as nothing (R186, R167, R177). -/

-- Theorems are elaborated one after another: many at once take more threads than the memory limit allows.
set_option Elab.async false

namespace Sys2Proof.Proofs

open Sys2Proof.Machine Sys2Proof.Safety Sys2Proof.Laws

/-! ### The word numbers (R186) -/

/-- The word reads as the number. -/
def ReadsAs (w : Byte) (s : State) (n : Nat) : Prop := ∃ v, controlValue w s = some v ∧ v.toNat = n

theorem readsAs_of {w : Byte} {s : State} {m n : Nat} (h : controlValue w s = some (BitVec.ofNat 64 m)) (hmn : m = n)
    (hn : n < 2 ^ 64) : ReadsAs w s n :=
  ⟨_, h, hmn ▸ toNat_ofNat_lt (hmn ▸ hn)⟩

/-- The word numbers of the map that are neither COMMAND's nor those of a setup word or a rights-table entry. -/
def StatusWord (w : Byte) : Prop :=
  w.toNat ≤ 0x03 ∨ (0x20 ≤ w.toNat ∧ w.toNat ≤ 0x21) ∨ (0x28 ≤ w.toNat ∧ w.toNat ≤ 0x2A) ∨ (0x30 ≤ w.toNat ∧ w.toNat ≤ 0x3B)

theorem controlValue_of_not_status {w : Byte} (h : ¬StatusWord w) (s : State) :
    controlValue w s = (setupWordOf w).map fun word => BitVec.ofNat 64 (setupValue word s) := by
  unfold StatusWord at h
  unfold controlValue
  dsimp only
  rw [if_neg (by omega), if_neg (by omega), if_neg (by omega), if_neg (by omega), if_neg (by omega), if_neg (by omega),
    if_neg (by omega), if_neg (by omega), if_neg (by omega), dif_neg (by omega)]

theorem controlValue_unlisted {w : Byte} (h : w.toNat = 0x04 ∨ (0x05 ≤ w.toNat ∧ w.toNat ≤ 0x07) ∨
    (0x0D ≤ w.toNat ∧ w.toNat ≤ 0x0F) ∨ (0x22 ≤ w.toNat ∧ w.toNat ≤ 0x27) ∨ (0x2B ≤ w.toNat ∧ w.toNat ≤ 0x2F) ∨
    0x3C ≤ w.toNat) (s : State) : controlValue w s = none := by
  rw [controlValue_of_not_status (by unfold StatusWord; omega), setupWordOf_eq_none (by omega) (by omega), Option.map_none]

theorem setupWordNumber_not_status (word : SetupWord) : ¬StatusWord (setupWordNumber word) := by
  unfold StatusWord
  cases word with
  | rights p => revert p; decide
  | _ => decide

theorem setupValue_lt {s : State} (h : SetupOk s) (word : SetupWord) : setupValue word s < 2 ^ 64 := by
  have hbound {v top : Nat} (hv : v ≤ top) (htop : top < 2 ^ 64) : v < 2 ^ 64 := Nat.lt_of_le_of_lt hv htop
  cases word with
  | replyWait => exact hbound h.replyWait.2 (by decide)
  | refuseLimit => exact hbound h.refuseLimit.2 (by decide)
  | refuseStep => exact hbound h.refuseStep.2 (by decide)
  | urgentBudget => exact hbound h.urgentBudget.2 (by decide)
  | cacheEnable => rw [setupValue]; split <;> decide
  | rights p => rw [setupValue]; cases s.rights[p] <;> decide

/-- A setup word and a rights-table entry read as what they hold. -/
theorem setupWord_readsAs {s : State} (h : SetupOk s) (word : SetupWord) :
    ReadsAs (setupWordNumber word) s (setupValue word s) := by
  refine readsAs_of ?_ rfl (setupValue_lt h word)
  rw [controlValue_of_not_status (setupWordNumber_not_status word), setupWordOf_number, Option.map_some]

theorem trackerInUse_le (s : State) : trackerInUse s ≤ 16 := List.length_filter_le _ (List.finRange 16)

theorem controlValue_count {w : Byte} {k : Fin 12} (hw : w.toNat = 0x30 + k.val) (s : State) :
    controlValue w s = some (BitVec.ofNat 64 s.counts[k]) := by
  unfold controlValue
  dsimp only
  rw [if_neg (by omega), if_neg (by omega), if_neg (by omega), if_neg (by omega), if_neg (by omega), if_neg (by omega),
    if_neg (by omega), if_neg (by omega), if_neg (by omega), dif_pos (by omega)]
  simp only [hw, Nat.add_sub_cancel_left, Fin.getElem_fin]

theorem count_readsAs {s : State} (h : FaultRecordOk s) (k : Fin 12) : ReadsAs (BitVec.ofNat 8 (0x30 + k.val)) s s.counts[k] := by
  have hle : s.counts[k] ≤ 65535 := h.counts_le k
  exact readsAs_of (controlValue_count (toNat_ofNat_lt (by omega)) s) rfl (by omega)

theorem stationCode_le (st : StationState) : stationCode st ≤ 4 := by cases st <;> decide

theorem bitOf_eq_ite (b : Bool) : bitOf b * 2 ^ 8 = if b then 256 else 0 := by cases b <;> rfl

theorem bitOf_le (b : Bool) : bitOf b ≤ 1 := by cases b <;> decide

theorem station_readsAs (s : State) :
    ReadsAs 0x02#8 s (stationCode s.station + if s.runRequested then 256 else 0) := by
  have hcode := stationCode_le s.station
  have hbit := bitOf_le s.runRequested
  exact readsAs_of rfl (by rw [bitOf_eq_ite]) (by rw [← bitOf_eq_ite]; omega)

theorem occupancyA_readsAs {s : State} (h : QueuesOk s) (hrpq : s.rpq.length ≤ 12) (horq : s.orq.length ≤ 16) :
    ReadsAs 0x20#8 s (trackerInUse s + 2 ^ 8 * s.orq.length + 2 ^ 16 * s.svq.length + 2 ^ 24 * s.rpq.length) := by
  have hsvq : s.svq.length ≤ 8 := h.svq
  have htracker := trackerInUse_le s
  exact readsAs_of rfl (by omega) (by omega)

theorem occupancyB_readsAs {s : State} (h : QueuesOk s) :
    ReadsAs 0x21#8 s (s.llt.length + 2 ^ 8 * s.cache.length + 2 ^ 16 * s.lwb.length) := by
  have hllt : s.llt.length ≤ 64 := h.llt
  have hcache : s.cache.length ≤ 16 := h.cache
  have hlwb : s.lwb.length ≤ 4 := h.lwb
  exact readsAs_of rfl (by omega) (by omega)

theorem straps_readsAs {s : State} (h : SetupOk s) : ReadsAs 0x01#8 s (s.number.val + 256 * s.sizeCode) := by
  have hsize := h.sizeCode
  exact readsAs_of rfl (by omega) (by omega)

/-! ### The first-fault record (R177, R186) -/

/-- The record's word: the bits that carry a meaning, and a free value in those that carry none. -/
def firstFaultWord (s : State) : CtrlValue :=
  BitVec.ofNat 64 (firstFaultBits s.firstFault) ||| (Config.freeWord s.freeCount &&& firstFaultOpenBits s.firstFault)

theorem controlValue_firstFault (s : State) : controlValue 0x2A#8 s = some (firstFaultWord s) := rfl

/-- An absent field counts as 0, so it keeps within the field's width too. -/
theorem optionField_lt {α : Type} {n : Nat} (f : α → Nat) (hf : ∀ a, f a < n) (hn : 0 < n) (o : Option α) :
    (o.map f).getD 0 < n := by
  cases o with
  | none => exact hn
  | some a => exact hf a

/-- The runs of bits that R186 assigns to no field of the record, each by its first bit and its length. -/
def recordGaps : List (Nat × Nat) := [(1, 7), (12, 4), (17, 3), (25, 3), (33, 7), (62, 2)]

/-- The number holds a filled record in the fields of R186; the value of an absent field is 0. -/
structure HoldsRecord (n : Nat) (r : FaultReport) : Prop where
  filled : n / 2 ^ 0 % 2 ^ 1 = bitOf true
  kind : n / 2 ^ 8 % 2 ^ 4 = (faultPosition r.kind).val
  peerPresent : n / 2 ^ 16 % 2 ^ 1 = bitOf r.peer.isSome
  peer : n / 2 ^ 20 % 2 ^ 4 = (r.peer.map (·.val)).getD 0
  tagPresent : n / 2 ^ 24 % 2 ^ 1 = bitOf r.hostTag.isSome
  tag : n / 2 ^ 28 % 2 ^ 4 = (r.hostTag.map (·.val)).getD 0
  linePresent : n / 2 ^ 32 % 2 ^ 1 = bitOf r.line.isSome
  line : n / 2 ^ 40 % 2 ^ 22 = (r.line.map (·.toNat)).getD 0
  gaps : ∀ gap ∈ recordGaps, n / 2 ^ gap.1 % 2 ^ gap.2 = 0
  bound : n < 2 ^ 64

theorem firstFaultBits_holdsRecord (r : FaultReport) : HoldsRecord (firstFaultBits (some r)) r := by
  have hkind := (faultPosition r.kind).isLt
  have hpeer := optionField_lt (fun p : Station => p.val) (n := 16) (fun p => p.isLt) (by decide) r.peer
  have htag := optionField_lt (fun t : HostTag => t.val) (n := 16) (fun t => t.isLt) (by decide) r.hostTag
  have hline := optionField_lt (fun l : LineIndex => l.toNat) (n := 4194304) (fun l => l.isLt) (by decide) r.line
  have hpeerBit := bitOf_le r.peer.isSome
  have htagBit := bitOf_le r.hostTag.isSome
  have hlineBit := bitOf_le r.line.isSome
  have hfilled : bitOf true = 1 := rfl
  rw [firstFaultBits]
  constructor
  case gaps =>
    simp only [recordGaps, List.forall_mem_cons, List.not_mem_nil, false_implies, implies_true, and_true]
    omega
  all_goals omega

theorem firstFaultBits_gaps (o : Option FaultReport) {gap : Nat × Nat} (hgap : gap ∈ recordGaps) :
    firstFaultBits o / 2 ^ gap.1 % 2 ^ gap.2 = 0 := by
  cases o with
  | none => rw [firstFaultBits, Nat.zero_div, Nat.zero_mod]
  | some r => exact (firstFaultBits_holdsRecord r).gaps gap hgap

theorem firstFaultBits_lt (o : Option FaultReport) : firstFaultBits o < 2 ^ 64 := by
  cases o with
  | none => decide
  | some r => exact (firstFaultBits_holdsRecord r).bound

/-- No bit of the run is free to a read of the record. -/
def Meant (o : Option FaultReport) (start len : Nat) : Prop := (firstFaultOpenBits o).extractLsb' start len = 0#len

theorem meant_none : ∀ run ∈ (0, 1) :: recordGaps, Meant none run.1 run.2 := by
  unfold Meant
  decide

/-- Of a filled record, all but the values of its optional fields carries a meaning whatever it holds. -/
theorem meant_some (r : FaultReport) :
    ∀ run ∈ (0, 1) :: (8, 4) :: (16, 1) :: (24, 1) :: (32, 1) :: recordGaps, Meant (some r) run.1 run.2 := by
  simp only [Meant, firstFaultOpenBits]
  generalize r.peer.isSome = peer, r.hostTag.isSome = tag, r.line.isSome = line
  revert peer tag line
  decide

/-- The value of an optional field carries a meaning when the field is present. -/
theorem meant_present (r : FaultReport) : (r.peer.isSome = true → Meant (some r) 20 4) ∧
    (r.hostTag.isSome = true → Meant (some r) 28 4) ∧ (r.line.isSome = true → Meant (some r) 40 22) := by
  simp only [Meant, firstFaultOpenBits]
  generalize r.peer.isSome = peer, r.hostTag.isSome = tag, r.line.isSome = line
  revert peer tag line
  decide

theorem meant_gap (o : Option FaultReport) {gap : Nat × Nat} (hgap : gap ∈ recordGaps) : Meant o gap.1 gap.2 := by
  cases o with
  | none => exact meant_none gap (List.mem_cons_of_mem _ hgap)
  | some r => exact meant_some r gap (by simp only [List.mem_cons, hgap, or_true])

/-- A run of bits of meaning reads as the record's bits there. -/
theorem firstFaultWord_field {s : State} {start len : Nat} (h : Meant s.firstFault start len) :
    ((firstFaultWord s).extractLsb' start len).toNat = firstFaultBits s.firstFault / 2 ^ start % 2 ^ len := by
  rw [firstFaultWord, BitVec.extractLsb'_or, BitVec.extractLsb'_and, h, BitVec.and_zero, BitVec.or_zero,
    BitVec.extractLsb'_toNat, toNat_ofNat_lt (firstFaultBits_lt _), Nat.shiftRight_eq_div_pow]

theorem firstFaultWord_bit {s : State} {i : Nat} {b : Bool} (h : Meant s.firstFault i 1)
    (hb : firstFaultBits s.firstFault / 2 ^ i % 2 ^ 1 = bitOf b) : (firstFaultWord s).getLsbD i = b := by
  have hfield : (firstFaultWord s).extractLsb' i 1 = BitVec.ofBool b := by
    apply BitVec.eq_of_toNat_eq
    rw [firstFaultWord_field h, hb]
    cases b <;> rfl
  rw [BitVec.getLsbD_eq_extractLsb', hfield]
  cases b <;> rfl

theorem firstFaultWord_gap (s : State) {gap : Nat × Nat} (hgap : gap ∈ recordGaps) {i : Nat} (hi : gap.1 ≤ i ∧ i < gap.1 + gap.2) :
    (firstFaultWord s).getLsbD i = false := by
  have hfield : (firstFaultWord s).extractLsb' gap.1 gap.2 = 0#gap.2 := by
    apply BitVec.eq_of_toNat_eq
    rw [firstFaultWord_field (meant_gap _ hgap), firstFaultBits_gaps _ hgap, BitVec.toNat_zero]
  have hbit := congrArg (fun v => v.getLsbD (i - gap.1)) hfield
  simpa only [BitVec.getLsbD_extractLsb', BitVec.getLsbD_zero, Nat.add_sub_cancel' hi.1,
    decide_eq_true (show i - gap.1 < gap.2 by omega), Bool.true_and] using hbit

/-- A bit that no row of the record's table names lies in one of the gaps. -/
theorem exists_recordGap {i : Nat} (hi : i < 64) (h : (1 ≤ i ∧ i ≤ 7) ∨ (12 ≤ i ∧ i ≤ 15) ∨ (17 ≤ i ∧ i ≤ 19) ∨ (25 ≤ i ∧ i ≤ 27) ∨
    (33 ≤ i ∧ i ≤ 39) ∨ 62 ≤ i) : ∃ gap ∈ recordGaps, gap.1 ≤ i ∧ i < gap.1 + gap.2 := by
  simp only [recordGaps, List.exists_mem_cons_iff, List.not_mem_nil, false_and, exists_false, or_false]
  omega

theorem firstFaultWord_unassigned (s : State) (i : Fin 64) (h : (1 ≤ i.val ∧ i.val ≤ 7) ∨ (12 ≤ i.val ∧ i.val ≤ 15) ∨
    (17 ≤ i.val ∧ i.val ≤ 19) ∨ (25 ≤ i.val ∧ i.val ≤ 27) ∨ (33 ≤ i.val ∧ i.val ≤ 39) ∨ 62 ≤ i.val) :
    (firstFaultWord s).getLsbD i.val = false := by
  obtain ⟨gap, hgap, hi⟩ := exists_recordGap i.isLt h
  exact firstFaultWord_gap s hgap hi

theorem firstFaultWord_empty {s : State} (h : s.firstFault = none) : (firstFaultWord s).getLsbD 0 = false := by
  have hmeant : Meant s.firstFault 0 1 := h ▸ meant_none (0, 1) (by decide)
  exact firstFaultWord_bit hmeant (by rw [h]; rfl)

/-- The fields of a filled record as they are read (R186). -/
theorem firstFaultWord_filled {s : State} {r : FaultReport} (h : s.firstFault = some r) :
    (firstFaultWord s).getLsbD 0 = true ∧
    ((firstFaultWord s).extractLsb' 8 4).toNat = (faultPosition r.kind).val ∧
    (firstFaultWord s).getLsbD 16 = r.peer.isSome ∧
    (∀ p, r.peer = some p → ((firstFaultWord s).extractLsb' 20 4).toNat = p.val) ∧
    (firstFaultWord s).getLsbD 24 = r.hostTag.isSome ∧
    (∀ t, r.hostTag = some t → ((firstFaultWord s).extractLsb' 28 4).toNat = t.val) ∧
    (firstFaultWord s).getLsbD 32 = r.line.isSome ∧
    (∀ l, r.line = some l → (firstFaultWord s).extractLsb' 40 22 = l) := by
  have hrecord : HoldsRecord (firstFaultBits s.firstFault) r := h ▸ firstFaultBits_holdsRecord r
  have hfixed : ∀ run ∈ (0, 1) :: (8, 4) :: (16, 1) :: (24, 1) :: (32, 1) :: recordGaps, Meant s.firstFault run.1 run.2 :=
    h ▸ meant_some r
  obtain ⟨hpeer, htag, hline⟩ := meant_present r
  rw [← h] at hpeer htag hline
  refine ⟨firstFaultWord_bit (hfixed (0, 1) (by decide)) hrecord.filled,
    (firstFaultWord_field (hfixed (8, 4) (by decide))).trans hrecord.kind,
    firstFaultWord_bit (hfixed (16, 1) (by decide)) hrecord.peerPresent, fun p hp => ?_,
    firstFaultWord_bit (hfixed (24, 1) (by decide)) hrecord.tagPresent, fun t ht => ?_,
    firstFaultWord_bit (hfixed (32, 1) (by decide)) hrecord.linePresent, fun l hl => ?_⟩
  · rw [firstFaultWord_field (hpeer (Option.isSome_of_eq_some hp)), hrecord.peer, hp]
    rfl
  · rw [firstFaultWord_field (htag (Option.isSome_of_eq_some ht)), hrecord.tag, ht]
    rfl
  · apply BitVec.eq_of_toNat_eq
    rw [firstFaultWord_field (hline (Option.isSome_of_eq_some hl)), hrecord.line, hl]
    rfl

/-- Settles O30: the words in the order of the map, each as the number it reads as; the first-fault record field by field. -/
theorem controlWordValues : Obligations.ControlWordValues := by
  intro s _ hqueues hsetup hrecord hrpq horq hfill
  have hword := setupWord_readsAs hsetup
  refine ⟨rfl, straps_readsAs hsetup, station_readsAs s, readsAs_of rfl rfl (by omega), fun w hw => controlValue_unlisted hw s,
    hword .replyWait, hword .refuseLimit, hword .refuseStep, hword .urgentBudget, hword .cacheEnable, fun p => hword (.rights p),
    occupancyA_readsAs hqueues hrpq horq, occupancyB_readsAs hqueues, ⟨_, rfl, BitVec.toNat_setWidth_of_le (by decide)⟩,
    ⟨_, rfl, BitVec.toNat_setWidth_of_le (by decide)⟩, ⟨_, controlValue_firstFault s, firstFaultWord_unassigned s⟩,
    fun hnone => ⟨_, controlValue_firstFault s, firstFaultWord_empty hnone⟩,
    fun r hr => ⟨_, controlValue_firstFault s, firstFaultWord_filled hr⟩, count_readsAs hrecord⟩

end Sys2Proof.Proofs
end

section
/-! SUPPORT. The statements on one step: it runs the command at the front of the queue, and it always answers a next state. -/

-- Theorems are elaborated one after another: many at once take more threads than the memory limit allows.
set_option Elab.async false

namespace Sys2Proof.Proofs

open Sys2Proof.Machine Sys2Proof.Safety Sys2Proof.Laws

/-! ### The step with a command waiting -/

theorem step_front {c : Instr} {rest : List Instr} {s : State} (h : s.pending = c :: rest) :
    step s = exec c { s with pending := rest } := by
  simp only [step, h]

/-- Settles O1: the queue of the state is the one written into it. -/
theorem stepRunsFrontCommand : Obligations.StepRunsFrontCommand := fun _ _ _ => step_front rfl

/-! ### The step answers a next state (95, what each step holds) -/

/-- Every command that tells of the Span is an event on the Span, whose phase alone is noted while the pin is held. -/
theorem exec_spanEvent {c : Instr} (hspan : tellsPhase c = true) (s : State) : ∃ p t, exec c s = spanEvent p s t := by
  by_cases hend : Claims.endsFrame c = true
  · obtain ⟨t, e⟩ := exec_endsFrame hend s
    exact ⟨spanAfterFrame s.span, t, e⟩
  · cases c with
    | contestOpening | contestDecision => exact ⟨_, _, rfl⟩
    | _ => exact absurd hspan hend

/-- No command stops: one that moves the pin answers the state it makes, one that tells of the Span is an event on the Span, and
every other has its effect unless the pin is held; where its event cannot occur the state stays as it is (log entry 1). -/
theorem exec_next (c : Instr) (s : State) : ∃ t, exec c s = .next t := by
  by_cases hpin : movesPin c = true
  · cases c with
    | pinResetAssert => exact ⟨pinReset s, rfl⟩
    | pinResetRelease snum ssize => exact ⟨if s.pinHeld then settle s (pinRelease snum ssize s) else s, rfl⟩
    | _ => cases hpin
  · rw [Bool.not_eq_true] at hpin
    by_cases hspan : tellsPhase c = true
    · obtain ⟨p, t, e⟩ := exec_spanEvent hspan s
      exact ⟨if s.pinHeld then { s with span := p } else t, e⟩
    · obtain ⟨t, e⟩ := exec_unlessHeld hpin ((Bool.not_eq_true _).mp hspan) s
      exact ⟨if s.pinHeld then s else t, e⟩

/-- Settles O3: the queue holds a command, and no command stops, or it is empty, and the station goes on by itself (log
entry 10). -/
theorem everyStepAnswersNext : Obligations.EveryStepAnswersNext := by
  intro s
  cases hqueue : s.pending with
  | nil => exact ⟨idle s, step_idle hqueue⟩
  | cons c rest =>
    rw [step_front hqueue]
    exact exec_next c _

end Sys2Proof.Proofs
end
